-- ==== Sys2Proof/Word.lean ====
section
/-! DEFINITION. The word types of the gotos CORE (spec 00_scope.md R7, R10): 32-bit registers and addresses, 8-bit bytes, 64-bit
floating-point registers, timer value and TLB entries; and the type of a register number. -/

namespace Sys2Proof

/-- A register, an address or an instruction word: 32 bits (R7, R10). -/
abbrev Word := BitVec 32

/-- One byte of memory (20_memory.md R70). -/
abbrev Byte := BitVec 8

/-- A 64-bit value: a floating-point register, the timer value, a TLB entry (R7). -/
abbrev DWord := BitVec 64

/-- A register number `0 .. 31`: the 5-bit fields rd, rs1, rs2 name `x[0..31]` (30_encoding.md R164). -/
abbrev Reg := Fin 32

/-- A CSR address, 12 bits (10_state.md R37 (c)); a bit vector because the access check reads its bits 11:10. -/
abbrev CsrAddr := BitVec 12

/-- A list of key and value pairs that stands for a total map: a key that is not listed has the map's default value. -/
abbrev Sparse (α : Type) := List (Nat × α)

end Sys2Proof
end

