-- ==== Sys2Proof/Syntax.lean ====
section
/-! DEFINITION. The instructions of the gotos CORE: one constructor for each of the 67 rows of spec/opcode_table.json. Fields the
hardware ignores (`fm`, `pred`, `succ`, `rd`, `rs1` of FENCE, every field of FENCE.I but `funct3`, the operands of SFENCE.VMA, `aq`
and `rl`) are kept as operands, so that an instruction stands for exactly one word (log 27). -/

namespace Sys2Proof

/-- One constructor per row of spec/opcode_table.json. Immediates are the encoded ones before sign extension (30_encoding.md
R163); the offsets of branches and JAL include their implicit low bit, which is 0 in a well-formed instruction. -/
inductive Instr where
  -- U and J formats
  | lui (rd : Reg) (imm : BitVec 20)
  | auipc (rd : Reg) (imm : BitVec 20)
  | jal (rd : Reg) (off : BitVec 21)
  | jalr (rd rs1 : Reg) (imm : BitVec 12)
  -- BRANCH
  | beq (rs1 rs2 : Reg) (off : BitVec 13)
  | bne (rs1 rs2 : Reg) (off : BitVec 13)
  | blt (rs1 rs2 : Reg) (off : BitVec 13)
  | bge (rs1 rs2 : Reg) (off : BitVec 13)
  | bltu (rs1 rs2 : Reg) (off : BitVec 13)
  | bgeu (rs1 rs2 : Reg) (off : BitVec 13)
  -- LOAD
  | lb (rd rs1 : Reg) (imm : BitVec 12)
  | lh (rd rs1 : Reg) (imm : BitVec 12)
  | lw (rd rs1 : Reg) (imm : BitVec 12)
  | lbu (rd rs1 : Reg) (imm : BitVec 12)
  | lhu (rd rs1 : Reg) (imm : BitVec 12)
  -- STORE
  | sb (rs1 rs2 : Reg) (imm : BitVec 12)
  | sh (rs1 rs2 : Reg) (imm : BitVec 12)
  | sw (rs1 rs2 : Reg) (imm : BitVec 12)
  -- OP-IMM
  | addi (rd rs1 : Reg) (imm : BitVec 12)
  | slti (rd rs1 : Reg) (imm : BitVec 12)
  | sltiu (rd rs1 : Reg) (imm : BitVec 12)
  | xori (rd rs1 : Reg) (imm : BitVec 12)
  | ori (rd rs1 : Reg) (imm : BitVec 12)
  | andi (rd rs1 : Reg) (imm : BitVec 12)
  | slli (rd rs1 : Reg) (shamt : Fin 32)
  | srli (rd rs1 : Reg) (shamt : Fin 32)
  | srai (rd rs1 : Reg) (shamt : Fin 32)
  -- OP
  | add (rd rs1 rs2 : Reg)
  | sub (rd rs1 rs2 : Reg)
  | sll (rd rs1 rs2 : Reg)
  | slt (rd rs1 rs2 : Reg)
  | sltu (rd rs1 rs2 : Reg)
  | xor (rd rs1 rs2 : Reg)
  | srl (rd rs1 rs2 : Reg)
  | sra (rd rs1 rs2 : Reg)
  | or (rd rs1 rs2 : Reg)
  | and (rd rs1 rs2 : Reg)
  -- OP, M extension
  | mul (rd rs1 rs2 : Reg)
  | mulh (rd rs1 rs2 : Reg)
  | mulhsu (rd rs1 rs2 : Reg)
  | mulhu (rd rs1 rs2 : Reg)
  | div (rd rs1 rs2 : Reg)
  | divu (rd rs1 rs2 : Reg)
  | rem (rd rs1 rs2 : Reg)
  | remu (rd rs1 rs2 : Reg)
  -- MISC-MEM
  | fence (rd rs1 : Reg) (fm pred succ : BitVec 4)
  | fenceI (rd rs1 : Reg) (imm : BitVec 12)
  -- SYSTEM
  | ecall
  | ebreak
  | csrrw (rd rs1 : Reg) (csr : CsrAddr)
  | csrrs (rd rs1 : Reg) (csr : CsrAddr)
  | csrrc (rd rs1 : Reg) (csr : CsrAddr)
  | csrrwi (rd : Reg) (uimm : BitVec 5) (csr : CsrAddr)
  | csrrsi (rd : Reg) (uimm : BitVec 5) (csr : CsrAddr)
  | csrrci (rd : Reg) (uimm : BitVec 5) (csr : CsrAddr)
  | sfenceVma (rs1 rs2 : Reg)
  -- AMO
  | lrW (rd rs1 : Reg) (aq rl : Bool)
  | scW (rd rs1 rs2 : Reg) (aq rl : Bool)
  | amoswapW (rd rs1 rs2 : Reg) (aq rl : Bool)
  | amoaddW (rd rs1 rs2 : Reg) (aq rl : Bool)
  | amoxorW (rd rs1 rs2 : Reg) (aq rl : Bool)
  | amoandW (rd rs1 rs2 : Reg) (aq rl : Bool)
  | amoorW (rd rs1 rs2 : Reg) (aq rl : Bool)
  | amominW (rd rs1 rs2 : Reg) (aq rl : Bool)
  | amomaxW (rd rs1 rs2 : Reg) (aq rl : Bool)
  | amominuW (rd rs1 rs2 : Reg) (aq rl : Bool)
  | amomaxuW (rd rs1 rs2 : Reg) (aq rl : Bool)
deriving DecidableEq, Repr

end Sys2Proof
end

