-- ==== Sys2Proof/WellFormed.lean ====
section
/-! DEFINITION. Which terms of Instr are instructions of the hardware. Every field has exactly the width its encoding gives it, so
one check is left: the offset of a branch and of JAL is even (30_encoding.md R163: its bit 0 is not encoded and is 0). -/

namespace Sys2Proof

/-- Bit 0 of an offset is 0 (R163: "always even"). -/
def evenOffset {w : Nat} (off : BitVec w) : Bool := !off.getLsbD 0

/-- The instruction is one a word can encode. -/
def WellFormed (i : Instr) : Bool :=
  match i with
  | .lui _ _ => true
  | .auipc _ _ => true
  | .jal _ off => evenOffset off
  | .jalr _ _ _ => true
  | .beq _ _ off => evenOffset off
  | .bne _ _ off => evenOffset off
  | .blt _ _ off => evenOffset off
  | .bge _ _ off => evenOffset off
  | .bltu _ _ off => evenOffset off
  | .bgeu _ _ off => evenOffset off
  | .lb _ _ _ => true
  | .lh _ _ _ => true
  | .lw _ _ _ => true
  | .lbu _ _ _ => true
  | .lhu _ _ _ => true
  | .sb _ _ _ => true
  | .sh _ _ _ => true
  | .sw _ _ _ => true
  | .addi _ _ _ => true
  | .slti _ _ _ => true
  | .sltiu _ _ _ => true
  | .xori _ _ _ => true
  | .ori _ _ _ => true
  | .andi _ _ _ => true
  | .slli _ _ _ => true
  | .srli _ _ _ => true
  | .srai _ _ _ => true
  | .add _ _ _ => true
  | .sub _ _ _ => true
  | .sll _ _ _ => true
  | .slt _ _ _ => true
  | .sltu _ _ _ => true
  | .xor _ _ _ => true
  | .srl _ _ _ => true
  | .sra _ _ _ => true
  | .or _ _ _ => true
  | .and _ _ _ => true
  | .mul _ _ _ => true
  | .mulh _ _ _ => true
  | .mulhsu _ _ _ => true
  | .mulhu _ _ _ => true
  | .div _ _ _ => true
  | .divu _ _ _ => true
  | .rem _ _ _ => true
  | .remu _ _ _ => true
  | .fence _ _ _ _ _ => true
  | .fenceI _ _ _ => true
  | .ecall => true
  | .ebreak => true
  | .csrrw _ _ _ => true
  | .csrrs _ _ _ => true
  | .csrrc _ _ _ => true
  | .csrrwi _ _ _ => true
  | .csrrsi _ _ _ => true
  | .csrrci _ _ _ => true
  | .sfenceVma _ _ => true
  | .lrW _ _ _ _ => true
  | .scW _ _ _ _ _ => true
  | .amoswapW _ _ _ _ _ => true
  | .amoaddW _ _ _ _ _ => true
  | .amoxorW _ _ _ _ _ => true
  | .amoandW _ _ _ _ _ => true
  | .amoorW _ _ _ _ _ => true
  | .amominW _ _ _ _ _ => true
  | .amomaxW _ _ _ _ _ => true
  | .amominuW _ _ _ _ _ => true
  | .amomaxuW _ _ _ _ _ => true

end Sys2Proof
end

