-- ==== Sys2Proof/Decode.lean ====
section
/-! DEFINITION. Decoding and encoding of instruction words, from spec 30_encoding.md. The decoder is total: every 32-bit word is an
instruction, or is rejected by name as illegal (R177), unsupported (R178) or floating point (R176). It reads the word only, in the
order of R180: major opcode, then funct3, then funct7, funct5 or the exact word. -/

namespace Sys2Proof

/-! ## Fields (R12, R161, R162) -/

/-- The register a 5-bit field names (R164). -/
def regOf (b : BitVec 5) : Reg := ⟨b.toNat, b.isLt⟩

/-- The 5-bit field that names a register. -/
def regBits (r : Reg) : BitVec 5 := BitVec.ofNat 5 r.val

/-- The shift amount a 5-bit field holds, `0 .. 31` (R164). -/
def shamtOf (b : BitVec 5) : Fin 32 := ⟨b.toNat, b.isLt⟩

/-- `inst[6:0]`. -/
def opcode (w : Word) : BitVec 7 := w.extractLsb' 0 7
/-- `inst[11:7]`. -/
def fieldRd (w : Word) : BitVec 5 := w.extractLsb' 7 5
/-- `inst[14:12]`. -/
def funct3 (w : Word) : BitVec 3 := w.extractLsb' 12 3
/-- `inst[19:15]`: rs1, or uimm in the CSR immediate forms. -/
def fieldRs1 (w : Word) : BitVec 5 := w.extractLsb' 15 5
/-- `inst[24:20]`: rs2, or shamt. -/
def fieldRs2 (w : Word) : BitVec 5 := w.extractLsb' 20 5
/-- `inst[31:25]`. -/
def funct7 (w : Word) : BitVec 7 := w.extractLsb' 25 7
/-- `inst[31:27]` of an AMO word. -/
def funct5 (w : Word) : BitVec 5 := w.extractLsb' 27 5
/-- `inst[26]` of an AMO word. -/
def fieldAq (w : Word) : Bool := w.getLsbD 26
/-- `inst[25]` of an AMO word. -/
def fieldRl (w : Word) : Bool := w.getLsbD 25
/-- `inst[31:20]`: the immediate of the I format, or the CSR address. -/
def immI (w : Word) : BitVec 12 := w.extractLsb' 20 12
/-- `{inst[31:25], inst[11:7]}` (R163). -/
def immS (w : Word) : BitVec 12 := w.extractLsb' 25 7 ++ w.extractLsb' 7 5
/-- `{inst[31], inst[7], inst[30:25], inst[11:8], 0}` (R163). -/
def immB (w : Word) : BitVec 13 :=
  w.extractLsb' 31 1 ++ w.extractLsb' 7 1 ++ w.extractLsb' 25 6 ++ w.extractLsb' 8 4 ++ 0#1
/-- `inst[31:12]` (R161). -/
def immU (w : Word) : BitVec 20 := w.extractLsb' 12 20
/-- `{inst[31], inst[19:12], inst[20], inst[30:21], 0}` (R163). -/
def immJ (w : Word) : BitVec 21 :=
  w.extractLsb' 31 1 ++ w.extractLsb' 12 8 ++ w.extractLsb' 20 1 ++ w.extractLsb' 21 10 ++ 0#1

/-! ## Decoding -/

/-- The outcome of decoding a word (R180). -/
inductive Decoded where
  /-- An instruction of spec/opcode_table.json. -/
  | instr (i : Instr)
  /-- No instruction, within a supported major opcode: IllegalInstruction (R177). -/
  | illegal
  /-- An unsupported major opcode: Abort (R178). -/
  | unsupported
  /-- A floating-point major opcode: the spec gives it no behaviour (R176). -/
  | floatingPoint
deriving DecidableEq, Repr

/-- LOAD, by funct3 (R171). -/
def decodeLoad (w : Word) : Decoded :=
  let rd := regOf (fieldRd w); let rs1 := regOf (fieldRs1 w)
  if funct3 w = 0b000#3 then .instr (.lb rd rs1 (immI w))
  else if funct3 w = 0b001#3 then .instr (.lh rd rs1 (immI w))
  else if funct3 w = 0b010#3 then .instr (.lw rd rs1 (immI w))
  else if funct3 w = 0b100#3 then .instr (.lbu rd rs1 (immI w))
  else if funct3 w = 0b101#3 then .instr (.lhu rd rs1 (immI w))
  else .illegal

/-- STORE, by funct3 (R172). -/
def decodeStore (w : Word) : Decoded :=
  let rs1 := regOf (fieldRs1 w); let rs2 := regOf (fieldRs2 w)
  if funct3 w = 0b000#3 then .instr (.sb rs1 rs2 (immS w))
  else if funct3 w = 0b001#3 then .instr (.sh rs1 rs2 (immS w))
  else if funct3 w = 0b010#3 then .instr (.sw rs1 rs2 (immS w))
  else .illegal

/-- BRANCH, by funct3 (R170). -/
def decodeBranch (w : Word) : Decoded :=
  let rs1 := regOf (fieldRs1 w); let rs2 := regOf (fieldRs2 w)
  if funct3 w = 0b000#3 then .instr (.beq rs1 rs2 (immB w))
  else if funct3 w = 0b001#3 then .instr (.bne rs1 rs2 (immB w))
  else if funct3 w = 0b100#3 then .instr (.blt rs1 rs2 (immB w))
  else if funct3 w = 0b101#3 then .instr (.bge rs1 rs2 (immB w))
  else if funct3 w = 0b110#3 then .instr (.bltu rs1 rs2 (immB w))
  else if funct3 w = 0b111#3 then .instr (.bgeu rs1 rs2 (immB w))
  else .illegal

/-- OP-IMM, by funct3, the shifts by `inst[31:25]` too (R166). -/
def decodeOpImm (w : Word) : Decoded :=
  let rd := regOf (fieldRd w); let rs1 := regOf (fieldRs1 w); let sh := shamtOf (fieldRs2 w)
  if funct3 w = 0b000#3 then .instr (.addi rd rs1 (immI w))
  else if funct3 w = 0b010#3 then .instr (.slti rd rs1 (immI w))
  else if funct3 w = 0b011#3 then .instr (.sltiu rd rs1 (immI w))
  else if funct3 w = 0b100#3 then .instr (.xori rd rs1 (immI w))
  else if funct3 w = 0b110#3 then .instr (.ori rd rs1 (immI w))
  else if funct3 w = 0b111#3 then .instr (.andi rd rs1 (immI w))
  else if funct3 w = 0b001#3 then
    if funct7 w = 0b0000000#7 then .instr (.slli rd rs1 sh) else .illegal
  else if funct7 w = 0b0000000#7 then .instr (.srli rd rs1 sh)
  else if funct7 w = 0b0100000#7 then .instr (.srai rd rs1 sh)
  else .illegal

/-- OP, by funct7 and funct3 (R167). -/
def decodeOp (w : Word) : Decoded :=
  let rd := regOf (fieldRd w); let rs1 := regOf (fieldRs1 w); let rs2 := regOf (fieldRs2 w)
  if funct7 w = 0b0000000#7 then
    if funct3 w = 0b000#3 then .instr (.add rd rs1 rs2)
    else if funct3 w = 0b001#3 then .instr (.sll rd rs1 rs2)
    else if funct3 w = 0b010#3 then .instr (.slt rd rs1 rs2)
    else if funct3 w = 0b011#3 then .instr (.sltu rd rs1 rs2)
    else if funct3 w = 0b100#3 then .instr (.xor rd rs1 rs2)
    else if funct3 w = 0b101#3 then .instr (.srl rd rs1 rs2)
    else if funct3 w = 0b110#3 then .instr (.or rd rs1 rs2)
    else .instr (.and rd rs1 rs2)
  else if funct7 w = 0b0100000#7 then
    if funct3 w = 0b000#3 then .instr (.sub rd rs1 rs2)
    else if funct3 w = 0b101#3 then .instr (.sra rd rs1 rs2)
    else .illegal
  else if funct7 w = 0b0000001#7 then
    if funct3 w = 0b000#3 then .instr (.mul rd rs1 rs2)
    else if funct3 w = 0b001#3 then .instr (.mulh rd rs1 rs2)
    else if funct3 w = 0b010#3 then .instr (.mulhsu rd rs1 rs2)
    else if funct3 w = 0b011#3 then .instr (.mulhu rd rs1 rs2)
    else if funct3 w = 0b100#3 then .instr (.div rd rs1 rs2)
    else if funct3 w = 0b101#3 then .instr (.divu rd rs1 rs2)
    else if funct3 w = 0b110#3 then .instr (.rem rd rs1 rs2)
    else .instr (.remu rd rs1 rs2)
  else .illegal

/-- MISC-MEM, by funct3; every other field is ignored by the hardware (R173). -/
def decodeMiscMem (w : Word) : Decoded :=
  let rd := regOf (fieldRd w); let rs1 := regOf (fieldRs1 w)
  if funct3 w = 0b000#3 then
    .instr (.fence rd rs1 (w.extractLsb' 28 4) (w.extractLsb' 24 4) (w.extractLsb' 20 4))
  else if funct3 w = 0b001#3 then .instr (.fenceI rd rs1 (immI w))
  else .illegal

/-- SYSTEM (R174): MRET, SRET, URET, WFI and every other funct3 = 000 word that is not listed are illegal (R276). -/
def decodeSystem (w : Word) : Decoded :=
  let rd := regOf (fieldRd w); let rs1 := regOf (fieldRs1 w)
  if funct3 w = 0b000#3 then
    if w = 0x00000073#32 then .instr .ecall
    else if w = 0x00100073#32 then .instr .ebreak
    else if funct7 w = 0b0001001#7 ∧ fieldRd w = 0b00000#5 then .instr (.sfenceVma rs1 (regOf (fieldRs2 w)))
    else .illegal
  else if funct3 w = 0b001#3 then .instr (.csrrw rd rs1 (immI w))
  else if funct3 w = 0b010#3 then .instr (.csrrs rd rs1 (immI w))
  else if funct3 w = 0b011#3 then .instr (.csrrc rd rs1 (immI w))
  else if funct3 w = 0b101#3 then .instr (.csrrwi rd (fieldRs1 w) (immI w))
  else if funct3 w = 0b110#3 then .instr (.csrrsi rd (fieldRs1 w) (immI w))
  else if funct3 w = 0b111#3 then .instr (.csrrci rd (fieldRs1 w) (immI w))
  else .illegal

/-- AMO, by funct5 (R175). -/
def decodeAmo (w : Word) : Decoded :=
  let rd := regOf (fieldRd w); let rs1 := regOf (fieldRs1 w); let rs2 := regOf (fieldRs2 w)
  let aq := fieldAq w; let rl := fieldRl w
  if funct3 w = 0b010#3 then
    if funct5 w = 0b00010#5 then
      if fieldRs2 w = 0b00000#5 then .instr (.lrW rd rs1 aq rl) else .illegal
    else if funct5 w = 0b00011#5 then .instr (.scW rd rs1 rs2 aq rl)
    else if funct5 w = 0b00001#5 then .instr (.amoswapW rd rs1 rs2 aq rl)
    else if funct5 w = 0b00000#5 then .instr (.amoaddW rd rs1 rs2 aq rl)
    else if funct5 w = 0b00100#5 then .instr (.amoxorW rd rs1 rs2 aq rl)
    else if funct5 w = 0b01100#5 then .instr (.amoandW rd rs1 rs2 aq rl)
    else if funct5 w = 0b01000#5 then .instr (.amoorW rd rs1 rs2 aq rl)
    else if funct5 w = 0b10000#5 then .instr (.amominW rd rs1 rs2 aq rl)
    else if funct5 w = 0b10100#5 then .instr (.amomaxW rd rs1 rs2 aq rl)
    else if funct5 w = 0b11000#5 then .instr (.amominuW rd rs1 rs2 aq rl)
    else if funct5 w = 0b11100#5 then .instr (.amomaxuW rd rs1 rs2 aq rl)
    else .illegal
  else .illegal

/-- JALR: funct3 is 000 (R169). -/
def decodeJalr (w : Word) : Decoded :=
  if funct3 w = 0b000#3 then .instr (.jalr (regOf (fieldRd w)) (regOf (fieldRs1 w)) (immI w)) else .illegal

/-- The twelve supported major opcodes (R165). -/
def supportedOpcodes : List (BitVec 7) :=
  [0x03#7, 0x0F#7, 0x13#7, 0x17#7, 0x23#7, 0x2F#7, 0x33#7, 0x37#7, 0x63#7, 0x67#7, 0x6F#7, 0x73#7]

/-- The seven floating-point major opcodes (R176). -/
def floatingPointOpcodes : List (BitVec 7) := [0x07#7, 0x27#7, 0x43#7, 0x47#7, 0x4B#7, 0x4F#7, 0x53#7]

/-- Decode a word: the major opcode first (R165, R168, R176, R178, R180). -/
def decode (w : Word) : Decoded :=
  if opcode w = 0x03#7 then decodeLoad w
  else if opcode w = 0x0F#7 then decodeMiscMem w
  else if opcode w = 0x13#7 then decodeOpImm w
  else if opcode w = 0x17#7 then .instr (.auipc (regOf (fieldRd w)) (immU w))
  else if opcode w = 0x23#7 then decodeStore w
  else if opcode w = 0x2F#7 then decodeAmo w
  else if opcode w = 0x33#7 then decodeOp w
  else if opcode w = 0x37#7 then .instr (.lui (regOf (fieldRd w)) (immU w))
  else if opcode w = 0x63#7 then decodeBranch w
  else if opcode w = 0x67#7 then decodeJalr w
  else if opcode w = 0x6F#7 then .instr (.jal (regOf (fieldRd w)) (immJ w))
  else if opcode w = 0x73#7 then decodeSystem w
  else if floatingPointOpcodes.contains (opcode w) then .floatingPoint
  else .unsupported

/-- The outcome of decoding the front of a byte list. -/
inductive DecodedBytes where
  /-- Fewer than four bytes: no instruction is that short (R160). -/
  | tooShort
  /-- The word of the first four bytes, and the bytes after it. -/
  | word (d : Decoded) (rest : List Byte)
deriving DecidableEq, Repr

/-- An instruction word is four bytes, the lowest address first and least significant (R160; 20_memory.md R75). -/
def decodeBytes : List Byte → DecodedBytes
  | b0 :: b1 :: b2 :: b3 :: rest => .word (decode (b3 ++ b2 ++ b1 ++ b0)) rest
  | _ => .tooShort

/-- The instruction the decoder reads from a table word: its bits above `nbits` are 0, its bytes lie in memory order. -/
def decodeTableWord (nbits w : Nat) : Option Instr :=
  let v : Word := BitVec.ofNat 32 (w % 2 ^ nbits)
  match decodeBytes [v.extractLsb' 0 8, v.extractLsb' 8 8, v.extractLsb' 16 8, v.extractLsb' 24 8] with
  | .word (.instr i) _ => some i
  | _ => none

/-! ## Encoding (R161, R162) -/

/-- R format, and every format that is laid out like it. -/
def encR (f7 : BitVec 7) (rs2 rs1 : BitVec 5) (f3 : BitVec 3) (rd : BitVec 5) (op : BitVec 7) : Word :=
  f7 ++ rs2 ++ rs1 ++ f3 ++ rd ++ op

/-- I format. -/
def encI (imm : BitVec 12) (rs1 : BitVec 5) (f3 : BitVec 3) (rd : BitVec 5) (op : BitVec 7) : Word :=
  imm ++ rs1 ++ f3 ++ rd ++ op

/-- S format: the immediate in two parts. -/
def encS (imm : BitVec 12) (rs2 rs1 : BitVec 5) (f3 : BitVec 3) (op : BitVec 7) : Word :=
  encR (imm.extractLsb' 5 7) rs2 rs1 f3 (imm.extractLsb' 0 5) op

/-- B format: `inst[31] = off[12]`, `inst[30:25] = off[10:5]`, `inst[11:8] = off[4:1]`, `inst[7] = off[11]`. -/
def encB (off : BitVec 13) (rs2 rs1 : BitVec 5) (f3 : BitVec 3) (op : BitVec 7) : Word :=
  encR (off.extractLsb' 12 1 ++ off.extractLsb' 5 6) rs2 rs1 f3 (off.extractLsb' 1 4 ++ off.extractLsb' 11 1) op

/-- U format. -/
def encU (imm : BitVec 20) (rd : BitVec 5) (op : BitVec 7) : Word := imm ++ rd ++ op

/-- J format: `inst[31] = off[20]`, `inst[30:21] = off[10:1]`, `inst[20] = off[11]`, `inst[19:12] = off[19:12]`. -/
def encJ (off : BitVec 21) (rd : BitVec 5) (op : BitVec 7) : Word :=
  encU (off.extractLsb' 20 1 ++ off.extractLsb' 1 10 ++ off.extractLsb' 11 1 ++ off.extractLsb' 12 8) rd op

/-- AMO: R format with `inst[31:27] = funct5`, `inst[26] = aq`, `inst[25] = rl`. -/
def encAmo (f5 : BitVec 5) (aq rl : Bool) (rs2 rs1 rd : BitVec 5) : Word :=
  encR (f5 ++ BitVec.ofBool aq ++ BitVec.ofBool rl) rs2 rs1 0b010#3 rd 0x2F#7

/-- The word of an instruction, from the encoding tables R165 to R175. -/
def encode (i : Instr) : Word :=
  match i with
  | .lui rd imm => encU imm (regBits rd) 0x37#7
  | .auipc rd imm => encU imm (regBits rd) 0x17#7
  | .jal rd off => encJ off (regBits rd) 0x6F#7
  | .jalr rd rs1 imm => encI imm (regBits rs1) 0b000#3 (regBits rd) 0x67#7
  | .beq rs1 rs2 off => encB off (regBits rs2) (regBits rs1) 0b000#3 0x63#7
  | .bne rs1 rs2 off => encB off (regBits rs2) (regBits rs1) 0b001#3 0x63#7
  | .blt rs1 rs2 off => encB off (regBits rs2) (regBits rs1) 0b100#3 0x63#7
  | .bge rs1 rs2 off => encB off (regBits rs2) (regBits rs1) 0b101#3 0x63#7
  | .bltu rs1 rs2 off => encB off (regBits rs2) (regBits rs1) 0b110#3 0x63#7
  | .bgeu rs1 rs2 off => encB off (regBits rs2) (regBits rs1) 0b111#3 0x63#7
  | .lb rd rs1 imm => encI imm (regBits rs1) 0b000#3 (regBits rd) 0x03#7
  | .lh rd rs1 imm => encI imm (regBits rs1) 0b001#3 (regBits rd) 0x03#7
  | .lw rd rs1 imm => encI imm (regBits rs1) 0b010#3 (regBits rd) 0x03#7
  | .lbu rd rs1 imm => encI imm (regBits rs1) 0b100#3 (regBits rd) 0x03#7
  | .lhu rd rs1 imm => encI imm (regBits rs1) 0b101#3 (regBits rd) 0x03#7
  | .sb rs1 rs2 imm => encS imm (regBits rs2) (regBits rs1) 0b000#3 0x23#7
  | .sh rs1 rs2 imm => encS imm (regBits rs2) (regBits rs1) 0b001#3 0x23#7
  | .sw rs1 rs2 imm => encS imm (regBits rs2) (regBits rs1) 0b010#3 0x23#7
  | .addi rd rs1 imm => encI imm (regBits rs1) 0b000#3 (regBits rd) 0x13#7
  | .slti rd rs1 imm => encI imm (regBits rs1) 0b010#3 (regBits rd) 0x13#7
  | .sltiu rd rs1 imm => encI imm (regBits rs1) 0b011#3 (regBits rd) 0x13#7
  | .xori rd rs1 imm => encI imm (regBits rs1) 0b100#3 (regBits rd) 0x13#7
  | .ori rd rs1 imm => encI imm (regBits rs1) 0b110#3 (regBits rd) 0x13#7
  | .andi rd rs1 imm => encI imm (regBits rs1) 0b111#3 (regBits rd) 0x13#7
  | .slli rd rs1 sh => encR 0b0000000#7 (regBits sh) (regBits rs1) 0b001#3 (regBits rd) 0x13#7
  | .srli rd rs1 sh => encR 0b0000000#7 (regBits sh) (regBits rs1) 0b101#3 (regBits rd) 0x13#7
  | .srai rd rs1 sh => encR 0b0100000#7 (regBits sh) (regBits rs1) 0b101#3 (regBits rd) 0x13#7
  | .add rd rs1 rs2 => encR 0b0000000#7 (regBits rs2) (regBits rs1) 0b000#3 (regBits rd) 0x33#7
  | .sub rd rs1 rs2 => encR 0b0100000#7 (regBits rs2) (regBits rs1) 0b000#3 (regBits rd) 0x33#7
  | .sll rd rs1 rs2 => encR 0b0000000#7 (regBits rs2) (regBits rs1) 0b001#3 (regBits rd) 0x33#7
  | .slt rd rs1 rs2 => encR 0b0000000#7 (regBits rs2) (regBits rs1) 0b010#3 (regBits rd) 0x33#7
  | .sltu rd rs1 rs2 => encR 0b0000000#7 (regBits rs2) (regBits rs1) 0b011#3 (regBits rd) 0x33#7
  | .xor rd rs1 rs2 => encR 0b0000000#7 (regBits rs2) (regBits rs1) 0b100#3 (regBits rd) 0x33#7
  | .srl rd rs1 rs2 => encR 0b0000000#7 (regBits rs2) (regBits rs1) 0b101#3 (regBits rd) 0x33#7
  | .sra rd rs1 rs2 => encR 0b0100000#7 (regBits rs2) (regBits rs1) 0b101#3 (regBits rd) 0x33#7
  | .or rd rs1 rs2 => encR 0b0000000#7 (regBits rs2) (regBits rs1) 0b110#3 (regBits rd) 0x33#7
  | .and rd rs1 rs2 => encR 0b0000000#7 (regBits rs2) (regBits rs1) 0b111#3 (regBits rd) 0x33#7
  | .mul rd rs1 rs2 => encR 0b0000001#7 (regBits rs2) (regBits rs1) 0b000#3 (regBits rd) 0x33#7
  | .mulh rd rs1 rs2 => encR 0b0000001#7 (regBits rs2) (regBits rs1) 0b001#3 (regBits rd) 0x33#7
  | .mulhsu rd rs1 rs2 => encR 0b0000001#7 (regBits rs2) (regBits rs1) 0b010#3 (regBits rd) 0x33#7
  | .mulhu rd rs1 rs2 => encR 0b0000001#7 (regBits rs2) (regBits rs1) 0b011#3 (regBits rd) 0x33#7
  | .div rd rs1 rs2 => encR 0b0000001#7 (regBits rs2) (regBits rs1) 0b100#3 (regBits rd) 0x33#7
  | .divu rd rs1 rs2 => encR 0b0000001#7 (regBits rs2) (regBits rs1) 0b101#3 (regBits rd) 0x33#7
  | .rem rd rs1 rs2 => encR 0b0000001#7 (regBits rs2) (regBits rs1) 0b110#3 (regBits rd) 0x33#7
  | .remu rd rs1 rs2 => encR 0b0000001#7 (regBits rs2) (regBits rs1) 0b111#3 (regBits rd) 0x33#7
  | .fence rd rs1 fm pred succ => encI (fm ++ pred ++ succ) (regBits rs1) 0b000#3 (regBits rd) 0x0F#7
  | .fenceI rd rs1 imm => encI imm (regBits rs1) 0b001#3 (regBits rd) 0x0F#7
  | .ecall => 0x00000073#32
  | .ebreak => 0x00100073#32
  | .csrrw rd rs1 csr => encI csr (regBits rs1) 0b001#3 (regBits rd) 0x73#7
  | .csrrs rd rs1 csr => encI csr (regBits rs1) 0b010#3 (regBits rd) 0x73#7
  | .csrrc rd rs1 csr => encI csr (regBits rs1) 0b011#3 (regBits rd) 0x73#7
  | .csrrwi rd uimm csr => encI csr uimm 0b101#3 (regBits rd) 0x73#7
  | .csrrsi rd uimm csr => encI csr uimm 0b110#3 (regBits rd) 0x73#7
  | .csrrci rd uimm csr => encI csr uimm 0b111#3 (regBits rd) 0x73#7
  | .sfenceVma rs1 rs2 => encR 0b0001001#7 (regBits rs2) (regBits rs1) 0b000#3 0b00000#5 0x73#7
  | .lrW rd rs1 aq rl => encAmo 0b00010#5 aq rl 0b00000#5 (regBits rs1) (regBits rd)
  | .scW rd rs1 rs2 aq rl => encAmo 0b00011#5 aq rl (regBits rs2) (regBits rs1) (regBits rd)
  | .amoswapW rd rs1 rs2 aq rl => encAmo 0b00001#5 aq rl (regBits rs2) (regBits rs1) (regBits rd)
  | .amoaddW rd rs1 rs2 aq rl => encAmo 0b00000#5 aq rl (regBits rs2) (regBits rs1) (regBits rd)
  | .amoxorW rd rs1 rs2 aq rl => encAmo 0b00100#5 aq rl (regBits rs2) (regBits rs1) (regBits rd)
  | .amoandW rd rs1 rs2 aq rl => encAmo 0b01100#5 aq rl (regBits rs2) (regBits rs1) (regBits rd)
  | .amoorW rd rs1 rs2 aq rl => encAmo 0b01000#5 aq rl (regBits rs2) (regBits rs1) (regBits rd)
  | .amominW rd rs1 rs2 aq rl => encAmo 0b10000#5 aq rl (regBits rs2) (regBits rs1) (regBits rd)
  | .amomaxW rd rs1 rs2 aq rl => encAmo 0b10100#5 aq rl (regBits rs2) (regBits rs1) (regBits rd)
  | .amominuW rd rs1 rs2 aq rl => encAmo 0b11000#5 aq rl (regBits rs2) (regBits rs1) (regBits rd)
  | .amomaxuW rd rs1 rs2 aq rl => encAmo 0b11100#5 aq rl (regBits rs2) (regBits rs1) (regBits rd)

end Sys2Proof
end

