-- ==== Sys2Proof/Config.lean ====
section
/-! DEFINITION. The parameters of the hardware (spec 00_scope.md R8, R9), as one plain record that State holds and no step writes,
and the free values (the spec's `draw`s): constants without a body, so that no proof can rest on what they are. -/

namespace Sys2Proof

/-- The named parameters of 00_scope.md R8. A claim about every state is a claim about every configuration (log 9). -/
structure Config where
  /-- `N`, the number of harts; index `N` is the system in the IPI matrix. -/
  hartCount : Nat
  /-- `k` of `MEM_SIZE = 2^k * 2^20` (R8, decision D35). -/
  memLog2 : Nat
  /-- `log2(L)`, `L` the cache line length in bytes. -/
  lineLog2 : Nat
  /-- `C`, line slots of one cache. -/
  cacheSlots : Nat
  /-- `TLB_SIZE`, slots of one TLB. -/
  tlbSize : Nat
  /-- `D`, the TLB's probe depth. -/
  tlbDepth : Nat
  /-- `K`, steps between two IPI polls. -/
  pollInterval : Nat
  /-- `IPI_ENABLE`. -/
  ipiEnable : Bool
  /-- `CACHE_ENABLE`. -/
  cacheEnable : Bool
  /-- `CSR_SUPPORTED`, the addresses whose write does not trap as unsupported. -/
  csrSupported : List CsrAddr
  /-- `RES_MATCH(a, r)` beyond the equality `a = r`: the further pairs (store address, reserved address) that match (log 10). -/
  resMatchExtra : List (Word × Word)
deriving DecidableEq, Repr

namespace Config

/-- `MEM_SIZE` in bytes (R8): a power-of-two number of MiB. -/
def memSize (c : Config) : Nat := 2 ^ (20 + c.memLog2)

/-- `L` in bytes, a power of two (R8, R9). -/
def lineSize (c : Config) : Nat := 2 ^ c.lineLog2

/-- The constraints of 00_scope.md R8 and R9: `N >= 1`, `MEM_SIZE <= 2^32`, `L >= 4`, `L` divides `MEM_SIZE`, `C >= 1`,
`TLB_SIZE >= D`, `K >= 1`; and `D >= 1`, because a table probed nowhere has no primary slot (20_memory.md R102). -/
def wf (c : Config) : Bool :=
  decide (1 ≤ c.hartCount) && decide (c.memLog2 ≤ 12) && decide (2 ≤ c.lineLog2) && decide (c.lineLog2 ≤ 20 + c.memLog2)
    && decide (1 ≤ c.cacheSlots) && decide (1 ≤ c.tlbDepth) && decide (c.tlbDepth ≤ c.tlbSize) && decide (1 ≤ c.pollInterval)

/-- The named CSRs of 10_state.md R41, the default of `CSR_SUPPORTED` (decision D9). -/
def namedCsrs : List CsrAddr := [0x003#12, 0x180#12, 0x300#12, 0x341#12, 0x342#12, 0x343#12, 0xF14#12]

/-- The configuration of `State.reset`: the spec's defaults (R8); `N = 2`, `MEM_SIZE = 2^20` and `C = 64` have no default there.
DESIGN CHOICE (log 8). -/
def atReset : Config :=
  { hartCount := 2, memLog2 := 0, lineLog2 := 6, cacheSlots := 64, tlbSize := 256, tlbDepth := 2, pollInterval := 100,
    ipiEnable := true, cacheEnable := true, csrSupported := namedCsrs, resMatchExtra := [] }

/-- The `n`-th free 32-bit value: what the spec leaves in `MTVAL` after a trap with no `MTVAL` rule (60_exceptions.md R315, U1).
No body, so nothing is known of it (log 1). -/
opaque freeWord : Nat → Word

/-- The `n`-th free natural number: the victim slot of a full cache is this number modulo `C` (20_memory.md R86, U3; log 2). -/
opaque freeNat : Nat → Nat

end Config

end Sys2Proof
end

