-- ==== Sys2Proof/Machine/State.lean ====
section
/-! DEFINITION. The state of the gotos CORE (spec 10_state.md R20-R50, R55): `N` harts, the shared memory, reservations and IPI
matrix, the parameters, and the model's own fields (free-value counter, inputs and outputs of the Host). Plain data throughout. -/

namespace Sys2Proof.Machine

/-! ## Parts of a hart -/

/-- The lifecycle state of a hart (R31; 60_exceptions.md R345). -/
inductive Life where
  | stopped | running | stopping | nopLoop
deriving DecidableEq, Repr

/-- The per-hart timer (R29; 60_exceptions.md R325). -/
structure Timer where
  enabled : Bool
  value : DWord
deriving DecidableEq, Repr

/-- A valid cache slot (20_memory.md R80): the line number it caches, the dirty flag, and the `L` bytes. -/
structure Line where
  tag : Nat
  dirty : Bool
  data : List Byte
deriving DecidableEq, Repr

/-- One cache (20_memory.md R80): its valid slots, slot 0 first. Slots `0 .. fill-1` are valid and the others free, so `fill` is
the length of the list, `valid` is membership in it, and the index maps a line number to the slot that holds it (log 17). -/
abbrev Cache := List Line

/-- One TLB (20_memory.md R101): `TLB_SIZE` entries of 64 bits. -/
abbrev Tlb := List DWord

/-- The 4096-entry CSR file (R40): the named CSRs of R41 each under its name, every other cell in `other`, where an unlisted
address holds 0. Reads and writes go through `CsrFile.read` and `CsrFile.write` (Machine/Ops.lean). -/
structure CsrFile where
  /-- 0x003 (R48). -/
  fcsr : Word
  /-- 0x180: MODE 31, ASID 30:22, PPN 21:0 (R47). -/
  satp : Word
  /-- 0x300 (R43). -/
  mstatus : Word
  /-- 0x341: the pc a trap saved, and where a jumped return and the boot go (R44). -/
  mepc : Word
  /-- 0x342: the reason of the last trap (R45). -/
  mcause : Word
  /-- 0x343: the faulting address of the last trap that has one (R46). -/
  mtval : Word
  /-- 0xF14: the hart's id, written at reset (R42). -/
  mhartid : Word
  /-- The cells with no hardware meaning (R49). -/
  other : Sparse Word
deriving DecidableEq, Repr

/-- One thing the Host does to a hart at its trap or boot port, or to a stopped hart (60_exceptions.md R312, R346, R352). The first
group is done at once. The last three may have to wait: they are done in later turns of the hart (log 15). -/
inductive HostAct where
  /-- Write an integer register (a write of `x[0]` is discarded, R21). -/
  | setX (r : Reg) (v : Word)
  /-- Write a floating-point register (R27). -/
  | setF (r : Reg) (v : DWord)
  | setPc (v : Word)
  | setCsr (a : CsrAddr) (v : Word)
  | setJumped (b : Bool)
  /-- Arm, re-arm or disable the timer (60_exceptions.md R326). -/
  | setTimer (t : Timer)
  /-- Write the pending-interrupt pair; an originator above `N` is not one (R28), and such a write does nothing. -/
  | setPending (originator : Nat) (code : Word)
  /-- `halt()` (R346). -/
  | halt
  /-- `stop()` (R346). -/
  | stop
  /-- Set `life` back to running (R346). -/
  | wake
  /-- `write_raw` (20_memory.md R71, E-HOST of R73). -/
  | writeMem (addr : Nat) (bytes : List Byte)
  /-- Clear the reservation of hart `i` (20_memory.md R143). -/
  | clearRes (i : Nat)
  /-- `respond_interrupt(code)` in the name of the hart (R334). -/
  | respond (code : Word)
  /-- `raise_interrupt(target, code)` in the name of the hart (R332). -/
  | raise (target : Nat) (code : Word)
  /-- `await_interrupt_response()` in the name of the hart (R333). -/
  | await
  /-- The Host takes its time: other agents may move before it goes on (R311). -/
  | wait
deriving DecidableEq, Repr

/-- Why a hart is at a port, hence what is left of its own iteration when the Host finishes (R301, R310, R331; 70 R363). -/
inductive Site where
  /-- The boot port: `pc <- CSR[MEPC]` follows. -/
  | boot
  /-- The timer trap of phase 2: phase 3 follows. -/
  | timer
  /-- The external-interrupt trap for source `src`: its cell is zeroed and the scan goes on. -/
  | poll (src : Nat)
  /-- An exception raised by the fetch: the step ends. -/
  | fetch
  /-- An exception raised by the executed instruction: the `pc + 4` of phase 4 follows when `jumped = 0`. -/
  | exec
deriving DecidableEq, Repr

/-- One presentation of the hart at a port that the Host has not finished: why it is there, what the Host still does, and whether
the next thing to do is the poll that follows a failed attempt of a waiting IPI operation (R332, R333). -/
structure Activation where
  site : Site
  script : List HostAct
  pollNext : Bool
deriving DecidableEq, Repr

/-- Where a memory access stands that has not performed its next shared event (R300; 20_memory.md R73, R141). -/
inductive Stage where
  /-- The walk's read of a page-table entry of level `level` in the table at `table`: an E-LW (20_memory.md R114). -/
  | pte (level : Nat) (table : Word)
  /-- The access at the physical address `p`: an E-FILL or E-DIRECT, or the critical section of an atomic instruction. -/
  | access (p : Word)
deriving DecidableEq, Repr

/-- What a hart is in the middle of: the next shared event of its iteration, and what is left of the iteration (60_exceptions.md
R300, R301; log 11). -/
inductive Task where
  /-- Between two iterations, or at a port with nothing begun. -/
  | idle
  /-- `check_interrupts()`: the load of the first cell of `rest` comes next (R331); after the last one the instruction is fetched if
  `thenFetch` (R301 phase 4). -/
  | scan (rest : List Nat) (thenFetch : Bool)
  /-- `check_interrupts()`: the store of 0 to the cell of `src` comes next, then the scan of `rest` (R331). -/
  | zero (src : Nat) (rest : List Nat)
  /-- The fetch (20_memory.md R130). -/
  | fetch (st : Stage)
  /-- The execution of a memory instruction (43_loadstore.md; 46_atomic.md). -/
  | exec (i : Instr) (st : Stage)
  /-- A plain store at `p` whose CS-KILL comes next (20_memory.md R132 step 5, R141). -/
  | kill (p : Word)
  /-- A FENCE: the E-WB of some dirty line comes next (20_memory.md R87). -/
  | flush
  /-- `await_interrupt_response`: the store of 0 to the cell just read comes next (R333). -/
  | consume
deriving DecidableEq, Repr

/-- One hart (R20). -/
structure Hart where
  /-- The unique hart id, `0 .. N-1`. -/
  id : Nat
  /-- `x[0..31]` (R21). Cell 0 is not storage of the hardware: `readX` and `writeX` hard-wire it. -/
  x : Vector Word 32
  /-- `f[0..31]` (R27): only the Host touches it. -/
  f : Vector DWord 32
  /-- The program counter (R24). -/
  pc : Word
  csr : CsrFile
  /-- Originator of the last external interrupt, `0 .. N` (R28). -/
  interruptedBy : Nat
  /-- Code of the last external interrupt (R28). -/
  interruptCode : Word
  timer : Timer
  /-- Steps since the last IPI poll, `0 .. K-1` (R30). -/
  pollctr : Nat
  life : Life
  /-- The jumped flag (R26). -/
  jumped : Bool
  icache : Cache
  dcache : Cache
  itlb : Tlb
  dtlb : Tlb
  /-- The presentations the Host has not finished, innermost first; empty when the hart is at no port (R310, R311, R323). -/
  port : List Activation
  /-- MODEL's output: the code `await_interrupt_response` last returned to the Host (R333; log 28). -/
  response : Word
  /-- The shared event the hart performs next, when its iteration is split into events (R300; log 11). -/
  task : Task
deriving DecidableEq, Repr

/-! ## Shared state -/

/-- A reservation slot (20_memory.md R140). -/
structure Reservation where
  valid : Bool
  addr : Word
deriving DecidableEq, Repr

/-- Which of a hart's two access paths (00_scope.md R14). -/
inductive Stream where
  | instruction | data
deriving DecidableEq, Repr

/-- One turn of one agent (60_exceptions.md R300): an iteration of a hart or a single shared event of one, or one action of the Host
(R346, R352). -/
inductive Turn where
  /-- Hart `h` goes on: in the middle of an iteration by one shared event; else by its next iteration, or at its port, with no other
  agent's event between. -/
  | hart (h : Nat)
  /-- Hart `h` goes on by at most one shared event: an iteration begins, up to its first event (log 11). -/
  | split (h : Nat)
  /-- Hart `h`, in the middle of a FENCE, writes back the dirty line of a slot next: one E-WB (20_memory.md R87, U4). -/
  | writeBack (h : Nat) (slot : Nat)
  /-- `start()` (R346; 70 R363). -/
  | start (h : Nat)
  /-- `stop()` (R346). -/
  | stop (h : Nat)
  /-- `halt()` (R346). -/
  | halt (h : Nat)
  /-- Host access to a hart that is stopped (R352). -/
  | access (h : Nat) (a : HostAct)
  /-- `write_raw` (20_memory.md R71). -/
  | writeMem (addr : Nat) (bytes : List Byte)
  /-- Clear the reservation of hart `i` (20_memory.md R143). -/
  | clearRes (i : Nat)
  /-- The system raises an interrupt to hart `t`: one compare-and-swap of `grid[t][N]` from 0 (R332). -/
  | sysRaise (t : Nat) (code : Word)
  /-- The system reads and zeroes the cell `grid[N][src]` (R330, R334). -/
  | sysTake (src : Nat)
  /-- The first half of that: the system loads the cell. -/
  | sysLoad (src : Nat)
  /-- The second half: the system stores 0 to the cell. -/
  | sysClear (src : Nat)
  /-- An entry of a TLB vanishes, as 20_memory.md R106 allows another TLB organisation to make it (log 18). -/
  | tlbDrop (h : Nat) (st : Stream) (slot : Nat)
deriving DecidableEq, Repr

/-- The whole system. -/
structure State where
  /-- The parameters (00_scope.md R8); no step writes them. -/
  cfg : Config
  /-- The acting hart: the one the last turn named, whose iteration comes next when no turn is scheduled. -/
  hart : Hart
  /-- The other harts, by rising id. -/
  parked : List Hart
  /-- `Mem` (R33; 20_memory.md R70): one canonical list of address and byte; an unlisted address reads `memDefault`. -/
  mem : List Host.Cell
  /-- `Res[0..N-1]` (R34). -/
  res : List Reservation
  /-- `grid[0..N][0..N]` (R35), the cell `[to][from]` at key `to * (N+1) + from`; an unlisted cell is 0. -/
  grid : Sparse Word
  /-- MODEL's output: the code the system last loaded from its row (log 28). -/
  sysResponse : Word
  /-- MODEL's input: the turns still to be taken; when there is none the acting hart goes on (log 12). -/
  agenda : List Turn
  /-- MODEL's input: what the Host does at the coming presentations, first one first; when there is none the Host does nothing
  (log 13). -/
  replies : List (List HostAct)
  /-- MODEL's own: how many free values were taken (log 1, log 2). -/
  draws : Nat
deriving DecidableEq, Repr

/-! ## How a step can stop -/

/-- Abort (60_exceptions.md R318): the terminal error of the whole system. -/
inductive Fault where
  /-- Raised by a step whose fetched word has an unsupported major opcode (30_encoding.md R178). Safe: the spec's Abort is terminal. -/
  | abortUnsupportedOpcode (w : Word)
  /-- Raised by a turn in which `raise_interrupt` names the raiser itself or no hart (R335). Safe: the spec's Abort is terminal. -/
  | abortIpiMisuse
deriving DecidableEq, Repr

/-- Why a step has no meaning. -/
inductive Refusal where
  /-- Answered by an arm of `exec` whose instruction has no meaning yet. Safe. -/
  | notModelled (mnemonic : String)
  /-- Answered by a step whose fetched word has a floating-point major opcode (30_encoding.md R176, decision D38). Safe. -/
  | floatingPoint (w : Word)
deriving DecidableEq, Repr

/-! ## Reset (R55; 70_reset_and_hazards.md R360, R361) -/

/-- What an unlisted byte of `Mem` reads as. R55 leaves `Mem` unspecified. DESIGN CHOICE (log 7). -/
def memDefault : Byte := 0x00#8

/-- The invalid TLB entry (20_memory.md R101). -/
def tlbSentinel : DWord := 0xFFFFFFFFFFFFFFFF#64

/-- A TLB with no valid entry. -/
def Tlb.empty (c : Config) : Tlb := List.replicate c.tlbSize tlbSentinel

/-- Hart `h` after system construction (R55). The values R55 leaves unspecified are 0, DESIGN CHOICE (logs 3 to 6). -/
def Hart.reset (c : Config) (h : Nat) : Hart :=
  { id := h, x := Vector.replicate 32 0#32, f := Vector.replicate 32 0#64, pc := 0#32,
    csr := { fcsr := 0#32, satp := 0#32, mstatus := 0#32, mepc := 0#32, mcause := 0#32, mtval := 0#32,
             mhartid := BitVec.ofNat 32 h, other := [] },
    interruptedBy := 0, interruptCode := 0#32, timer := { enabled := false, value := 0#64 }, pollctr := 0, life := .stopped,
    jumped := false, icache := [], dcache := [], itlb := Tlb.empty c, dtlb := Tlb.empty c, port := [], response := 0#32,
    task := .idle }

/-- The system after construction in configuration `c`: hart 0 acting, harts `1 .. N-1` parked. -/
def State.resetWith (c : Config) : State :=
  { cfg := c, hart := Hart.reset c 0, parked := (List.range (c.hartCount - 1)).map (fun k => Hart.reset c (k + 1)),
    mem := [], res := List.replicate c.hartCount { valid := false, addr := 0#32 }, grid := [], sysResponse := 0#32, agenda := [],
    replies := [], draws := 0 }

/-- The machine right after reset: every hart stopped (R55). -/
def State.reset : State := State.resetWith Config.atReset

end Sys2Proof.Machine
end

