-- ==== Sys2Proof/Machine/Ops.lean ====
section
/-! DEFINITION. The named operations over memory, registers, CSRs, the IPI matrix and the ports: sparse maps in canonical form;
physical memory and byte order (spec 20_memory.md R70-R75); integer registers (10_state.md R21) and CSRs (R40-R50); free values;
reservations (20_memory.md R140-R143); what the Host does at a port (60_exceptions.md R312, R346); taking a trap and returning from
it (R310); the IPI poll (R331); the lifecycle (R345, R346). -/

namespace Sys2Proof.Machine

/-! ## Sparse maps: rising keys, no entry equal to the default -/

namespace Sparse

variable {α : Type}

/-- The value at key `k`; `d` where no entry has it. -/
def get (d : α) : Sparse α → Nat → α
  | [], _ => d
  | (a, v) :: rest, k => if a = k then v else get d rest k

/-- Put an entry before the first one with a larger key. -/
def insert (k : Nat) (v : α) : Sparse α → Sparse α
  | [] => [(k, v)]
  | (a, w) :: rest => if k < a then (k, v) :: (a, w) :: rest else (a, w) :: insert k v rest

/-- Remove every entry of key `k`. -/
def erase (k : Nat) (m : Sparse α) : Sparse α := m.filter (fun e => decide (e.1 ≠ k))

/-- Write `v` at key `k`; writing the default removes the entry, so that equal maps are equal lists. -/
def set [DecidableEq α] (d : α) (m : Sparse α) (k : Nat) (v : α) : Sparse α :=
  if v = d then erase k m else insert k v (erase k m)

/-- The canonical form: keys strictly rising, no entry equal to the default. -/
def wf [DecidableEq α] (d : α) (m : Sparse α) : Bool :=
  decide (m.Pairwise (fun a b => a.1 < b.1)) && m.all (fun e => decide (e.2 ≠ d))

end Sparse

/-! ## Physical memory (R70-R75) -/

/-- The byte at a physical address. -/
def Memory.read (m : List Host.Cell) (a : Nat) : Byte := Sparse.get memDefault m a

/-- Write one byte. -/
def Memory.write (m : List Host.Cell) (a : Nat) (b : Byte) : List Host.Cell := Sparse.set memDefault m a b

/-- The canonical form of memory. -/
def Memory.wf (m : List Host.Cell) : Bool := Sparse.wf memDefault m

/-- `n` bytes from address `a` up. -/
def Memory.readBytes (m : List Host.Cell) (a : Nat) : Nat → List Byte
  | 0 => []
  | n + 1 => Memory.read m a :: Memory.readBytes m (a + 1) n

/-- Write bytes from address `a` up. -/
def Memory.writeBytes (m : List Host.Cell) (a : Nat) : List Byte → List Host.Cell
  | [] => m
  | b :: bs => Memory.writeBytes (Memory.write m a b) (a + 1) bs

/-- Whether `n` bytes at `a` lie in `0 .. MEM_SIZE-1` (R70). -/
def inRange (c : Config) (a n : Nat) : Bool := decide (a + n ≤ c.memSize)

/-- `read_raw` (R71): a copy of the bytes, or OutOfRange. -/
def readRaw (c : Config) (m : List Host.Cell) (a n : Nat) : Option (List Byte) :=
  if inRange c a n then some (Memory.readBytes m a n) else none

/-- `write_raw` (R71), all or nothing: out of range, no byte is written. -/
def writeRaw (c : Config) (m : List Host.Cell) (a : Nat) (bs : List Byte) : List Host.Cell :=
  if inRange c a bs.length then Memory.writeBytes m a bs else m

/-- The word whose little-endian bytes these are, the first the least significant (R75). -/
def leWord : List Byte → Word
  | [] => 0#32
  | b :: bs => b.setWidth 32 ||| (leWord bs <<< 8)

/-- The low `n` bytes of a word, least significant first (R75). -/
def leBytes : Nat → Word → List Byte
  | 0, _ => []
  | n + 1, v => v.setWidth 8 :: leBytes n (v >>> 8)

/-- `PhysLoadWord(p)` (R74): `none` when the word is out of range. -/
def physLoadWord (c : Config) (m : List Host.Cell) (p : Word) : Option Word := (readRaw c m p.toNat 4).map leWord

/-- `PhysStoreWord(p, w)` (R74). -/
def physStoreWord (c : Config) (m : List Host.Cell) (p w : Word) : List Host.Cell := writeRaw c m p.toNat (leBytes 4 w)

/-! ## CSRs (10_state.md R40-R50) -/

namespace CsrFile

/-- The content of cell `a`: all 32 bits, no side effect (R40). -/
def read (c : CsrFile) (a : CsrAddr) : Word :=
  if a = 0x003#12 then c.fcsr
  else if a = 0x180#12 then c.satp
  else if a = 0x300#12 then c.mstatus
  else if a = 0x341#12 then c.mepc
  else if a = 0x342#12 then c.mcause
  else if a = 0x343#12 then c.mtval
  else if a = 0xF14#12 then c.mhartid
  else Sparse.get 0#32 c.other a.toNat

/-- Store all 32 bits in cell `a` (R40). -/
def write (c : CsrFile) (a : CsrAddr) (v : Word) : CsrFile :=
  if a = 0x003#12 then { c with fcsr := v }
  else if a = 0x180#12 then { c with satp := v }
  else if a = 0x300#12 then { c with mstatus := v }
  else if a = 0x341#12 then { c with mepc := v }
  else if a = 0x342#12 then { c with mcause := v }
  else if a = 0x343#12 then { c with mtval := v }
  else if a = 0xF14#12 then { c with mhartid := v }
  else { c with other := Sparse.set 0#32 c.other a.toNat v }

end CsrFile

/-! ## The acting hart's registers -/

namespace State

/-- Replace the acting hart. -/
def setHart (s : State) (h : Hart) : State := { s with hart := h }

/-- `x[r]`; `x[0]` is 0 (10_state.md R21). -/
def readX (s : State) (r : Reg) : Word := if r = 0 then 0#32 else s.hart.x.get r

/-- `x[r] <- v`; discarded when `r = 0` (10_state.md R21). -/
def writeX (s : State) (r : Reg) (v : Word) : State :=
  if r = 0 then s else s.setHart { s.hart with x := s.hart.x.set r v }

/-- `f[r] <- v` (10_state.md R27); only the Host does it. -/
def writeF (s : State) (r : Reg) (v : DWord) : State := s.setHart { s.hart with f := s.hart.f.set r v }

def setPc (s : State) (v : Word) : State := s.setHart { s.hart with pc := v }

def setJumped (s : State) (b : Bool) : State := s.setHart { s.hart with jumped := b }

def setLife (s : State) (l : Life) : State := s.setHart { s.hart with life := l }

def setTimer (s : State) (t : Timer) : State := s.setHart { s.hart with timer := t }

def setPollctr (s : State) (n : Nat) : State := s.setHart { s.hart with pollctr := n }

def setPending (s : State) (originator : Nat) (code : Word) : State :=
  s.setHart { s.hart with interruptedBy := originator, interruptCode := code }

def setResponse (s : State) (v : Word) : State := s.setHart { s.hart with response := v }

def setPort (s : State) (p : List Activation) : State := s.setHart { s.hart with port := p }

def setTask (s : State) (t : Task) : State := s.setHart { s.hart with task := t }

/-- `CSR[a]` of the acting hart. -/
def readCsr (s : State) (a : CsrAddr) : Word := s.hart.csr.read a

/-- `CSR[a] <- v`. -/
def writeCsr (s : State) (a : CsrAddr) (v : Word) : State := s.setHart { s.hart with csr := s.hart.csr.write a v }

def setMtval (s : State) (v : Word) : State := s.setHart { s.hart with csr := { s.hart.csr with mtval := v } }

/-- The cache of a stream (10_state.md R32). -/
def cache (s : State) (st : Stream) : Cache :=
  match st with
  | .instruction => s.hart.icache
  | .data => s.hart.dcache

def setCache (s : State) (st : Stream) (c : Cache) : State :=
  match st with
  | .instruction => s.setHart { s.hart with icache := c }
  | .data => s.setHart { s.hart with dcache := c }

/-- The TLB of a stream (10_state.md R32). -/
def tlb (s : State) (st : Stream) : Tlb :=
  match st with
  | .instruction => s.hart.itlb
  | .data => s.hart.dtlb

def setTlb (s : State) (st : Stream) (t : Tlb) : State :=
  match st with
  | .instruction => s.setHart { s.hart with itlb := t }
  | .data => s.setHart { s.hart with dtlb := t }

def setMem (s : State) (m : List Host.Cell) : State := { s with mem := m }

def setRes (s : State) (r : List Reservation) : State := { s with res := r }

/-- A `draw` for `MTVAL`: the next free word (60_exceptions.md R315). -/
def drawMtval (s : State) : State := { s.setMtval (Config.freeWord s.draws) with draws := s.draws + 1 }

/-- `pc <- pc + 4` modulo 2^32, when `jumped = 0` (10_state.md R25 (a)). -/
def advancePc (s : State) : State := if s.hart.jumped then s else s.setPc (s.hart.pc + 4#32)

/-! ## The IPI matrix (60_exceptions.md R330) -/

/-- Where the cell `[to][from]` is kept. -/
def gridKey (s : State) (dst src : Nat) : Nat := dst * (s.cfg.hartCount + 1) + src

/-- An atomic load of `grid[to][from]`. -/
def gridRead (s : State) (dst src : Nat) : Word := Sparse.get 0#32 s.grid (s.gridKey dst src)

/-- An atomic store to `grid[to][from]`. -/
def gridWrite (s : State) (dst src : Nat) (v : Word) : State :=
  { s with grid := Sparse.set 0#32 s.grid (s.gridKey dst src) v }

end State

/-! ## Reservations (20_memory.md R140-R143) -/

/-- `RES_MATCH(a, r)` (00_scope.md R8): equality, or a pair the configuration adds (log 10). -/
def resMatches (c : Config) (a r : Word) : Bool := decide (a = r) || c.resMatchExtra.contains (a, r)

/-- Whether a store at `p` kills the reservation `r` (R142). -/
def killed (c : Config) (p : Word) (r : Reservation) : Bool := r.valid && resMatches c p r.addr

/-- `KillReservations(p)` (R142). -/
def killReservations (s : State) (p : Word) : State :=
  s.setRes (s.res.map (fun r => if killed s.cfg p r then { r with valid := false } else r))

/-- `Res[i]`; index `i` is a hart id. -/
def reservationOf (s : State) (i : Nat) : Reservation := s.res.getD i { valid := false, addr := 0#32 }

/-- `Res[i] <- r`. -/
def setReservation (s : State) (i : Nat) (r : Reservation) : State := s.setRes (s.res.set i r)

/-- `Res[i].valid <- 0`. -/
def clearReservation (s : State) (i : Nat) : State := setReservation s i { reservationOf s i with valid := false }

/-! ## Lifecycle commands (60_exceptions.md R346) -/

/-- `halt()`: running to nop_loop; no effect in another state (decision D40). -/
def Life.halt : Life → Life
  | .running => .nopLoop
  | l => l

/-- `stop()`: running or nop_loop to stopping; no effect in another state (decision D40). -/
def Life.stop : Life → Life
  | .running => .stopping
  | .nopLoop => .stopping
  | l => l

/-- The Host sets `life` back to running: nop_loop to running; no effect in another state. -/
def Life.wake : Life → Life
  | .nopLoop => .running
  | l => l

/-- The status output `awake` (R351): the step loop is alive. -/
def Hart.awake (h : Hart) : Bool := decide (h.life ≠ .stopped)

/-- The status output `running` (R351). -/
def Hart.isRunning (h : Hart) : Bool := decide (h.life = .running)

/-! ## The Host at a port (60_exceptions.md R312) -/

/-- One thing the Host does to the acting hart at once; `none` for what may have to wait. -/
def hostAct (a : HostAct) (s : State) : Option State :=
  match a with
  | .setX r v => some (s.writeX r v)
  | .setF r v => some (s.writeF r v)
  | .setPc v => some (s.setPc v)
  | .setCsr c v => some (s.writeCsr c v)
  | .setJumped b => some (s.setJumped b)
  | .setTimer t => some (s.setTimer t)
  | .setPending o c => some (if o ≤ s.cfg.hartCount then s.setPending o c else s)
  | .halt => some (s.setLife s.hart.life.halt)
  | .stop => some (s.setLife s.hart.life.stop)
  | .wake => some (s.setLife s.hart.life.wake)
  | .writeMem a bs => some (s.setMem (writeRaw s.cfg s.mem a bs))
  | .clearRes i => some (clearReservation s i)
  | .respond c => some (s.gridWrite s.hart.interruptedBy s.hart.interruptedBy c)
  | .raise _ _ => none
  | .await => none
  | .wait => none

/-- The Host goes through its script up to the first act that may have to wait: what is left of the script, and the state. -/
def hostActs : List HostAct → State → List HostAct × State
  | [], s => ([], s)
  | a :: as, s =>
    match hostAct a s with
    | some s' => hostActs as s'
    | none => (a :: as, s)

/-- The Host finishes at a port: after a trap `pc <- CSR[MEPC]` when it left `jumped = 1` (R310 step 5); after the boot port
always (70_reset_and_hazards.md R363 step 3). This is the return from a trap (R322): nothing else is restored. -/
def leavePort (site : Site) (s : State) : State :=
  if site = .boot ∨ s.hart.jumped = true then s.setPc s.hart.csr.mepc else s

/-- Present the acting hart at a port (R310 step 4, R311): the Host takes its next script and acts. If it finishes, the hart leaves
the port; if something has to wait, the hart stays there, with the rest of the script. -/
def present (site : Site) (s : State) : State :=
  let r := hostActs (s.replies.headD []) { s with replies := s.replies.tail }
  if r.1 = [] then leavePort site r.2
  else r.2.setPort ({ site := site, script := r.1, pollNext := false } :: r.2.hart.port)

/-- Whether the hart came to stay at a port between two states. -/
def held (before after : State) : Bool := decide (before.hart.port.length < after.hart.port.length)

/-! ## Taking a trap (60_exceptions.md R310-R315) -/

/-- The exceptions (R313). -/
inductive Cause where
  | instructionAddressMisaligned | instructionAccessFault | illegalInstruction | breakpoint
  | loadAddressMisaligned | loadAccessFault | storeAddressMisaligned | storeAccessFault
  | ecallUMode | instructionPageFault | loadPageFault | storePageFault
deriving DecidableEq, Repr

/-- The exception codes (R313). -/
def Cause.code : Cause → Word
  | .instructionAddressMisaligned => 0x0#32
  | .instructionAccessFault => 0x1#32
  | .illegalInstruction => 0x2#32
  | .breakpoint => 0x3#32
  | .loadAddressMisaligned => 0x4#32
  | .loadAccessFault => 0x5#32
  | .storeAddressMisaligned => 0x6#32
  | .storeAccessFault => 0x7#32
  | .ecallUMode => 0x8#32
  | .instructionPageFault => 0xC#32
  | .loadPageFault => 0xD#32
  | .storePageFault => 0xF#32

/-- `MachineTimerInterrupt` (R314). -/
def timerReason : Word := 0x807#32

/-- `MachineExternalInterrupt` (R314). -/
def externalReason : Word := 0x80B#32

/-- An exception to raise: its cause and, where its rule gives one, the value of `MTVAL` (R315). -/
structure Exc where
  cause : Cause
  info : Option Word
deriving DecidableEq, Repr

/-- Steps 1 and 2 of `Trap(reason)` (R310): `MCAUSE` and `MEPC`. Nothing else is saved, and there is no mode to change (R340). -/
def saveTrap (reason : Word) (s : State) : State :=
  s.setHart { s.hart with csr := { s.hart.csr with mcause := reason, mepc := s.hart.pc } }

/-- `Trap(reason)` (R310): save, then present the hart at the trap port. -/
def trap (reason : Word) (site : Site) (s : State) : State := present site (saveTrap reason s)

/-- An interrupt trap: it leaves a draw in `MTVAL` (R315). -/
def interrupt (reason : Word) (site : Site) (s : State) : State := trap reason site s.drawMtval

/-- `raise E(info)` (R310, R315): `MTVAL` holds `info`, or a draw when there is none; then the trap. -/
def raise (e : Exc) (site : Site) (s : State) : State :=
  match e.info with
  | some v => trap e.cause.code site (s.setMtval v)
  | none => trap e.cause.code site s.drawMtval

/-! ## The IPI poll (60_exceptions.md R331) -/

/-- The sources hart `h` scans, ascending, itself left out (decision D27). -/
def pollSources (c : Config) (h : Nat) : List Nat :=
  (if c.ipiEnable then List.range (c.hartCount + 1) else [c.hartCount]).filter (fun src => decide (src ≠ h))

/-- Record the originator and code of a non-zero cell and take the external interrupt (R331). -/
def deliverExternal (src : Nat) (s : State) : State :=
  interrupt externalReason (.poll src) (s.setPending src (s.gridRead s.hart.id src))

/-- Scan sources: for each non-zero cell record the pair, take the external interrupt, zero the cell. The flag says whether a trap
was taken. When the hart stays at its port the scan stops there, and `afterPort` goes on with it. -/
def pollFrom : List Nat → State → Bool × State
  | [], s => (false, s)
  | src :: rest, s =>
    if s.gridRead s.hart.id src = 0#32 then pollFrom rest s
    else
      let s1 := deliverExternal src s
      if held s s1 then (true, s1) else (true, (pollFrom rest (s1.gridWrite s1.hart.id src 0#32)).2)

/-- `check_interrupts()` of the acting hart (R331). -/
def checkInterrupts (s : State) : Bool × State := pollFrom (pollSources s.cfg s.hart.id) s

/-- Phase 3 of a step (R301, R327): count, and poll every `K` steps. -/
def pollPhase (s : State) : Bool × State :=
  if s.hart.pollctr + 1 = s.cfg.pollInterval then checkInterrupts (s.setPollctr 0)
  else (false, s.setPollctr (s.hart.pollctr + 1))

/-- Phase 2 of a step (R301, R325): count the timer down; at 0 disable it and take the timer interrupt. -/
def timerPhase (s : State) : Bool × State :=
  if s.hart.timer.enabled then
    let v := s.hart.timer.value - 1#64
    if v = 0#64 then (true, interrupt timerReason .timer (s.setTimer { enabled := false, value := v }))
    else (false, s.setTimer { enabled := true, value := v })
  else (false, s)

/-! ## Going on after a port -/

/-- The sources that `check_interrupts()` scans after `src`. -/
def laterSources (s : State) (src : Nat) : List Nat := (pollSources s.cfg s.hart.id).filter (fun k => decide (src < k))

/-- What is left of the hart's own iteration when the Host has finished at `site` (R301, R331). -/
def afterPort (site : Site) (s : State) : State :=
  match site with
  | .boot => s
  | .timer => (pollPhase s).2
  | .poll src => (pollFrom (laterSources s src) (s.gridWrite s.hart.id src 0#32)).2
  | .fetch => s
  | .exec => s.advancePc

/-- The same up to the next shared event, which is then the hart's task (R300). -/
def afterPortSplit (site : Site) (s : State) : State :=
  match site with
  | .boot => s
  | .timer =>
    if s.hart.pollctr + 1 = s.cfg.pollInterval then (s.setPollctr 0).setTask (.scan (pollSources s.cfg s.hart.id) false)
    else s.setPollctr (s.hart.pollctr + 1)
  | .poll src => s.setTask (.zero src (laterSources s src))
  | .fetch => s
  | .exec => s.advancePc

/-- The Host goes on with its script at the innermost presentation `a`, above the presentations `below`: it finishes, and the hart
leaves the port and goes on by `after`; or something has to wait again. -/
def continueWith (after : Site → State → State) (a : Activation) (below : List Activation) (script : List HostAct) (s : State) :
    State :=
  let r := hostActs script s
  if r.1 = [] then after a.site (leavePort a.site (r.2.setPort below))
  else r.2.setPort ({ site := a.site, script := r.1, pollNext := false } :: below)

/-- The Host goes on, and the hart too, with no other agent's event between. -/
def continueScript (a : Activation) (below : List Activation) (script : List HostAct) (s : State) : State :=
  continueWith afterPort a below script s

/-- The Host goes on, and the hart up to its next shared event. -/
def continueSplit (a : Activation) (below : List Activation) (script : List HostAct) (s : State) : State :=
  continueWith afterPortSplit a below script s

/-- A waiting IPI operation failed: the poll of inbound interrupts comes next (R332, R333). -/
def pollNextTime (a : Activation) (below : List Activation) (s : State) : State :=
  s.setPort ({ site := a.site, script := a.script, pollNext := true } :: below)

/-- A turn of a hart that is at a port. A waiting `raise_interrupt` makes one compare-and-swap (R332), a waiting
`await_interrupt_response` one load (R333); after a failure the next turn polls inbound interrupts, and the one after it tries again.
`raise_interrupt` to itself or to no hart is Abort (R335). The arguments say how the poll is made, how the Host goes on, and how a
response that was found is taken. -/
def resumeWith (poll : State → State) (goOn : Activation → List Activation → List HostAct → State → State)
    (take : Activation → List Activation → List HostAct → State → State) (s : State) : Host.Outcome State Fault Refusal :=
  match s.hart.port with
  | [] => .next s
  | a :: below =>
    if a.pollNext then .next (poll (s.setPort ({ site := a.site, script := a.script, pollNext := false } :: below)))
    else
      match a.script with
      | .wait :: rest => .next (goOn a below rest s)
      | .raise target code :: rest =>
        if target = s.hart.id ∨ s.cfg.hartCount ≤ target then .fault .abortIpiMisuse
        else if s.gridRead target s.hart.id = 0#32 then .next (goOn a below rest (s.gridWrite target s.hart.id code))
        else .next (pollNextTime a below s)
      | .await :: rest =>
        let code := s.gridRead s.hart.id s.hart.id
        if code = 0#32 then .next (pollNextTime a below s) else .next (take a below rest (s.setResponse code))
      | script => .next (goOn a below script s)

/-- The turn with no other agent's event between its own. -/
def resumePort (s : State) : Host.Outcome State Fault Refusal :=
  resumeWith (fun u => (checkInterrupts u).2) continueScript
    (fun a below rest u => continueScript a below rest (u.gridWrite u.hart.id u.hart.id 0#32)) s

/-- The turn up to and with its first shared event: what comes next is the hart's task (R300). -/
def resumeSplit (s : State) : Host.Outcome State Fault Refusal :=
  resumeWith (fun u => u.setTask (.scan (pollSources u.cfg u.hart.id) false)) continueSplit
    (fun _ _ _ u => u.setTask .consume) s

end Sys2Proof.Machine
end

