-- ==== Sys2Proof/Machine/Memory.lean ====
section
/-! DEFINITION. The memory system (spec 20_memory.md): the private write-back caches (R80-R90), the TLBs (R100-R106), the Sv32
translator (R110-R123) and the memory controller's primitives Fetch, MemRead and MemWrite (R130-R136), with fence and fence_i. -/

namespace Sys2Proof.Machine

/-- The outcome of a memory primitive: a value, or an exception to raise; and the state either way, since a TLB fill or a refill
that was done stays done (60_exceptions.md R302, R321). -/
inductive Access (α : Type) where
  | ok (a : α) (s : State)
  | exc (e : Exc) (s : State)
deriving Repr

/-! ## Caches (R80-R90) -/

/-- The line number of a physical address, `p >> log2(L)` (R81). -/
def lineNumber (c : Config) (p : Nat) : Nat := p / c.lineSize

/-- The offset of a physical address in its line, `p & (L-1)` (R81). -/
def lineOffset (c : Config) (p : Nat) : Nat := p % c.lineSize

/-- The valid slot that holds line number `t`: the index (R80, R82). -/
def Cache.find (k : Cache) (t : Nat) : Option Line := k.find? (fun l => decide (l.tag = t))

/-- `load_n(p)` (R83): the `n` bytes on a hit. No state changes. -/
def cacheLoad (c : Config) (k : Cache) (p n : Nat) : Option (List Byte) :=
  (k.find (lineNumber c p)).map (fun l => (l.data.drop (lineOffset c p)).take n)

/-- Overwrite bytes from offset `o` up. -/
def spliceBytes (d : List Byte) (o : Nat) : List Byte → List Byte
  | [] => d
  | b :: bs => spliceBytes (d.set o b) (o + 1) bs

/-- Change the bytes of a line from offset `o` up and mark it dirty (R84). -/
def Line.store (l : Line) (o : Nat) (bs : List Byte) : Line := { l with dirty := true, data := spliceBytes l.data o bs }

/-- `store_n(p, value)` (R84): on a hit the line is changed and dirty, on a miss nothing is. -/
def cacheStore (c : Config) (k : Cache) (p : Nat) (bs : List Byte) : Option Cache :=
  if (k.find (lineNumber c p)).isSome then
    some (k.map (fun l => if l.tag = lineNumber c p then l.store (lineOffset c p) bs else l))
  else none

/-- Write a line back to `Mem` if it is dirty: all `L` bytes at `tag * L` (R86, R87). -/
def writeBack (c : Config) (m : List Host.Cell) (l : Line) : List Host.Cell :=
  if l.dirty then writeRaw c m (l.tag * c.lineSize) l.data else m

/-- Line `t` as read from `Mem`, clean (R86). -/
def freshLine (c : Config) (m : List Host.Cell) (t : Nat) : Line :=
  { tag := t, dirty := false, data := Memory.readBytes m (t * c.lineSize) c.lineSize }

/-- `replace_random(t)` (R86): nothing when the line is present; the next free slot when there is one; else a drawn victim slot,
written back first when dirty. The range of the new line is tested before all that (decision D39): `none` when it is out of range. -/
def refill (st : Stream) (t : Nat) (s : State) : Option State :=
  if ((s.cache st).find t).isSome then some s
  else if inRange s.cfg (t * s.cfg.lineSize) s.cfg.lineSize then
    if (s.cache st).length < s.cfg.cacheSlots then some (s.setCache st (s.cache st ++ [freshLine s.cfg s.mem t]))
    else
      let slot := Config.freeNat s.draws % s.cfg.cacheSlots
      let m := ((s.cache st)[slot]?.map (writeBack s.cfg s.mem)).getD s.mem
      some { (s.setMem m).setCache st ((s.cache st).set slot (freshLine s.cfg m t)) with draws := s.draws + 1 }
  else none

/-- Read `n` bytes at `p` through a stream's cache: probe, on a miss refill and probe again (R130, R131 step 4); without caches one
direct read (R90). `none` when the refill fails. -/
def cachedRead (st : Stream) (p n : Nat) (s : State) : Option (List Byte × State) :=
  if s.cfg.cacheEnable then
    match cacheLoad s.cfg (s.cache st) p n with
    | some bs => some (bs, s)
    | none => (refill st (lineNumber s.cfg p) s).bind (fun s1 => (cacheLoad s1.cfg (s1.cache st) p n).map (fun bs => (bs, s1)))
  else (readRaw s.cfg s.mem p n).map (fun bs => (bs, s))

/-- Write bytes at `p` through the D-cache: store, on a miss refill and store again (R132 step 4, write-allocate R89); without caches
one direct write (R90). -/
def cachedWrite (p : Nat) (bs : List Byte) (s : State) : Option State :=
  if s.cfg.cacheEnable then
    match cacheStore s.cfg (s.cache .data) p bs with
    | some k => some (s.setCache .data k)
    | none =>
      (refill .data (lineNumber s.cfg p) s).bind
        (fun s1 => (cacheStore s1.cfg (s1.cache .data) p bs).map (fun k => s1.setCache .data k))
  else if inRange s.cfg p bs.length then some (s.setMem (writeRaw s.cfg s.mem p bs)) else none

/-- `fence()` (R134): `dcache.flush_all(Mem)` (R87): every dirty line is written back and becomes clean, none is evicted. -/
def fenceOp (s : State) : State :=
  if s.cfg.cacheEnable then
    (s.setMem ((s.cache .data).foldl (writeBack s.cfg) s.mem)).setCache .data
      ((s.cache .data).map (fun l => { l with dirty := false }))
  else s

/-- One E-WB of `fence()` (R87): the line of a slot is written back, if it is dirty, and becomes clean. -/
def flushSlot (slot : Nat) (s : State) : State :=
  match (s.cache .data)[slot]? with
  | some l =>
    if l.dirty then
      (s.setMem (writeBack s.cfg s.mem l)).setCache .data ((s.cache .data).set slot { l with dirty := false })
    else s
  | none => s

/-- Whether some line of the D-cache is dirty. -/
def anyDirty (s : State) : Bool := (s.cache .data).any (fun l => l.dirty)

/-- The first slot of the D-cache whose line is dirty. -/
def firstDirty (s : State) : Nat := (s.cache .data).findIdx (fun l => l.dirty)

/-- `fence_i()` (R135): the I-cache is emptied (R88). -/
def fenceIOp (s : State) : State := if s.cfg.cacheEnable then s.setCache .instruction [] else s

/-! ## TLBs (R100-R105) -/

/-- The TLB key of a virtual address: `(v >> 12) | (SATP & 0x7FC00000)` (R100). -/
def vpiOf (satp v : Word) : Word := (v >>> 12) ||| (satp &&& 0x7FC00000#32)

/-- The probed slots `(vpi + i*i) mod TLB_SIZE`, `i = 0 .. D-1`, the primary one first (R102). -/
def tlbSlots (c : Config) (vpi : Word) : List Nat := (List.range c.tlbDepth).map (fun i => (vpi.toNat + i * i) % c.tlbSize)

/-- The entry in a slot. -/
def Tlb.entry (t : Tlb) (slot : Nat) : DWord := t.getD slot tlbSentinel

/-- A slot matches when it is not the sentinel and its bits 63:32 are the key (R103). -/
def tlbMatches (e : DWord) (vpi : Word) : Bool := decide (e ≠ tlbSentinel) && decide (e.extractLsb' 32 32 = vpi)

/-- `load(vpi)` (R103): the PTE of the first match in probe order. No state changes. -/
def tlbLoad (c : Config) (t : Tlb) (vpi : Word) : Option Word :=
  ((tlbSlots c vpi).find? (fun k => tlbMatches (t.entry k) vpi)).map (fun k => (t.entry k).extractLsb' 0 32)

/-- `(vpi << 32) | pte` (R101). -/
def tlbEntry (vpi pte : Word) : DWord := vpi ++ pte

/-- `store(vpi, pte)` (R104): the first invalid probed slot; when there is none, every probed slot is invalidated and the entry goes
to the primary one. -/
def tlbStore (c : Config) (t : Tlb) (vpi pte : Word) : Tlb :=
  match (tlbSlots c vpi).find? (fun k => decide (t.entry k = tlbSentinel)) with
  | some k => t.set k (tlbEntry vpi pte)
  | none => ((tlbSlots c vpi).foldl (fun u k => u.set k tlbSentinel) t).set (vpi.toNat % c.tlbSize) (tlbEntry vpi pte)

/-- `invalidate_all()` on both TLBs of the acting hart (R105; 45_system.md R275). -/
def flushTlbs (s : State) : State := (s.setTlb .instruction (Tlb.empty s.cfg)).setTlb .data (Tlb.empty s.cfg)

/-! ## Sv32 translation (R110-R123) -/

/-- The access type of a translation (R113). -/
inductive AccessType where
  | load | store | fetch
deriving DecidableEq, Repr

/-- The stream whose TLB and cache an access uses (R113). -/
def AccessType.stream : AccessType → Stream
  | .fetch => .instruction
  | .load => .data
  | .store => .data

/-- `PageFault_T` (R113). -/
def AccessType.pageFault : AccessType → Cause
  | .fetch => .instructionPageFault
  | .load => .loadPageFault
  | .store => .storePageFault

/-- The access fault of an access type (R133). -/
def AccessType.accessFault : AccessType → Cause
  | .fetch => .instructionAccessFault
  | .load => .loadAccessFault
  | .store => .storeAccessFault

/-- The address-misaligned exception of an access type (R76, R130). -/
def AccessType.misaligned : AccessType → Cause
  | .fetch => .instructionAddressMisaligned
  | .load => .loadAddressMisaligned
  | .store => .storeAddressMisaligned

/-- PTE flag bits (R110). -/
def pteV (pte : Word) : Bool := pte.getLsbD 0
def pteR (pte : Word) : Bool := pte.getLsbD 1
def pteW (pte : Word) : Bool := pte.getLsbD 2
def pteX (pte : Word) : Bool := pte.getLsbD 3
def pteU (pte : Word) : Bool := pte.getLsbD 4
def pteA (pte : Word) : Bool := pte.getLsbD 6
def pteD (pte : Word) : Bool := pte.getLsbD 7

/-- `Permitted(pte, T)` (R117, R118): `U` always; fetch `X A`, load `R A`, store `W A D`. -/
def permitted (pte : Word) : AccessType → Bool
  | .fetch => pteU pte && pteX pte && pteA pte
  | .load => pteU pte && pteR pte && pteA pte
  | .store => pteU pte && pteW pte && pteA pte && pteD pte

/-- `vpni` of a walk level (R111). -/
def vpnOf (v : Word) (level : Nat) : Word := (v >>> (12 + 10 * level)) &&& 0x3FF#32

/-- What the read of one page-table entry says of a walk (R114). -/
inductive PteRead where
  | fail
  | pointer (table : Word)
  | leaf (pte : Word)
deriving DecidableEq, Repr

/-- Steps 2 to 6 of the walk at one level: one `PhysLoadWord`, and what the entry says. A pointer found at level 0 is a failure
(R114). -/
def readPte (c : Config) (m : List Host.Cell) (v : Word) (level : Nat) (table : Word) : PteRead :=
  match physLoadWord c m (table + vpnOf v level * 4#32) with
  | none => .fail
  | some pte =>
    if pteV pte = false ∨ (pteR pte = false ∧ pteW pte = true) then .fail
    else if pteR pte = false ∧ pteX pte = false then
      if level = 0 then .fail else .pointer ((pte >>> 10) * 4096#32)
    else if 0 < level ∧ pte.extractLsb' 10 10 ≠ 0#10 then .fail
    else .leaf pte

/-- The walk from a level down (R114). -/
def walk (c : Config) (m : List Host.Cell) (v : Word) : Nat → Word → Option (Nat × Word)
  | 0, table =>
    match readPte c m v 0 table with
    | .leaf pte => some (0, pte)
    | .pointer _ => none
    | .fail => none
  | level + 1, table =>
    match readPte c m v (level + 1) table with
    | .leaf pte => some (level + 1, pte)
    | .pointer lower => walk c m v level lower
    | .fail => none

/-- The root table's address (R114 step 1), modulo 2^32 (R115). -/
def rootTable (satp : Word) : Word := (satp &&& 0x003FFFFF#32) * 4096#32

/-- The PTE put in the TLB: a megapage leaf takes `VPN[0]` into its `PPN[0]` field (R120). -/
def foldedPte (level : Nat) (pte v : Word) : Word := if level = 1 then pte ||| (((v >>> 12) &&& 0x3FF#32) <<< 10) else pte

/-- The physical address after a walk (R121). -/
def walkAddress (level : Nat) (pte v : Word) : Word :=
  ((pte &&& 0xFFFFFC00#32) <<< 2) ||| (v &&& (0xFFFFFFFF#32 >>> (20 - 10 * level)))

/-- The physical address on a TLB hit (R122). -/
def hitAddress (pte v : Word) : Word := ((pte &&& 0xFFFFFC00#32) <<< 2) ||| (v &&& 0xFFF#32)

/-- `PageFault_T(v)` (R113). -/
def pageFaultAt (t : AccessType) (v : Word) : Exc := { cause := t.pageFault, info := some v }

/-- `Translate` without a walk: bare mode is the identity (R112); a TLB hit is checked (R122); `none` when a walk is needed. -/
def tlbTranslate (t : AccessType) (v : Word) (s : State) : Option (Access Word) :=
  if s.hart.csr.satp.getLsbD 31 = false then some (.ok v s)
  else
    (tlbLoad s.cfg (s.tlb t.stream) (vpiOf s.hart.csr.satp v)).map
      (fun pte => if permitted pte t then .ok (hitAddress pte v) s else .exc (pageFaultAt t v) s)

/-- `Translate` after a walk that found the leaf `pte` at `level`: the permission check, the TLB fill, the address (R113). -/
def leafTranslate (t : AccessType) (v : Word) (level : Nat) (pte : Word) (s : State) : Access Word :=
  if permitted pte t then
    .ok (walkAddress level pte v)
      (s.setTlb t.stream
        (tlbStore s.cfg (s.tlb t.stream) (vpiOf s.hart.csr.satp v) (foldedPte level pte v)))
  else .exc (pageFaultAt t v) s

/-- `Translate(v, T)` (R112, R113): bare mode is the identity; else the TLB, else the walk; the permission check on both paths. -/
def translateVa (t : AccessType) (v : Word) (s : State) : Access Word :=
  match tlbTranslate t v s with
  | some a => a
  | none =>
    match walk s.cfg s.mem v 1 (rootTable s.hart.csr.satp) with
    | none => .exc (pageFaultAt t v) s
    | some (level, pte) => leafTranslate t v level pte s

/-! ## Memory controller (R130-R136) -/

/-- The alignment rule of R76, and R130 for the fetch: an `n`-byte access needs an address divisible by `n`. -/
def misaligned (va : Word) (n : Nat) : Bool :=
  (decide (n = 2) && va.getLsbD 0) || (decide (n = 4) && decide (va.extractLsb' 0 2 ≠ 0#2))

/-- Step 3 of every access: the range test of a translated address (R130-R133). -/
def checkRange (t : AccessType) (va : Word) (n : Nat) (a : Access Word) : Access Word :=
  match a with
  | .exc e s => .exc e s
  | .ok p s => if inRange s.cfg p.toNat n then .ok p s else .exc { cause := t.accessFault, info := some va } s

/-- Steps 1 to 3 of every access (R130-R132, R136; 46_atomic.md R280): alignment, translation, range; the physical address. -/
def physicalAddress (t : AccessType) (va : Word) (n : Nat) (s : State) : Access Word :=
  if misaligned va n then .exc { cause := t.misaligned, info := some va } s else checkRange t va n (translateVa t va s)

/-- Steps 4 and 5 of a fetch or a load at the physical address `p` (R130, R131): the value, zero-extended. -/
def readAt (t : AccessType) (va : Word) (n : Nat) (p : Word) (s : State) : Access Word :=
  match cachedRead t.stream p.toNat n s with
  | some (bs, s1) => .ok (leWord bs) s1
  | none => .exc { cause := t.accessFault, info := some va } s

/-- Step 4 of a store at the physical address `p` (R132): the low `n` bytes of `v` into the hart's own line. -/
def writeAt (va : Word) (n : Nat) (v : Word) (p : Word) (s : State) : Access Unit :=
  match cachedWrite p.toNat (leBytes n v) s with
  | some s1 => .ok () s1
  | none => .exc { cause := .storeAccessFault, info := some va } s

/-- `Fetch(va)` (R130). -/
def fetchWord (va : Word) (s : State) : Access Word :=
  match physicalAddress .fetch va 4 s with
  | .exc e s1 => .exc e s1
  | .ok p s1 => readAt .fetch va 4 p s1

/-- `MemRead(va, n)` (R131): the `8n`-bit value, zero-extended. -/
def memRead (va : Word) (n : Nat) (s : State) : Access Word :=
  match physicalAddress .load va n s with
  | .exc e s1 => .exc e s1
  | .ok p s1 => readAt .load va n p s1

/-- `MemWrite(va, n, v)` (R132): the write, then the reservations the store kills. -/
def memWrite (va : Word) (n : Nat) (v : Word) (s : State) : Access Unit :=
  match physicalAddress .store va n s with
  | .exc e s1 => .exc e s1
  | .ok p s1 =>
    match writeAt va n v p s1 with
    | .exc e s2 => .exc e s2
    | .ok _ s2 => .ok () (killReservations s2 p)

/-- What an instruction does with an access: go on with the value, or raise the exception (60_exceptions.md R302). -/
def orRaise {α : Type} (a : Access α) (k : α → State → State) : Host.Outcome State Fault Refusal :=
  match a with
  | .ok v s => .next (k v s)
  | .exc e s => .next (raise e .exec s)

/-! ## What a memory instruction asks of the memory system -/

/-- A memory instruction with its operands read: a transient of the execution, never stored. -/
inductive Request where
  /-- `x[rd] <- ext(MemRead(va, n))` (43_loadstore.md R250). -/
  | load (n : Nat) (ext : Word → Word) (rd : Reg) (va : Word)
  /-- `MemWrite(va, n, v)` (R250). -/
  | store (n : Nat) (va v : Word)
  /-- The critical section of an atomic instruction at the word at `va`, checked and translated as an access of type `t`
  (46_atomic.md R280). -/
  | atomic (t : AccessType) (va : Word) (critical : Word → State → State)

/-- The whole instruction, with no other agent's event between its own. -/
def Request.run (r : Request) (s : State) : Host.Outcome State Fault Refusal :=
  match r with
  | .load n ext rd va => orRaise (memRead va n s) (fun v s1 => s1.writeX rd (ext v))
  | .store n va v => orRaise (memWrite va n v s) (fun _ s1 => s1)
  | .atomic t va critical => orRaise (physicalAddress t va 4 s) critical

end Sys2Proof.Machine
end

