-- ==== Sys2Proof/Machine/Operands.lean ====
section
/-! DEFINITION. The operand forms (spec 30_encoding.md R163, R164; 43_loadstore.md R250; 42_control.md R240, R241, R248;
45_system.md R267): sign-extended immediates, effective addresses, transfer targets, CSR sources. -/

namespace Sys2Proof.Machine

/-- `immI` or `immS`: a 12-bit immediate, sign-extended (R163). -/
def sext12 (imm : BitVec 12) : Word := imm.signExtend 32

/-- `immB`: a 13-bit offset, sign-extended (R163). -/
def sext13 (off : BitVec 13) : Word := off.signExtend 32

/-- `immJ`: a 21-bit offset, sign-extended (R163). -/
def sext21 (off : BitVec 21) : Word := off.signExtend 32

/-- `immU`: bits 31:12, zeros below (R163). -/
def upperImm (imm : BitVec 20) : Word := imm ++ 0#12

/-- `zext_5(uimm)` (R164). -/
def zext5 (u : BitVec 5) : Word := u.setWidth 32

/-- The effective address of a load or store: base register plus sign-extended immediate, modulo 2^32 (R250). -/
def effectiveAddress (s : State) (rs1 : Reg) (imm : BitVec 12) : Word := s.readX rs1 + sext12 imm

/-- The target of JAL (R240). -/
def jalTarget (s : State) (off : BitVec 21) : Word := s.hart.pc + sext21 off

/-- The target of JALR: the sum with bit 0 cleared (R241). -/
def jalrTarget (s : State) (rs1 : Reg) (imm : BitVec 12) : Word := (s.readX rs1 + sext12 imm) &&& 0xFFFFFFFE#32

/-- The target of a conditional branch (R248). -/
def branchTarget (s : State) (off : BitVec 13) : Word := s.hart.pc + sext13 off

/-- The link value: the address after the instruction (R240, R241). -/
def linkAddress (s : State) : Word := s.hart.pc + 4#32

/-- Sign extension of a loaded byte (43_loadstore.md R251). -/
def signByte (v : Word) : Word := (v.setWidth 8).signExtend 32

/-- Sign extension of a loaded halfword (R252). -/
def signHalf (v : Word) : Word := (v.setWidth 16).signExtend 32

/-- Zero extension of a loaded byte (R254). -/
def zeroByte (v : Word) : Word := (v.setWidth 8).setWidth 32

/-- Zero extension of a loaded halfword (R255). -/
def zeroHalf (v : Word) : Word := (v.setWidth 16).setWidth 32

end Sys2Proof.Machine
end

