-- ==== Sys2Proof/Machine/Flags.lean ====
section
/-! DEFINITION. Comparisons and the jumped flag. The hardware has no condition codes, carry, overflow or status flags (spec
10_state.md R36): a comparison answers 0 or 1 in a register (40_integer.md R203, R204, R214, R215) or decides a branch, and the one
flag an instruction sets is `jumped` (R26). -/

namespace Sys2Proof.Machine

/-- `s(a) < s(b)`: both read as two's complement (00_scope.md R10). -/
def signedLess (a b : Word) : Bool := decide (a.toInt < b.toInt)

/-- `u(a) < u(b)`: both read as unsigned (00_scope.md R10). -/
def unsignedLess (a b : Word) : Bool := decide (a.toNat < b.toNat)

/-- A comparison's result in all 32 bits of a register: exactly 0 or 1 (40_integer.md R203). -/
def boolWord (b : Bool) : Word := if b then 1#32 else 0#32

/-- A control transfer that is taken to an aligned target: `pc <- t; jumped <- 1` (42_control.md R240, R248). -/
def jumpTo (s : State) (t : Word) : State := (s.setPc t).setJumped true

/-- A transfer target the hardware accepts: 4-byte aligned (42_control.md R240, R241, R248). -/
def alignedTarget (t : Word) : Bool := decide (t.extractLsb' 0 2 = 0#2)

/-- `InstructionAddressMisaligned(t)` raised by the transfer itself (42_control.md R240, R248). -/
def misalignedTarget (t : Word) : Exc := { cause := .instructionAddressMisaligned, info := some t }

end Sys2Proof.Machine
end

