-- ==== Sys2Proof/Machine/System.lean ====
section
/-! DEFINITION. The system instructions (spec 45_system.md R265-R277): environment call, breakpoint, the six CSR instructions,
SFENCE.VMA. A hart is always in U-mode (60_exceptions.md R340). -/

namespace Sys2Proof.Machine

/-- `raise IllegalInstruction()` (30_encoding.md R177; 60_exceptions.md R315: `MTVAL` is a draw). -/
def illegalInstruction : Exc := { cause := .illegalInstruction, info := none }

/-- `ECALL` (R265). -/
def execEcall (s : State) : Host.Outcome State Fault Refusal := .next (raise { cause := .ecallUMode, info := none } .exec s)

/-- `EBREAK` (R266). -/
def execEbreak (s : State) : Host.Outcome State Fault Refusal := .next (raise { cause := .breakpoint, info := none } .exec s)

/-- `CsrCheck(csr, writes)` (R268), its three steps in order: privileged, read-only, unsupported on write. -/
def csrCheck (c : Config) (csr : CsrAddr) (writes : Bool) : Bool :=
  if csr.extractLsb' 10 2 ≠ 0b00#2 then false
  else if writes = true ∧ csr.extractLsb' 10 2 = 0b11#2 then false
  else if writes = true ∧ c.csrSupported.contains csr = false then false
  else true

/-- The common shape of the CSR instructions (R267): check, read the old value, write the new one if the form writes, `rd` last. -/
def csrAccess (rd : Reg) (csr : CsrAddr) (writes : Bool) (new : Word → Word) (s : State) : Host.Outcome State Fault Refusal :=
  if csrCheck s.cfg csr writes then
    .next ((if writes then s.writeCsr csr (new (s.readCsr csr)) else s).writeX rd (s.readCsr csr))
  else .next (raise illegalInstruction .exec s)

/-- `CSRRW` (R269). -/
def execCsrrw (rd rs1 : Reg) (csr : CsrAddr) (s : State) : Host.Outcome State Fault Refusal :=
  csrAccess rd csr true (fun _ => s.readX rs1) s

/-- `CSRRS` (R270): writes iff the register number of rs1 is not 0. -/
def execCsrrs (rd rs1 : Reg) (csr : CsrAddr) (s : State) : Host.Outcome State Fault Refusal :=
  csrAccess rd csr (decide (rs1 ≠ 0)) (fun old => old ||| s.readX rs1) s

/-- `CSRRC` (R271): writes iff the register number of rs1 is not 0. -/
def execCsrrc (rd rs1 : Reg) (csr : CsrAddr) (s : State) : Host.Outcome State Fault Refusal :=
  csrAccess rd csr (decide (rs1 ≠ 0)) (fun old => old &&& ~~~(s.readX rs1)) s

/-- `CSRRWI` (R272). -/
def execCsrrwi (rd : Reg) (uimm : BitVec 5) (csr : CsrAddr) (s : State) : Host.Outcome State Fault Refusal :=
  csrAccess rd csr true (fun _ => zext5 uimm) s

/-- `CSRRSI` (R273): writes iff uimm is not 0. -/
def execCsrrsi (rd : Reg) (uimm : BitVec 5) (csr : CsrAddr) (s : State) : Host.Outcome State Fault Refusal :=
  csrAccess rd csr (decide (uimm ≠ 0#5)) (fun old => old ||| zext5 uimm) s

/-- `CSRRCI` (R274): writes iff uimm is not 0. -/
def execCsrrci (rd : Reg) (uimm : BitVec 5) (csr : CsrAddr) (s : State) : Host.Outcome State Fault Refusal :=
  csrAccess rd csr (decide (uimm ≠ 0#5)) (fun old => old &&& ~~~(zext5 uimm)) s

/-- `SFENCE.VMA` (R275): both TLBs of the hart are emptied, whatever the operands and the translation mode. -/
def execSfenceVma (s : State) : Host.Outcome State Fault Refusal := .next (flushTlbs s)

end Sys2Proof.Machine
end

