-- ==== Sys2Proof/Machine/Atomic.lean ====
section
/-! DEFINITION. The atomic instructions (spec 46_atomic.md R280-R293). LR.W, SC.W and AMOSWAP.W act on `Mem` past the caches; the
other eight AMOs raise IllegalInstruction. `aq` and `rl` have no effect (R280). -/

namespace Sys2Proof.Machine

/-- CS-LR (R281): load the word from `Mem`, install the reservation of the hart, write `rd`. -/
def lrSection (rd : Reg) (p : Word) (s : State) : State :=
  (setReservation s s.hart.id { valid := true, addr := p }).writeX rd (leWord (Memory.readBytes s.mem p.toNat 4))

/-- What `LR.W` asks (R281): checked and translated as a load. -/
def requestLrW (rd rs1 : Reg) (s : State) : Request := .atomic .load (s.readX rs1) (lrSection rd)

/-- `LR.W` (R281). -/
def execLrW (rd rs1 : Reg) (s : State) : Host.Outcome State Fault Refusal := (requestLrW rd rs1 s).run s

/-- Whether the hart holds a valid reservation at exactly `p` (R282). -/
def holdsReservation (s : State) (p : Word) : Bool :=
  (reservationOf s s.hart.id).valid && decide ((reservationOf s s.hart.id).addr = p)

/-- CS-SC (R282): the store and the kill when the reservation is held; the hart's reservation is cleared either way; `rd` is 0 on
success and 1 on failure. -/
def scSection (rd : Reg) (v p : Word) (s : State) : State :=
  if holdsReservation s p then
    (clearReservation (killReservations (s.setMem (physStoreWord s.cfg s.mem p v)) p) s.hart.id).writeX rd 0#32
  else (clearReservation s s.hart.id).writeX rd 1#32

/-- What `SC.W` asks (R282): checked and translated as a store, before the reservation is tested. -/
def requestScW (rd rs1 rs2 : Reg) (s : State) : Request := .atomic .store (s.readX rs1) (scSection rd (s.readX rs2))

/-- `SC.W` (R282). -/
def execScW (rd rs1 rs2 : Reg) (s : State) : Host.Outcome State Fault Refusal := (requestScW rd rs1 rs2 s).run s

/-- CS-AMO (R283): read the old word and write the new one as one event, kill matching reservations, write `rd`. -/
def swapSection (rd : Reg) (v p : Word) (s : State) : State :=
  (killReservations (s.setMem (physStoreWord s.cfg s.mem p v)) p).writeX rd (leWord (Memory.readBytes s.mem p.toNat 4))

/-- What `AMOSWAP.W` asks (R283): checked and translated as a store. -/
def requestAmoswapW (rd rs1 rs2 : Reg) (s : State) : Request := .atomic .store (s.readX rs1) (swapSection rd (s.readX rs2))

/-- `AMOSWAP.W` (R283). -/
def execAmoswapW (rd rs1 rs2 : Reg) (s : State) : Host.Outcome State Fault Refusal := (requestAmoswapW rd rs1 rs2 s).run s

/-- An AMO that is not implemented raises IllegalInstruction: no register is read or written, no translation is done (R284). -/
def amoStub (s : State) : Host.Outcome State Fault Refusal := .next (raise illegalInstruction .exec s)

/-- `AMOADD.W` (R285). -/
def execAmoaddW (s : State) : Host.Outcome State Fault Refusal := amoStub s

/-- `AMOXOR.W` (R286). -/
def execAmoxorW (s : State) : Host.Outcome State Fault Refusal := amoStub s

/-- `AMOAND.W` (R287). -/
def execAmoandW (s : State) : Host.Outcome State Fault Refusal := amoStub s

/-- `AMOOR.W` (R288). -/
def execAmoorW (s : State) : Host.Outcome State Fault Refusal := amoStub s

/-- `AMOMIN.W` (R289). -/
def execAmominW (s : State) : Host.Outcome State Fault Refusal := amoStub s

/-- `AMOMAX.W` (R290). -/
def execAmomaxW (s : State) : Host.Outcome State Fault Refusal := amoStub s

/-- `AMOMINU.W` (R291). -/
def execAmominuW (s : State) : Host.Outcome State Fault Refusal := amoStub s

/-- `AMOMAXU.W` (R292). -/
def execAmomaxuW (s : State) : Host.Outcome State Fault Refusal := amoStub s

end Sys2Proof.Machine
end

