-- ==== Sys2Proof/Machine/Control.lean ====
section
/-! DEFINITION. Control transfer (spec 42_control.md R240-R249): JAL, JALR and the six conditional branches. A taken transfer to a
target that is not 4-byte aligned raises InstructionAddressMisaligned with the target in `MTVAL`, and writes no register. -/

namespace Sys2Proof.Machine

/-- Jump to `t` and link `pc + 4` into `rd`, or raise (R240, R241). -/
def jumpAndLink (rd : Reg) (t : Word) (s : State) : Host.Outcome State Fault Refusal :=
  if alignedTarget t then .next (jumpTo (s.writeX rd (linkAddress s)) t) else .next (raise (misalignedTarget t) .exec s)

/-- `JAL` (R240). -/
def execJal (rd : Reg) (off : BitVec 21) (s : State) : Host.Outcome State Fault Refusal := jumpAndLink rd (jalTarget s off) s

/-- `JALR` (R241): `x[rs1]` is read before `rd` is written. -/
def execJalr (rd rs1 : Reg) (imm : BitVec 12) (s : State) : Host.Outcome State Fault Refusal :=
  jumpAndLink rd (jalrTarget s rs1 imm) s

/-- `Branch(t)` when the condition holds, nothing at all when it does not (R242, R248). -/
def branchIf (taken : Bool) (off : BitVec 13) (s : State) : Host.Outcome State Fault Refusal :=
  if taken then
    if alignedTarget (branchTarget s off) then .next (jumpTo s (branchTarget s off))
    else .next (raise (misalignedTarget (branchTarget s off)) .exec s)
  else .next s

/-- `BEQ` (R242). -/
def execBeq (rs1 rs2 : Reg) (off : BitVec 13) (s : State) : Host.Outcome State Fault Refusal :=
  branchIf (decide (s.readX rs1 = s.readX rs2)) off s

/-- `BNE` (R243). -/
def execBne (rs1 rs2 : Reg) (off : BitVec 13) (s : State) : Host.Outcome State Fault Refusal :=
  branchIf (decide (s.readX rs1 ≠ s.readX rs2)) off s

/-- `BLT` (R244). -/
def execBlt (rs1 rs2 : Reg) (off : BitVec 13) (s : State) : Host.Outcome State Fault Refusal :=
  branchIf (signedLess (s.readX rs1) (s.readX rs2)) off s

/-- `BGE` (R245). -/
def execBge (rs1 rs2 : Reg) (off : BitVec 13) (s : State) : Host.Outcome State Fault Refusal :=
  branchIf (!signedLess (s.readX rs1) (s.readX rs2)) off s

/-- `BLTU` (R246). -/
def execBltu (rs1 rs2 : Reg) (off : BitVec 13) (s : State) : Host.Outcome State Fault Refusal :=
  branchIf (unsignedLess (s.readX rs1) (s.readX rs2)) off s

/-- `BGEU` (R247). -/
def execBgeu (rs1 rs2 : Reg) (off : BitVec 13) (s : State) : Host.Outcome State Fault Refusal :=
  branchIf (!unsignedLess (s.readX rs1) (s.readX rs2)) off s

end Sys2Proof.Machine
end

