-- ==== Sys2Proof/Machine/Integer.lean ====
section
/-! DEFINITION. The integer computational instructions (spec 40_integer.md R200-R222). None writes anything but `x[rd]`, none reads
memory, none raises (R200); all arithmetic is modulo 2^32 (R201). -/

namespace Sys2Proof.Machine

/-- `x[rd] <- op x[rs1] imm`, the shape of OP-IMM (R200). -/
def aluImm (op : Word → Word → Word) (rd rs1 : Reg) (imm : Word) (s : State) : Host.Outcome State Fault Refusal :=
  .next (s.writeX rd (op (s.readX rs1) imm))

/-- `x[rd] <- op x[rs1] x[rs2]`, the shape of OP (R200): both sources are read before `rd` is written. -/
def aluReg (op : Word → Word → Word) (rd rs1 rs2 : Reg) (s : State) : Host.Outcome State Fault Refusal :=
  .next (s.writeX rd (op (s.readX rs1) (s.readX rs2)))

/-! ## The operations (R201) -/

/-- The low 5 bits of a shift amount (R201). -/
def shiftAmount (v : Word) : Nat := (v.extractLsb' 0 5).toNat

def opAdd (a b : Word) : Word := a + b
def opSub (a b : Word) : Word := a - b
def opXor (a b : Word) : Word := a ^^^ b
def opOr (a b : Word) : Word := a ||| b
def opAnd (a b : Word) : Word := a &&& b
/-- `a << b[4:0]`, zeros entering at bit 0 (R208, R213). -/
def opSll (a b : Word) : Word := a <<< shiftAmount b
/-- `a >>u b[4:0]`, zeros entering at bit 31 (R209, R217). -/
def opSrl (a b : Word) : Word := a >>> shiftAmount b
/-- `a >>s b[4:0]`, copies of bit 31 entering at bit 31 (R210, R218). -/
def opSra (a b : Word) : Word := a.sshiftRight (shiftAmount b)
/-- 1 when `s(a) < s(b)`, else 0 (R203, R214). -/
def opSlt (a b : Word) : Word := boolWord (signedLess a b)
/-- 1 when `u(a) < u(b)`, else 0 (R204, R215). -/
def opSltu (a b : Word) : Word := boolWord (unsignedLess a b)

/-! ## OP-IMM -/

/-- `ADDI` (R202). -/
def execAddi (rd rs1 : Reg) (imm : BitVec 12) (s : State) : Host.Outcome State Fault Refusal :=
  aluImm opAdd rd rs1 (sext12 imm) s

/-- `SLTI` (R203). -/
def execSlti (rd rs1 : Reg) (imm : BitVec 12) (s : State) : Host.Outcome State Fault Refusal :=
  aluImm opSlt rd rs1 (sext12 imm) s

/-- `SLTIU` (R204): the immediate is sign-extended first, then read as unsigned. -/
def execSltiu (rd rs1 : Reg) (imm : BitVec 12) (s : State) : Host.Outcome State Fault Refusal :=
  aluImm opSltu rd rs1 (sext12 imm) s

/-- `XORI` (R205). -/
def execXori (rd rs1 : Reg) (imm : BitVec 12) (s : State) : Host.Outcome State Fault Refusal :=
  aluImm opXor rd rs1 (sext12 imm) s

/-- `ORI` (R206). -/
def execOri (rd rs1 : Reg) (imm : BitVec 12) (s : State) : Host.Outcome State Fault Refusal :=
  aluImm opOr rd rs1 (sext12 imm) s

/-- `ANDI` (R207). -/
def execAndi (rd rs1 : Reg) (imm : BitVec 12) (s : State) : Host.Outcome State Fault Refusal :=
  aluImm opAnd rd rs1 (sext12 imm) s

/-- `SLLI` (R208). -/
def execSlli (rd rs1 : Reg) (shamt : Fin 32) (s : State) : Host.Outcome State Fault Refusal :=
  aluImm opSll rd rs1 (BitVec.ofNat 32 shamt.val) s

/-- `SRLI` (R209). -/
def execSrli (rd rs1 : Reg) (shamt : Fin 32) (s : State) : Host.Outcome State Fault Refusal :=
  aluImm opSrl rd rs1 (BitVec.ofNat 32 shamt.val) s

/-- `SRAI` (R210). -/
def execSrai (rd rs1 : Reg) (shamt : Fin 32) (s : State) : Host.Outcome State Fault Refusal :=
  aluImm opSra rd rs1 (BitVec.ofNat 32 shamt.val) s

/-! ## OP -/

/-- `ADD` (R211). -/
def execAdd (rd rs1 rs2 : Reg) (s : State) : Host.Outcome State Fault Refusal := aluReg opAdd rd rs1 rs2 s

/-- `SUB` (R212). -/
def execSub (rd rs1 rs2 : Reg) (s : State) : Host.Outcome State Fault Refusal := aluReg opSub rd rs1 rs2 s

/-- `SLL` (R213). -/
def execSll (rd rs1 rs2 : Reg) (s : State) : Host.Outcome State Fault Refusal := aluReg opSll rd rs1 rs2 s

/-- `SLT` (R214). -/
def execSlt (rd rs1 rs2 : Reg) (s : State) : Host.Outcome State Fault Refusal := aluReg opSlt rd rs1 rs2 s

/-- `SLTU` (R215). -/
def execSltu (rd rs1 rs2 : Reg) (s : State) : Host.Outcome State Fault Refusal := aluReg opSltu rd rs1 rs2 s

/-- `XOR` (R216). -/
def execXor (rd rs1 rs2 : Reg) (s : State) : Host.Outcome State Fault Refusal := aluReg opXor rd rs1 rs2 s

/-- `SRL` (R217). -/
def execSrl (rd rs1 rs2 : Reg) (s : State) : Host.Outcome State Fault Refusal := aluReg opSrl rd rs1 rs2 s

/-- `SRA` (R218). -/
def execSra (rd rs1 rs2 : Reg) (s : State) : Host.Outcome State Fault Refusal := aluReg opSra rd rs1 rs2 s

/-- `OR` (R219). -/
def execOr (rd rs1 rs2 : Reg) (s : State) : Host.Outcome State Fault Refusal := aluReg opOr rd rs1 rs2 s

/-- `AND` (R220). -/
def execAnd (rd rs1 rs2 : Reg) (s : State) : Host.Outcome State Fault Refusal := aluReg opAnd rd rs1 rs2 s

/-! ## LUI and AUIPC -/

/-- `LUI` (R221). -/
def execLui (rd : Reg) (imm : BitVec 20) (s : State) : Host.Outcome State Fault Refusal := .next (s.writeX rd (upperImm imm))

/-- `AUIPC` (R222): `pc` is the address of the AUIPC itself. -/
def execAuipc (rd : Reg) (imm : BitVec 20) (s : State) : Host.Outcome State Fault Refusal :=
  .next (s.writeX rd (s.hart.pc + upperImm imm))

end Sys2Proof.Machine
end

