-- ==== Sys2Proof/Machine/LoadStore.lean ====
section
/-! DEFINITION. Loads and stores (spec 43_loadstore.md R250-R259): base register plus sign-extended immediate; the access raises
address misaligned, page fault or access fault, in that order, and then has no other effect. -/

namespace Sys2Proof.Machine

/-- `x[rd] <- ext(MemRead(ea, n))` (R250), the address read. -/
def loadRequest (n : Nat) (ext : Word → Word) (rd rs1 : Reg) (imm : BitVec 12) (s : State) : Request :=
  .load n ext rd (effectiveAddress s rs1 imm)

/-- `MemWrite(ea, n, x[rs2])` (R250), the address and the value read. -/
def storeRequest (n : Nat) (rs1 rs2 : Reg) (imm : BitVec 12) (s : State) : Request :=
  .store n (effectiveAddress s rs1 imm) (s.readX rs2)

/-- What `LB` asks (R251). -/
def requestLb (rd rs1 : Reg) (imm : BitVec 12) (s : State) : Request := loadRequest 1 signByte rd rs1 imm s

/-- `LB` (R251). -/
def execLb (rd rs1 : Reg) (imm : BitVec 12) (s : State) : Host.Outcome State Fault Refusal := (requestLb rd rs1 imm s).run s

/-- What `LH` asks (R252). -/
def requestLh (rd rs1 : Reg) (imm : BitVec 12) (s : State) : Request := loadRequest 2 signHalf rd rs1 imm s

/-- `LH` (R252). -/
def execLh (rd rs1 : Reg) (imm : BitVec 12) (s : State) : Host.Outcome State Fault Refusal := (requestLh rd rs1 imm s).run s

/-- What `LW` asks (R253). -/
def requestLw (rd rs1 : Reg) (imm : BitVec 12) (s : State) : Request := loadRequest 4 id rd rs1 imm s

/-- `LW` (R253). -/
def execLw (rd rs1 : Reg) (imm : BitVec 12) (s : State) : Host.Outcome State Fault Refusal := (requestLw rd rs1 imm s).run s

/-- What `LBU` asks (R254). -/
def requestLbu (rd rs1 : Reg) (imm : BitVec 12) (s : State) : Request := loadRequest 1 zeroByte rd rs1 imm s

/-- `LBU` (R254). -/
def execLbu (rd rs1 : Reg) (imm : BitVec 12) (s : State) : Host.Outcome State Fault Refusal := (requestLbu rd rs1 imm s).run s

/-- What `LHU` asks (R255). -/
def requestLhu (rd rs1 : Reg) (imm : BitVec 12) (s : State) : Request := loadRequest 2 zeroHalf rd rs1 imm s

/-- `LHU` (R255). -/
def execLhu (rd rs1 : Reg) (imm : BitVec 12) (s : State) : Host.Outcome State Fault Refusal := (requestLhu rd rs1 imm s).run s

/-- What `SB` asks (R256). -/
def requestSb (rs1 rs2 : Reg) (imm : BitVec 12) (s : State) : Request := storeRequest 1 rs1 rs2 imm s

/-- `SB` (R256). -/
def execSb (rs1 rs2 : Reg) (imm : BitVec 12) (s : State) : Host.Outcome State Fault Refusal := (requestSb rs1 rs2 imm s).run s

/-- What `SH` asks (R257). -/
def requestSh (rs1 rs2 : Reg) (imm : BitVec 12) (s : State) : Request := storeRequest 2 rs1 rs2 imm s

/-- `SH` (R257). -/
def execSh (rs1 rs2 : Reg) (imm : BitVec 12) (s : State) : Host.Outcome State Fault Refusal := (requestSh rs1 rs2 imm s).run s

/-- What `SW` asks (R258). -/
def requestSw (rs1 rs2 : Reg) (imm : BitVec 12) (s : State) : Request := storeRequest 4 rs1 rs2 imm s

/-- `SW` (R258). -/
def execSw (rs1 rs2 : Reg) (imm : BitVec 12) (s : State) : Host.Outcome State Fault Refusal := (requestSw rs1 rs2 imm s).run s

end Sys2Proof.Machine
end

