-- ==== Sys2Proof/Machine/MiscMem.lean ====
section
/-! DEFINITION. The memory-ordering instructions (spec 44_miscmem.md R260, R261). Every field but funct3 is ignored; neither reads
an operand nor raises. -/

namespace Sys2Proof.Machine

/-- `FENCE` (R260): every dirty line of the D-cache is written back and becomes clean; the full fence whatever `pred` and `succ`.
Here with no other agent's event between the write-backs; `flushEvent` (Machine/Events.lean) makes them one by one. -/
def execFence (s : State) : Host.Outcome State Fault Refusal := .next (fenceOp s)

/-- `FENCE.I` (R261): the I-cache is emptied. -/
def execFenceI (s : State) : Host.Outcome State Fault Refusal := .next (fenceIOp s)

end Sys2Proof.Machine
end

