-- ==== Sys2Proof/Machine/MulDiv.lean ====
section
/-! DEFINITION. Multiply and divide (spec 41_muldiv.md R230-R239). None traps, division by zero and overflow included (R230).
Products are exact integers of which 32 bits are selected. -/

namespace Sys2Proof.Machine

/-- Bits 31:0 of the product (R231). -/
def opMul (a b : Word) : Word := BitVec.ofNat 32 (a.toNat * b.toNat)

/-- Bits 63:32 of the signed-signed product (R232). -/
def opMulh (a b : Word) : Word := (BitVec.ofInt 64 (a.toInt * b.toInt)).extractLsb' 32 32

/-- Bits 63:32 of the product of signed `a` and unsigned `b` (R233). -/
def opMulhsu (a b : Word) : Word := (BitVec.ofInt 64 (a.toInt * (b.toNat : Int))).extractLsb' 32 32

/-- Bits 63:32 of the unsigned-unsigned product (R234). -/
def opMulhu (a b : Word) : Word := (BitVec.ofNat 64 (a.toNat * b.toNat)).extractLsb' 32 32

/-- Signed overflow of a division: `a = -2^31` and `b = -1` (R235). -/
def divOverflow (a b : Word) : Bool := decide (a = 0x80000000#32) && decide (b = 0xFFFFFFFF#32)

/-- Signed quotient, rounded toward zero, with the two special cases (R235). -/
def opDiv (a b : Word) : Word :=
  if b = 0#32 then 0xFFFFFFFF#32
  else if divOverflow a b then 0x80000000#32
  else BitVec.ofInt 32 (Int.tdiv a.toInt b.toInt)

/-- Unsigned quotient (R236). -/
def opDivu (a b : Word) : Word := if b = 0#32 then 0xFFFFFFFF#32 else BitVec.ofNat 32 (a.toNat / b.toNat)

/-- Signed remainder `a - b * trunc(a / b)` with the two special cases (R237). -/
def opRem (a b : Word) : Word :=
  if b = 0#32 then a
  else if divOverflow a b then 0#32
  else BitVec.ofInt 32 (a.toInt - b.toInt * Int.tdiv a.toInt b.toInt)

/-- Unsigned remainder (R238). -/
def opRemu (a b : Word) : Word := if b = 0#32 then a else BitVec.ofNat 32 (a.toNat % b.toNat)

/-- `MUL` (R231). -/
def execMul (rd rs1 rs2 : Reg) (s : State) : Host.Outcome State Fault Refusal := aluReg opMul rd rs1 rs2 s

/-- `MULH` (R232). -/
def execMulh (rd rs1 rs2 : Reg) (s : State) : Host.Outcome State Fault Refusal := aluReg opMulh rd rs1 rs2 s

/-- `MULHSU` (R233). -/
def execMulhsu (rd rs1 rs2 : Reg) (s : State) : Host.Outcome State Fault Refusal := aluReg opMulhsu rd rs1 rs2 s

/-- `MULHU` (R234). -/
def execMulhu (rd rs1 rs2 : Reg) (s : State) : Host.Outcome State Fault Refusal := aluReg opMulhu rd rs1 rs2 s

/-- `DIV` (R235). -/
def execDiv (rd rs1 rs2 : Reg) (s : State) : Host.Outcome State Fault Refusal := aluReg opDiv rd rs1 rs2 s

/-- `DIVU` (R236). -/
def execDivu (rd rs1 rs2 : Reg) (s : State) : Host.Outcome State Fault Refusal := aluReg opDivu rd rs1 rs2 s

/-- `REM` (R237). -/
def execRem (rd rs1 rs2 : Reg) (s : State) : Host.Outcome State Fault Refusal := aluReg opRem rd rs1 rs2 s

/-- `REMU` (R238). -/
def execRemu (rd rs1 rs2 : Reg) (s : State) : Host.Outcome State Fault Refusal := aluReg opRemu rd rs1 rs2 s

end Sys2Proof.Machine
end

