-- ==== Sys2Proof/Machine/Iterate.lean ====
section
/-! DEFINITION. One iteration of the acting hart with no other agent's event between its own (spec 60_exceptions.md R301, R302, R345,
R347). -/

namespace Sys2Proof.Machine

/-- The end of phase 4 (R301): the `pc + 4` of an executed instruction, unless the hart stays at the trap port, where it is still
to come (`afterPort .exec`). -/
def finishExecute (s : State) : State := if s.hart.port = [] then s.advancePc else s

/-- Decode a fetched word and go on (R302): by `run` with its instruction, by IllegalInstruction, Abort or the refusal. -/
def decodeThen (run : Instr → State → Host.Outcome State Fault Refusal) (w : Word) (s : State) : Host.Outcome State Fault Refusal :=
  match decode w with
  | .instr i => run i s
  | .illegal => .next (finishExecute (raise illegalInstruction .exec s))
  | .unsupported => .fault (.abortUnsupportedOpcode w)
  | .floatingPoint => .refused (.floatingPoint w)

/-- The instruction's meaning and the end of the step. -/
def executeInstr (i : Instr) (s : State) : Host.Outcome State Fault Refusal :=
  match exec i s with
  | .next t => .next (finishExecute t)
  | .fault r => .fault r
  | .refused r => .refused r

/-- `Execute(inst)` and the end of the step (R301 phase 4, R302). -/
def executeWord (w : Word) (s : State) : Host.Outcome State Fault Refusal := decodeThen executeInstr w s

/-- Phase 4 (R301): fetch; if the fetch did not raise, execute. A fetch that raises leaves `pc` alone (R301 (c)). -/
def fetchExecute (s : State) : Host.Outcome State Fault Refusal :=
  match fetchWord s.hart.pc s with
  | .exc e s1 => .next (raise e .fetch s1)
  | .ok w s1 => executeWord w s1

/-- `Step(h)` (R301): clear `jumped`; the timer; the poll counter; and, if no trap was delivered and the hart still runs, one
instruction. When the hart stays at the port of the timer trap, phase 3 is still to come (`afterPort .timer`). -/
def runningStep (s : State) : Host.Outcome State Fault Refusal :=
  let s0 := s.setJumped false
  let r2 := timerPhase s0
  if held s0 r2.2 then .next r2.2
  else
    let r3 := pollPhase r2.2
    if r2.1 = true ∨ r3.1 = true ∨ r3.2.hart.life ≠ .running then .next r3.2 else fetchExecute r3.2

/-- `NopIteration` (R347): clear `jumped`, poll; no instruction, no timer, no poll counter. -/
def nopIteration (s : State) : State := (checkInterrupts (s.setJumped false)).2

/-- One loop iteration of a hart at no port, or its going on at a port (R345). A stopped hart has no iteration: nothing happens
(log 22). -/
def wholeTurn (s : State) : Host.Outcome State Fault Refusal :=
  if s.hart.port = [] then
    match s.hart.life with
    | .stopped => .next s
    | .stopping => .next (s.setLife .stopped)
    | .nopLoop => .next (nopIteration s)
    | .running => runningStep s
  else resumePort s

end Sys2Proof.Machine
end

