-- ==== Sys2Proof/Machine/Events.lean ====
section
/-! DEFINITION. The same iteration one shared event at a time (spec 60_exceptions.md R300; 00_scope.md R4; 93_implementation_defined.md
U4, U5): a hart goes on by one event of 20_memory.md R73, one critical section of R141, or one access to a cell of the IPI matrix, and
what comes next is kept in its `task`, so that other agents' events can fall between. Every piece of work is done by the operation
the whole iteration uses. -/

namespace Sys2Proof.Machine

/-- What a piece of an iteration comes to: a value, an exception to raise, or another shared event to wait for. -/
inductive Progress (α : Type) where
  | ok (a : α) (s : State)
  | exc (e : Exc) (s : State)
  | wait (t : Task) (s : State)

/-- Go on with a value. -/
def Progress.bind {α β : Type} (r : Progress α) (k : α → State → Progress β) : Progress β :=
  match r with
  | .ok a s => k a s
  | .exc e s => .exc e s
  | .wait t s => .wait t s

/-- A memory primitive that waits for nothing more. -/
def Access.progress {α : Type} (a : Access α) : Progress α :=
  match a with
  | .ok v s => .ok v s
  | .exc e s => .exc e s

/-! ## Translation: each read of a page-table entry is an event (20_memory.md R114) -/

/-- Steps 1 to 3 of an access up to the first read of a walk; `waitAt` says which task waits at a stage of it. -/
def startAddress (waitAt : Stage → Task) (t : AccessType) (va : Word) (n : Nat) (s : State) : Progress Word :=
  if misaligned va n then .exc { cause := t.misaligned, info := some va } s
  else
    match tlbTranslate t va s with
    | some a => (checkRange t va n a).progress
    | none => .wait (waitAt (.pte 1 (rootTable s.hart.csr.satp))) s

/-- One E-LW of a walk, and what follows it up to the next one. -/
def pteEvent (waitAt : Stage → Task) (t : AccessType) (va : Word) (n level : Nat) (table : Word) (s : State) : Progress Word :=
  match readPte s.cfg s.mem va level table with
  | .fail => .exc (pageFaultAt t va) s
  | .pointer lower => .wait (waitAt (.pte (level - 1) lower)) s
  | .leaf pte => (checkRange t va n (leafTranslate t va level pte s)).progress

/-- A cache hit: no event on `Mem` (20_memory.md R73). -/
def hits (st : Stream) (p : Word) (s : State) : Bool :=
  s.cfg.cacheEnable && ((s.cache st).find (lineNumber s.cfg p.toNat)).isSome

/-! ## The execution of an instruction -/

/-- What a memory instruction asks; `none` for an instruction that performs no access. -/
def requestOf (i : Instr) (s : State) : Option Request :=
  match i with
  | .lb rd rs1 imm => some (requestLb rd rs1 imm s)
  | .lh rd rs1 imm => some (requestLh rd rs1 imm s)
  | .lw rd rs1 imm => some (requestLw rd rs1 imm s)
  | .lbu rd rs1 imm => some (requestLbu rd rs1 imm s)
  | .lhu rd rs1 imm => some (requestLhu rd rs1 imm s)
  | .sb rs1 rs2 imm => some (requestSb rs1 rs2 imm s)
  | .sh rs1 rs2 imm => some (requestSh rs1 rs2 imm s)
  | .sw rs1 rs2 imm => some (requestSw rs1 rs2 imm s)
  | .lrW rd rs1 _ _ => some (requestLrW rd rs1 s)
  | .scW rd rs1 rs2 _ _ => some (requestScW rd rs1 rs2 s)
  | .amoswapW rd rs1 rs2 _ _ => some (requestAmoswapW rd rs1 rs2 s)
  | _ => none

/-- The type of a request's access (20_memory.md R113; 46_atomic.md R280). -/
def Request.type : Request → AccessType
  | .load _ _ _ _ => .load
  | .store _ _ _ => .store
  | .atomic t _ _ => t

/-- The virtual address. -/
def Request.va : Request → Word
  | .load _ _ _ va => va
  | .store _ va _ => va
  | .atomic _ va _ => va

/-- The width in bytes. -/
def Request.width : Request → Nat
  | .load n _ _ _ => n
  | .store n _ _ => n
  | .atomic _ _ _ => 4

/-- The access at the physical address `p` and what follows it: one event, or none on a hit. A plain store's CS-KILL is another one
(20_memory.md R132, R141). -/
def Request.access (r : Request) (p : Word) (s : State) : Progress Unit :=
  match r with
  | .load n ext rd va => (readAt .load va n p s).progress.bind (fun v s1 => .ok () (s1.writeX rd (ext v)))
  | .store n va v => (writeAt va n v p s).progress.bind (fun _ s1 => .wait (.kill p) s1)
  | .atomic _ _ critical => .ok () (critical p s)

/-- Whether the access at `p` needs no event on `Mem`: a load or store that hits. An atomic instruction goes past the caches. -/
def Request.hits (r : Request) (p : Word) (s : State) : Bool :=
  match r with
  | .load _ _ _ _ => Machine.hits .data p s
  | .store _ _ _ => Machine.hits .data p s
  | .atomic _ _ _ => false

/-- At its physical address, an access that hits goes on at once, and one that misses waits for its event. -/
def Request.atAddress (i : Instr) (r : Request) (p : Word) (s : State) : Progress Unit :=
  if r.hits p s then r.access p s else .wait (.exec i (.access p)) s

/-- A memory instruction up to its first event. -/
def Request.start (i : Instr) (r : Request) (s : State) : Progress Unit :=
  (startAddress (.exec i) r.type r.va r.width s).bind (r.atAddress i)

/-- One event of a memory instruction, and what follows it up to the next one. -/
def Request.event (i : Instr) (r : Request) (st : Stage) (s : State) : Progress Unit :=
  match st with
  | .pte level table => (pteEvent (.exec i) r.type r.va r.width level table s).bind (r.atAddress i)
  | .access p => r.access p s

/-- The end of an execution that has come to `r`: the `pc + 4`, the exception, or the wait. -/
def concludeExecute (r : Progress Unit) : Host.Outcome State Fault Refusal :=
  match r with
  | .ok _ s => .next (finishExecute s)
  | .exc e s => .next (finishExecute (raise e .exec s))
  | .wait t s => .next (s.setTask t)

/-- An instruction up to its first event. One that performs no access and finds no dirty line to write back is executed. -/
def startInstr (i : Instr) (s : State) : Host.Outcome State Fault Refusal :=
  match requestOf i s with
  | some r => concludeExecute (r.start i s)
  | none =>
    match i with
    | .fence _ _ _ _ _ => if s.cfg.cacheEnable && anyDirty s then .next (s.setTask .flush) else executeInstr i s
    | _ => executeInstr i s

/-- One event of an instruction in progress. -/
def execEvent (i : Instr) (st : Stage) (s : State) : Host.Outcome State Fault Refusal :=
  match requestOf i s with
  | some r => concludeExecute (r.event i st s)
  | none => executeInstr i s

/-- The E-WB of the line in a slot, in a FENCE (20_memory.md R87): the FENCE ends when no line is dirty any more. A slot whose line
is not dirty has none. -/
def flushEvent (slot : Nat) (s : State) : State :=
  if anyDirty (flushSlot slot s) then flushSlot slot s else finishExecute ((flushSlot slot s).setTask .idle)

/-! ## The fetch -/

/-- At its physical address, a fetch that hits goes on at once, and one that misses waits for its event (20_memory.md R130). -/
def fetchAtAddress (va p : Word) (s : State) : Progress Word :=
  if hits .instruction p s then (readAt .fetch va 4 p s).progress else .wait (.fetch (.access p)) s

/-- A fetch that has come to `r`: the execution begins, the exception is raised, or the wait. -/
def concludeFetch (r : Progress Word) : Host.Outcome State Fault Refusal :=
  match r with
  | .ok w s => decodeThen startInstr w s
  | .exc e s => .next (raise e .fetch s)
  | .wait t s => .next (s.setTask t)

/-- Phase 4 of a step up to its first event (R301). -/
def startFetch (s : State) : Host.Outcome State Fault Refusal :=
  concludeFetch ((startAddress .fetch .fetch s.hart.pc 4 s).bind (fetchAtAddress s.hart.pc))

/-- One event of a fetch, and what follows it up to the next one. -/
def fetchEvent (st : Stage) (s : State) : Host.Outcome State Fault Refusal :=
  concludeFetch
    (match st with
    | .pte level table => (pteEvent .fetch .fetch s.hart.pc 4 level table s).bind (fetchAtAddress s.hart.pc)
    | .access p => (readAt .fetch s.hart.pc 4 p s).progress)

/-! ## The poll (60_exceptions.md R331) -/

/-- Phase 4 after the last cell of a poll that took no trap, in a step that may fetch (R301). -/
def afterScan (thenFetch : Bool) (s : State) : Host.Outcome State Fault Refusal :=
  if thenFetch = true ∧ s.hart.life = .running then startFetch s else .next s

/-- Go on to the load of the next cell, or past the last one. -/
def scanOn (rest : List Nat) (thenFetch : Bool) (s : State) : Host.Outcome State Fault Refusal :=
  if rest = [] then afterScan thenFetch s else .next (s.setTask (.scan rest thenFetch))

/-- The load of one cell: an empty one is passed over; a full one is recorded and its interrupt taken, and after the Host has
finished its zeroing comes next. -/
def scanEvent (sources : List Nat) (thenFetch : Bool) (s : State) : Host.Outcome State Fault Refusal :=
  match sources with
  | [] => afterScan thenFetch s
  | src :: rest =>
    if s.gridRead s.hart.id src = 0#32 then scanOn rest thenFetch s
    else
      let s1 := deliverExternal src s
      .next (if held s s1 then s1 else s1.setTask (.zero src rest))

/-! ## The events of a hart -/

/-- The next shared event of a hart in the middle of something, and what follows it up to the next one. -/
def taskEvent (s : State) : Host.Outcome State Fault Refusal :=
  let s0 := s.setTask .idle
  match s.hart.task with
  | .idle => .next s
  | .scan rest thenFetch => scanEvent rest thenFetch s0
  | .zero src rest => scanOn rest false (s0.gridWrite s.hart.id src 0#32)
  | .fetch st => fetchEvent st s0
  | .exec i st => execEvent i st s0
  | .kill p => .next (finishExecute (killReservations s0 p))
  | .flush => .next (flushEvent (firstDirty s) s)
  | .consume =>
    let s1 := s0.gridWrite s.hart.id s.hart.id 0#32
    match s.hart.port with
    | [] => .next s1
    | a :: below => .next (continueSplit a below a.script.tail s1)

/-- A step up to its first event (R301): phases 1 and 2 perform none. -/
def startStep (s : State) : Host.Outcome State Fault Refusal :=
  let s0 := s.setJumped false
  let r := timerPhase s0
  if held s0 r.2 then .next r.2
  else if r.2.hart.pollctr + 1 = r.2.cfg.pollInterval then
    .next ((r.2.setPollctr 0).setTask (.scan (pollSources r.2.cfg r.2.hart.id) (!r.1)))
  else afterScan (!r.1) (r.2.setPollctr (r.2.hart.pollctr + 1))

/-- A hart in the middle of nothing goes on by at most one event: `wholeTurn` up to its first event (R345, R347). -/
def startTurn (s : State) : Host.Outcome State Fault Refusal :=
  if s.hart.port = [] then
    match s.hart.life with
    | .stopped => .next s
    | .stopping => .next (s.setLife .stopped)
    | .nopLoop => .next ((s.setJumped false).setTask (.scan (pollSources s.cfg s.hart.id) false))
    | .running => startStep s
  else resumeSplit s

end Sys2Proof.Machine
end

