-- ==== Sys2Proof/Machine/Turn.lean ====
section
/-! DEFINITION. The turns of the agents (spec 60_exceptions.md R300): of a hart, and the Host's actions (R330, R332, R346, R352;
70_reset_and_hazards.md R363); and the placing of an instruction for the next fetch. -/

namespace Sys2Proof.Machine

/-! ## Turns -/

/-- A turn of the acting hart: one event when it is in the middle of something, else a whole iteration, or its going on at a port. -/
def iterate (s : State) : Host.Outcome State Fault Refusal := if s.hart.task = .idle then wholeTurn s else taskEvent s

/-- A turn of the acting hart by at most one event. -/
def splitTurn (s : State) : Host.Outcome State Fault Refusal := if s.hart.task = .idle then startTurn s else taskEvent s

/-- The E-WB of a slot of a hart in the middle of a FENCE (20_memory.md R87, U4); another hart has none. -/
def writeBackTurn (slot : Nat) (s : State) : State := if s.hart.task = .flush then flushEvent slot s else s

/-- Put a hart among the parked ones, by rising id. -/
def insertHart (g : Hart) : List Hart → List Hart
  | [] => [g]
  | k :: ks => if g.id < k.id then g :: k :: ks else k :: insertHart g ks

/-- Make hart `h` the acting one; `none` when there is no such hart. -/
def focus (h : Nat) (s : State) : Option State :=
  if s.hart.id = h then some s
  else
    (s.parked.find? (fun g => decide (g.id = h))).map
      (fun g => { s with hart := g, parked := insertHart s.hart (s.parked.filter (fun k => decide (k.id ≠ h))) })

/-- Do something with hart `h`; nothing when there is no such hart (log 25). -/
def onHart (h : Nat) (f : State → Host.Outcome State Fault Refusal) (s : State) : Host.Outcome State Fault Refusal :=
  match focus h s with
  | some s1 => f s1
  | none => .next s

/-- `start()` (R346; 70 R363): a stopped hart is set running and presented at the boot port; no effect in another state (D40). -/
def startHart (s : State) : State := if s.hart.life = .stopped then present .boot (s.setLife .running) else s

/-- Host access to a stopped hart (R352): what the Host can do at once is done; a hart that is not stopped is left alone. -/
def accessHart (a : HostAct) (s : State) : State := if s.hart.life = .stopped then (hostAct a s).getD s else s

/-- The system's compare-and-swap on `grid[t][N]` (R332); to no hart it is misuse, Abort (R335). -/
def systemRaise (t : Nat) (code : Word) (s : State) : Host.Outcome State Fault Refusal :=
  if s.cfg.hartCount ≤ t then .fault .abortIpiMisuse
  else if s.gridRead t s.cfg.hartCount = 0#32 then .next (s.gridWrite t s.cfg.hartCount code)
  else .next s

/-- The system loads the cell `grid[N][src]` (R330). -/
def systemLoad (src : Nat) (s : State) : State :=
  if src ≤ s.cfg.hartCount then { s with sysResponse := s.gridRead s.cfg.hartCount src } else s

/-- The system stores 0 to the cell `grid[N][src]` (R330). -/
def systemClear (src : Nat) (s : State) : State := if src ≤ s.cfg.hartCount then s.gridWrite s.cfg.hartCount src 0#32 else s

/-- One turn (R300). -/
def turn (t : Turn) (s : State) : Host.Outcome State Fault Refusal :=
  match t with
  | .hart h => onHart h iterate s
  | .split h => onHart h splitTurn s
  | .writeBack h slot => onHart h (fun s1 => .next (writeBackTurn slot s1)) s
  | .start h => onHart h (fun s1 => .next (startHart s1)) s
  | .stop h => onHart h (fun s1 => .next (s1.setLife s1.hart.life.stop)) s
  | .halt h => onHart h (fun s1 => .next (s1.setLife s1.hart.life.halt)) s
  | .access h a => onHart h (fun s1 => .next (accessHart a s1)) s
  | .writeMem a bs => .next (s.setMem (writeRaw s.cfg s.mem a bs))
  | .clearRes i => .next (clearReservation s i)
  | .sysRaise h code => systemRaise h code s
  | .sysTake src => .next (systemClear src (systemLoad src s))
  | .sysLoad src => .next (systemLoad src s)
  | .sysClear src => .next (systemClear src s)
  | .tlbDrop h st slot => onHart h (fun s1 => .next (s1.setTlb st ((s1.tlb st).set slot tlbSentinel))) s

/-- The next turn: the first one scheduled, or the acting hart's when none is (log 12). -/
def nextTurn (s : State) : Host.Outcome State Fault Refusal :=
  match s.agenda with
  | [] => iterate s
  | t :: rest => turn t { s with agenda := rest }

/-! ## Placing an instruction for the next fetch -/

/-- The address the next instruction is placed at: the pc, or 0 where the pc is no address an instruction can be fetched from. -/
def placeAddress (s : State) : Word :=
  if misaligned s.hart.pc 4 = false ∧ inRange s.cfg s.hart.pc.toNat 4 = true then s.hart.pc else 0#32

/-- Empty the acting hart's inbound cells, where a poll would otherwise come before the instruction (`K = 1`). -/
def quietInbound (s : State) : State :=
  if s.cfg.pollInterval = 1 then (pollSources s.cfg s.hart.id).foldl (fun u src => u.gridWrite u.hart.id src 0#32) s else s

/-- The acting hart running, at no port and in the middle of nothing, with bare translation, an empty I-cache, no timer and no poll
due, and the word at its pc. -/
def placeWord (w : Word) (s : State) : State :=
  let h := s.hart
  let pc := placeAddress s
  quietInbound
    { s with
      agenda := [],
      mem := Memory.writeBytes s.mem pc.toNat (leBytes 4 w),
      hart := { h with pc := pc, life := .running, port := [], task := .idle, icache := [], pollctr := 0,
                       timer := { h.timer with enabled := false },
                       csr := { h.csr with satp := h.csr.satp &&& 0x7FFFFFFF#32 } } }

end Sys2Proof.Machine
end

