-- ==== Sys2Proof/Machine/Step.lean ====
section
/-! DEFINITION. One step of the system, and the placing of an instruction for the next step's fetch. -/

namespace Sys2Proof.Machine

/-- One step of the system: one turn of one agent (spec 60_exceptions.md R300, R345). -/
def step (s : State) : Host.Outcome State Fault Refusal := nextTurn s

/-- `s` with the table word `w` (its bits above `nbits` zero) where the acting hart fetches next, and everything set that this takes:
no scheduled turn before it, the hart running at its pc in bare mode with an empty I-cache, no timer and no poll due. It stands for
the Host's loading and booting of a program (70_reset_and_hazards.md R365; log 16). -/
def State.withFetchWord (s : State) (nbits w : Nat) : State := placeWord (BitVec.ofNat 32 (w % 2 ^ nbits)) s

end Sys2Proof.Machine
end

