-- ==== Sys2Proof/Safety.lean ====
section
/-! DEFINITION. What claims are stated in: what a hart sees of memory, the invariant every step keeps, and the shapes of change an
instruction makes (its frame). -/

namespace Sys2Proof.Machine

/-! ## What a hart sees -/

/-- The byte at a physical address as the acting hart's loads see it: its own cached copy where it has one, else `Mem` (spec
20_memory.md R150; 43_loadstore.md R259, "the hart's view"). -/
def viewByte (s : State) (a : Nat) : Byte :=
  if s.cfg.cacheEnable then
    match (s.cache .data).find (lineNumber s.cfg a) with
    | some l => l.data.getD (lineOffset s.cfg a) 0#8
    | none => Memory.read s.mem a
  else Memory.read s.mem a

/-- `n` bytes of the hart's view from address `a` up. -/
def viewBytes (s : State) (a : Nat) : Nat → List Byte
  | 0 => []
  | n + 1 => viewByte s a :: viewBytes s (a + 1) n

/-- The byte at a physical address as the acting hart's fetches see it (20_memory.md R130, R154). -/
def fetchByte (s : State) (a : Nat) : Byte :=
  if s.cfg.cacheEnable then
    match (s.cache .instruction).find (lineNumber s.cfg a) with
    | some l => l.data.getD (lineOffset s.cfg a) 0#8
    | none => Memory.read s.mem a
  else Memory.read s.mem a

/-- Byte `k` of a word, byte 0 the least significant (20_memory.md R75). -/
def byteOf (v : Word) (k : Nat) : Byte := v.extractLsb' (8 * k) 8

/-- Every byte of `Mem` either is as it was, or is what the hart's view of it was: a refill wrote a dirty victim back (20_memory.md
R86, R150 (b), (c)). -/
def OnlyWrittenBack (s t : State) : Prop :=
  ∀ a, Memory.read t.mem a = Memory.read s.mem a ∨ Memory.read t.mem a = viewByte s a

/-- What the hart sees of `Mem` is as it was at `a`, or the hart's clean copy of another line than the accessed one was evicted, so
that it sees `Mem` there again (20_memory.md R150 (d): only the hart's own random replacement removes a copy). -/
def SameView (s t : State) (accessed a : Nat) : Prop :=
  viewByte t a = viewByte s a ∨
    (viewByte t a = Memory.read s.mem a ∧ lineNumber s.cfg a ≠ lineNumber s.cfg accessed ∧
      ∃ l, (s.cache .data).find (lineNumber s.cfg a) = some l ∧ l.dirty = false)

/-! ## The invariant -/

/-- A cache's invariants (20_memory.md R80, R82; 00_scope.md R9): at most `C` lines, no two of one tag, each of `L` bytes and in
range. -/
def Cache.wf (c : Config) (k : Cache) : Prop :=
  k.length ≤ c.cacheSlots ∧ (k.map Line.tag).Nodup ∧
    ∀ l ∈ k, l.data.length = c.lineSize ∧ inRange c (l.tag * c.lineSize) c.lineSize = true

/-- A TLB's shape (20_memory.md R101): `TLB_SIZE` entries, each the sentinel or with bit 63 zero. -/
def Tlb.wf (c : Config) (t : Tlb) : Prop := t.length = c.tlbSize ∧ ∀ e ∈ t, e = tlbSentinel ∨ e.getLsbD 63 = false

/-- What a hart in the middle of a poll keeps: the sources still to scan are in `0 .. N` (60_exceptions.md R331). -/
def Task.wf (c : Config) : Task → Prop
  | .scan rest _ => ∀ k ∈ rest, k ≤ c.hartCount
  | .zero _ rest => ∀ k ∈ rest, k ≤ c.hartCount
  | _ => True

/-- What every hart keeps: an id below `N`; cell 0 of the register file never written (10_state.md R21); well-formed caches and
TLBs, the I-cache never dirty (20_memory.md R82), no line while caches are disabled (R90); an originator in `0 .. N` (10_state.md
R28); a poll counter in `0 .. K-1` (R30); the CSR cells in canonical form; a well-formed task. -/
def Hart.wf (c : Config) (h : Hart) : Prop :=
  h.id < c.hartCount ∧ h.x.get 0 = 0#32 ∧ h.icache.wf c ∧ h.dcache.wf c ∧ (∀ l ∈ h.icache, l.dirty = false) ∧
    (c.cacheEnable = false → h.icache = [] ∧ h.dcache = []) ∧ h.itlb.wf c ∧ h.dtlb.wf c ∧
    h.interruptedBy ≤ c.hartCount ∧ h.pollctr < c.pollInterval ∧ Sparse.wf 0#32 h.csr.other = true ∧ h.task.wf c

/-- The invariant of the system: a legal configuration (00_scope.md R9); every hart well formed; the harts' ids are `0 .. N-1`, each
once (10_state.md R20), the parked ones rising; one reservation slot per hart (R34); `Mem` and the IPI matrix in canonical form,
`Mem` listing no address out of range (20_memory.md R70). -/
def SysInv (s : State) : Prop :=
  s.cfg.wf = true ∧ s.hart.wf s.cfg ∧ (∀ h ∈ s.parked, h.wf s.cfg) ∧
    s.parked.Pairwise (fun g h => g.id < h.id) ∧ (∀ h ∈ s.parked, h.id ≠ s.hart.id) ∧ s.parked.length + 1 = s.cfg.hartCount ∧
    s.res.length = s.cfg.hartCount ∧ Memory.wf s.mem = true ∧ (∀ e ∈ s.mem, e.1 < s.cfg.memSize) ∧ Sparse.wf 0#32 s.grid = true

/-! ## Shapes of change -/

/-- Nothing but the integer register file changed, and of it only `x[rd]`, which holds `v` unless `rd` is `x0`, whose write is
discarded (10_state.md R21). Every other register, the pc, every CSR, cache, TLB, reservation, matrix cell and byte of memory is as it
was. -/
def WritesOnlyX (s t : State) (rd : Reg) (v : Word) : Prop :=
  t = { s with hart := { s.hart with x := t.hart.x } } ∧ ∀ q, t.readX q = if q = rd ∧ rd ≠ 0 then v else s.readX q

/-- `x[rd]` holds `v` unless `rd` is `x0`, and every other integer register is as it was. -/
def WritesRd (s t : State) (rd : Reg) (v : Word) : Prop := ∀ q, t.readX q = if q = rd ∧ rd ≠ 0 then v else s.readX q

/-- What the hardware leaves before it presents the hart to the Host at the trap port (60_exceptions.md R310 steps 1 and 2, R315):
`MCAUSE` is `code`, `MEPC` is the pc, `MTVAL` is `info`; `n` is how many free values were taken. Nothing else is saved or changed. -/
def trapSaved (s : State) (code info : Word) (n : Nat) : State :=
  { s with
    draws := n,
    hart := { s.hart with csr := { s.hart.csr with mcause := code, mepc := s.hart.pc, mtval := info } } }

/-- What an exception with a Host that does nothing leaves: `MCAUSE` and `MEPC` as given, `MTVAL` whatever it is, at most one more
free value taken, and everything else as it was (60_exceptions.md R310, R313, R321). -/
def TrapsOnly (s t : State) (code : Word) : Prop := t = trapSaved s code t.hart.csr.mtval t.draws

/-- Nothing but the D-TLB, the D-cache, the written-back bytes of `Mem`, the free-value counter and the registers `x` changed. -/
def LoadFrame (s t : State) : Prop :=
  t = { s with
        mem := t.mem, draws := t.draws,
        hart := { s.hart with x := t.hart.x, dcache := t.hart.dcache, dtlb := t.hart.dtlb } }

/-- Nothing but the D-TLB, the D-cache, the written-back bytes of `Mem`, the free-value counter and the reservations changed. -/
def StoreFrame (s t : State) : Prop :=
  t = { s with
        mem := t.mem, draws := t.draws, res := t.res,
        hart := { s.hart with dcache := t.hart.dcache, dtlb := t.hart.dtlb } }

/-- The reservations after `KillReservations(p)` (20_memory.md R142): a valid one that a store at `p` matches has become invalid, and
nothing else about any of them changed. -/
def KilledAt (s t : State) (p : Word) : Prop :=
  t.res.length = s.res.length ∧
    ∀ (k : Nat) (r : Reservation), s.res[k]? = some r →
      (r.valid = true ∧ (p = r.addr ∨ (p, r.addr) ∈ s.cfg.resMatchExtra) → t.res[k]? = some { r with valid := false }) ∧
        (¬ (r.valid = true ∧ (p = r.addr ∨ (p, r.addr) ∈ s.cfg.resMatchExtra)) → t.res[k]? = some r)

/-! ## Shapes of an instruction's rule -/

/-- The word `w` is the instruction `i`, and `i` completes from `s` with `v` in `x[rd]` and nothing else changed. -/
def Computes (w : Word) (i : Instr) (s : State) (rd : Reg) (v : Word) : Prop :=
  decode w = .instr i ∧ ∃ t, exec i s = .next t ∧ WritesOnlyX s t rd v

/-- `i` raises the exception `cause`, with `info` for `MTVAL` where its rule gives a value, in the state `s` (60_exceptions.md R310). -/
def Raises (i : Instr) (s : State) (cause : Cause) (info : Option Word) (s1 : State) : Prop :=
  exec i s = .next (raise { cause := cause, info := info } .exec s1)

/-- The rule of a control transfer to `target` that links into `rd` (42_control.md R240, R241). -/
def JumpRule (i : Instr) (s : State) (rd : Reg) (target : Word) : Prop :=
  (target.toNat % 4 = 0 →
    ∃ t, exec i s = .next t ∧ WritesRd s t rd (s.hart.pc + 4#32) ∧
      t = { s with hart := { s.hart with x := t.hart.x, pc := target, jumped := true } }) ∧
    (target.toNat % 4 ≠ 0 → Raises i s .instructionAddressMisaligned (some target) s)

/-- The rule of a conditional branch to `target` (42_control.md R242, R248). -/
def BranchRule (i : Instr) (s : State) (taken : Prop) (target : Word) : Prop :=
  (taken → target.toNat % 4 = 0 → exec i s = .next { s with hart := { s.hart with pc := target, jumped := true } }) ∧
    (taken → target.toNat % 4 ≠ 0 → Raises i s .instructionAddressMisaligned (some target) s) ∧
    (¬ taken → exec i s = .next s)

/-- The accessed line is in the hart's D-cache (20_memory.md R83). -/
def DataHit (s : State) (p : Nat) : Prop := s.cfg.cacheEnable = true ∧ ∃ l ∈ s.hart.dcache, l.tag = p / s.cfg.lineSize

/-- The rule of a load of `n` bytes at `ea` (43_loadstore.md R250): the three exceptions in their order; else `x[rd]` holds `value` of
the bytes as the hart sees them, and what the hart sees of memory is the same afterwards, a clean victim's line apart. On a hit neither
a line nor a byte of `Mem` changes (20_memory.md R83; 43_loadstore.md R259). -/
def LoadRule (i : Instr) (s : State) (rd : Reg) (ea : Word) (n : Nat) (value : List Byte → Word) : Prop :=
  (ea.toNat % n ≠ 0 → Raises i s .loadAddressMisaligned (some ea) s) ∧
    (ea.toNat % n = 0 →
      (∀ e s1, translateVa .load ea s = .exc e s1 → Raises i s .loadPageFault (some ea) s) ∧
        ∀ p s1, translateVa .load ea s = .ok p s1 →
          (s.cfg.memSize < p.toNat + n → Raises i s .loadAccessFault (some ea) s1) ∧
            (p.toNat + n ≤ s.cfg.memSize →
              ∃ t, exec i s = .next t ∧ WritesRd s t rd (value (viewBytes s p.toNat n)) ∧ LoadFrame s t ∧
                t.hart.dtlb = s1.hart.dtlb ∧ (∀ a, SameView s t p.toNat a) ∧ OnlyWrittenBack s t ∧
                (DataHit s p.toNat → t.mem = s.mem ∧ t.hart.dcache = s.hart.dcache ∧ t.draws = s.draws)))

/-- The rule of a store of the low `n` bytes of `v` at `ea` (43_loadstore.md R250; 20_memory.md R132): the three exceptions in their
order; else exactly these bytes of what the hart sees of memory change, `Mem` changes by write-back only (with caches on), the line is
in the D-cache and dirty, and the matching reservations die. On a hit no byte of `Mem` changes, no line moves, and no other line
changes (20_memory.md R84, R85). -/
def StoreRule (i : Instr) (s : State) (ea v : Word) (n : Nat) : Prop :=
  (ea.toNat % n ≠ 0 → Raises i s .storeAddressMisaligned (some ea) s) ∧
    (ea.toNat % n = 0 →
      (∀ e s1, translateVa .store ea s = .exc e s1 → Raises i s .storePageFault (some ea) s) ∧
        ∀ p s1, translateVa .store ea s = .ok p s1 →
          (s.cfg.memSize < p.toNat + n → Raises i s .storeAccessFault (some ea) s1) ∧
            (p.toNat + n ≤ s.cfg.memSize →
              ∃ t, exec i s = .next t ∧ StoreFrame s t ∧ t.hart.dtlb = s1.hart.dtlb ∧ KilledAt s t p ∧
                (∀ a, p.toNat ≤ a → a < p.toNat + n → viewByte t a = byteOf v (a - p.toNat)) ∧
                (∀ a, ¬ (p.toNat ≤ a ∧ a < p.toNat + n) → SameView s t p.toNat a) ∧
                (s.cfg.cacheEnable = true →
                  OnlyWrittenBack s t ∧
                    ∃ l, Cache.find t.hart.dcache (p.toNat / s.cfg.lineSize) = some l ∧ l.dirty = true) ∧
                (DataHit s p.toNat →
                  t.mem = s.mem ∧ t.draws = s.draws ∧ t.hart.dcache.map Line.tag = s.hart.dcache.map Line.tag ∧
                    ∀ (k : Nat) (l : Line), s.hart.dcache[k]? = some l → l.tag ≠ p.toNat / s.cfg.lineSize →
                      t.hart.dcache[k]? = some l)))

/-- The checks before an atomic access (46_atomic.md R280): its three exceptions in their order, each raised before anything else
happens; else `effect` from the state after translation. -/
def AtomicRule (i : Instr) (s : State) (va : Word) (acc : AccessType) (misal page fault : Cause)
    (effect : Word → State → State → Prop) : Prop :=
  (va.toNat % 4 ≠ 0 → Raises i s misal (some va) s) ∧
    (va.toNat % 4 = 0 →
      (∀ e s1, translateVa acc va s = .exc e s1 → Raises i s page (some va) s) ∧
        ∀ p s1, translateVa acc va s = .ok p s1 →
          (s.cfg.memSize < p.toNat + 4 → Raises i s fault (some va) s1) ∧
            (p.toNat + 4 ≤ s.cfg.memSize → ∃ t, exec i s = .next t ∧ effect p s1 t))

/-- The word of `Mem` at `p`, little-endian (20_memory.md R74, R75). -/
def memWord (s : State) (p : Word) : Word :=
  Memory.read s.mem (p.toNat + 3) ++ Memory.read s.mem (p.toNat + 2) ++ Memory.read s.mem (p.toNat + 1) ++
    Memory.read s.mem p.toNat

/-- `Mem` after a word store at `p`: these four bytes are the word's, every other byte is as it was (20_memory.md R74). -/
def MemStored (s t : State) (p v : Word) : Prop :=
  ∀ a, Memory.read t.mem a =
    if p.toNat ≤ a ∧ a < p.toNat + 4 then byteOf v (a - p.toNat) else Memory.read s.mem a

/-- The word of `Mem` at the physical address `a`, when all of it is in range (20_memory.md R74). -/
def pteAt (s : State) (a : Nat) : Option Word :=
  if a + 4 ≤ s.cfg.memSize then
    some (Memory.read s.mem (a + 3) ++ Memory.read s.mem (a + 2) ++ Memory.read s.mem (a + 1) ++ Memory.read s.mem a)
  else none

/-- Where the root page-table entry of `v` lies: `SATP.PPN * 4096 + VPN[1] * 4`, modulo 2^32 (20_memory.md R114, R115). -/
def rootEntryAddress (s : State) (v : Word) : Nat :=
  (s.hart.csr.satp.toNat % 2 ^ 22 * 4096 + v.toNat / 2 ^ 22 * 4) % 2 ^ 32

/-- Where the second-level entry of `v` lies under the pointer `pte`: `(pte >> 10) * 4096 + VPN[0] * 4`, modulo 2^32 (R114, R115). -/
def leafEntryAddress (pte v : Word) : Nat := (pte.toNat / 2 ^ 10 * 4096 + v.toNat / 2 ^ 12 % 2 ^ 10 * 4) % 2 ^ 32

/-- Bits 3 to 0 of an entry, `X W R V`, as a number (20_memory.md R110). -/
def xwrv (pte : Word) : Nat := pte.toNat % 16

/-- An entry the walk rejects: `V = 0`, or `R = 0` and `W = 1` (20_memory.md R114 step 3). -/
def badEntry (pte : Word) : Prop := xwrv pte % 2 = 0 ∨ xwrv pte / 2 % 4 = 2

/-- A pointer to the next level: `V = 1`, `R = W = X = 0` (R114 step 4). -/
def pointerEntry (pte : Word) : Prop := xwrv pte = 1

/-- A leaf: `V = 1`, and `R` or `X` set, and not `R = 0` with `W = 1`. -/
def leafEntry (pte : Word) : Prop := xwrv pte ∈ [3, 7, 9, 11, 15]

/-- What `pte` lets an access do (20_memory.md R117): the masks are `U` 0x10, `A` 0x40, `D` 0x80, `X` 8, `W` 4, `R` 2 (R110). -/
def Allows (pte : Word) : AccessType → Prop
  | .fetch => pte &&& 0x58#32 = 0x58#32
  | .load => pte &&& 0x52#32 = 0x52#32
  | .store => pte &&& 0xD4#32 = 0xD4#32

/-- A CSR instruction passes `CsrCheck` (45_system.md R268): its address is below 0x400, and a write names a supported CSR. -/
def CsrLegal (c : Config) (csr : CsrAddr) (writes : Prop) : Prop := csr.toNat < 0x400 ∧ (writes → csr ∈ c.csrSupported)

/-- The rule of a CSR instruction (45_system.md R267): the old content goes to `x[rd]`, and the cell holds `new` if the form writes;
or the instruction raises IllegalInstruction and does nothing. -/
def CsrRule (i : Instr) (s : State) (rd : Reg) (csr : CsrAddr) (writes : Prop) (new : Word) : Prop :=
  (CsrLegal s.cfg csr writes →
    ∃ t, exec i s = .next t ∧ WritesRd s t rd (s.readCsr csr) ∧
      (writes → t.readCsr csr = new) ∧ (¬ writes → t.readCsr csr = s.readCsr csr) ∧
      (∀ a, a ≠ csr → t.readCsr a = s.readCsr a) ∧
      t = { s with hart := { s.hart with x := t.hart.x, csr := t.hart.csr } }) ∧
    (¬ CsrLegal s.cfg csr writes → Raises i s .illegalInstruction none s)

/-- The word `w` is the instruction `i`, and `i` traps with `code` whatever its operands: the trap CSRs are written, `MTVAL` holds
some value, and the Host is presented with the hart, in which nothing else changed (60_exceptions.md R310, R315); with a Host that
does nothing that is the whole effect. -/
def TrapsAlways (w : Word) (i : Instr) (s : State) (code : Word) : Prop :=
  decode w = .instr i ∧ (∃ v, exec i s = .next (present .exec (trapSaved s code v (s.draws + 1)))) ∧
    (s.replies = [] → ∃ t, exec i s = .next t ∧ TrapsOnly s t code)

/-! ## Steps -/

/-- `n` steps, up to the first fault or refusal. -/
def steps : Nat → State → Host.Outcome State Fault Refusal
  | 0, s => .next s
  | n + 1, s =>
    match step s with
    | .next t => steps n t
    | .fault r => .fault r
    | .refused r => .refused r

/-- The acting hart is about to fetch: no other turn is scheduled, it is at no port, in the middle of nothing (log 11) and running, its
timer does not reach 0 and no poll is due in this step (60_exceptions.md R301). -/
def ReadyToFetch (s : State) : Prop :=
  s.agenda = [] ∧ s.hart.task = .idle ∧ s.hart.port = [] ∧ s.hart.life = .running ∧
    (s.hart.timer.enabled = true → s.hart.timer.value ≠ 1#64) ∧ s.hart.pollctr + 1 ≠ s.cfg.pollInterval

/-- The state after phases 1 to 3 of a step in which nothing traps and no poll is due (R301): `jumped` is cleared, an enabled timer
has counted, the poll counter has counted. -/
def beforeFetch (s : State) : State :=
  { s with
    hart := { s.hart with
      jumped := false, pollctr := s.hart.pollctr + 1,
      timer := if s.hart.timer.enabled then { enabled := true, value := s.hart.timer.value - 1#64 } else s.hart.timer } }

/-- The state after phases 1 to 3 of a step in which nothing traps and a poll is due (R301, R327). -/
def beforePoll (s : State) : State := { beforeFetch s with hart := { (beforeFetch s).hart with pollctr := 0 } }

/-- The end of a step after an executed instruction (R301 phase 4): the pc advances by 4 unless the instruction, or the Host in its
trap, set `jumped`; a hart that waits at its port advances later. -/
def afterExecute : Host.Outcome State Fault Refusal → Host.Outcome State Fault Refusal
  | .next t =>
    .next (if t.hart.port = [] ∧ t.hart.jumped = false then
      { t with hart := { t.hart with pc := t.hart.pc + 4#32 } } else t)
  | .fault r => .fault r
  | .refused r => .refused r

/-- The sources hart `h` polls (60_exceptions.md R331): every other hart and the system, or the system alone. -/
def Polled (s : State) (src : Nat) : Prop :=
  src ≤ s.cfg.hartCount ∧ src ≠ s.hart.id ∧ (s.cfg.ipiEnable = true ∨ src = s.cfg.hartCount)

/-- Some polled cell of the acting hart is not empty. -/
def InterruptPending (s : State) : Prop := ∃ src, Polled s src ∧ s.gridRead s.hart.id src ≠ 0#32

/-- The hart a turn is about; `none` for the Host's acts on shared state. -/
def turnHart : Turn → Option Nat
  | .hart h => some h
  | .split h => some h
  | .writeBack h _ => some h
  | .start h => some h
  | .stop h => some h
  | .halt h => some h
  | .access h _ => some h
  | .tlbDrop h _ _ => some h
  | .writeMem _ _ => none
  | .clearRes _ => none
  | .sysRaise _ _ => none
  | .sysTake _ => none
  | .sysLoad _ => none
  | .sysClear _ => none

/-! ## Kinds of instructions -/

/-- LOAD (43_loadstore.md). -/
def isLoad : Instr → Bool
  | .lb _ _ _ | .lh _ _ _ | .lw _ _ _ | .lbu _ _ _ | .lhu _ _ _ => true
  | _ => false

/-- STORE (43_loadstore.md). -/
def isStore : Instr → Bool
  | .sb _ _ _ | .sh _ _ _ | .sw _ _ _ => true
  | _ => false

/-- LR.W, SC.W or AMOSWAP.W: the atomics that access memory (46_atomic.md). -/
def isAtomic : Instr → Bool
  | .lrW _ _ _ _ | .scW _ _ _ _ _ | .amoswapW _ _ _ _ _ => true
  | _ => false

/-- FENCE (44_miscmem.md R260). -/
def isFence : Instr → Bool
  | .fence _ _ _ _ _ => true
  | _ => false

/-- FENCE.I (44_miscmem.md R261). -/
def isFenceI : Instr → Bool
  | .fenceI _ _ _ => true
  | _ => false

/-- SFENCE.VMA (45_system.md R275). -/
def isSfence : Instr → Bool
  | .sfenceVma _ _ => true
  | _ => false

/-- JAL, JALR or a conditional branch (42_control.md). -/
def isTransfer : Instr → Bool
  | .jal _ _ | .jalr _ _ _ | .beq _ _ _ | .bne _ _ _ | .blt _ _ _ | .bge _ _ _ | .bltu _ _ _ | .bgeu _ _ _ => true
  | _ => false

end Sys2Proof.Machine
end

