-- ==== Sys2Proof/Certificates/Slice0/Obligations.lean ====
section
/-! DEFINITION. The statements about the model, from the spec's numbered rules; OBLIGATIONS.json lists them in this order. -/

open Sys2Proof Sys2Proof.Machine

/-! ## Encoding -/

/-- Every well-formed instruction's word, alone or as bytes in memory order (20_memory.md R75), decodes to that instruction. -/
def Obligations.DecodeOfEncode : Prop :=
  ∀ i, WellFormed i = true →
    decode (encode i) = .instr i ∧ ∀ rest, decodeBytes (leBytes 4 (encode i) ++ rest) = .word (.instr i) rest

/-- Every word that decodes to an instruction decodes to a well-formed one whose word it is. That decoding drops no bit is the model's
choice (log 27): the fields that 30_encoding.md R173, R175 call ignored are kept as operands, which no meaning reads. -/
def Obligations.EncodeOfDecode : Prop := ∀ w i, decode w = .instr i → WellFormed i = true ∧ encode i = w

/-- The major opcode decides between Abort, refusal, and instruction or IllegalInstruction (30_encoding.md R165, R176, R177, R178,
R180; the split is the spec's decisions D21 and D38). -/
def Obligations.DecodeOutcomes : Prop :=
  ∀ w : Word,
    let op := w.toNat % 128
    let supported := [0x03, 0x0F, 0x13, 0x17, 0x23, 0x2F, 0x33, 0x37, 0x63, 0x67, 0x6F, 0x73]
    let floating := [0x07, 0x27, 0x43, 0x47, 0x4B, 0x4F, 0x53]
    (decode w = .unsupported ↔ op ∉ supported ∧ op ∉ floating) ∧ (decode w = .floatingPoint ↔ op ∈ floating) ∧
      ((decode w = .illegal ∨ ∃ i, decode w = .instr i) ↔ op ∈ supported)

/-- Words written out from the spec's encodings, one or more of each family, decode to what the spec says they are (95_test_vectors.md
V1 and parts 2.1 to 2.8). -/
def Obligations.SpecWordsDecode : Prop :=
  decode 0x01100293#32 = .instr (.addi 5 0 0x011#12) ∧ decode 0x00628533#32 = .instr (.add 10 5 6) ∧
    decode 0xABCDE537#32 = .instr (.lui 10 0xABCDE#20) ∧ decode 0x02C5A533#32 = .instr (.mulhsu 10 11 12) ∧
    decode 0xFFDFF06F#32 = .instr (.jal 0 0x1FFFFC#21) ∧ decode 0xFE209CE3#32 = .instr (.bne 1 2 0x1FF8#13) ∧
    decode 0x00835283#32 = .instr (.lhu 5 6 8#12) ∧ decode 0xFE730FA3#32 = .instr (.sb 6 7 0xFFF#12) ∧
    decode 0x0FF0000F#32 = .instr (.fence 0 0 0#4 0xF#4 0xF#4) ∧ decode 0x0033D2F3#32 = .instr (.csrrwi 5 7#5 0x003#12) ∧
    decode 0x12628073#32 = .instr (.sfenceVma 5 6) ∧ decode 0x1A8323AF#32 = .instr (.scW 7 6 8 false true) ∧
    decode 0x30200073#32 = .illegal ∧ decode 0x00000000#32 = .unsupported ∧ decode 0x00002007#32 = .floatingPoint

/-! ## Integer computational instructions -/

/-- OP-IMM (40_integer.md R202 to R210): the encoding, the result, and that nothing but `x[rd]` changes; a shift with any other
`inst[31:25]` is IllegalInstruction (30_encoding.md R166, R177; the spec's decisions D31, D21). -/
def Obligations.OpImmediateResults : Prop :=
  ∀ (s : State) (rd rs1 : Reg) (imm : BitVec 12) (sh : Fin 32),
    let a := s.readX rs1
    let b : Word := BitVec.ofInt 32 imm.toInt
    Computes (encI imm (regBits rs1) 0b000#3 (regBits rd) 0x13#7) (.addi rd rs1 imm) s rd (BitVec.ofInt 32 (a.toInt + imm.toInt)) ∧
      Computes (encI imm (regBits rs1) 0b010#3 (regBits rd) 0x13#7) (.slti rd rs1 imm) s rd
        (if a.toInt < imm.toInt then 1#32 else 0#32) ∧
      Computes (encI imm (regBits rs1) 0b011#3 (regBits rd) 0x13#7) (.sltiu rd rs1 imm) s rd
        (if a.toNat < b.toNat then 1#32 else 0#32) ∧
      Computes (encI imm (regBits rs1) 0b100#3 (regBits rd) 0x13#7) (.xori rd rs1 imm) s rd (a ^^^ b) ∧
      Computes (encI imm (regBits rs1) 0b110#3 (regBits rd) 0x13#7) (.ori rd rs1 imm) s rd (a ||| b) ∧
      Computes (encI imm (regBits rs1) 0b111#3 (regBits rd) 0x13#7) (.andi rd rs1 imm) s rd (a &&& b) ∧
      Computes (encR 0b0000000#7 (regBits sh) (regBits rs1) 0b001#3 (regBits rd) 0x13#7) (.slli rd rs1 sh) s rd
        (BitVec.ofNat 32 (a.toNat * 2 ^ sh.val)) ∧
      Computes (encR 0b0000000#7 (regBits sh) (regBits rs1) 0b101#3 (regBits rd) 0x13#7) (.srli rd rs1 sh) s rd
        (BitVec.ofNat 32 (a.toNat / 2 ^ sh.val)) ∧
      Computes (encR 0b0100000#7 (regBits sh) (regBits rs1) 0b101#3 (regBits rd) 0x13#7) (.srai rd rs1 sh) s rd
        (BitVec.ofInt 32 (a.toInt / 2 ^ sh.val)) ∧
      ∀ f7 : BitVec 7, f7 ≠ 0b0000000#7 →
        decode (encR f7 (regBits sh) (regBits rs1) 0b001#3 (regBits rd) 0x13#7) = .illegal ∧
          (f7 ≠ 0b0100000#7 → decode (encR f7 (regBits sh) (regBits rs1) 0b101#3 (regBits rd) 0x13#7) = .illegal)

/-- OP (40_integer.md R211 to R220): the encoding, the result, and that nothing but `x[rd]` changes. -/
def Obligations.OpRegisterResults : Prop :=
  ∀ (s : State) (rd rs1 rs2 : Reg),
    let a := s.readX rs1
    let b := s.readX rs2
    let n := b.toNat % 32
    let word := fun (f7 : BitVec 7) (f3 : BitVec 3) => encR f7 (regBits rs2) (regBits rs1) f3 (regBits rd) 0x33#7
    Computes (word 0b0000000#7 0b000#3) (.add rd rs1 rs2) s rd (BitVec.ofInt 32 (a.toInt + b.toInt)) ∧
      Computes (word 0b0100000#7 0b000#3) (.sub rd rs1 rs2) s rd (BitVec.ofInt 32 (a.toInt - b.toInt)) ∧
      Computes (word 0b0000000#7 0b001#3) (.sll rd rs1 rs2) s rd (BitVec.ofNat 32 (a.toNat * 2 ^ n)) ∧
      Computes (word 0b0000000#7 0b010#3) (.slt rd rs1 rs2) s rd (if a.toInt < b.toInt then 1#32 else 0#32) ∧
      Computes (word 0b0000000#7 0b011#3) (.sltu rd rs1 rs2) s rd (if a.toNat < b.toNat then 1#32 else 0#32) ∧
      Computes (word 0b0000000#7 0b100#3) (.xor rd rs1 rs2) s rd (a ^^^ b) ∧
      Computes (word 0b0000000#7 0b101#3) (.srl rd rs1 rs2) s rd (BitVec.ofNat 32 (a.toNat / 2 ^ n)) ∧
      Computes (word 0b0100000#7 0b101#3) (.sra rd rs1 rs2) s rd (BitVec.ofInt 32 (a.toInt / 2 ^ n)) ∧
      Computes (word 0b0000000#7 0b110#3) (.or rd rs1 rs2) s rd (a ||| b) ∧
      Computes (word 0b0000000#7 0b111#3) (.and rd rs1 rs2) s rd (a &&& b)

/-- LUI and AUIPC (40_integer.md R221, R222): the encoding, the result, and that nothing but `x[rd]` changes. -/
def Obligations.UpperImmediateResults : Prop :=
  ∀ (s : State) (rd : Reg) (imm : BitVec 20),
    Computes (encU imm (regBits rd) 0x37#7) (.lui rd imm) s rd (BitVec.ofNat 32 (imm.toNat * 4096)) ∧
      Computes (encU imm (regBits rd) 0x17#7) (.auipc rd imm) s rd (BitVec.ofNat 32 (s.hart.pc.toNat + imm.toNat * 4096))

/-! ## Multiply and divide -/

/-- The M extension (41_muldiv.md R231 to R238): the encoding, the result, and that nothing but `x[rd]` changes; none traps. -/
def Obligations.MultiplyDivideResults : Prop :=
  ∀ (s : State) (rd rs1 rs2 : Reg),
    let a := s.readX rs1
    let b := s.readX rs2
    let overflow := a.toInt = -2 ^ 31 ∧ b.toInt = -1
    let word := fun (f3 : BitVec 3) => encR 0b0000001#7 (regBits rs2) (regBits rs1) f3 (regBits rd) 0x33#7
    Computes (word 0b000#3) (.mul rd rs1 rs2) s rd (BitVec.ofNat 32 (a.toNat * b.toNat)) ∧
      Computes (word 0b001#3) (.mulh rd rs1 rs2) s rd (BitVec.ofInt 32 (a.toInt * b.toInt / 2 ^ 32)) ∧
      Computes (word 0b010#3) (.mulhsu rd rs1 rs2) s rd (BitVec.ofInt 32 (a.toInt * (b.toNat : Int) / 2 ^ 32)) ∧
      Computes (word 0b011#3) (.mulhu rd rs1 rs2) s rd (BitVec.ofNat 32 (a.toNat * b.toNat / 2 ^ 32)) ∧
      Computes (word 0b100#3) (.div rd rs1 rs2) s rd
        (if b.toInt = 0 then BitVec.ofInt 32 (-1)
        else if overflow then BitVec.ofInt 32 (-2 ^ 31) else BitVec.ofInt 32 (a.toInt.tdiv b.toInt)) ∧
      Computes (word 0b101#3) (.divu rd rs1 rs2) s rd
        (if b.toNat = 0 then BitVec.ofNat 32 (2 ^ 32 - 1) else BitVec.ofNat 32 (a.toNat / b.toNat)) ∧
      Computes (word 0b110#3) (.rem rd rs1 rs2) s rd
        (if b.toInt = 0 then a
        else if overflow then 0#32 else BitVec.ofInt 32 (a.toInt - b.toInt * a.toInt.tdiv b.toInt)) ∧
      Computes (word 0b111#3) (.remu rd rs1 rs2) s rd (if b.toNat = 0 then a else BitVec.ofNat 32 (a.toNat % b.toNat))

/-- The division laws (41_muldiv.md R239), of what DIV, DIVU, REM and REMU put in `rd`, a register other than `x0`: the identity and the
bounds of the remainder, and the table of the special cases. -/
def Obligations.DivisionLaws : Prop :=
  ∀ (s : State) (rd rs1 rs2 : Reg), rd ≠ 0 →
    ∃ d du r ru,
      exec (.div rd rs1 rs2) s = .next d ∧ exec (.divu rd rs1 rs2) s = .next du ∧
      exec (.rem rd rs1 rs2) s = .next r ∧ exec (.remu rd rs1 rs2) s = .next ru ∧
      let a := s.readX rs1
      let b := s.readX rs2
      let q := (d.readX rd).toInt
      let m := (r.readX rd).toInt
      let overflow := a = 0x80000000#32 ∧ b = 0xFFFFFFFF#32
      (b ≠ 0#32 → ¬ overflow → q * b.toInt + m = a.toInt ∧ |m| < |b.toInt| ∧ (m = 0 ∨ (m < 0 ↔ a.toInt < 0))) ∧
        (b ≠ 0#32 → (du.readX rd).toNat * b.toNat + (ru.readX rd).toNat = a.toNat ∧ (ru.readX rd).toNat < b.toNat) ∧
        (b = 0#32 → d.readX rd = 0xFFFFFFFF#32 ∧ du.readX rd = 0xFFFFFFFF#32 ∧ r.readX rd = a ∧ ru.readX rd = a) ∧
        (overflow → d.readX rd = 0x80000000#32 ∧ du.readX rd = 0#32 ∧ r.readX rd = 0#32 ∧ ru.readX rd = 0x80000000#32)

/-! ## Control transfer -/

/-- JAL and JALR (42_control.md R240, R241; that `rd` is not written on the trap and that bit 0 of the JALR sum is cleared are the
spec's decision D26): target, link, `jumped`, or InstructionAddressMisaligned with the target. -/
def Obligations.JumpResults : Prop :=
  ∀ (s : State) (rd rs1 : Reg) (imm : BitVec 12) (off : BitVec 21),
    (off.toNat % 2 = 0 →
      decode (encJ off (regBits rd) 0x6F#7) = .instr (.jal rd off) ∧
        JumpRule (.jal rd off) s rd (BitVec.ofInt 32 (s.hart.pc.toNat + off.toInt))) ∧
      decode (encI imm (regBits rs1) 0b000#3 (regBits rd) 0x67#7) = .instr (.jalr rd rs1 imm) ∧
      JumpRule (.jalr rd rs1 imm) s rd
        (let t : Word := BitVec.ofInt 32 ((s.readX rs1).toNat + imm.toInt)
        BitVec.ofNat 32 (t.toNat - t.toNat % 2))

/-- The conditional branches (42_control.md R242 to R248; that a branch not taken never traps is the spec's decision D26): taken, pc and
`jumped` and nothing else; taken to a misaligned target, the exception; not taken, nothing at all. -/
def Obligations.BranchResults : Prop :=
  ∀ (s : State) (rs1 rs2 : Reg) (off : BitVec 13), off.toNat % 2 = 0 →
    let a := s.readX rs1
    let b := s.readX rs2
    let target : Word := BitVec.ofInt 32 (s.hart.pc.toNat + off.toInt)
    let word := fun (f3 : BitVec 3) => encB off (regBits rs2) (regBits rs1) f3 0x63#7
    (decode (word 0b000#3) = .instr (.beq rs1 rs2 off) ∧ BranchRule (.beq rs1 rs2 off) s (a = b) target) ∧
      (decode (word 0b001#3) = .instr (.bne rs1 rs2 off) ∧ BranchRule (.bne rs1 rs2 off) s (a ≠ b) target) ∧
      (decode (word 0b100#3) = .instr (.blt rs1 rs2 off) ∧ BranchRule (.blt rs1 rs2 off) s (a.toInt < b.toInt) target) ∧
      (decode (word 0b101#3) = .instr (.bge rs1 rs2 off) ∧ BranchRule (.bge rs1 rs2 off) s (b.toInt ≤ a.toInt) target) ∧
      (decode (word 0b110#3) = .instr (.bltu rs1 rs2 off) ∧ BranchRule (.bltu rs1 rs2 off) s (a.toNat < b.toNat) target) ∧
      (decode (word 0b111#3) = .instr (.bgeu rs1 rs2 off) ∧ BranchRule (.bgeu rs1 rs2 off) s (b.toNat ≤ a.toNat) target)

/-! ## Loads and stores -/

/-- The loads (43_loadstore.md R250 to R255; the causes of misaligned and access faults and their `MTVAL` are the spec's decisions D11,
D12, D35). -/
def Obligations.LoadResults : Prop :=
  ∀ (s : State) (rd rs1 : Reg) (imm : BitVec 12), SysInv s →
    let ea : Word := BitVec.ofInt 32 ((s.readX rs1).toNat + imm.toInt)
    let word := fun (f3 : BitVec 3) => encI imm (regBits rs1) f3 (regBits rd) 0x03#7
    let byte := fun (bs : List Byte) (k : Nat) => bs.getD k 0#8
    (decode (word 0b000#3) = .instr (.lb rd rs1 imm) ∧
      LoadRule (.lb rd rs1 imm) s rd ea 1 (fun bs => BitVec.ofInt 32 (byte bs 0).toInt)) ∧
      (decode (word 0b001#3) = .instr (.lh rd rs1 imm) ∧
        LoadRule (.lh rd rs1 imm) s rd ea 2 (fun bs => BitVec.ofInt 32 (byte bs 1 ++ byte bs 0).toInt)) ∧
      (decode (word 0b010#3) = .instr (.lw rd rs1 imm) ∧
        LoadRule (.lw rd rs1 imm) s rd ea 4 (fun bs => byte bs 3 ++ byte bs 2 ++ byte bs 1 ++ byte bs 0)) ∧
      (decode (word 0b100#3) = .instr (.lbu rd rs1 imm) ∧
        LoadRule (.lbu rd rs1 imm) s rd ea 1 (fun bs => BitVec.ofNat 32 (byte bs 0).toNat)) ∧
      (decode (word 0b101#3) = .instr (.lhu rd rs1 imm) ∧
        LoadRule (.lhu rd rs1 imm) s rd ea 2 (fun bs => BitVec.ofNat 32 (byte bs 1 ++ byte bs 0).toNat))

/-- The stores (43_loadstore.md R250, R256 to R258; 20_memory.md R132, R142; the causes of misaligned and access faults and their
`MTVAL` are the spec's decisions D11, D12, D35). -/
def Obligations.StoreResults : Prop :=
  ∀ (s : State) (rs1 rs2 : Reg) (imm : BitVec 12), SysInv s →
    let ea : Word := BitVec.ofInt 32 ((s.readX rs1).toNat + imm.toInt)
    let word := fun (f3 : BitVec 3) => encS imm (regBits rs2) (regBits rs1) f3 0x23#7
    (decode (word 0b000#3) = .instr (.sb rs1 rs2 imm) ∧ StoreRule (.sb rs1 rs2 imm) s ea (s.readX rs2) 1) ∧
      (decode (word 0b001#3) = .instr (.sh rs1 rs2 imm) ∧ StoreRule (.sh rs1 rs2 imm) s ea (s.readX rs2) 2) ∧
      (decode (word 0b010#3) = .instr (.sw rs1 rs2 imm) ∧ StoreRule (.sw rs1 rs2 imm) s ea (s.readX rs2) 4)

/-- A hart sees its own store at once, byte by byte in little-endian order (20_memory.md R75, R150 (a)): in bare mode, SW at an
aligned address in range, then LBU at its `k`-th byte, reads bits `8k+7 .. 8k` of the word stored. -/
def Obligations.StoreThenLoadByte : Prop :=
  ∀ (s : State) (rs1 rs2 rd : Reg) (k : Nat), SysInv s → s.hart.csr.satp.getLsbD 31 = false → k < 4 →
    (s.readX rs1).toNat % 4 = 0 → (s.readX rs1).toNat + 4 ≤ s.cfg.memSize →
    ∃ t u, exec (.sw rs1 rs2 0#12) s = .next t ∧ exec (.lbu rd rs1 (BitVec.ofNat 12 k)) t = .next u ∧
      WritesRd t u rd (BitVec.ofNat 32 ((s.readX rs2).toNat / 2 ^ (8 * k) % 256))

/-! ## FENCE, FENCE.I, SFENCE.VMA -/

/-- FENCE (44_miscmem.md R260), whatever its fields: every dirty line of the D-cache is written back and becomes clean, every line stays
valid, and nothing else changes. -/
def Obligations.FenceWritesBack : Prop :=
  ∀ (s : State) (rd rs1 : Reg) (fm pred succ : BitVec 4), SysInv s →
    decode (encI (fm ++ pred ++ succ) (regBits rs1) 0b000#3 (regBits rd) 0x0F#7) = .instr (.fence rd rs1 fm pred succ) ∧
      ∃ t, exec (.fence rd rs1 fm pred succ) s = .next t ∧
        t = { s with
              mem := t.mem,
              hart := { s.hart with dcache := s.hart.dcache.map (fun l => { l with dirty := false }) } } ∧
        (∀ a, (∃ l ∈ s.hart.dcache, l.dirty = true ∧ l.tag = a / s.cfg.lineSize) → Memory.read t.mem a = viewByte s a) ∧
        (∀ a, (¬ ∃ l ∈ s.hart.dcache, l.dirty = true ∧ l.tag = a / s.cfg.lineSize) →
          Memory.read t.mem a = Memory.read s.mem a) ∧
        ∀ a, viewByte t a = viewByte s a

/-- FENCE.I (44_miscmem.md R261), whatever its fields: the I-cache is emptied, so that the next fetch reads `Mem`; nothing else changes. -/
def Obligations.FenceIEmptiesInstructionCache : Prop :=
  ∀ (s : State) (rd rs1 : Reg) (imm : BitVec 12), SysInv s →
    decode (encI imm (regBits rs1) 0b001#3 (regBits rd) 0x0F#7) = .instr (.fenceI rd rs1 imm) ∧
      ∃ t, exec (.fenceI rd rs1 imm) s = .next t ∧ t = { s with hart := { s.hart with icache := [] } } ∧
        ∀ a, fetchByte t a = Memory.read s.mem a

/-- SFENCE.VMA (45_system.md R275; that it empties both TLBs and is allowed in U-mode are the spec's decisions D17 and D32): both TLBs
of the hart are all sentinel, so that every key misses; nothing else changes. -/
def Obligations.SfenceVmaEmptiesTlbs : Prop :=
  ∀ (s : State) (rs1 rs2 : Reg),
    decode (encR 0b0001001#7 (regBits rs2) (regBits rs1) 0b000#3 0b00000#5 0x73#7) = .instr (.sfenceVma rs1 rs2) ∧
      ∃ t, exec (.sfenceVma rs1 rs2) s = .next t ∧
        t = { s with
              hart := { s.hart with
                itlb := List.replicate s.cfg.tlbSize 0xFFFFFFFFFFFFFFFF#64,
                dtlb := List.replicate s.cfg.tlbSize 0xFFFFFFFFFFFFFFFF#64 } } ∧
        ∀ vpi, tlbLoad t.cfg t.hart.itlb vpi = none ∧ tlbLoad t.cfg t.hart.dtlb vpi = none

/-! ## CSR instructions -/

/-- The six CSR instructions (45_system.md R267 to R274; the access check is the spec's decisions D8 to D10). -/
def Obligations.CsrResults : Prop :=
  ∀ (s : State) (rd rs1 : Reg) (uimm : BitVec 5) (csr : CsrAddr),
    let old := s.readCsr csr
    let x := s.readX rs1
    let u : Word := BitVec.ofNat 32 uimm.toNat
    let wordX := fun (f3 : BitVec 3) => encI csr (regBits rs1) f3 (regBits rd) 0x73#7
    let wordU := fun (f3 : BitVec 3) => encI csr uimm f3 (regBits rd) 0x73#7
    (decode (wordX 0b001#3) = .instr (.csrrw rd rs1 csr) ∧ CsrRule (.csrrw rd rs1 csr) s rd csr True x) ∧
      (decode (wordX 0b010#3) = .instr (.csrrs rd rs1 csr) ∧ CsrRule (.csrrs rd rs1 csr) s rd csr (rs1 ≠ 0) (old ||| x)) ∧
      (decode (wordX 0b011#3) = .instr (.csrrc rd rs1 csr) ∧ CsrRule (.csrrc rd rs1 csr) s rd csr (rs1 ≠ 0) (old &&& ~~~x)) ∧
      (decode (wordU 0b101#3) = .instr (.csrrwi rd uimm csr) ∧ CsrRule (.csrrwi rd uimm csr) s rd csr True u) ∧
      (decode (wordU 0b110#3) = .instr (.csrrsi rd uimm csr) ∧
        CsrRule (.csrrsi rd uimm csr) s rd csr (uimm.toNat ≠ 0) (old ||| u)) ∧
      (decode (wordU 0b111#3) = .instr (.csrrci rd uimm csr) ∧
        CsrRule (.csrrci rd uimm csr) s rd csr (uimm.toNat ≠ 0) (old &&& ~~~u))

/-- The round trip of CSRRW (45_system.md R277; through `x0` the old content is lost and the cell ends 0, 10_state.md R21). -/
def Obligations.CsrRoundTrip : Prop :=
  ∀ (s : State) (r x y : Reg) (csr : CsrAddr), csr.toNat < 0x400 → csr ∈ s.cfg.csrSupported →
    ∃ t u, exec (.csrrw r x csr) s = .next t ∧ exec (.csrrw y r csr) t = .next u ∧
      (∀ a, a ≠ csr → u.readCsr a = s.readCsr a) ∧ u.readCsr csr = (if r = 0 then 0#32 else s.readCsr csr) ∧
      (y ≠ 0 → u.readX y = s.readX x)

/-! ## Atomics -/

/-- LR.W (46_atomic.md R280, R281; exception causes are the spec's decisions D12, D23, D35): the word of `Mem`, not of the cache; the
reservation of this hart; nothing else beside `x[rd]` and the translation's TLB fill. -/
def Obligations.LoadReservedResult : Prop :=
  ∀ (s : State) (rd rs1 : Reg) (aq rl : Bool), SysInv s →
    decode (encR (0b00010#5 ++ BitVec.ofBool aq ++ BitVec.ofBool rl) 0b00000#5 (regBits rs1) 0b010#3 (regBits rd) 0x2F#7) =
        .instr (.lrW rd rs1 aq rl) ∧
      AtomicRule (.lrW rd rs1 aq rl) s (s.readX rs1) .load .loadAddressMisaligned .loadPageFault .loadAccessFault
        (fun p s1 t => WritesRd s t rd (memWord s p) ∧
          t = { s1 with
                res := s.res.set s.hart.id { valid := true, addr := p },
                hart := { s1.hart with x := t.hart.x } })

/-- SC.W (46_atomic.md R280, R282; exception causes are the spec's decisions D12, D23, D35): with a valid reservation of this hart at
exactly `p` the word is stored in `Mem`, matching reservations die and `rd` is 0; without, `Mem` is unchanged and `rd` is 1; this
hart's reservation is cleared either way. -/
def Obligations.StoreConditionalResult : Prop :=
  ∀ (s : State) (rd rs1 rs2 : Reg) (aq rl : Bool), SysInv s →
    decode (encR (0b00011#5 ++ BitVec.ofBool aq ++ BitVec.ofBool rl) (regBits rs2) (regBits rs1) 0b010#3 (regBits rd) 0x2F#7) =
        .instr (.scW rd rs1 rs2 aq rl) ∧
      AtomicRule (.scW rd rs1 rs2 aq rl) s (s.readX rs1) .store .storeAddressMisaligned .storePageFault .storeAccessFault
        (fun p s1 t =>
          t = { s1 with mem := t.mem, res := t.res, hart := { s1.hart with x := t.hart.x } } ∧
            (s.res[s.hart.id]? = some { valid := true, addr := p } →
              WritesRd s t rd 0#32 ∧ MemStored s t p (s.readX rs2) ∧ t.res.length = s.res.length ∧
                ∀ (k : Nat) (r : Reservation), s.res[k]? = some r →
                  (k = s.hart.id ∨ (r.valid = true ∧ (p = r.addr ∨ (p, r.addr) ∈ s.cfg.resMatchExtra)) →
                    t.res[k]? = some { r with valid := false }) ∧
                    (¬ (k = s.hart.id ∨ (r.valid = true ∧ (p = r.addr ∨ (p, r.addr) ∈ s.cfg.resMatchExtra))) →
                      t.res[k]? = some r)) ∧
            (s.res[s.hart.id]? ≠ some { valid := true, addr := p } →
              WritesRd s t rd 1#32 ∧ t.mem = s.mem ∧
                ∀ r, s.res[s.hart.id]? = some r → t.res = s.res.set s.hart.id { r with valid := false }))

/-- AMOSWAP.W (46_atomic.md R280, R283; exception causes are the spec's decisions D12, D23, D35): the old word of `Mem` to `rd`, the
new word to `Mem`, matching reservations die. -/
def Obligations.AtomicSwapResult : Prop :=
  ∀ (s : State) (rd rs1 rs2 : Reg) (aq rl : Bool), SysInv s →
    decode (encR (0b00001#5 ++ BitVec.ofBool aq ++ BitVec.ofBool rl) (regBits rs2) (regBits rs1) 0b010#3 (regBits rd) 0x2F#7) =
        .instr (.amoswapW rd rs1 rs2 aq rl) ∧
      AtomicRule (.amoswapW rd rs1 rs2 aq rl) s (s.readX rs1) .store .storeAddressMisaligned .storePageFault .storeAccessFault
        (fun p s1 t => WritesRd s t rd (memWord s p) ∧ MemStored s t p (s.readX rs2) ∧ KilledAt s t p ∧
          t = { s1 with mem := t.mem, res := t.res, hart := { s1.hart with x := t.hart.x } })

/-- LR.W and SC.W pair (20_memory.md R156): in bare mode, with nothing between, SC.W succeeds and stores; with the hart's own SW to the
same word between, it fails and `Mem` keeps its bytes. -/
def Obligations.LoadReservedStoreConditionalPair : Prop :=
  ∀ (s : State) (rd rs1 rs2 rs3 rd2 : Reg), SysInv s → s.hart.csr.satp.getLsbD 31 = false → rd ≠ rs1 → rd ≠ rs2 →
    (s.readX rs1).toNat % 4 = 0 → (s.readX rs1).toNat + 4 ≤ s.cfg.memSize →
    ∃ t, exec (.lrW rd rs1 false false) s = .next t ∧
      (∃ u, exec (.scW rd2 rs1 rs2 false false) t = .next u ∧ WritesRd t u rd2 0#32 ∧ MemStored s u (s.readX rs1) (s.readX rs2)) ∧
      ∃ v u, exec (.sw rs1 rs3 0#12) t = .next v ∧ exec (.scW rd2 rs1 rs2 false false) v = .next u ∧
        WritesRd v u rd2 1#32 ∧ u.mem = v.mem ∧ (s.cfg.cacheEnable = true → OnlyWrittenBack s u)

/-- The AMOs that are not implemented (46_atomic.md R284 to R292) raise IllegalInstruction whatever their operands. -/
def Obligations.UnimplementedAmosTrap : Prop :=
  ∀ (s : State) (rd rs1 rs2 : Reg) (aq rl : Bool),
    let word := fun (f5 : BitVec 5) =>
      encR (f5 ++ BitVec.ofBool aq ++ BitVec.ofBool rl) (regBits rs2) (regBits rs1) 0b010#3 (regBits rd) 0x2F#7
    TrapsAlways (word 0b00000#5) (.amoaddW rd rs1 rs2 aq rl) s 0x2#32 ∧
      TrapsAlways (word 0b00100#5) (.amoxorW rd rs1 rs2 aq rl) s 0x2#32 ∧
      TrapsAlways (word 0b01100#5) (.amoandW rd rs1 rs2 aq rl) s 0x2#32 ∧
      TrapsAlways (word 0b01000#5) (.amoorW rd rs1 rs2 aq rl) s 0x2#32 ∧
      TrapsAlways (word 0b10000#5) (.amominW rd rs1 rs2 aq rl) s 0x2#32 ∧
      TrapsAlways (word 0b10100#5) (.amomaxW rd rs1 rs2 aq rl) s 0x2#32 ∧
      TrapsAlways (word 0b11000#5) (.amominuW rd rs1 rs2 aq rl) s 0x2#32 ∧
      TrapsAlways (word 0b11100#5) (.amomaxuW rd rs1 rs2 aq rl) s 0x2#32

/-! ## Traps -/

/-- ECALL and EBREAK (45_system.md R265, R266): EcallUMode and Breakpoint, always. -/
def Obligations.EnvironmentCallAndBreakpoint : Prop :=
  ∀ s : State, TrapsAlways 0x00000073#32 .ecall s 0x8#32 ∧ TrapsAlways 0x00100073#32 .ebreak s 0x3#32

/-- Taking a trap (60_exceptions.md R310, R313, R314, R315): `MCAUSE` is the reason, `MEPC` the pc, `MTVAL` the rule's value where there
is one, nothing else changes, and the Host is presented with the hart. `MTVAL` of the other cases is free (log 1). -/
def Obligations.TrapEntry : Prop :=
  ∀ (s : State) (site : Site),
    (∀ c v, raise { cause := c, info := some v } site s = present site (trapSaved s c.code v s.draws)) ∧
      (∀ c, ∃ v, raise { cause := c, info := none } site s = present site (trapSaved s c.code v (s.draws + 1))) ∧
      (∀ r, ∃ v, interrupt r site s = present site (trapSaved s r v (s.draws + 1))) ∧
      timerReason = 0x807#32 ∧ externalReason = 0x80B#32 ∧
      [Cause.instructionAddressMisaligned, .instructionAccessFault, .illegalInstruction, .breakpoint, .loadAddressMisaligned,
        .loadAccessFault, .storeAddressMisaligned, .storeAccessFault, .ecallUMode, .instructionPageFault, .loadPageFault,
        .storePageFault].map Cause.code =
        [0x0#32, 0x1#32, 0x2#32, 0x3#32, 0x4#32, 0x5#32, 0x6#32, 0x7#32, 0x8#32, 0xC#32, 0xD#32, 0xF#32]

/-- The outcomes the Host's handling of an exception raised by an executed instruction can have (60_exceptions.md R312, R310 steps 4
and 5, R311, R301 (d)). First, `u` is the state in which the instruction raised, a hart at no port with `jumped` clear: the Host does
nothing, the pc goes on by 4; it sets `jumped`, the instruction is retried; it sets `MEPC` and `jumped`, the pc goes there; it halts the
hart, the pc goes on by 4. Second, the Host takes its time: the hart waits at its port with the pc of the trap, and its next turn lets
the Host go on with the rest of its script; the splitting of a script at a wait is the model's (log 13, log 15). -/
def Obligations.HostOutcomes : Prop :=
  (∀ (s u : State) (w : Word) (i : Instr) (e : Exc) (script : List HostAct) (rest : List (List HostAct)) (a : Word),
    decode w = .instr i → exec i s = .next (raise e .exec u) → u.hart.port = [] → u.hart.jumped = false →
    u.hart.life = .running → u.replies = script :: rest →
    ∃ t, (script ∈ [[], [.setJumped true], [.setCsr 0x341#12 a, .setJumped true], [.halt]] → executeWord w s = .next t) ∧
      (script = [] → t.hart.pc = u.hart.pc + 4#32 ∧ t.hart.life = .running ∧ t.hart.csr.mepc = u.hart.pc) ∧
      (script = [.setJumped true] → t.hart.pc = u.hart.pc ∧ t.hart.life = .running) ∧
      (script = [.setCsr 0x341#12 a, .setJumped true] → t.hart.pc = a ∧ t.hart.life = .running) ∧
      (script = [.halt] → t.hart.pc = u.hart.pc + 4#32 ∧ t.hart.life = .nopLoop)) ∧
  ∀ (s : State) (e : Exc) (script : List HostAct) (rest : List (List HostAct)),
    s.replies = (.wait :: script) :: rest → s.hart.task = .idle → s.hart.port = [] → s.agenda = [] → s.hart.jumped = false →
    ∃ t, raise e .exec s = t ∧ t.hart.port = [{ site := .exec, script := .wait :: script, pollNext := false }] ∧
      t.hart.pc = s.hart.pc ∧ t.hart.csr.mepc = s.hart.pc ∧ finishExecute t = t ∧
      (script = [] → step t = .next { t with hart := { t.hart with port := [], pc := s.hart.pc + 4#32 } })

/-! ## The step -/

/-- A step runs the decoded instruction (60_exceptions.md R301, R302): no turn scheduled, the hart running at no port and in the middle
of nothing (log 11), no timer expiry and no poll due; the fetch answers a word that decodes to `i`; then the step is `exec i` on the
state after the fetch, and `pc + 4` unless `jumped` is set. -/
def Obligations.StepRunsDecodedInstruction : Prop :=
  ∀ (s s1 : State) (w : Word) (i : Instr), ReadyToFetch s → fetchWord s.hart.pc (beforeFetch s) = .ok w s1 →
    decode w = .instr i → step s = afterExecute (exec i s1)

/-- What a fetch answers (20_memory.md R130): the four bytes at the translated address as the hart fetches them, little-endian; it
changes nothing but the I-cache, and there only by bringing the line in. -/
def Obligations.FetchReadsInstructionView : Prop :=
  ∀ (s s1 : State) (p : Word), SysInv s → s.hart.pc.toNat % 4 = 0 → translateVa .fetch s.hart.pc s = .ok p s1 →
    p.toNat + 4 ≤ s.cfg.memSize →
    ∃ s2, fetchWord s.hart.pc s =
        .ok (fetchByte s (p.toNat + 3) ++ fetchByte s (p.toNat + 2) ++ fetchByte s (p.toNat + 1) ++ fetchByte s p.toNat) s2 ∧
      s2 = { s1 with draws := s2.draws, hart := { s1.hart with icache := s2.hart.icache } } ∧
      ∀ a, fetchByte s2 a = fetchByte s a ∨
        (lineNumber s.cfg a ≠ lineNumber s.cfg p.toNat ∧ fetchByte s2 a = Memory.read s.mem a)

/-- Exceptions of the fetch (20_memory.md R130; 60_exceptions.md R301 (c); `MTVAL` and the access fault are the spec's decisions D11,
D35): misaligned pc, page fault, access fault, in that order, the last one after the translation's I-TLB fill; with a Host that does
nothing, from either state nothing but the trap CSRs changes, so the pc stays. -/
def Obligations.FetchExceptions : Prop :=
  ∀ s : State, ReadyToFetch s →
    let u := beforeFetch s
    let pc := s.hart.pc
    (pc.toNat % 4 ≠ 0 → step s = .next (raise { cause := .instructionAddressMisaligned, info := some pc } .fetch u)) ∧
      (pc.toNat % 4 = 0 →
        (∀ e s1, translateVa .fetch pc u = .exc e s1 →
          step s = .next (raise { cause := .instructionPageFault, info := some pc } .fetch u)) ∧
          ∀ p s1, translateVa .fetch pc u = .ok p s1 → s.cfg.memSize < p.toNat + 4 →
            step s = .next (raise { cause := .instructionAccessFault, info := some pc } .fetch s1)) ∧
      (s.replies = [] →
        (∀ c, raise { cause := c, info := some pc } .fetch u = trapSaved u c.code pc u.draws) ∧
          ∀ p s1, translateVa .fetch pc u = .ok p s1 →
            s1 = { u with hart := { u.hart with itlb := s1.hart.itlb } } ∧
              raise { cause := .instructionAccessFault, info := some pc } .fetch s1 = trapSaved s1 0x1#32 pc s1.draws)

/-- Words that are no instruction (30_encoding.md R176, R177, R178; the spec's decisions D21 and D38): IllegalInstruction, Abort,
refusal. -/
def Obligations.NonInstructionWords : Prop :=
  ∀ (s s1 : State) (w : Word), ReadyToFetch s → fetchWord s.hart.pc (beforeFetch s) = .ok w s1 →
    (decode w = .illegal →
      (∃ v, step s = afterExecute (.next (present .exec (trapSaved s1 0x2#32 v (s1.draws + 1))))) ∧
        (s.replies = [] →
          ∃ v, step s = .next { trapSaved s1 0x2#32 v (s1.draws + 1) with
            hart := { (trapSaved s1 0x2#32 v (s1.draws + 1)).hart with pc := s.hart.pc + 4#32 } })) ∧
      (decode w = .unsupported → step s = .fault (.abortUnsupportedOpcode w)) ∧
      (decode w = .floatingPoint → step s = .refused (.floatingPoint w))

/-! ## Timer and poll -/

/-- The timer counts down to its interrupt (60_exceptions.md R325; that an armed 0 wraps is the spec's decision D29): from a value `v`,
0 counting as 2^64, the first `v - 1` timer phases only count, and the `v`-th disables the timer at 0 and takes the timer interrupt. -/
def Obligations.TimerCountdown : Prop :=
  ∀ (s : State) (k : Nat), s.hart.timer.enabled = true →
    let v := if s.hart.timer.value = 0#64 then 2 ^ 64 else s.hart.timer.value.toNat
    let u := (fun r => (timerPhase r).2)^[k] s
    (k < v → u = s.setTimer { enabled := true, value := BitVec.ofNat 64 (v - k) }) ∧
      (k + 1 < v → (timerPhase u).1 = false) ∧
      (k + 1 = v → timerPhase u = (true, interrupt 0x807#32 .timer (u.setTimer { enabled := false, value := 0#64 })))

/-- The step in which the timer reaches 0 (60_exceptions.md R301, R325): the timer interrupt, with `MEPC` the pc of the instruction that
is not executed; then the poll counter's phase; no instruction; the pc stays. The Host does nothing. -/
def Obligations.TimerStep : Prop :=
  ∀ s : State, s.agenda = [] → s.hart.task = .idle → s.hart.port = [] → s.hart.life = .running →
    s.hart.timer = { enabled := true, value := 1#64 } → s.replies = [] →
    ∃ v t, step s = .next t ∧ t.hart.pc = s.hart.pc ∧
      t = (pollPhase
        (trapSaved { s with hart := { s.hart with jumped := false, timer := { enabled := false, value := 0#64 } } }
          0x807#32 v (s.draws + 1))).2 ∧
      (s.hart.pollctr + 1 ≠ s.cfg.pollInterval → t.hart.csr.mcause = 0x807#32 ∧ t.hart.csr.mepc = s.hart.pc)

/-- The step in which a poll is due (60_exceptions.md R301, R327; the exact `K` is the spec's decision D28): the poll counter starts
again; with an interrupt pending it is taken and no instruction runs; with none the instruction is fetched. The Host does nothing. -/
def Obligations.PollStep : Prop :=
  ∀ s : State, s.agenda = [] → s.hart.task = .idle → s.hart.port = [] → s.hart.life = .running →
    (s.hart.timer.enabled = true → s.hart.timer.value ≠ 1#64) → s.hart.pollctr + 1 = s.cfg.pollInterval → s.replies = [] →
    (InterruptPending s →
      ∃ t, step s = .next t ∧ checkInterrupts (beforePoll s) = (true, t) ∧ t.hart.pc = s.hart.pc ∧ t.hart.pollctr = 0) ∧
      (¬ InterruptPending s → step s = fetchExecute (beforePoll s))

/-- `check_interrupts()` (60_exceptions.md R331; that sources are scanned in ascending order with one trap each is the spec's decision
D27), with a Host that does nothing: it answers whether anything was pending; every polled cell is empty afterwards and no other cell
changed; the last pending source is recorded; the trap CSRs show the external interrupt at the pc; nothing else changes. -/
def Obligations.CheckInterruptsDelivers : Prop :=
  ∀ s : State, s.replies = [] →
    ∃ any t, checkInterrupts s = (any, t) ∧ (any = true ↔ InterruptPending s) ∧ (any = false → t = s) ∧
      (∀ src, Polled s src → t.gridRead s.hart.id src = 0#32) ∧
      (∀ dst src, src ≤ s.cfg.hartCount → ¬ (dst = s.hart.id ∧ Polled s src) → t.gridRead dst src = s.gridRead dst src) ∧
      (∀ src, Polled s src → s.gridRead s.hart.id src ≠ 0#32 →
        (∀ later, src < later → Polled s later → s.gridRead s.hart.id later = 0#32) →
        t.hart.interruptedBy = src ∧ t.hart.interruptCode = s.gridRead s.hart.id src ∧ t.hart.csr.mcause = 0x80B#32 ∧
          t.hart.csr.mepc = s.hart.pc) ∧
      t = { s with
            grid := t.grid, draws := t.draws,
            hart := { s.hart with
              interruptedBy := t.hart.interruptedBy, interruptCode := t.hart.interruptCode,
              csr := { s.hart.csr with
                mcause := t.hart.csr.mcause, mepc := t.hart.csr.mepc, mtval := t.hart.csr.mtval } } }

/-- An iteration in `nop_loop` (60_exceptions.md R347; that timer and poll counter stand still is the spec's decision D29): it polls at
once and executes nothing; a Host that sets `life` back in the external interrupt's trap revives the hart. -/
def Obligations.NopLoopIteration : Prop :=
  ∀ s : State, s.agenda = [] → s.hart.task = .idle → s.hart.port = [] → s.hart.life = .nopLoop →
    step s = .next (checkInterrupts (s.setJumped false)).2 ∧
      (s.replies = [] → ∃ t, step s = .next t ∧ t.hart.pc = s.hart.pc ∧ t.hart.timer = s.hart.timer ∧
        t.hart.pollctr = s.hart.pollctr ∧ t.hart.life = .nopLoop ∧ t.hart.x = s.hart.x ∧ t.mem = s.mem) ∧
      (s.replies = [[.wake]] → InterruptPending s → ∃ t, step s = .next t ∧ t.hart.life = .running ∧ t.hart.pc = s.hart.pc)

/-! ## Lifecycle, boot, IPI operations -/

/-- Lifecycle (60_exceptions.md R345, R346; a command in a state the table does not list is the spec's decision D40): what the next
iteration of a stopping hart does, and what each command does in each state. A stopped hart has no iteration (R345); that a turn given
to it changes nothing is the model's choice (log 22). -/
def Obligations.LifecycleTransitions : Prop :=
  ∀ s : State,
    (s.agenda = [] → s.hart.task = .idle → s.hart.port = [] →
      (s.hart.life = .stopped → step s = .next s) ∧ (s.hart.life = .stopping → step s = .next (s.setLife .stopped))) ∧
      (let stop := fun l => turn (.stop s.hart.id) (s.setLife l)
      stop .running = .next (s.setLife .stopping) ∧ stop .nopLoop = .next (s.setLife .stopping) ∧
        stop .stopping = .next (s.setLife .stopping) ∧ stop .stopped = .next (s.setLife .stopped)) ∧
      (let halt := fun l => turn (.halt s.hart.id) (s.setLife l)
      halt .running = .next (s.setLife .nopLoop) ∧ halt .nopLoop = .next (s.setLife .nopLoop) ∧
        halt .stopping = .next (s.setLife .stopping) ∧ halt .stopped = .next (s.setLife .stopped)) ∧
      (s.hart.life ≠ .stopped → turn (.start s.hart.id) s = .next s)

/-- Boot (70_reset_and_hazards.md R363; step 3 is the spec's decision D5): `start()` of a stopped hart sets it running, presents it at
the boot port, and the pc becomes `MEPC` as the Host leaves it: unchanged by a Host that does nothing, the entry address by one that
writes it and `SATP`. -/
def Obligations.BootSequence : Prop :=
  ∀ (s : State) (entry satp : Word) (rest : List (List HostAct)), s.hart.life = .stopped →
    (s.replies = [] →
      turn (.start s.hart.id) s = .next { s with hart := { s.hart with life := .running, pc := s.hart.csr.mepc } }) ∧
      (s.replies = [.setCsr 0x341#12 entry, .setCsr 0x180#12 satp] :: rest →
        turn (.start s.hart.id) s = .next { s with
          replies := rest,
          hart := { s.hart with
            life := .running, pc := entry, csr := { s.hart.csr with mepc := entry, satp := satp } } })

/-- `raise_interrupt(target, code)` in the name of a hart at a port (60_exceptions.md R332, R335; that misuse is Abort is the spec's
decision D36): misuse is Abort; an empty cell is filled, no other cell changes, and the Host goes on; an occupied one stays, and the
hart's next turn polls. That an attempt is one turn and the poll another is the model's (log 15). -/
def Obligations.RaiseInterruptAttempt : Prop :=
  ∀ (s : State) (site : Site) (target : Nat) (code : Word) (script : List HostAct) (below : List Activation),
    s.agenda = [] → s.hart.task = .idle →
    s.hart.port = { site := site, script := .raise target code :: script, pollNext := false } :: below →
    (target = s.hart.id ∨ s.cfg.hartCount ≤ target → step s = .fault .abortIpiMisuse) ∧
      (target ≠ s.hart.id → target < s.cfg.hartCount →
        (s.gridRead target s.hart.id = 0#32 →
          let u := s.gridWrite target s.hart.id code
          step s = .next (continueScript { site := site, script := .raise target code :: script, pollNext := false } below
              script u) ∧
            u.gridRead target s.hart.id = code ∧ u = { s with grid := u.grid } ∧
            (s.hart.id < s.cfg.hartCount → ∀ dst src, src ≤ s.cfg.hartCount → ¬ (dst = target ∧ src = s.hart.id) →
              u.gridRead dst src = s.gridRead dst src)) ∧
          (s.gridRead target s.hart.id ≠ 0#32 →
            step s = .next (s.setPort ({ site := site, script := .raise target code :: script, pollNext := true } :: below))))

/-- `respond_interrupt` and `await_interrupt_response` (60_exceptions.md R333, R334): a response is stored in the originator's diagonal
cell; a waiting hart that finds its own diagonal cell set takes the code, empties the cell and changes no other one; one that finds it
empty polls next; and the turn after a failed attempt polls inbound interrupts. Split into its two events, the load comes first and the
store of 0 after whatever other agents do then (R300, R330). That an attempt is one turn and the poll the next one is the model's (log
15), and so are the field `response`, in which the code taken is kept (log 28), and the turn that splits the two events (log 11). -/
def Obligations.ResponseProtocol : Prop :=
  ∀ (s : State) (code : Word) (site : Site) (script : List HostAct) (below : List Activation),
    (hostAct (.respond code) s = some (s.gridWrite s.hart.interruptedBy s.hart.interruptedBy code)) ∧
      (s.gridWrite s.hart.interruptedBy s.hart.interruptedBy code).gridRead s.hart.interruptedBy s.hart.interruptedBy = code ∧
      (s.agenda = [] → s.hart.task = .idle →
        s.hart.port = { site := site, script := .await :: script, pollNext := false } :: below →
        (s.gridRead s.hart.id s.hart.id = 0#32 →
          step s = .next (s.setPort ({ site := site, script := .await :: script, pollNext := true } :: below))) ∧
          (s.gridRead s.hart.id s.hart.id ≠ 0#32 →
            let u := (s.setResponse (s.gridRead s.hart.id s.hart.id)).gridWrite s.hart.id s.hart.id 0#32
            step s = .next (continueScript { site := site, script := .await :: script, pollNext := false } below script u) ∧
              u.gridRead s.hart.id s.hart.id = 0#32 ∧ u.hart.response = s.gridRead s.hart.id s.hart.id ∧
              u = { s with grid := u.grid, hart := { s.hart with response := u.hart.response } } ∧
              (s.hart.id < s.cfg.hartCount → ∀ dst src, src ≤ s.cfg.hartCount → ¬ (dst = s.hart.id ∧ src = s.hart.id) →
                u.gridRead dst src = s.gridRead dst src))) ∧
      (s.agenda = [] → s.hart.task = .idle → s.hart.port = { site := site, script := script, pollNext := true } :: below →
        step s = .next (checkInterrupts (s.setPort ({ site := site, script := script, pollNext := false } :: below))).2) ∧
      (s.hart.port = { site := site, script := .await :: script, pollNext := false } :: below →
        (s.hart.task = .idle → s.gridRead s.hart.id s.hart.id ≠ 0#32 →
          turn (.split s.hart.id) s = .next
            { s with hart := { s.hart with response := s.gridRead s.hart.id s.hart.id, task := .consume } }) ∧
          (s.hart.task = .consume →
            turn (.split s.hart.id) s = .next
              (continueSplit { site := site, script := .await :: script, pollNext := false } below script
                ((s.setTask .idle).gridWrite s.hart.id s.hart.id 0#32))))

/-! ## Translation, TLB, caches -/

/-- Bare mode (20_memory.md R112): with `SATP` bit 31 clear every translation is the identity and touches nothing. -/
def Obligations.BareTranslation : Prop :=
  ∀ (s : State) (t : AccessType) (v : Word), s.hart.csr.satp.toNat < 2 ^ 31 → translateVa t v s = .ok v s

/-- A two-level translation that misses the TLB (20_memory.md R113, R114, R117, R120, R121; 32-bit addresses are the spec's decision
D14): a pointer in the root table and a permitted leaf give `{PPN, offset}` and fill the TLB with the leaf, and change nothing else. -/
def Obligations.TwoLevelTranslation : Prop :=
  ∀ (s : State) (t : AccessType) (v pte1 pte0 : Word), 2 ^ 31 ≤ s.hart.csr.satp.toNat →
    tlbLoad s.cfg (s.tlb t.stream) (vpiOf s.hart.csr.satp v) = none →
    pteAt s (rootEntryAddress s v) = some pte1 → pointerEntry pte1 →
    pteAt s (leafEntryAddress pte1 v) = some pte0 → leafEntry pte0 → Allows pte0 t →
    ∃ p, p.toNat = (pte0.toNat / 2 ^ 10 * 4096) % 2 ^ 32 + v.toNat % 4096 ∧
      translateVa t v s = .ok p
        (s.setTlb t.stream (tlbStore s.cfg (s.tlb t.stream) (vpiOf s.hart.csr.satp v) pte0))

/-- A megapage translation that misses the TLB (20_memory.md R113, R114, R117, R120, R121; the fold and 32-bit addresses are the spec's
decisions D18 and D14): a permitted leaf in the root table with `PPN[0] = 0` gives `{PPN[1], v[21:0]}` and fills the TLB with the leaf,
`VPN[0]` folded into its `PPN[0]` field. -/
def Obligations.MegapageTranslation : Prop :=
  ∀ (s : State) (t : AccessType) (v pte1 : Word), 2 ^ 31 ≤ s.hart.csr.satp.toNat →
    tlbLoad s.cfg (s.tlb t.stream) (vpiOf s.hart.csr.satp v) = none →
    pteAt s (rootEntryAddress s v) = some pte1 → leafEntry pte1 → pte1.toNat / 2 ^ 10 % 2 ^ 10 = 0 → Allows pte1 t →
    ∃ p folded, p.toNat = (pte1.toNat / 2 ^ 20 * 2 ^ 22) % 2 ^ 32 + v.toNat % 2 ^ 22 ∧
      folded.toNat = pte1.toNat + v.toNat / 2 ^ 12 % 2 ^ 10 * 2 ^ 10 ∧
      translateVa t v s = .ok p
        (s.setTlb t.stream (tlbStore s.cfg (s.tlb t.stream) (vpiOf s.hart.csr.satp v) folded))

/-- Failures of a translation (20_memory.md R113, R114, R116, R117, R122; the check on a hit and the fault of an out-of-range entry are
the spec's decisions D16 and D15): each raises the page fault of the access type with the virtual address and changes nothing. -/
def Obligations.TranslationFaults : Prop :=
  ∀ (s : State) (t : AccessType) (v : Word), 2 ^ 31 ≤ s.hart.csr.satp.toNat →
    let fails := translateVa t v s = .exc { cause := t.pageFault, info := some v } s
    let hit := tlbLoad s.cfg (s.tlb t.stream) (vpiOf s.hart.csr.satp v)
    let root := pteAt s (rootEntryAddress s v)
    (∀ pte, hit = some pte → ¬ Allows pte t → fails) ∧
      (hit = none →
        (root = none → fails) ∧
          ∀ pte1, root = some pte1 →
            (badEntry pte1 → fails) ∧
              (leafEntry pte1 → pte1.toNat / 2 ^ 10 % 2 ^ 10 ≠ 0 → fails) ∧
              (leafEntry pte1 → ¬ Allows pte1 t → fails) ∧
              (pointerEntry pte1 →
                (pteAt s (leafEntryAddress pte1 v) = none → fails) ∧
                  ∀ pte0, pteAt s (leafEntryAddress pte1 v) = some pte0 →
                    (badEntry pte0 ∨ pointerEntry pte0 → fails) ∧ (leafEntry pte0 → ¬ Allows pte0 t → fails)))

/-- A second translation hits the TLB and gives the same address (20_memory.md R123, with no other fill between), and leaves the state
as it is. -/
def Obligations.TranslationIsStable : Prop :=
  ∀ (s s1 : State) (t : AccessType) (v p : Word), SysInv s → translateVa t v s = .ok p s1 →
    translateVa t v s1 = .ok p s1 ∧
      (2 ^ 31 ≤ s.hart.csr.satp.toNat → tlbLoad s1.cfg (s1.tlb t.stream) (vpiOf s1.hart.csr.satp v) ≠ none)

/-- What a TLB promises (20_memory.md R103, R104, R106): after a store that followed a miss its key answers the entry stored, and any
other key answers nothing that no slot held for that key before. -/
def Obligations.TlbStoreThenLoad : Prop :=
  ∀ (c : Config) (tlb : Tlb) (vpi pte : Word), c.wf = true → tlb.length = c.tlbSize → vpi.toNat < 2 ^ 31 →
    tlbLoad c tlb vpi = none →
    tlbLoad c (tlbStore c tlb vpi pte) vpi = some pte ∧
      ∀ key q, key ≠ vpi → tlbLoad c (tlbStore c tlb vpi pte) key = some q →
        ∃ slot, tlb.entry slot ≠ 0xFFFFFFFFFFFFFFFF#64 ∧ tlb.entry slot = key ++ q

/-- Probe, write, probe (20_memory.md R85, with R83, R84, R86): a store that hits is reported by the next probe, of the same line in the
same place; a probe that misses an address in range hits after the refill. -/
def Obligations.CacheProbeWriteProbe : Prop :=
  ∀ (s : State) (p n : Nat) (bs : List Byte), SysInv s → s.cfg.cacheEnable = true → n ∈ [1, 2, 4] → p % n = 0 →
    p + n ≤ s.cfg.memSize → bs.length = n →
    (∀ old, cacheLoad s.cfg (s.cache .data) p n = some old →
      ∃ k, cacheStore s.cfg (s.cache .data) p bs = some k ∧ cacheLoad s.cfg k p n = some bs ∧
        k.map Line.tag = (s.cache .data).map Line.tag) ∧
      (cacheLoad s.cfg (s.cache .data) p n = none →
        cacheStore s.cfg (s.cache .data) p bs = none ∧
          ∃ t, refill .data (lineNumber s.cfg p) s = some t ∧
            cacheLoad t.cfg (t.cache .data) p n = some (Memory.readBytes s.mem p n))

/-- The refill (20_memory.md R86; the range test before the choice of a victim is the spec's decision D39): the new line is clean and
holds `Mem`'s bytes; with a free slot no line is lost; without, exactly one slot below `C` is replaced, its bytes are in `Mem` if it was
dirty, and `Mem` is otherwise unchanged. The victim is a free value (log 2). -/
def Obligations.CacheRefill : Prop :=
  ∀ (s : State) (st : Stream) (line : Nat), SysInv s → s.cfg.cacheEnable = true → (s.cache st).find line = none →
    (line + 1) * s.cfg.lineSize ≤ s.cfg.memSize →
    ∃ t new, refill st line s = some t ∧ new.tag = line ∧ new.dirty = false ∧
      new.data = Memory.readBytes s.mem (line * s.cfg.lineSize) s.cfg.lineSize ∧ t.cfg = s.cfg ∧
      ((s.cache st).length < s.cfg.cacheSlots → t.cache st = s.cache st ++ [new] ∧ t.mem = s.mem) ∧
      ((s.cache st).length = s.cfg.cacheSlots →
        ∃ slot victim, (s.cache st)[slot]? = some victim ∧ t.cache st = (s.cache st).set slot new ∧
          (victim.dirty = false → t.mem = s.mem) ∧
          (victim.dirty = true → ∀ a,
            (a / s.cfg.lineSize = victim.tag → Memory.read t.mem a = victim.data.getD (a % s.cfg.lineSize) 0#8) ∧
              (a / s.cfg.lineSize ≠ victim.tag → Memory.read t.mem a = Memory.read s.mem a)))

/-- The page-table walk reads `Mem`, never a cache (20_memory.md R158): a translation is the same whatever the D-cache holds. -/
def Obligations.TranslationIgnoresDataCache : Prop :=
  ∀ (s : State) (t : AccessType) (v : Word) (k : Cache),
    (∀ p s1, translateVa t v s = .ok p s1 → translateVa t v (s.setCache .data k) = .ok p (s1.setCache .data k)) ∧
      (∀ e s1, translateVa t v s = .exc e s1 → translateVa t v (s.setCache .data k) = .exc e (s1.setCache .data k))

/-! ## Reset, invariant, whole machine -/

/-- Reset meets the invariant. -/
def Obligations.ResetInvariant : Prop := SysInv State.reset

/-- What the spec says reset leaves (10_state.md R55, whose table is the spec's decision D6), in every configuration; the values R55
leaves open are not stated. That a hart is at no port and in the middle of nothing, for which R55 has no row, is the model's choice
(log 13, log 11). -/
def Obligations.ResetValues : Prop :=
  ∀ c : Config, 1 ≤ c.hartCount →
    let s := State.resetWith c
    (s.hart :: s.parked).map Hart.id = List.range c.hartCount ∧
      (∀ h ∈ s.hart :: s.parked, h.life = .stopped ∧ h.csr.mhartid = BitVec.ofNat 32 h.id ∧ h.x.get 0 = 0#32 ∧
        h.jumped = false ∧ h.timer.enabled = false ∧ h.pollctr = 0 ∧ h.icache = [] ∧ h.dcache = [] ∧ h.port = [] ∧ h.task = .idle ∧
        h.itlb = List.replicate c.tlbSize 0xFFFFFFFFFFFFFFFF#64 ∧ h.dtlb = List.replicate c.tlbSize 0xFFFFFFFFFFFFFFFF#64) ∧
      s.res.length = c.hartCount ∧ (∀ r ∈ s.res, r.valid = false) ∧ ∀ dst src, s.gridRead dst src = 0#32

/-- The invariant is kept by every step, whatever turn comes next and whatever the Host does. -/
def Obligations.StepKeepsInvariant : Prop := ∀ s t : State, SysInv s → step s = .next t → SysInv t

/-- Every instruction completes: none faults, none is refused (60_exceptions.md R303). -/
def Obligations.EveryInstructionCompletes : Prop := ∀ (i : Instr) (s : State), ∃ t, exec i s = .next t

/-- No instruction reaches the timer, the floating-point registers, the lifecycle, the poll counter, the pending-interrupt pair, the IPI
matrix, `MHARTID`, the hart's id or another hart (10_state.md R27, R28, R29, R37 (d), R41, R50; 60_exceptions.md R326), when the Host
does nothing in a trap. -/
def Obligations.InstructionsLeaveHostState : Prop :=
  ∀ (i : Instr) (s t : State), s.replies = [] → exec i s = .next t →
    t.cfg = s.cfg ∧ t.parked = s.parked ∧ t.grid = s.grid ∧ t.sysResponse = s.sysResponse ∧ t.agenda = s.agenda ∧
      t.replies = s.replies ∧ t.hart.id = s.hart.id ∧ t.hart.f = s.hart.f ∧ t.hart.timer = s.hart.timer ∧
      t.hart.life = s.hart.life ∧ t.hart.pollctr = s.hart.pollctr ∧ t.hart.interruptedBy = s.hart.interruptedBy ∧
      t.hart.interruptCode = s.hart.interruptCode ∧ t.hart.csr.mhartid = s.hart.csr.mhartid ∧ t.hart.port = s.hart.port ∧
      t.hart.response = s.hart.response

/-- Only a control transfer changes the pc or sets `jumped` (10_state.md R25 (b), R26), and only to an aligned target, when the Host does
nothing in a trap. -/
def Obligations.OnlyTransfersJump : Prop :=
  ∀ (i : Instr) (s t : State), s.replies = [] → exec i s = .next t →
    (isTransfer i = false → t.hart.pc = s.hart.pc ∧ t.hart.jumped = s.hart.jumped) ∧
      (s.hart.jumped = false →
        (t.hart.jumped = true → isTransfer i = true ∧ t.hart.pc.toNat % 4 = 0) ∧
          (t.hart.jumped = false → t.hart.pc = s.hart.pc))

/-- Which instructions can change `Mem`, the reservations, the caches and the TLBs (20_memory.md R89, R134, R135, R143, R153, R155), when
the Host does nothing in a trap. -/
def Obligations.MemorySystemWriters : Prop :=
  ∀ (i : Instr) (s t : State), s.replies = [] → exec i s = .next t →
    (isLoad i = false → isStore i = false → isFence i = false → isAtomic i = false → t.mem = s.mem) ∧
      (isStore i = false → isAtomic i = false → t.res = s.res) ∧
      (isLoad i = false → isStore i = false → isFence i = false → t.hart.dcache = s.hart.dcache) ∧
      (isFenceI i = false → t.hart.icache = s.hart.icache) ∧ (isSfence i = false → t.hart.itlb = s.hart.itlb) ∧
      (isLoad i = false → isStore i = false → isAtomic i = false → isSfence i = false → t.hart.dtlb = s.hart.dtlb)

/-- A turn of one hart, or a Host act on it, leaves the private state of every other hart as it is (10_state.md R20, R50;
60_exceptions.md R300), and a Host act on shared state leaves every hart as it is. -/
def Obligations.TurnsAreIsolated : Prop :=
  ∀ s t : State, SysInv s → step s = .next t →
    ∀ h ∈ s.hart :: s.parked, (s.agenda = [] → h.id ≠ s.hart.id) →
      (∀ tn rest, s.agenda = tn :: rest → turnHart tn ≠ some h.id) → h ∈ t.hart :: t.parked

/-- Register 0 (10_state.md R21): reads return 0 and writes are discarded; every other register holds the last value written and no
write to another register changes it. -/
def Obligations.RegisterFile : Prop :=
  ∀ (s : State) (r q : Reg) (v : Word),
    s.readX 0 = 0#32 ∧ s.writeX 0 v = s ∧ (r ≠ 0 → (s.writeX r v).readX r = v) ∧ (q ≠ r → (s.writeX r v).readX q = s.readX q)

/-! ## Shared events one by one -/

/-- An iteration split into its shared events, with no other agent's event between them, does what the whole iteration does
(60_exceptions.md R300, R301; 00_scope.md R4): begun by the turn `split` and gone on with event by event, from any hart in the middle of
nothing, at a port or not, it comes to the outcome of the whole turn. The turns that split an iteration are the model's form of R300's
interleaving (log 11, log 12). -/
def Obligations.SplitIterationIsWhole : Prop :=
  ∀ s : State, s.agenda = [] → s.hart.task = .idle →
    ∃ n, steps (n + 1) { s with agenda := [.split s.hart.id] } = step s

/-- What falls between two shared events of one hart (60_exceptions.md R300; 20_memory.md R73, R87, R114, R132, R141; 44_miscmem.md R260;
60_exceptions.md R331). A FENCE with a dirty line waits with nothing done yet, and then any dirty line can be the next one written
back, alone; the FENCE ends with the last one. A walk's read sees `Mem` as it is then: a pointer only names the next read, a failure
raises the page fault, a permitted leaf fills the TLB, and an access that needs `Mem` waits. A plain store's CS-KILL is an event of its
own. A poll loads one cell at a time, and zeroes a cell only after the trap, with a Host that does nothing in it. The field `task` that
says what comes next is the model's (log 11). -/
def Obligations.SharedEventsAreSeparate : Prop :=
  ∀ s : State, SysInv s → s.agenda = [] → s.hart.port = [] →
    let idle := { s with hart := { s.hart with task := .idle } }
    (∀ rd rs1 fm pred succ, (∃ l ∈ s.hart.dcache, l.dirty = true) →
      startInstr (.fence rd rs1 fm pred succ) s = .next { s with hart := { s.hart with task := .flush } }) ∧
      (s.hart.task = .flush → ∀ slot l, s.hart.dcache[slot]? = some l → l.dirty = true →
        ∃ t, turn (.writeBack s.hart.id slot) s = .next t ∧
          (∀ a, Memory.read t.mem a =
            if a / s.cfg.lineSize = l.tag then l.data.getD (a % s.cfg.lineSize) 0#8 else Memory.read s.mem a) ∧
          t = { s with
                mem := t.mem,
                hart := { s.hart with
                  dcache := s.hart.dcache.set slot { l with dirty := false }, task := t.hart.task, pc := t.hart.pc } } ∧
          ((∃ m ∈ t.hart.dcache, m.dirty = true) → t.hart.task = .flush ∧ t.hart.pc = s.hart.pc) ∧
          ((∀ m ∈ t.hart.dcache, m.dirty = false) →
            t.hart.task = .idle ∧ t.hart.pc = if s.hart.jumped then s.hart.pc else s.hart.pc + 4#32)) ∧
      (∀ i r, requestOf i s = some r →
        (s.hart.task = .exec i (.pte 1 (rootTable s.hart.csr.satp)) → ∀ pte : Word,
          pteAt s (rootEntryAddress s r.va) = some pte → pointerEntry pte →
          step s = .next { s with hart := { s.hart with task := .exec i (.pte 0 ((pte >>> 10) * 4096#32)) } }) ∧
          ∀ pte1 : Word, s.hart.task = .exec i (.pte 0 ((pte1 >>> 10) * 4096#32)) →
            (pteAt s (leafEntryAddress pte1 r.va) = none ∨
              (∃ pte0, pteAt s (leafEntryAddress pte1 r.va) = some pte0 ∧ (badEntry pte0 ∨ pointerEntry pte0)) →
              step s = .next (finishExecute (raise { cause := r.type.pageFault, info := some r.va } .exec idle))) ∧
              ∀ (pte0 p : Word), pteAt s (leafEntryAddress pte1 r.va) = some pte0 → leafEntry pte0 → Allows pte0 r.type →
                p.toNat = (pte0.toNat / 2 ^ 10 * 4096) % 2 ^ 32 + r.va.toNat % 4096 → p.toNat + r.width ≤ s.cfg.memSize →
                (isAtomic i = true ∨ ¬ DataHit s p.toNat) →
                step s = .next
                  { s with
                    hart := { s.hart with
                      task := .exec i (.access p),
                      dtlb := tlbStore s.cfg s.hart.dtlb (vpiOf s.hart.csr.satp r.va) pte0 } }) ∧
      (s.hart.task = .fetch (.pte 1 (rootTable s.hart.csr.satp)) → ∀ pte : Word,
        pteAt s (rootEntryAddress s s.hart.pc) = some pte → pointerEntry pte →
        step s = .next { s with hart := { s.hart with task := .fetch (.pte 0 ((pte >>> 10) * 4096#32)) } }) ∧
      (∀ p, s.hart.task = .kill p →
        ∃ t, step s = .next t ∧ KilledAt s t p ∧
          t = { s with
                res := t.res,
                hart := { s.hart with
                  task := .idle, pc := if s.hart.jumped then s.hart.pc else s.hart.pc + 4#32 } }) ∧
      (∀ src rest thenFetch, s.hart.task = .scan (src :: rest) thenFetch →
        (s.gridRead s.hart.id src = 0#32 → rest ≠ [] →
          step s = .next { s with hart := { s.hart with task := .scan rest thenFetch } }) ∧
          (s.gridRead s.hart.id src ≠ 0#32 → s.replies = [] →
            ∃ t, step s = .next t ∧
              t = { s with
                    draws := t.draws,
                    hart := { s.hart with
                      task := .zero src rest, interruptedBy := src, interruptCode := s.gridRead s.hart.id src,
                      csr := { s.hart.csr with mcause := 0x80B#32, mepc := s.hart.pc, mtval := t.hart.csr.mtval } } })) ∧
      (∀ src rest, s.hart.task = .zero src rest →
        step s = .next
          { s.gridWrite s.hart.id src 0#32 with
            hart := { s.hart with task := if rest = [] then .idle else .scan rest false } })
end

