-- ==== Sys2Proof/Laws/Arith.lean ====
section
/-! SUPPORT. What the operations of the integer instructions compute, in exact integer arithmetic that is narrowed at the end; and
alignment as divisibility. -/

namespace Sys2Proof.Machine

theorem sext12_eq (imm : BitVec 12) : sext12 imm = BitVec.ofInt 32 imm.toInt := rfl

theorem opAdd_eq (a b : Word) : opAdd a b = BitVec.ofInt 32 (a.toInt + b.toInt) := by
  simp [opAdd, BitVec.ofInt_add]

theorem opSub_eq (a b : Word) : opSub a b = BitVec.ofInt 32 (a.toInt - b.toInt) := by
  apply BitVec.eq_of_toInt_eq
  simp [opSub, BitVec.toInt_sub]

theorem toInt_sext12 (imm : BitVec 12) : (sext12 imm).toInt = imm.toInt := by
  simp only [sext12]
  rw [BitVec.toInt_signExtend_of_le (by omega)]

theorem opSlt_eq (a b : Word) : opSlt a b = if a.toInt < b.toInt then 1#32 else 0#32 := by
  simp [opSlt, signedLess, boolWord]

theorem opSltu_eq (a b : Word) : opSltu a b = if a.toNat < b.toNat then 1#32 else 0#32 := by
  simp [opSltu, unsignedLess, boolWord]

theorem shiftAmount_eq (v : Word) : shiftAmount v = v.toNat % 32 := by
  simp [shiftAmount]

@[simp] theorem shiftAmount_shamt (sh : Fin 32) : shiftAmount (BitVec.ofNat 32 sh.val) = sh.val := by
  rw [shiftAmount_eq, BitVec.toNat_ofNat]
  omega

theorem opSll_eq (a b : Word) : opSll a b = BitVec.ofNat 32 (a.toNat * 2 ^ shiftAmount b) := by
  apply BitVec.eq_of_toNat_eq
  simp [opSll, Nat.shiftLeft_eq]

theorem opSrl_eq (a b : Word) : opSrl a b = BitVec.ofNat 32 (a.toNat / 2 ^ shiftAmount b) := by
  apply BitVec.eq_of_toNat_eq
  simp only [opSrl, BitVec.toNat_ushiftRight, Nat.shiftRight_eq_div_pow, BitVec.toNat_ofNat]
  exact (Nat.mod_eq_of_lt (lt_of_le_of_lt (Nat.div_le_self _ _) a.isLt)).symm

theorem opSra_eq (a b : Word) : opSra a b = BitVec.ofInt 32 (a.toInt / 2 ^ shiftAmount b) := by
  simp only [opSra]
  rw [BitVec.sshiftRight]
  congr 1
  rw [Int.shiftRight_eq_div_pow]
  norm_cast

/-- Bits 63:32 of an exact product are its quotient by 2^32, rounded down. -/
theorem high_word (p : Int) : (BitVec.ofInt 64 p).extractLsb' 32 32 = BitVec.ofInt 32 (p / 2 ^ 32) := by
  apply BitVec.eq_of_toNat_eq
  simp only [BitVec.extractLsb'_toNat, BitVec.toNat_ofInt, Nat.shiftRight_eq_div_pow]
  omega

theorem opMulh_eq (a b : Word) : opMulh a b = BitVec.ofInt 32 (a.toInt * b.toInt / 2 ^ 32) := high_word _

theorem opMulhsu_eq (a b : Word) : opMulhsu a b = BitVec.ofInt 32 (a.toInt * (b.toNat : Int) / 2 ^ 32) := high_word _

theorem opMulhu_eq (a b : Word) : opMulhu a b = BitVec.ofNat 32 (a.toNat * b.toNat / 2 ^ 32) := by
  apply BitVec.eq_of_toNat_eq
  simp only [opMulhu, BitVec.extractLsb'_toNat, BitVec.toNat_ofNat, Nat.shiftRight_eq_div_pow]
  omega

theorem divOverflow_iff (a b : Word) : divOverflow a b = true ↔ a.toInt = -2 ^ 31 ∧ b.toInt = -1 := by
  simp only [divOverflow, Bool.and_eq_true, decide_eq_true_eq, ← BitVec.toInt_inj]
  exact Iff.rfl

theorem eq_zero_iff_toInt (b : Word) : b = 0#32 ↔ b.toInt = 0 := by
  rw [← BitVec.toInt_inj]
  exact Iff.rfl

theorem eq_zero_iff_toNat (b : Word) : b = 0#32 ↔ b.toNat = 0 := by
  rw [← BitVec.toNat_inj]
  exact Iff.rfl

theorem upperImm_eq (imm : BitVec 20) : upperImm imm = BitVec.ofNat 32 (imm.toNat * 4096) := by
  apply BitVec.eq_of_toNat_eq
  rw [upperImm, BitVec.toNat_append, BitVec.toNat_ofNat, Nat.shiftLeft_eq]
  have := imm.isLt
  simp only [BitVec.toNat_ofNat, Nat.zero_mod, Nat.or_zero]
  omega

/-- The exact quotient of a division that is neither by 0 nor the overflow fits in 32 bits. -/
theorem tdiv_bounds (a b : Word) (h : ¬ (a.toInt = -2 ^ 31 ∧ b.toInt = -1)) :
    -2 ^ 31 ≤ a.toInt.tdiv b.toInt ∧ a.toInt.tdiv b.toInt < 2 ^ 31 := by
  have h1 := BitVec.toInt_lt (x := a)
  have h2 := BitVec.le_toInt a
  have h3 := Int.natAbs_tdiv_le_natAbs a.toInt b.toInt
  refine ⟨by omega, ?_⟩
  by_contra hc
  have h4 : a.toInt = -2 ^ 31 := by omega
  have h5 : a.toInt.tdiv b.toInt = 2 ^ 31 := by omega
  have h6 := Int.natAbs_tdiv a.toInt b.toInt
  rw [h5, h4] at h6
  have h7 : b.toInt.natAbs = 1 := by
    by_contra hb
    rcases Nat.lt_or_ge b.toInt.natAbs 1 with h8 | h8
    · have : b.toInt.natAbs = 0 := by omega
      rw [this] at h6
      simp at h6
    · have : 2 ≤ b.toInt.natAbs := by omega
      have h9 : ((-2 ^ 31 : Int).natAbs) / b.toInt.natAbs ≤ (-2 ^ 31 : Int).natAbs / 2 := Nat.div_le_div_left this (by omega)
      rw [show (-2 ^ 31 : Int).natAbs = 2147483648 from by decide] at h6 h9
      rw [show (2 ^ 31 : Int).natAbs = 2147483648 from by decide] at h6
      exact absurd (h6.le.trans h9) (by decide)
  rcases Int.natAbs_eq b.toInt with h8 | h8
  · rw [h7] at h8
    rw [h4, h8] at h5
    exact absurd h5 (by decide)
  · rw [h7] at h8
    exact h ⟨h4, h8⟩

/-- The quotient of DIV outside its special cases, as an exact integer. -/
theorem toInt_opDiv (a b : Word) (h0 : b ≠ 0#32) (h1 : divOverflow a b = false) :
    (opDiv a b).toInt = a.toInt.tdiv b.toInt := by
  have h2 : ¬ (a.toInt = -2 ^ 31 ∧ b.toInt = -1) := fun h => by simp [(divOverflow_iff a b).2 h] at h1
  have h3 := tdiv_bounds a b h2
  simp only [opDiv, if_neg h0, h1]
  rw [if_neg (by simp), BitVec.toInt_ofInt, Int.bmod_eq_of_le] <;> omega

/-- The remainder of REM outside its special cases, as an exact integer. -/
theorem toInt_opRem (a b : Word) (h0 : b ≠ 0#32) (h1 : divOverflow a b = false) :
    (opRem a b).toInt = a.toInt.tmod b.toInt := by
  have e : a.toInt - b.toInt * a.toInt.tdiv b.toInt = a.toInt.tmod b.toInt := by
    have := Int.tmod_add_mul_tdiv a.toInt b.toInt
    omega
  have hb : b.toInt ≠ 0 := fun h => h0 ((eq_zero_iff_toInt b).2 h)
  have h4 := BitVec.toInt_lt (x := b)
  have h5 := BitVec.le_toInt b
  have h6 : (a.toInt.tmod b.toInt).natAbs < b.toInt.natAbs := by
    rw [Int.natAbs_tmod]
    exact Nat.mod_lt _ (by omega)
  simp only [opRem, if_neg h0, h1]
  rw [if_neg (by simp), BitVec.toInt_ofInt, e, Int.bmod_eq_of_le] <;> omega

/-- An aligned transfer target is divisible by 4. -/
theorem alignedTarget_iff (t : Word) : alignedTarget t = true ↔ t.toNat % 4 = 0 := by
  simp only [alignedTarget, decide_eq_true_eq, ← BitVec.toNat_inj, BitVec.extractLsb'_toNat, Nat.shiftRight_zero]
  exact Iff.rfl

/-- The sum of a word and a sign-extended offset, modulo 2^32. -/
theorem add_signExtend {n : Nat} (w : Word) (x : BitVec n) :
    w + x.signExtend 32 = BitVec.ofInt 32 ((w.toNat : Int) + x.toInt) := by
  rw [BitVec.ofInt_add]
  congr 1
  simp

/-- Clearing bit 0 of a word. -/
theorem and_clear_bit0 (w : Word) : w &&& 0xFFFFFFFE#32 = BitVec.ofNat 32 (w.toNat - w.toNat % 2) := by
  have h : w &&& 0xFFFFFFFE#32 = (w >>> 1) <<< 1 := by
    apply BitVec.eq_of_getLsbD_eq
    intro i hi
    simp only [BitVec.getLsbD_and, BitVec.getLsbD_shiftLeft, BitVec.getLsbD_ushiftRight]
    interval_cases i <;> simp
  apply BitVec.eq_of_toNat_eq
  rw [h]
  simp only [BitVec.toNat_shiftLeft, BitVec.toNat_ushiftRight, Nat.shiftLeft_eq, Nat.shiftRight_eq_div_pow, BitVec.toNat_ofNat]
  omega

end Sys2Proof.Machine
end

