-- ==== Sys2Proof/Laws/Sparse.lean ====
section
/-! SUPPORT. The laws of sparse maps: a read after a write, writes keep the canonical form, and canonical maps that read alike are
equal. -/

namespace Sys2Proof.Machine.Sparse

variable {α : Type}

theorem get_eq_default_of_not_mem (d : α) (m : Sparse α) (k : Nat) (h : ∀ e ∈ m, e.1 ≠ k) : get d m k = d := by
  induction m with
  | nil => rfl
  | cons e rest ih =>
    obtain ⟨a, v⟩ := e
    have h1 : a ≠ k := h (a, v) (by simp)
    simp only [get, if_neg h1]
    exact ih (fun e he => h e (by simp [he]))

theorem get_erase (d : α) (m : Sparse α) (k j : Nat) : get d (erase k m) j = if j = k then d else get d m j := by
  induction m with
  | nil => simp [erase, get]
  | cons e rest ih =>
    obtain ⟨a, v⟩ := e
    simp only [erase] at ih ⊢
    by_cases hak : a = k
    · subst hak
      by_cases hj : j = a
      · subst hj; simpa using ih
      · have : ¬ a = j := fun h => hj h.symm
        simpa [get, hj, this] using ih
    · by_cases hj : a = j
      · subst hj; simp [hak, get]
      · simpa [hak, get, hj] using ih

theorem get_insert (d : α) (m : Sparse α) (k : Nat) (v : α) (j : Nat) (h : ∀ e ∈ m, e.1 ≠ k) :
    get d (insert k v m) j = if j = k then v else get d m j := by
  induction m with
  | nil => by_cases hj : k = j <;> simp [insert, get, hj, eq_comm]
  | cons e rest ih =>
    obtain ⟨a, w⟩ := e
    have hak : a ≠ k := h (a, w) (by simp)
    have ih := ih (fun e he => h e (by simp [he]))
    simp only [insert]
    split
    · by_cases hj : j = k
      · simp [get, hj]
      · simp [get, hj, Ne.symm hj]
    · by_cases haj : a = j
      · have hj : ¬ j = k := fun h => hak (haj.trans h)
        simp [get, haj, hj]
      · simp [get, haj, ih]

theorem erase_ne (k : Nat) (m : Sparse α) : ∀ e ∈ erase k m, e.1 ≠ k := by
  intro e he; simpa [erase] using (List.mem_filter.1 he).2

/-- A read after a write: the value written at its key, the old value at every other key. -/
theorem get_set [DecidableEq α] (d : α) (m : Sparse α) (k : Nat) (v : α) (j : Nat) :
    get d (set d m k v) j = if j = k then v else get d m j := by
  unfold set
  split
  · next h => subst h; exact get_erase v m k j
  · rw [get_insert d _ k v j (erase_ne k m), get_erase]
    split <;> rfl

@[simp] theorem get_set_same [DecidableEq α] (d : α) (m : Sparse α) (k : Nat) (v : α) : get d (set d m k v) k = v := by
  simp [get_set]

theorem get_set_other [DecidableEq α] (d : α) (m : Sparse α) {k j : Nat} (v : α) (h : j ≠ k) :
    get d (set d m k v) j = get d m j := by simp [get_set, h]

theorem wf_iff [DecidableEq α] (d : α) (m : Sparse α) :
    wf d m = true ↔ m.Pairwise (fun a b => a.1 < b.1) ∧ ∀ e ∈ m, e.2 ≠ d := by
  simp [wf]

theorem mem_insert (k : Nat) (v : α) (m : Sparse α) (e : Nat × α) : e ∈ insert k v m ↔ e = (k, v) ∨ e ∈ m := by
  induction m with
  | nil => simp [insert]
  | cons f rest ih =>
    obtain ⟨a, w⟩ := f
    simp only [insert]
    split
    · simp
    · simp [ih]; tauto

theorem pairwise_insert (k : Nat) (v : α) (m : Sparse α) (hm : m.Pairwise (fun a b => a.1 < b.1)) (h : ∀ e ∈ m, e.1 ≠ k) :
    (insert k v m).Pairwise (fun a b => a.1 < b.1) := by
  induction m with
  | nil => simp [insert]
  | cons f rest ih =>
    obtain ⟨a, w⟩ := f
    obtain ⟨h1, h2⟩ := List.pairwise_cons.1 hm
    have hak : a ≠ k := h (a, w) (by simp)
    simp only [insert]
    split
    · next hlt =>
      refine List.pairwise_cons.2 ⟨?_, hm⟩
      intro e he
      rcases List.mem_cons.1 he with rfl | he
      · exact hlt
      · exact Nat.lt_trans hlt (h1 e he)
    · next hlt =>
      refine List.pairwise_cons.2 ⟨?_, ih h2 (fun e he => h e (by simp [he]))⟩
      intro e he
      rcases (mem_insert k v rest e).1 he with rfl | he
      · show a < k; omega
      · exact h1 e he

/-- A write keeps the canonical form. -/
theorem wf_set [DecidableEq α] (d : α) (m : Sparse α) (k : Nat) (v : α) (h : wf d m = true) : wf d (set d m k v) = true := by
  obtain ⟨h1, h2⟩ := (wf_iff d m).1 h
  have he : (erase k m).Pairwise (fun a b => a.1 < b.1) := h1.filter _
  have hd : ∀ e ∈ erase k m, e.2 ≠ d := fun e hm => h2 e (List.mem_filter.1 hm).1
  refine (wf_iff d _).2 ?_
  unfold set
  split
  · exact ⟨he, hd⟩
  · next hv =>
    refine ⟨pairwise_insert k v _ he (erase_ne k m), ?_⟩
    intro e hm
    rcases (mem_insert k v _ e).1 hm with rfl | hm
    · exact hv
    · exact hd e hm

theorem mem_set [DecidableEq α] (d : α) (m : Sparse α) (k : Nat) (v : α) (e : Nat × α) (h : e ∈ set d m k v) :
    e = (k, v) ∨ e ∈ m := by
  unfold set at h
  split at h
  · exact .inr (List.mem_filter.1 h).1
  · rcases (mem_insert k v _ e).1 h with h | h
    · exact .inl h
    · exact .inr (List.mem_filter.1 h).1

theorem wf_tail [DecidableEq α] (d : α) (e : Nat × α) (m : Sparse α) (h : wf d (e :: m) = true) : wf d m = true := by
  obtain ⟨h1, h2⟩ := (wf_iff d _).1 h
  exact (wf_iff d _).2 ⟨(List.pairwise_cons.1 h1).2, fun f hf => h2 f (by simp [hf])⟩

/-- In a canonical map no key at or below the first one is listed again. -/
theorem get_tail_of_le [DecidableEq α] (d : α) (a : Nat) (v : α) (m : Sparse α) (h : wf d ((a, v) :: m) = true) (k : Nat)
    (hk : k ≤ a) : get d m k = d := by
  obtain ⟨h1, -⟩ := (wf_iff d _).1 h
  refine get_eq_default_of_not_mem d m k (fun e he => ?_)
  have : a < e.1 := (List.pairwise_cons.1 h1).1 e he
  omega

theorem head_ne_default [DecidableEq α] (d : α) (a : Nat) (v : α) (m : Sparse α) (h : wf d ((a, v) :: m) = true) : v ≠ d :=
  ((wf_iff d _).1 h).2 (a, v) (by simp)

/-- Canonical maps that read alike at every key are the same list. -/
theorem eq_of_get_eq [DecidableEq α] (d : α) (m n : Sparse α) (hm : wf d m = true) (hn : wf d n = true)
    (h : ∀ k, get d m k = get d n k) : m = n := by
  induction m generalizing n with
  | nil =>
    cases n with
    | nil => rfl
    | cons e n' =>
      obtain ⟨b, w⟩ := e
      exact absurd (by simpa [get] using (h b).symm) (head_ne_default d b w n' hn)
  | cons e m' ih =>
    obtain ⟨a, v⟩ := e
    cases n with
    | nil => exact absurd (by simpa [get] using h a) (head_ne_default d a v m' hm)
    | cons e n' =>
      obtain ⟨b, w⟩ := e
      have hv := head_ne_default d a v m' hm
      have hw := head_ne_default d b w n' hn
      have ha := h a
      have hb := h b
      rcases Nat.lt_trichotomy a b with hab | rfl | hab
      · have hne : ¬ b = a := by omega
        simp only [get, if_neg hne, get_tail_of_le d b w n' hn a (by omega)] at ha
        exact absurd ha hv
      · have hvw : v = w := by simpa [get] using ha
        subst hvw
        refine congrArg _ (ih n' (wf_tail d _ _ hm) (wf_tail d _ _ hn) (fun k => ?_))
        by_cases hk : a = k
        · subst hk; rw [get_tail_of_le d a v m' hm a (Nat.le_refl _), get_tail_of_le d a v n' hn a (Nat.le_refl _)]
        · simpa [get, hk] using h k
      · have hne : ¬ a = b := by omega
        simp only [get, if_neg hne, get_tail_of_le d a v m' hm b (by omega)] at hb
        exact absurd hb.symm hw

end Sys2Proof.Machine.Sparse
end

