-- ==== Sys2Proof/Laws/Memory.lean ====
section
/-! SUPPORT. The laws of physical memory: a read after a write, that every write keeps the canonical form and stays in range, byte
lists and little-endian words. -/

namespace Sys2Proof.Machine

/-! ## Lists of bytes at consecutive addresses -/

/-- The bytes `f a, f (a+1), …`, `n` of them. -/
def bytesFrom (f : Nat → Byte) (a : Nat) : Nat → List Byte
  | 0 => []
  | n + 1 => f a :: bytesFrom f (a + 1) n

@[simp] theorem length_bytesFrom (f : Nat → Byte) (a n : Nat) : (bytesFrom f a n).length = n := by
  induction n generalizing a with
  | zero => rfl
  | succ n ih => simp [bytesFrom, ih]

theorem getD_bytesFrom (f : Nat → Byte) (a n k : Nat) (d : Byte) (h : k < n) : (bytesFrom f a n).getD k d = f (a + k) := by
  induction n generalizing a k with
  | zero => omega
  | succ n ih =>
    cases k with
    | zero => rfl
    | succ k =>
      have := ih (a + 1) k (by omega)
      simp only [bytesFrom, List.getD_cons_succ, this]
      congr 1
      omega

theorem bytesFrom_congr (f g : Nat → Byte) (a n : Nat) (h : ∀ k, a ≤ k → k < a + n → f k = g k) :
    bytesFrom f a n = bytesFrom g a n := by
  induction n generalizing a with
  | zero => rfl
  | succ n ih =>
    simp only [bytesFrom]
    rw [h a (by omega) (by omega), ih (a + 1) (fun k h1 h2 => h k (by omega) (by omega))]

theorem eq_bytesFrom (l : List Byte) (d : Byte) : l = bytesFrom (fun k => l.getD k d) 0 l.length := by
  apply List.ext_getElem (by simp)
  intro k h1 h2
  have := getD_bytesFrom (fun k => l.getD k d) 0 l.length k d h1
  rw [List.getD_eq_getElem _ _ h2] at this
  rw [this]
  simp [List.getElem?_eq_getElem h1]

/-- Taking `n` bytes at offset `o` of a list of bytes. -/
theorem take_drop_bytesFrom (f : Nat → Byte) (a m o n : Nat) (h : o + n ≤ m) :
    ((bytesFrom f a m).drop o).take n = bytesFrom f (a + o) n := by
  apply List.ext_getElem
  · simp; omega
  · intro k h1 h2
    simp only [length_bytesFrom] at h2
    have e1 := getD_bytesFrom f a m (o + k) 0#8 (by omega)
    have e2 := getD_bytesFrom f (a + o) n k 0#8 h2
    rw [List.getD_eq_getElem _ _ (by simp; omega)] at e1
    rw [List.getD_eq_getElem _ _ (by simp; omega)] at e2
    simp only [List.getElem_take, List.getElem_drop]
    rw [e1, e2]
    congr 1
    omega

theorem viewBytes_eq (s : State) (a n : Nat) : viewBytes s a n = bytesFrom (viewByte s) a n := by
  induction n generalizing a with
  | zero => rfl
  | succ n ih => simp [viewBytes, bytesFrom, ih]

namespace Memory

theorem readBytes_eq (m : List Host.Cell) (a n : Nat) : readBytes m a n = bytesFrom (read m) a n := by
  induction n generalizing a with
  | zero => rfl
  | succ n ih => simp [readBytes, bytesFrom, ih]

@[simp] theorem length_readBytes (m : List Host.Cell) (a n : Nat) : (readBytes m a n).length = n := by simp [readBytes_eq]

/-! ## A read after a write -/

theorem read_write (m : List Host.Cell) (a j : Nat) (b : Byte) : read (write m a b) j = if j = a then b else read m j :=
  Sparse.get_set _ _ _ _ _

/-- A read after writing a list of bytes: the bytes written at their addresses, the old contents everywhere else. -/
theorem read_writeBytes (m : List Host.Cell) (a j : Nat) (bs : List Byte) :
    read (writeBytes m a bs) j = if a ≤ j ∧ j < a + bs.length then bs.getD (j - a) 0#8 else read m j := by
  induction bs generalizing m a with
  | nil => simp [writeBytes]
  | cons b bs ih =>
    simp only [writeBytes, ih, read_write, List.length_cons]
    by_cases h : j = a
    · subst h
      simp
    · by_cases h2 : a + 1 ≤ j ∧ j < a + 1 + bs.length
      · rw [if_pos h2, if_pos (by omega), show j - a = (j - (a + 1)) + 1 by omega, List.getD_cons_succ]
      · rw [if_neg h2, if_neg h, if_neg (by omega)]

/-! ## The canonical form -/

theorem wf_write (m : List Host.Cell) (a : Nat) (b : Byte) (h : wf m = true) : wf (write m a b) = true :=
  Sparse.wf_set _ _ _ _ h

theorem wf_writeBytes (m : List Host.Cell) (a : Nat) (bs : List Byte) (h : wf m = true) : wf (writeBytes m a bs) = true := by
  induction bs generalizing m a with
  | nil => exact h
  | cons b bs ih => exact ih _ _ (wf_write m a b h)

/-- Writing a list of bytes lists no address but the old ones and those written. -/
theorem keys_writeBytes (m : List Host.Cell) (a : Nat) (bs : List Byte) (e : Host.Cell) (h : e ∈ writeBytes m a bs) :
    e ∈ m ∨ (a ≤ e.1 ∧ e.1 < a + bs.length) := by
  induction bs generalizing m a with
  | nil => exact .inl h
  | cons b bs ih =>
    rcases ih _ _ h with h | h
    · rcases Sparse.mem_set _ _ _ _ _ h with h | h
      · subst h
        exact .inr ⟨by simp, by simp⟩
      · exact .inl h
    · simp only [List.length_cons]
      exact .inr ⟨by omega, by omega⟩

/-- Canonical memories that read alike are equal. -/
theorem ext (m n : List Host.Cell) (hm : wf m = true) (hn : wf n = true) (h : ∀ a, read m a = read n a) : m = n :=
  Sparse.eq_of_get_eq _ m n hm hn h

end Memory

/-! ## Raw operations (20_memory.md R71) -/

theorem wf_writeRaw (c : Config) (m : List Host.Cell) (a : Nat) (bs : List Byte) (h : Memory.wf m = true) :
    Memory.wf (writeRaw c m a bs) = true := by
  unfold writeRaw
  split
  · exact Memory.wf_writeBytes m a bs h
  · exact h

/-- A raw write lists no address out of range. -/
theorem keys_writeRaw (c : Config) (m : List Host.Cell) (a : Nat) (bs : List Byte) (h : ∀ e ∈ m, e.1 < c.memSize) :
    ∀ e ∈ writeRaw c m a bs, e.1 < c.memSize := by
  intro e he
  unfold writeRaw at he
  split at he
  · next hr =>
    rcases Memory.keys_writeBytes m a bs e he with he | he
    · exact h e he
    · simp only [inRange, decide_eq_true_eq] at hr
      omega
  · exact h e he

theorem read_writeRaw (c : Config) (m : List Host.Cell) (a j : Nat) (bs : List Byte) (h : a + bs.length ≤ c.memSize) :
    Memory.read (writeRaw c m a bs) j = if a ≤ j ∧ j < a + bs.length then bs.getD (j - a) 0#8 else Memory.read m j := by
  rw [writeRaw, if_pos (by simpa [inRange] using h), Memory.read_writeBytes]

/-! ## Words and their bytes (20_memory.md R75) -/

@[simp] theorem length_leBytes (n : Nat) (v : Word) : (leBytes n v).length = n := by
  induction n generalizing v with
  | zero => rfl
  | succ n ih => simp [leBytes, ih]

theorem getD_leBytes (n k : Nat) (v : Word) (d : Byte) (h : k < n) : (leBytes n v).getD k d = byteOf v k := by
  induction n generalizing v k with
  | zero => omega
  | succ n ih =>
    cases k with
    | zero =>
      apply BitVec.eq_of_toNat_eq
      simp [leBytes, byteOf]
    | succ k =>
      rw [leBytes, List.getD_cons_succ, ih k (v >>> 8) (by omega)]
      apply BitVec.eq_of_getLsbD_eq
      intro i hi
      simp only [byteOf, BitVec.getLsbD_extractLsb', hi, decide_true, Bool.true_and, BitVec.getLsbD_ushiftRight]
      congr 1
      omega

theorem leWord_four (b0 b1 b2 b3 : Byte) : leWord [b0, b1, b2, b3] = b3 ++ b2 ++ b1 ++ b0 := by
  apply BitVec.eq_of_getLsbD_eq
  intro i hi
  simp only [leWord, BitVec.getLsbD_or, BitVec.getLsbD_setWidth, BitVec.getLsbD_shiftLeft, BitVec.getLsbD_append]
  interval_cases i <;> simp

theorem leWord_two (b0 b1 : Byte) : leWord [b0, b1] = (b1 ++ b0).setWidth 32 := by
  apply BitVec.eq_of_getLsbD_eq
  intro i hi
  simp only [leWord, BitVec.getLsbD_or, BitVec.getLsbD_setWidth, BitVec.getLsbD_shiftLeft, BitVec.getLsbD_append]
  interval_cases i <;> simp

theorem leWord_one (b0 : Byte) : leWord [b0] = b0.setWidth 32 := by
  simp [leWord]

theorem leWord_readBytes (m : List Host.Cell) (a : Nat) :
    leWord (Memory.readBytes m a 4) =
      Memory.read m (a + 3) ++ Memory.read m (a + 2) ++ Memory.read m (a + 1) ++ Memory.read m a := by
  simp only [Memory.readBytes, leWord_four, Nat.add_assoc]

/-- A word is put together again from its bytes. -/
theorem leWord_leBytes (v : Word) : leWord (leBytes 4 v) = v := by
  simp only [leBytes, leWord_four]
  apply BitVec.eq_of_getLsbD_eq
  intro i hi
  simp only [BitVec.getLsbD_append, BitVec.getLsbD_setWidth, BitVec.getLsbD_ushiftRight]
  interval_cases i <;> simp

end Sys2Proof.Machine
end

