-- ==== Sys2Proof/Laws/State.lean ====
section
/-! SUPPORT. One lemma per field per update of State: what each named update leaves in each field, so that no proof unfolds an
update. Below them, the laws of the register file and of the CSR file. -/

namespace Sys2Proof.Machine.State

@[simp] theorem setHart_hart (s : State) (h : Hart) : (s.setHart h).hart = h := rfl
@[simp] theorem setHart_cfg (s : State) (h : Hart) : (s.setHart h).cfg = s.cfg := rfl
@[simp] theorem setHart_parked (s : State) (h : Hart) : (s.setHart h).parked = s.parked := rfl
@[simp] theorem setHart_mem (s : State) (h : Hart) : (s.setHart h).mem = s.mem := rfl
@[simp] theorem setHart_res (s : State) (h : Hart) : (s.setHart h).res = s.res := rfl
@[simp] theorem setHart_grid (s : State) (h : Hart) : (s.setHart h).grid = s.grid := rfl
@[simp] theorem setHart_sysResponse (s : State) (h : Hart) : (s.setHart h).sysResponse = s.sysResponse := rfl
@[simp] theorem setHart_agenda (s : State) (h : Hart) : (s.setHart h).agenda = s.agenda := rfl
@[simp] theorem setHart_replies (s : State) (h : Hart) : (s.setHart h).replies = s.replies := rfl
@[simp] theorem setHart_draws (s : State) (h : Hart) : (s.setHart h).draws = s.draws := rfl

@[simp] theorem setPc_hart (s : State) (v : Word) : (s.setPc v).hart = { s.hart with pc := v } := rfl
@[simp] theorem setPc_cfg (s : State) (v : Word) : (s.setPc v).cfg = s.cfg := rfl
@[simp] theorem setPc_parked (s : State) (v : Word) : (s.setPc v).parked = s.parked := rfl
@[simp] theorem setPc_mem (s : State) (v : Word) : (s.setPc v).mem = s.mem := rfl
@[simp] theorem setPc_res (s : State) (v : Word) : (s.setPc v).res = s.res := rfl
@[simp] theorem setPc_grid (s : State) (v : Word) : (s.setPc v).grid = s.grid := rfl
@[simp] theorem setPc_sysResponse (s : State) (v : Word) : (s.setPc v).sysResponse = s.sysResponse := rfl
@[simp] theorem setPc_agenda (s : State) (v : Word) : (s.setPc v).agenda = s.agenda := rfl
@[simp] theorem setPc_replies (s : State) (v : Word) : (s.setPc v).replies = s.replies := rfl
@[simp] theorem setPc_draws (s : State) (v : Word) : (s.setPc v).draws = s.draws := rfl

@[simp] theorem setJumped_hart (s : State) (b : Bool) : (s.setJumped b).hart = { s.hart with jumped := b } := rfl
@[simp] theorem setJumped_cfg (s : State) (b : Bool) : (s.setJumped b).cfg = s.cfg := rfl
@[simp] theorem setJumped_parked (s : State) (b : Bool) : (s.setJumped b).parked = s.parked := rfl
@[simp] theorem setJumped_mem (s : State) (b : Bool) : (s.setJumped b).mem = s.mem := rfl
@[simp] theorem setJumped_res (s : State) (b : Bool) : (s.setJumped b).res = s.res := rfl
@[simp] theorem setJumped_grid (s : State) (b : Bool) : (s.setJumped b).grid = s.grid := rfl
@[simp] theorem setJumped_sysResponse (s : State) (b : Bool) : (s.setJumped b).sysResponse = s.sysResponse := rfl
@[simp] theorem setJumped_agenda (s : State) (b : Bool) : (s.setJumped b).agenda = s.agenda := rfl
@[simp] theorem setJumped_replies (s : State) (b : Bool) : (s.setJumped b).replies = s.replies := rfl
@[simp] theorem setJumped_draws (s : State) (b : Bool) : (s.setJumped b).draws = s.draws := rfl

@[simp] theorem setLife_hart (s : State) (l : Life) : (s.setLife l).hart = { s.hart with life := l } := rfl
@[simp] theorem setLife_cfg (s : State) (l : Life) : (s.setLife l).cfg = s.cfg := rfl
@[simp] theorem setLife_parked (s : State) (l : Life) : (s.setLife l).parked = s.parked := rfl
@[simp] theorem setLife_mem (s : State) (l : Life) : (s.setLife l).mem = s.mem := rfl
@[simp] theorem setLife_res (s : State) (l : Life) : (s.setLife l).res = s.res := rfl
@[simp] theorem setLife_grid (s : State) (l : Life) : (s.setLife l).grid = s.grid := rfl
@[simp] theorem setLife_sysResponse (s : State) (l : Life) : (s.setLife l).sysResponse = s.sysResponse := rfl
@[simp] theorem setLife_agenda (s : State) (l : Life) : (s.setLife l).agenda = s.agenda := rfl
@[simp] theorem setLife_replies (s : State) (l : Life) : (s.setLife l).replies = s.replies := rfl
@[simp] theorem setLife_draws (s : State) (l : Life) : (s.setLife l).draws = s.draws := rfl

@[simp] theorem setTimer_hart (s : State) (t : Timer) : (s.setTimer t).hart = { s.hart with timer := t } := rfl
@[simp] theorem setTimer_cfg (s : State) (t : Timer) : (s.setTimer t).cfg = s.cfg := rfl
@[simp] theorem setTimer_parked (s : State) (t : Timer) : (s.setTimer t).parked = s.parked := rfl
@[simp] theorem setTimer_mem (s : State) (t : Timer) : (s.setTimer t).mem = s.mem := rfl
@[simp] theorem setTimer_res (s : State) (t : Timer) : (s.setTimer t).res = s.res := rfl
@[simp] theorem setTimer_grid (s : State) (t : Timer) : (s.setTimer t).grid = s.grid := rfl
@[simp] theorem setTimer_sysResponse (s : State) (t : Timer) : (s.setTimer t).sysResponse = s.sysResponse := rfl
@[simp] theorem setTimer_agenda (s : State) (t : Timer) : (s.setTimer t).agenda = s.agenda := rfl
@[simp] theorem setTimer_replies (s : State) (t : Timer) : (s.setTimer t).replies = s.replies := rfl
@[simp] theorem setTimer_draws (s : State) (t : Timer) : (s.setTimer t).draws = s.draws := rfl

@[simp] theorem setPollctr_hart (s : State) (n : Nat) : (s.setPollctr n).hart = { s.hart with pollctr := n } := rfl
@[simp] theorem setPollctr_cfg (s : State) (n : Nat) : (s.setPollctr n).cfg = s.cfg := rfl
@[simp] theorem setPollctr_parked (s : State) (n : Nat) : (s.setPollctr n).parked = s.parked := rfl
@[simp] theorem setPollctr_mem (s : State) (n : Nat) : (s.setPollctr n).mem = s.mem := rfl
@[simp] theorem setPollctr_res (s : State) (n : Nat) : (s.setPollctr n).res = s.res := rfl
@[simp] theorem setPollctr_grid (s : State) (n : Nat) : (s.setPollctr n).grid = s.grid := rfl
@[simp] theorem setPollctr_sysResponse (s : State) (n : Nat) : (s.setPollctr n).sysResponse = s.sysResponse := rfl
@[simp] theorem setPollctr_agenda (s : State) (n : Nat) : (s.setPollctr n).agenda = s.agenda := rfl
@[simp] theorem setPollctr_replies (s : State) (n : Nat) : (s.setPollctr n).replies = s.replies := rfl
@[simp] theorem setPollctr_draws (s : State) (n : Nat) : (s.setPollctr n).draws = s.draws := rfl

@[simp] theorem setPending_hart (s : State) (o : Nat) (c : Word) : (s.setPending o c).hart = { s.hart with interruptedBy := o, interruptCode := c } := rfl
@[simp] theorem setPending_cfg (s : State) (o : Nat) (c : Word) : (s.setPending o c).cfg = s.cfg := rfl
@[simp] theorem setPending_parked (s : State) (o : Nat) (c : Word) : (s.setPending o c).parked = s.parked := rfl
@[simp] theorem setPending_mem (s : State) (o : Nat) (c : Word) : (s.setPending o c).mem = s.mem := rfl
@[simp] theorem setPending_res (s : State) (o : Nat) (c : Word) : (s.setPending o c).res = s.res := rfl
@[simp] theorem setPending_grid (s : State) (o : Nat) (c : Word) : (s.setPending o c).grid = s.grid := rfl
@[simp] theorem setPending_sysResponse (s : State) (o : Nat) (c : Word) : (s.setPending o c).sysResponse = s.sysResponse := rfl
@[simp] theorem setPending_agenda (s : State) (o : Nat) (c : Word) : (s.setPending o c).agenda = s.agenda := rfl
@[simp] theorem setPending_replies (s : State) (o : Nat) (c : Word) : (s.setPending o c).replies = s.replies := rfl
@[simp] theorem setPending_draws (s : State) (o : Nat) (c : Word) : (s.setPending o c).draws = s.draws := rfl

@[simp] theorem setResponse_hart (s : State) (v : Word) : (s.setResponse v).hart = { s.hart with response := v } := rfl
@[simp] theorem setResponse_cfg (s : State) (v : Word) : (s.setResponse v).cfg = s.cfg := rfl
@[simp] theorem setResponse_parked (s : State) (v : Word) : (s.setResponse v).parked = s.parked := rfl
@[simp] theorem setResponse_mem (s : State) (v : Word) : (s.setResponse v).mem = s.mem := rfl
@[simp] theorem setResponse_res (s : State) (v : Word) : (s.setResponse v).res = s.res := rfl
@[simp] theorem setResponse_grid (s : State) (v : Word) : (s.setResponse v).grid = s.grid := rfl
@[simp] theorem setResponse_sysResponse (s : State) (v : Word) : (s.setResponse v).sysResponse = s.sysResponse := rfl
@[simp] theorem setResponse_agenda (s : State) (v : Word) : (s.setResponse v).agenda = s.agenda := rfl
@[simp] theorem setResponse_replies (s : State) (v : Word) : (s.setResponse v).replies = s.replies := rfl
@[simp] theorem setResponse_draws (s : State) (v : Word) : (s.setResponse v).draws = s.draws := rfl

@[simp] theorem setPort_hart (s : State) (p : List Activation) : (s.setPort p).hart = { s.hart with port := p } := rfl
@[simp] theorem setPort_cfg (s : State) (p : List Activation) : (s.setPort p).cfg = s.cfg := rfl
@[simp] theorem setPort_parked (s : State) (p : List Activation) : (s.setPort p).parked = s.parked := rfl
@[simp] theorem setPort_mem (s : State) (p : List Activation) : (s.setPort p).mem = s.mem := rfl
@[simp] theorem setPort_res (s : State) (p : List Activation) : (s.setPort p).res = s.res := rfl
@[simp] theorem setPort_grid (s : State) (p : List Activation) : (s.setPort p).grid = s.grid := rfl
@[simp] theorem setPort_sysResponse (s : State) (p : List Activation) : (s.setPort p).sysResponse = s.sysResponse := rfl
@[simp] theorem setPort_agenda (s : State) (p : List Activation) : (s.setPort p).agenda = s.agenda := rfl
@[simp] theorem setPort_replies (s : State) (p : List Activation) : (s.setPort p).replies = s.replies := rfl
@[simp] theorem setPort_draws (s : State) (p : List Activation) : (s.setPort p).draws = s.draws := rfl

@[simp] theorem setTask_hart (s : State) (t : Task) : (s.setTask t).hart = { s.hart with task := t } := rfl
@[simp] theorem setTask_cfg (s : State) (t : Task) : (s.setTask t).cfg = s.cfg := rfl
@[simp] theorem setTask_parked (s : State) (t : Task) : (s.setTask t).parked = s.parked := rfl
@[simp] theorem setTask_mem (s : State) (t : Task) : (s.setTask t).mem = s.mem := rfl
@[simp] theorem setTask_res (s : State) (t : Task) : (s.setTask t).res = s.res := rfl
@[simp] theorem setTask_grid (s : State) (t : Task) : (s.setTask t).grid = s.grid := rfl
@[simp] theorem setTask_sysResponse (s : State) (t : Task) : (s.setTask t).sysResponse = s.sysResponse := rfl
@[simp] theorem setTask_agenda (s : State) (t : Task) : (s.setTask t).agenda = s.agenda := rfl
@[simp] theorem setTask_replies (s : State) (t : Task) : (s.setTask t).replies = s.replies := rfl
@[simp] theorem setTask_draws (s : State) (t : Task) : (s.setTask t).draws = s.draws := rfl

@[simp] theorem writeCsr_hart (s : State) (a : CsrAddr) (v : Word) : (s.writeCsr a v).hart = { s.hart with csr := s.hart.csr.write a v } := rfl
@[simp] theorem writeCsr_cfg (s : State) (a : CsrAddr) (v : Word) : (s.writeCsr a v).cfg = s.cfg := rfl
@[simp] theorem writeCsr_parked (s : State) (a : CsrAddr) (v : Word) : (s.writeCsr a v).parked = s.parked := rfl
@[simp] theorem writeCsr_mem (s : State) (a : CsrAddr) (v : Word) : (s.writeCsr a v).mem = s.mem := rfl
@[simp] theorem writeCsr_res (s : State) (a : CsrAddr) (v : Word) : (s.writeCsr a v).res = s.res := rfl
@[simp] theorem writeCsr_grid (s : State) (a : CsrAddr) (v : Word) : (s.writeCsr a v).grid = s.grid := rfl
@[simp] theorem writeCsr_sysResponse (s : State) (a : CsrAddr) (v : Word) : (s.writeCsr a v).sysResponse = s.sysResponse := rfl
@[simp] theorem writeCsr_agenda (s : State) (a : CsrAddr) (v : Word) : (s.writeCsr a v).agenda = s.agenda := rfl
@[simp] theorem writeCsr_replies (s : State) (a : CsrAddr) (v : Word) : (s.writeCsr a v).replies = s.replies := rfl
@[simp] theorem writeCsr_draws (s : State) (a : CsrAddr) (v : Word) : (s.writeCsr a v).draws = s.draws := rfl

@[simp] theorem setMtval_hart (s : State) (v : Word) : (s.setMtval v).hart = { s.hart with csr := { s.hart.csr with mtval := v } } := rfl
@[simp] theorem setMtval_cfg (s : State) (v : Word) : (s.setMtval v).cfg = s.cfg := rfl
@[simp] theorem setMtval_parked (s : State) (v : Word) : (s.setMtval v).parked = s.parked := rfl
@[simp] theorem setMtval_mem (s : State) (v : Word) : (s.setMtval v).mem = s.mem := rfl
@[simp] theorem setMtval_res (s : State) (v : Word) : (s.setMtval v).res = s.res := rfl
@[simp] theorem setMtval_grid (s : State) (v : Word) : (s.setMtval v).grid = s.grid := rfl
@[simp] theorem setMtval_sysResponse (s : State) (v : Word) : (s.setMtval v).sysResponse = s.sysResponse := rfl
@[simp] theorem setMtval_agenda (s : State) (v : Word) : (s.setMtval v).agenda = s.agenda := rfl
@[simp] theorem setMtval_replies (s : State) (v : Word) : (s.setMtval v).replies = s.replies := rfl
@[simp] theorem setMtval_draws (s : State) (v : Word) : (s.setMtval v).draws = s.draws := rfl

@[simp] theorem drawMtval_hart (s : State) : (s.drawMtval).hart = { s.hart with csr := { s.hart.csr with mtval := Config.freeWord s.draws } } := rfl
@[simp] theorem drawMtval_cfg (s : State) : (s.drawMtval).cfg = s.cfg := rfl
@[simp] theorem drawMtval_parked (s : State) : (s.drawMtval).parked = s.parked := rfl
@[simp] theorem drawMtval_mem (s : State) : (s.drawMtval).mem = s.mem := rfl
@[simp] theorem drawMtval_res (s : State) : (s.drawMtval).res = s.res := rfl
@[simp] theorem drawMtval_grid (s : State) : (s.drawMtval).grid = s.grid := rfl
@[simp] theorem drawMtval_sysResponse (s : State) : (s.drawMtval).sysResponse = s.sysResponse := rfl
@[simp] theorem drawMtval_agenda (s : State) : (s.drawMtval).agenda = s.agenda := rfl
@[simp] theorem drawMtval_replies (s : State) : (s.drawMtval).replies = s.replies := rfl
@[simp] theorem drawMtval_draws (s : State) : (s.drawMtval).draws = s.draws + 1 := rfl

@[simp] theorem setMem_hart (s : State) (m : List Host.Cell) : (s.setMem m).hart = s.hart := rfl
@[simp] theorem setMem_cfg (s : State) (m : List Host.Cell) : (s.setMem m).cfg = s.cfg := rfl
@[simp] theorem setMem_parked (s : State) (m : List Host.Cell) : (s.setMem m).parked = s.parked := rfl
@[simp] theorem setMem_mem (s : State) (m : List Host.Cell) : (s.setMem m).mem = m := rfl
@[simp] theorem setMem_res (s : State) (m : List Host.Cell) : (s.setMem m).res = s.res := rfl
@[simp] theorem setMem_grid (s : State) (m : List Host.Cell) : (s.setMem m).grid = s.grid := rfl
@[simp] theorem setMem_sysResponse (s : State) (m : List Host.Cell) : (s.setMem m).sysResponse = s.sysResponse := rfl
@[simp] theorem setMem_agenda (s : State) (m : List Host.Cell) : (s.setMem m).agenda = s.agenda := rfl
@[simp] theorem setMem_replies (s : State) (m : List Host.Cell) : (s.setMem m).replies = s.replies := rfl
@[simp] theorem setMem_draws (s : State) (m : List Host.Cell) : (s.setMem m).draws = s.draws := rfl

@[simp] theorem setRes_hart (s : State) (r : List Reservation) : (s.setRes r).hart = s.hart := rfl
@[simp] theorem setRes_cfg (s : State) (r : List Reservation) : (s.setRes r).cfg = s.cfg := rfl
@[simp] theorem setRes_parked (s : State) (r : List Reservation) : (s.setRes r).parked = s.parked := rfl
@[simp] theorem setRes_mem (s : State) (r : List Reservation) : (s.setRes r).mem = s.mem := rfl
@[simp] theorem setRes_res (s : State) (r : List Reservation) : (s.setRes r).res = r := rfl
@[simp] theorem setRes_grid (s : State) (r : List Reservation) : (s.setRes r).grid = s.grid := rfl
@[simp] theorem setRes_sysResponse (s : State) (r : List Reservation) : (s.setRes r).sysResponse = s.sysResponse := rfl
@[simp] theorem setRes_agenda (s : State) (r : List Reservation) : (s.setRes r).agenda = s.agenda := rfl
@[simp] theorem setRes_replies (s : State) (r : List Reservation) : (s.setRes r).replies = s.replies := rfl
@[simp] theorem setRes_draws (s : State) (r : List Reservation) : (s.setRes r).draws = s.draws := rfl

@[simp] theorem gridWrite_hart (s : State) (d c : Nat) (v : Word) : (s.gridWrite d c v).hart = s.hart := rfl
@[simp] theorem gridWrite_cfg (s : State) (d c : Nat) (v : Word) : (s.gridWrite d c v).cfg = s.cfg := rfl
@[simp] theorem gridWrite_parked (s : State) (d c : Nat) (v : Word) : (s.gridWrite d c v).parked = s.parked := rfl
@[simp] theorem gridWrite_mem (s : State) (d c : Nat) (v : Word) : (s.gridWrite d c v).mem = s.mem := rfl
@[simp] theorem gridWrite_res (s : State) (d c : Nat) (v : Word) : (s.gridWrite d c v).res = s.res := rfl
@[simp] theorem gridWrite_grid (s : State) (d c : Nat) (v : Word) : (s.gridWrite d c v).grid = Sparse.set 0#32 s.grid (s.gridKey d c) v := rfl
@[simp] theorem gridWrite_sysResponse (s : State) (d c : Nat) (v : Word) : (s.gridWrite d c v).sysResponse = s.sysResponse := rfl
@[simp] theorem gridWrite_agenda (s : State) (d c : Nat) (v : Word) : (s.gridWrite d c v).agenda = s.agenda := rfl
@[simp] theorem gridWrite_replies (s : State) (d c : Nat) (v : Word) : (s.gridWrite d c v).replies = s.replies := rfl
@[simp] theorem gridWrite_draws (s : State) (d c : Nat) (v : Word) : (s.gridWrite d c v).draws = s.draws := rfl

@[simp] theorem writeX_hart (s : State) (r : Reg) (v : Word) :
    (s.writeX r v).hart = { s.hart with x := if r = 0 then s.hart.x else s.hart.x.set r v } := by
  unfold writeX; split <;> rfl
@[simp] theorem writeX_cfg (s : State) (r : Reg) (v : Word) : (s.writeX r v).cfg = s.cfg := by unfold writeX; split <;> rfl
@[simp] theorem writeX_parked (s : State) (r : Reg) (v : Word) : (s.writeX r v).parked = s.parked := by unfold writeX; split <;> rfl
@[simp] theorem writeX_mem (s : State) (r : Reg) (v : Word) : (s.writeX r v).mem = s.mem := by unfold writeX; split <;> rfl
@[simp] theorem writeX_res (s : State) (r : Reg) (v : Word) : (s.writeX r v).res = s.res := by unfold writeX; split <;> rfl
@[simp] theorem writeX_grid (s : State) (r : Reg) (v : Word) : (s.writeX r v).grid = s.grid := by unfold writeX; split <;> rfl
@[simp] theorem writeX_sysResponse (s : State) (r : Reg) (v : Word) : (s.writeX r v).sysResponse = s.sysResponse := by unfold writeX; split <;> rfl
@[simp] theorem writeX_agenda (s : State) (r : Reg) (v : Word) : (s.writeX r v).agenda = s.agenda := by unfold writeX; split <;> rfl
@[simp] theorem writeX_replies (s : State) (r : Reg) (v : Word) : (s.writeX r v).replies = s.replies := by unfold writeX; split <;> rfl
@[simp] theorem writeX_draws (s : State) (r : Reg) (v : Word) : (s.writeX r v).draws = s.draws := by unfold writeX; split <;> rfl

@[simp] theorem setCache_cfg (s : State) (st : Stream) (k : Cache) : (s.setCache st k).cfg = s.cfg := by cases st <;> rfl
@[simp] theorem setCache_parked (s : State) (st : Stream) (k : Cache) : (s.setCache st k).parked = s.parked := by cases st <;> rfl
@[simp] theorem setCache_mem (s : State) (st : Stream) (k : Cache) : (s.setCache st k).mem = s.mem := by cases st <;> rfl
@[simp] theorem setCache_res (s : State) (st : Stream) (k : Cache) : (s.setCache st k).res = s.res := by cases st <;> rfl
@[simp] theorem setCache_grid (s : State) (st : Stream) (k : Cache) : (s.setCache st k).grid = s.grid := by cases st <;> rfl
@[simp] theorem setCache_sysResponse (s : State) (st : Stream) (k : Cache) : (s.setCache st k).sysResponse = s.sysResponse := by cases st <;> rfl
@[simp] theorem setCache_agenda (s : State) (st : Stream) (k : Cache) : (s.setCache st k).agenda = s.agenda := by cases st <;> rfl
@[simp] theorem setCache_replies (s : State) (st : Stream) (k : Cache) : (s.setCache st k).replies = s.replies := by cases st <;> rfl
@[simp] theorem setCache_draws (s : State) (st : Stream) (k : Cache) : (s.setCache st k).draws = s.draws := by cases st <;> rfl
@[simp] theorem setCache_cache (s : State) (st : Stream) (k : Cache) : (s.setCache st k).cache st = k := by cases st <;> rfl
@[simp] theorem setCache_instruction_hart (s : State) (k : Cache) : (s.setCache .instruction k).hart = { s.hart with icache := k } := rfl
@[simp] theorem setCache_data_hart (s : State) (k : Cache) : (s.setCache .data k).hart = { s.hart with dcache := k } := rfl
@[simp] theorem cache_instruction (s : State) : s.cache .instruction = s.hart.icache := rfl
@[simp] theorem cache_data (s : State) : s.cache .data = s.hart.dcache := rfl

@[simp] theorem setTlb_cfg (s : State) (st : Stream) (k : Tlb) : (s.setTlb st k).cfg = s.cfg := by cases st <;> rfl
@[simp] theorem setTlb_parked (s : State) (st : Stream) (k : Tlb) : (s.setTlb st k).parked = s.parked := by cases st <;> rfl
@[simp] theorem setTlb_mem (s : State) (st : Stream) (k : Tlb) : (s.setTlb st k).mem = s.mem := by cases st <;> rfl
@[simp] theorem setTlb_res (s : State) (st : Stream) (k : Tlb) : (s.setTlb st k).res = s.res := by cases st <;> rfl
@[simp] theorem setTlb_grid (s : State) (st : Stream) (k : Tlb) : (s.setTlb st k).grid = s.grid := by cases st <;> rfl
@[simp] theorem setTlb_sysResponse (s : State) (st : Stream) (k : Tlb) : (s.setTlb st k).sysResponse = s.sysResponse := by cases st <;> rfl
@[simp] theorem setTlb_agenda (s : State) (st : Stream) (k : Tlb) : (s.setTlb st k).agenda = s.agenda := by cases st <;> rfl
@[simp] theorem setTlb_replies (s : State) (st : Stream) (k : Tlb) : (s.setTlb st k).replies = s.replies := by cases st <;> rfl
@[simp] theorem setTlb_draws (s : State) (st : Stream) (k : Tlb) : (s.setTlb st k).draws = s.draws := by cases st <;> rfl
@[simp] theorem setTlb_tlb (s : State) (st : Stream) (k : Tlb) : (s.setTlb st k).tlb st = k := by cases st <;> rfl
@[simp] theorem setTlb_instruction_hart (s : State) (k : Tlb) : (s.setTlb .instruction k).hart = { s.hart with itlb := k } := rfl
@[simp] theorem setTlb_data_hart (s : State) (k : Tlb) : (s.setTlb .data k).hart = { s.hart with dtlb := k } := rfl
@[simp] theorem tlb_instruction (s : State) : s.tlb .instruction = s.hart.itlb := rfl
@[simp] theorem tlb_data (s : State) : s.tlb .data = s.hart.dtlb := rfl

@[simp] theorem setMem_cache (s : State) (m : List Host.Cell) (st : Stream) : (s.setMem m).cache st = s.cache st := by
  cases st <;> rfl

@[simp] theorem advancePc_jumped (s : State) (h : s.hart.jumped = true) : s.advancePc = s := by simp [advancePc, h]

/-! ## Registers (10_state.md R21) -/

/-- `x0` reads 0 whatever is stored. -/
@[simp] theorem readX_zero (s : State) : s.readX 0 = 0#32 := by simp [readX]

/-- Reading a cell of the register file after writing one. -/
theorem get_set_vector (x : Vector Word 32) (r q : Reg) (v : Word) :
    (x.set r v).get q = if q = r then v else x.get q := by
  simp only [Vector.get_eq_getElem, Vector.getElem_set, Fin.ext_iff]
  by_cases h : (r : Nat) = (q : Nat)
  · simp [h]
  · simp [h, Ne.symm h]

/-- A register read after a register write (R21). -/
theorem readX_writeX (s : State) (r q : Reg) (v : Word) :
    (s.writeX r v).readX q = if q = r ∧ r ≠ 0 then v else s.readX q := by
  by_cases hr : r = 0
  · subst hr; simp [writeX]
  · by_cases hq : q = 0
    · subst hq; simp [Ne.symm hr]
    · simp [readX, writeX, hr, hq, get_set_vector]

@[simp] theorem writeX_zero (s : State) (v : Word) : s.writeX 0 v = s := by simp [writeX]

/-- A register write changes nothing but the register file. -/
theorem writeX_frame (s : State) (r : Reg) (v : Word) :
    s.writeX r v = { s with hart := { s.hart with x := (s.writeX r v).hart.x } } := by
  unfold writeX; split <;> rfl

end Sys2Proof.Machine.State

namespace Sys2Proof.Machine.CsrFile

/-- A CSR read after a CSR write: the value written at its address, the old content at every other one (10_state.md R40). -/
theorem read_write (c : CsrFile) (a b : CsrAddr) (v : Word) : (c.write a v).read b = if b = a then v else c.read b := by
  by_cases hba : b = a
  · subst hba
    simp only [write]
    split_ifs <;> simp_all [read]
  · have hn : b.toNat ≠ a.toNat := fun h => hba (BitVec.eq_of_toNat_eq h)
    simp only [if_neg hba]
    unfold write
    split_ifs with h1 h2 h3 h4 h5 h6 h7 <;> (try subst a) <;> simp_all [read, Sparse.get_set_other]

end Sys2Proof.Machine.CsrFile
end

