-- ==== Sys2Proof/Laws/Cache.lean ====
section
/-! SUPPORT. The laws of the caches: what a probe, a store, a write-back, a refill, a cached read and a cached write do to the lines, to
`Mem`, and to what the hart sees through the cache. -/

namespace Sys2Proof.Machine

/-- The byte of an address seen through a cache `k` above the memory `m`. -/
def seen (c : Config) (k : Cache) (m : List Host.Cell) (a : Nat) : Byte :=
  match k.find (lineNumber c a) with
  | some l => l.data.getD (lineOffset c a) 0#8
  | none => Memory.read m a

theorem viewByte_cached (s : State) (h : s.cfg.cacheEnable = true) (a : Nat) :
    viewByte s a = seen s.cfg (s.cache .data) s.mem a := by
  unfold viewByte seen
  rw [if_pos h] <;> rfl

theorem viewByte_uncached (s : State) (h : s.cfg.cacheEnable = false) (a : Nat) : viewByte s a = Memory.read s.mem a := by
  simp [viewByte, h]

theorem fetchByte_cached (s : State) (h : s.cfg.cacheEnable = true) (a : Nat) :
    fetchByte s a = seen s.cfg (s.cache .instruction) s.mem a := by
  unfold fetchByte seen
  rw [if_pos h] <;> rfl

theorem fetchByte_uncached (s : State) (h : s.cfg.cacheEnable = false) (a : Nat) : fetchByte s a = Memory.read s.mem a := by
  simp [fetchByte, h]

/-! ## Geometry (20_memory.md R81) -/

theorem lineSize_pos (c : Config) : 0 < c.lineSize := Nat.two_pow_pos _

/-- An aligned access of 1, 2 or 4 bytes lies in one line. -/
theorem access_fits (c : Config) (p n : Nat) (hl : 2 ≤ c.lineLog2) (hn : n ∈ [1, 2, 4]) (ha : p % n = 0) :
    p % c.lineSize + n ≤ c.lineSize := by
  have hd : 4 ∣ c.lineSize := by
    have : c.lineSize = 4 * 2 ^ (c.lineLog2 - 2) := by
      rw [Config.lineSize, show (4 : Nat) = 2 ^ 2 by rfl, ← Nat.pow_add]
      congr 1
      omega
    exact ⟨_, this⟩
  have hp := lineSize_pos c
  have h1 := Nat.mod_lt p hp
  have hnd : n ∣ c.lineSize := by
    simp only [List.mem_cons, List.not_mem_nil, or_false] at hn
    rcases hn with rfl | rfl | rfl <;> omega
  have h2 : n ∣ p % c.lineSize := (Nat.dvd_mod_iff hnd).2 (Nat.dvd_of_mod_eq_zero ha)
  obtain ⟨x, hx⟩ := hnd
  obtain ⟨y, hy⟩ := h2
  have hn0 : 0 < n := by
    simp only [List.mem_cons, List.not_mem_nil, or_false] at hn
    omega
  rw [hy, hx] at h1 ⊢
  have : y < x := Nat.lt_of_mul_lt_mul_left h1
  calc n * y + n = n * (y + 1) := by ring
    _ ≤ n * x := Nat.mul_le_mul_left n this

theorem lineNumber_add (c : Config) (p k n : Nat) (h : p % c.lineSize + n ≤ c.lineSize) (hk : k < n) :
    lineNumber c (p + k) = lineNumber c p := by
  have hp := lineSize_pos c
  simp only [lineNumber]
  rw [Nat.add_div hp, if_neg]
  · rw [Nat.div_eq_of_lt (by omega : k < c.lineSize)]
    rfl
  · rw [Nat.mod_eq_of_lt (by omega : k < c.lineSize)]
    omega

theorem lineOffset_add (c : Config) (p k n : Nat) (h : p % c.lineSize + n ≤ c.lineSize) (hk : k < n) :
    lineOffset c (p + k) = lineOffset c p + k := by
  simp only [lineOffset]
  rw [Nat.add_mod, Nat.mod_eq_of_lt (by omega : k < c.lineSize), Nat.mod_eq_of_lt (by omega)]

theorem line_bounds (c : Config) (a t : Nat) : lineNumber c a = t ↔ t * c.lineSize ≤ a ∧ a < t * c.lineSize + c.lineSize := by
  have hp := lineSize_pos c
  simp only [lineNumber]
  constructor
  · rintro rfl
    exact ⟨Nat.div_mul_le_self a _, by have := Nat.lt_div_mul_add (a := a) hp; omega⟩
  · rintro ⟨h1, h2⟩
    exact Nat.div_eq_of_lt_le h1 (by rw [Nat.add_mul]; omega)

theorem offset_eq (c : Config) (a t : Nat) (h : lineNumber c a = t) : a - t * c.lineSize = lineOffset c a := by
  subst h
  simp only [lineNumber, lineOffset]
  have := Nat.div_add_mod' a c.lineSize
  omega

/-- The line of an aligned access in range is in range (00_scope.md R9). -/
theorem line_inRange (c : Config) (hc : c.wf = true) (p n : Nat) (hn : 0 < n) (h : p + n ≤ c.memSize) :
    (lineNumber c p + 1) * c.lineSize ≤ c.memSize := by
  have hp := lineSize_pos c
  have hd : c.lineSize ∣ c.memSize := by
    simp only [Config.wf, Bool.and_eq_true, decide_eq_true_eq] at hc
    exact Nat.pow_dvd_pow 2 (by omega)
  obtain ⟨x, hx⟩ := hd
  have h1 : p < c.lineSize * x := by omega
  have h2 : lineNumber c p < x := by
    simp only [lineNumber]
    exact Nat.div_lt_of_lt_mul h1
  rw [hx, Nat.mul_comm c.lineSize x]
  exact Nat.mul_le_mul_right _ h2

/-! ## The index (20_memory.md R82) -/

theorem find_some (k : Cache) (t : Nat) (l : Line) (h : k.find t = some l) : l ∈ k ∧ l.tag = t := by
  simp only [Cache.find] at h
  exact ⟨List.mem_of_find?_eq_some h, by simpa using List.find?_some h⟩

theorem find_none (k : Cache) (t : Nat) : k.find t = none ↔ ∀ l ∈ k, l.tag ≠ t := by
  simp [Cache.find]

theorem find_of_mem (k : Cache) (l : Line) (hn : (k.map Line.tag).Nodup) (h : l ∈ k) : k.find l.tag = some l := by
  induction k with
  | nil => simp at h
  | cons m k ih =>
    simp only [List.map_cons, List.nodup_cons] at hn
    rcases List.mem_cons.1 h with rfl | h
    · simp [Cache.find]
    · have : m.tag ≠ l.tag := fun e => hn.1 (e ▸ List.mem_map_of_mem h)
      have ih := ih hn.2 h
      simp only [Cache.find] at ih ⊢
      simp [this, ih]

theorem find_append_new (k : Cache) (new : Line) (t : Nat) (h : k.find new.tag = none) :
    Cache.find (k ++ [new]) t = if t = new.tag then some new else k.find t := by
  by_cases ht : t = new.tag
  · subst ht
    simp only [Cache.find] at h ⊢
    rw [List.find?_append, h]
    simp
  · simp only [Cache.find, if_neg ht]
    rw [List.find?_append]
    have : ¬ new.tag = t := fun e => ht e.symm
    cases List.find? (fun l => decide (l.tag = t)) k <;> simp [this]

theorem find_set_new (k : Cache) (slot : Nat) (victim new : Line) (t : Nat) (hn : (k.map Line.tag).Nodup)
    (hv : k[slot]? = some victim) (h : k.find new.tag = none) :
    Cache.find (k.set slot new) t = if t = new.tag then some new else if t = victim.tag then none else k.find t := by
  have hmem : ∀ l, l ∈ k.set slot new → l = new ∨ (l ∈ k ∧ l.tag ≠ victim.tag) := by
    intro l hl
    obtain ⟨i, hi, he⟩ := List.mem_iff_getElem.1 hl
    rw [List.getElem_set] at he
    split at he
    · exact .inl he.symm
    · next hne =>
      have hi' : i < k.length := by simpa using hi
      refine .inr ⟨he ▸ List.getElem_mem hi', ?_⟩
      obtain ⟨hs, hsv⟩ := List.getElem?_eq_some_iff.1 hv
      rw [← he, ← hsv]
      intro e
      have := (List.nodup_iff_injective_getElem.1 hn)
      have h2 := @this ⟨i, by simpa using hi'⟩ ⟨slot, by simpa using hs⟩ (by simpa using e)
      simp only [Fin.mk.injEq] at h2
      exact hne h2.symm
  have hnew : new ∈ k.set slot new := by
    obtain ⟨hs, -⟩ := List.getElem?_eq_some_iff.1 hv
    exact List.mem_iff_getElem.2 ⟨slot, by simpa using hs, by simp⟩
  by_cases ht : t = new.tag
  · subst ht
    rw [if_pos rfl]
    cases hf : Cache.find (k.set slot new) new.tag with
    | none => exact absurd rfl ((find_none _ _).1 hf new hnew)
    | some l =>
      obtain ⟨h1, h2⟩ := find_some _ _ _ hf
      rcases hmem l h1 with rfl | ⟨h3, -⟩
      · rfl
      · exact absurd h2 ((find_none _ _).1 h l h3)
  · rw [if_neg ht]
    by_cases htv : t = victim.tag
    · subst htv
      rw [if_pos rfl, find_none]
      intro l hl e
      rcases hmem l hl with rfl | ⟨-, h3⟩
      · exact ht e.symm
      · exact h3 e
    · rw [if_neg htv]
      cases hf : k.find t with
      | none =>
        rw [find_none] at hf ⊢
        intro l hl e
        rcases hmem l hl with rfl | ⟨h3, -⟩
        · exact ht e.symm
        · exact hf l h3 e
      | some l =>
        obtain ⟨h1, h2⟩ := find_some _ _ _ hf
        have h3 : l ∈ k.set slot new := by
          obtain ⟨i, hi, he⟩ := List.mem_iff_getElem.1 h1
          obtain ⟨hs, hsv⟩ := List.getElem?_eq_some_iff.1 hv
          have hne : slot ≠ i := by
            rintro rfl
            rw [hsv] at he
            exact htv (he ▸ h2.symm)
          exact List.mem_iff_getElem.2 ⟨i, by simpa using hi, by rw [List.getElem_set_ne hne]; exact he⟩
        have hn2 : ((k.set slot new).map Line.tag).Nodup := by
          rw [List.map_set]
          apply List.Nodup.set
          · exact hn
          · intro hmem2
            obtain ⟨l2, h4, h5⟩ := List.mem_map.1 hmem2
            exact (find_none _ _).1 h l2 h4 h5
        rw [← h2]
        exact find_of_mem _ l hn2 h3

/-! ## Bytes of a line (20_memory.md R83, R84) -/

@[simp] theorem length_spliceBytes (d : List Byte) (o : Nat) (bs : List Byte) : (spliceBytes d o bs).length = d.length := by
  induction bs generalizing d o with
  | nil => rfl
  | cons b bs ih => simp [spliceBytes, ih]

theorem getD_spliceBytes (d : List Byte) (o : Nat) (bs : List Byte) (j : Nat) (h : o + bs.length ≤ d.length) :
    (spliceBytes d o bs).getD j 0#8 = if o ≤ j ∧ j < o + bs.length then bs.getD (j - o) 0#8 else d.getD j 0#8 := by
  induction bs generalizing d o with
  | nil => simp [spliceBytes]
  | cons b bs ih =>
    simp only [List.length_cons] at h ⊢
    rw [spliceBytes, ih _ _ (by simp; omega)]
    by_cases h1 : o + 1 ≤ j ∧ j < o + 1 + bs.length
    · rw [if_pos h1, if_pos (by omega), show j - o = (j - (o + 1)) + 1 by omega, List.getD_cons_succ]
    · rw [if_neg h1]
      by_cases h2 : j = o
      · subst h2
        rw [if_pos (by omega)]
        simp [show j < d.length by omega]
      · rw [if_neg (by omega)]
        simp [List.getD_eq_getElem?_getD, List.getElem?_set_ne (Ne.symm h2)]

/-- The bytes of a line at offset `o`, one by one. -/
theorem take_drop_line (d : List Byte) (o n : Nat) (h : o + n ≤ d.length) :
    (d.drop o).take n = bytesFrom (fun k => d.getD k 0#8) o n := by
  conv => lhs; rw [eq_bytesFrom d 0#8]
  rw [take_drop_bytesFrom _ _ _ _ _ h, Nat.zero_add]

theorem bytesFrom_shift (f g : Nat → Byte) (a b n : Nat) (h : ∀ k, k < n → f (a + k) = g (b + k)) :
    bytesFrom f a n = bytesFrom g b n := by
  induction n generalizing a b with
  | zero => rfl
  | succ n ih =>
    simp only [bytesFrom]
    rw [show f a = g b from h 0 (by omega), ih (a + 1) (b + 1) fun k hk => by
      have := h (k + 1) (by omega)
      rwa [show a + (k + 1) = a + 1 + k by omega, show b + (k + 1) = b + 1 + k by omega] at this]

/-- A probe of an aligned access that fits its line answers what is seen there (20_memory.md R83). -/
theorem cacheLoad_hit (c : Config) (k : Cache) (m : List Host.Cell) (p n : Nat) (l : Line)
    (hf : k.find (lineNumber c p) = some l) (hl : l.data.length = c.lineSize) (hfit : p % c.lineSize + n ≤ c.lineSize) :
    cacheLoad c k p n = some (bytesFrom (seen c k m) p n) := by
  simp only [cacheLoad, hf, Option.map_some, Option.some.injEq]
  rw [take_drop_line _ _ _ (by rw [hl]; exact hfit)]
  apply bytesFrom_shift
  intro j hj
  simp only [seen, lineNumber_add c p j n hfit hj, lineOffset_add c p j n hfit hj, hf]

theorem cacheLoad_miss (c : Config) (k : Cache) (p n : Nat) : cacheLoad c k p n = none ↔ k.find (lineNumber c p) = none := by
  simp [cacheLoad]

/-- A line's own tag decides whether a store changes it (20_memory.md R84). -/
theorem find_map_store (k : Cache) (t u o : Nat) (bs : List Byte) :
    Cache.find (k.map (fun l => if l.tag = t then l.store o bs else l)) u =
      (k.find u).map (fun l => if u = t then l.store o bs else l) := by
  induction k with
  | nil => rfl
  | cons l k ih =>
    simp only [Cache.find, List.map_cons, List.find?_cons] at ih ⊢
    have htag : (if l.tag = t then l.store o bs else l).tag = l.tag := by split <;> rfl
    rw [htag]
    by_cases hu : l.tag = u
    · subst hu
      simp
    · simp [hu, ih]

theorem tags_map_store (k : Cache) (t o : Nat) (bs : List Byte) :
    (k.map (fun l => if l.tag = t then l.store o bs else l)).map Line.tag = k.map Line.tag := by
  rw [List.map_map]
  apply List.map_congr_left
  intro l _
  simp only [Function.comp]
  split <;> rfl

/-- Everything a cache store that hits does (20_memory.md R84): the stored bytes are seen, every other byte is seen as before, no slot
moves, the line is dirty. -/
theorem cacheStore_hit (c : Config) (k : Cache) (m : List Host.Cell) (p : Nat) (bs : List Byte) (l : Line) (hk : k.wf c)
    (hf : k.find (lineNumber c p) = some l) (hfit : p % c.lineSize + bs.length ≤ c.lineSize) :
    ∃ k2, cacheStore c k p bs = some k2 ∧ k2.wf c ∧ k2.map Line.tag = k.map Line.tag ∧
      (∃ l2, k2.find (lineNumber c p) = some l2 ∧ l2.dirty = true) ∧
      (∀ a, p ≤ a → a < p + bs.length → seen c k2 m a = bs.getD (a - p) 0#8) ∧
      ∀ a, ¬ (p ≤ a ∧ a < p + bs.length) → seen c k2 m a = seen c k m a := by
  refine ⟨_, by rw [cacheStore, hf]; rfl, ?_, tags_map_store _ _ _ _, ?_, ?_, ?_⟩
  · refine ⟨by simpa using hk.1, by rw [tags_map_store]; exact hk.2.1, ?_⟩
    intro l2 hl2
    obtain ⟨l1, h1, rfl⟩ := List.mem_map.1 hl2
    split
    · simpa [Line.store] using hk.2.2 l1 h1
    · exact hk.2.2 l1 h1
  · rw [find_map_store, hf]
    exact ⟨_, rfl, by simp [Line.store]⟩
  · intro a h1 h2
    obtain ⟨j, rfl⟩ := Nat.exists_eq_add_of_le h1
    have hj : j < bs.length := by omega
    simp only [seen, find_map_store, lineNumber_add c p j _ hfit hj, lineOffset_add c p j _ hfit hj, hf, Option.map_some, if_true]
    rw [Line.store]
    have hlen := (hk.2.2 l (find_some _ _ _ hf).1).1
    rw [getD_spliceBytes _ _ _ _ (by rw [hlen]; exact hfit), if_pos (by omega)]
    congr 1
    omega
  · intro a ha
    simp only [seen, find_map_store]
    cases hfa : k.find (lineNumber c a) with
    | none => rfl
    | some l1 =>
      simp only [Option.map_some]
      split
      · next he =>
        rw [he, hf] at hfa
        injection hfa with hfa
        subst hfa
        have hlen := (hk.2.2 l (find_some _ _ _ hf).1).1
        rw [Line.store, getD_spliceBytes _ _ _ _ (by rw [hlen]; exact hfit), if_neg]
        have h1 := (line_bounds c a _).1 he
        have h2 := (line_bounds c p _).1 rfl
        have h3 := offset_eq c a _ he
        have h4 := offset_eq c p _ rfl
        omega
      · rfl

/-! ## Write-back and refill (20_memory.md R86, R87) -/

/-- Everything a write-back does: a dirty line's bytes are `Mem`'s afterwards, and nothing else changes. -/
theorem read_writeBack (c : Config) (m : List Host.Cell) (l : Line) (a : Nat) (hl : l.data.length = c.lineSize)
    (hr : inRange c (l.tag * c.lineSize) c.lineSize = true) :
    Memory.read (writeBack c m l) a =
      if l.dirty = true ∧ lineNumber c a = l.tag then l.data.getD (lineOffset c a) 0#8 else Memory.read m a := by
  unfold writeBack
  simp only [inRange, decide_eq_true_eq] at hr
  by_cases hd : l.dirty = true
  · rw [if_pos hd, read_writeRaw _ _ _ _ _ (by omega), hl]
    by_cases hb : lineNumber c a = l.tag
    · rw [if_pos ((line_bounds c a _).1 hb), if_pos ⟨hd, hb⟩, offset_eq c a _ hb]
    · rw [if_neg (fun h => hb ((line_bounds c a _).2 h)), if_neg (fun h => hb h.2)]
  · rw [if_neg hd, if_neg (fun h => hd h.1)]

theorem wf_writeBack (c : Config) (m : List Host.Cell) (l : Line) (h : Memory.wf m = true) : Memory.wf (writeBack c m l) = true := by
  unfold writeBack
  split
  · exact wf_writeRaw _ _ _ _ h
  · exact h

theorem keys_writeBack (c : Config) (m : List Host.Cell) (l : Line) (h : ∀ e ∈ m, e.1 < c.memSize) :
    ∀ e ∈ writeBack c m l, e.1 < c.memSize := by
  unfold writeBack
  split
  · exact keys_writeRaw _ _ _ _ h
  · exact h

/-- The byte of an address as a stream of the acting hart sees it. -/
def streamByte (st : Stream) (s : State) (a : Nat) : Byte :=
  if s.cfg.cacheEnable then seen s.cfg (s.cache st) s.mem a else Memory.read s.mem a

theorem viewByte_stream (s : State) : viewByte s = streamByte .data s := by
  funext a
  unfold streamByte
  split
  · next h => exact viewByte_cached s h a
  · next h => exact viewByte_uncached s (by simpa using h) a

theorem fetchByte_stream (s : State) : fetchByte s = streamByte .instruction s := by
  funext a
  unfold streamByte
  split
  · next h => exact fetchByte_cached s h a
  · next h => exact fetchByte_uncached s (by simpa using h) a

/-- Everything bringing the line of `p` into a stream's cache can do (20_memory.md R86), if anything was to be done. -/
structure Refilled (st : Stream) (s t : State) (p : Nat) : Prop where
  frame : t = { (s.setMem t.mem).setCache st (t.cache st) with draws := t.draws }
  wf : (t.cache st).wf s.cfg
  clean : (∀ l ∈ s.cache st, l.dirty = false) → ∀ l ∈ t.cache st, l.dirty = false
  memClean : (∀ l ∈ s.cache st, l.dirty = false) → t.mem = s.mem
  empty : s.cfg.cacheEnable = false → t = s
  memWf : Memory.wf s.mem = true → Memory.wf t.mem = true
  keys : (∀ e ∈ s.mem, e.1 < s.cfg.memSize) → ∀ e ∈ t.mem, e.1 < s.cfg.memSize
  same : ∀ a, lineNumber s.cfg a = lineNumber s.cfg p → streamByte st t a = streamByte st s a
  seen : ∀ a, streamByte st t a = streamByte st s a ∨
    (streamByte st t a = Memory.read s.mem a ∧ lineNumber s.cfg a ≠ lineNumber s.cfg p ∧
      ∃ l, (s.cache st).find (lineNumber s.cfg a) = some l ∧ l.dirty = false)
  written : ∀ a, Memory.read t.mem a = Memory.read s.mem a ∨ Memory.read t.mem a = streamByte st s a

theorem Refilled.refl (st : Stream) (s : State) (p : Nat) (h : (s.cache st).wf s.cfg) : Refilled st s s p :=
  ⟨by cases st <;> rfl, h, id, fun _ => rfl, fun _ => rfl, id, id, fun _ _ => rfl, fun _ => .inl rfl, fun _ => .inl rfl⟩

theorem Refilled.cfg {st : Stream} {s t : State} {p : Nat} (h : Refilled st s t p) : t.cfg = s.cfg := by
  rw [h.frame]
  cases st <;> rfl

@[simp] theorem freshLine_tag (c : Config) (m : List Host.Cell) (t : Nat) : (freshLine c m t).tag = t := rfl

@[simp] theorem length_freshLine (c : Config) (m : List Host.Cell) (t : Nat) : (freshLine c m t).data.length = c.lineSize := by
  simp [freshLine]

/-- A fresh line shows what `Mem` holds. -/
theorem freshLine_getD (c : Config) (m : List Host.Cell) (a : Nat) :
    (freshLine c m (lineNumber c a)).data.getD (lineOffset c a) 0#8 = Memory.read m a := by
  simp only [freshLine, Memory.readBytes_eq]
  rw [lineOffset, getD_bytesFrom _ _ _ _ _ (Nat.mod_lt _ (lineSize_pos c))]
  congr 1
  simp only [lineNumber, lineOffset]
  exact Nat.div_add_mod' a c.lineSize

theorem freshLine_congr (c : Config) (m n : List Host.Cell) (t : Nat)
    (h : ∀ a, lineNumber c a = t → Memory.read m a = Memory.read n a) : freshLine c m t = freshLine c n t := by
  simp only [freshLine, Memory.readBytes_eq, Line.mk.injEq, true_and]
  exact bytesFrom_congr _ _ _ _ fun a h1 h2 => h a ((line_bounds c a t).2 ⟨h1, by omega⟩)

/-- The refill of a line in range that is not present (20_memory.md R86): it succeeds, and the line is there and clean. -/
theorem refill_spec (st : Stream) (s : State) (p : Nat) (hc : s.cfg.wf = true) (hk : (s.cache st).wf s.cfg)
    (he : s.cfg.cacheEnable = true) (hf : (s.cache st).find (lineNumber s.cfg p) = none)
    (hr : (lineNumber s.cfg p + 1) * s.cfg.lineSize ≤ s.cfg.memSize) :
    ∃ t, refill st (lineNumber s.cfg p) s = some t ∧ Refilled st s t p ∧
      (t.cache st).find (lineNumber s.cfg p) = some (freshLine s.cfg s.mem (lineNumber s.cfg p)) := by
  have hin : inRange s.cfg (lineNumber s.cfg p * s.cfg.lineSize) s.cfg.lineSize = true := by
    simp only [inRange, decide_eq_true_eq]
    rw [Nat.add_mul] at hr
    omega
  have hcache : ∀ (u : State) (k : Cache) (d : Nat), ({ u.setCache st k with draws := d } : State).cache st = k := by
    intro u k d
    cases st <;> rfl
  unfold refill
  rw [hf, if_neg (by simp), if_pos hin]
  by_cases hlen : (s.cache st).length < s.cfg.cacheSlots
  · rw [if_pos hlen]
    have hfind : ∀ t, Cache.find (s.cache st ++ [freshLine s.cfg s.mem (lineNumber s.cfg p)]) t =
        if t = lineNumber s.cfg p then some (freshLine s.cfg s.mem (lineNumber s.cfg p)) else (s.cache st).find t :=
      fun t => find_append_new _ _ t hf
    refine ⟨_, rfl, ?_, ?_⟩
    · have hc2 : (s.setCache st (s.cache st ++ [freshLine s.cfg s.mem (lineNumber s.cfg p)])).cache st =
          s.cache st ++ [freshLine s.cfg s.mem (lineNumber s.cfg p)] := by cases st <;> rfl
      have hm2 : (s.setCache st (s.cache st ++ [freshLine s.cfg s.mem (lineNumber s.cfg p)])).mem = s.mem := by cases st <;> rfl
      have hcfg2 : (s.setCache st (s.cache st ++ [freshLine s.cfg s.mem (lineNumber s.cfg p)])).cfg = s.cfg := by cases st <;> rfl
      have hsame : ∀ a, streamByte st (s.setCache st (s.cache st ++ [freshLine s.cfg s.mem (lineNumber s.cfg p)])) a =
          streamByte st s a := by
        intro a
        simp only [streamByte, hc2, hm2, hcfg2, he, if_true, seen, hfind]
        by_cases ha : lineNumber s.cfg a = lineNumber s.cfg p
        · rw [if_pos ha, ha, hf, ← ha]
          exact freshLine_getD _ _ _
        · rw [if_neg ha]
      refine ⟨by cases st <;> rfl, ?_, ?_, fun _ => hm2, by simp [he], by rw [hm2]; exact id, by rw [hm2]; exact id, fun a _ => hsame a,
        fun a => .inl (hsame a), fun a => .inl (by rw [hm2])⟩
      · rw [hc2]
        refine ⟨by simp; omega, ?_, ?_⟩
        · rw [List.map_append, List.nodup_append]
          refine ⟨hk.2.1, by simp, ?_⟩
          intro x hx y hy
          obtain ⟨l, hl, rfl⟩ := List.mem_map.1 hx
          simp only [List.map_cons, List.map_nil, List.mem_singleton] at hy
          subst hy
          exact (find_none _ _).1 hf l hl
        · intro l hl
          rcases List.mem_append.1 hl with hl | hl
          · exact hk.2.2 l hl
          · rw [List.mem_singleton] at hl
            subst hl
            exact ⟨length_freshLine _ _ _, hin⟩
      · rw [hc2]
        intro h l hl
        rcases List.mem_append.1 hl with hl | hl
        · exact h l hl
        · rw [List.mem_singleton] at hl
          subst hl
          rfl
    · rw [show (s.setCache st (s.cache st ++ [freshLine s.cfg s.mem (lineNumber s.cfg p)])).cache st =
          s.cache st ++ [freshLine s.cfg s.mem (lineNumber s.cfg p)] by cases st <;> rfl]
      rw [find_append_new _ _ _ hf]
      exact if_pos rfl
  · rw [if_neg hlen]
    have hc1 : 1 ≤ s.cfg.cacheSlots := by
      simp only [Config.wf, Bool.and_eq_true, decide_eq_true_eq] at hc
      omega
    have hslot : Config.freeNat s.draws % s.cfg.cacheSlots < (s.cache st).length := by
      have := Nat.mod_lt (Config.freeNat s.draws) hc1
      omega
    generalize Config.freeNat s.draws % s.cfg.cacheSlots = slot at hslot ⊢
    obtain ⟨victim, hv⟩ : ∃ v, (s.cache st)[slot]? = some v := ⟨_, List.getElem?_eq_getElem hslot⟩
    have hvmem : victim ∈ s.cache st := List.mem_of_getElem? hv
    obtain ⟨hvl, hvr⟩ := hk.2.2 victim hvmem
    have hvt : victim.tag ≠ lineNumber s.cfg p := (find_none _ _).1 hf victim hvmem
    have hvf : (s.cache st).find victim.tag = some victim := find_of_mem _ _ hk.2.1 hvmem
    simp only [hv, Option.map_some, Option.getD_some]
    have hread := fun a => read_writeBack s.cfg s.mem victim a hvl hvr
    have hfresh : freshLine s.cfg (writeBack s.cfg s.mem victim) (lineNumber s.cfg p) =
        freshLine s.cfg s.mem (lineNumber s.cfg p) := by
      apply freshLine_congr
      intro a ha
      rw [hread, if_neg]
      rintro ⟨-, h⟩
      exact hvt (h.symm.trans ha)
    rw [hfresh]
    have hfind : ∀ t, Cache.find ((s.cache st).set slot (freshLine s.cfg s.mem (lineNumber s.cfg p))) t =
        if t = lineNumber s.cfg p then some (freshLine s.cfg s.mem (lineNumber s.cfg p))
        else if t = victim.tag then none else (s.cache st).find t :=
      fun t => find_set_new _ _ _ _ t hk.2.1 hv hf
    generalize hk2 : (s.cache st).set slot (freshLine s.cfg s.mem (lineNumber s.cfg p)) = k2 at hfind ⊢
    generalize hm2 : writeBack s.cfg s.mem victim = m2 at hread ⊢
    refine ⟨_, rfl, ?_, ?_⟩
    · have hmem : ∀ d, ({ (s.setMem m2).setCache st k2 with draws := d } : State).mem = m2 := by
        intro d
        cases st <;> rfl
      have hst : ∀ d a, streamByte st ({ (s.setMem m2).setCache st k2 with draws := d } : State) a = Machine.seen s.cfg k2 m2 a := by
        intro d a
        cases st <;> exact if_pos he
      have hst0 : ∀ a, streamByte st s a = Machine.seen s.cfg (s.cache st) s.mem a := fun a => if_pos he
      have hseen : ∀ a, Machine.seen s.cfg k2 m2 a = Machine.seen s.cfg (s.cache st) s.mem a ∨
          (Machine.seen s.cfg k2 m2 a = Memory.read s.mem a ∧ lineNumber s.cfg a ≠ lineNumber s.cfg p ∧
            ∃ l, (s.cache st).find (lineNumber s.cfg a) = some l ∧ l.dirty = false) := by
        intro a
        simp only [Machine.seen, hfind]
        by_cases ha : lineNumber s.cfg a = lineNumber s.cfg p
        · left
          rw [if_pos ha, ha, hf, ← ha]
          exact freshLine_getD _ _ _
        · rw [if_neg ha]
          by_cases hav : lineNumber s.cfg a = victim.tag
          · rw [if_pos hav]
            simp only [hread, hav, hvf, and_true]
            by_cases hd : victim.dirty = true
            · left
              rw [if_pos hd]
            · right
              rw [if_neg hd]
              exact ⟨rfl, hvt, victim, rfl, by simpa using hd⟩
          · rw [if_neg hav]
            left
            cases (s.cache st).find (lineNumber s.cfg a) with
            | some l => rfl
            | none =>
              simp only [hread]
              rw [if_neg (fun h => hav h.2)]
      refine ⟨by cases st <;> rfl, ?_, ?_, ?_, by simp [he], ?_, ?_, ?_, ?_, ?_⟩
      · rw [hcache, ← hk2]
        refine ⟨by simpa using hk.1, ?_, ?_⟩
        · rw [List.map_set]
          apply List.Nodup.set hk.2.1
          intro hmem2
          obtain ⟨l2, h4, h5⟩ := List.mem_map.1 hmem2
          exact (find_none _ _).1 hf l2 h4 h5
        · intro l hl
          rcases List.mem_or_eq_of_mem_set hl with hl | rfl
          · exact hk.2.2 l hl
          · exact ⟨length_freshLine _ _ _, hin⟩
      · rw [hcache, ← hk2]
        intro h l hl
        rcases List.mem_or_eq_of_mem_set hl with hl | rfl
        · exact h l hl
        · rfl
      · intro h
        rw [hmem, ← hm2, writeBack, h victim hvmem]
        rfl
      · intro h
        rw [hmem, ← hm2]
        exact wf_writeBack _ _ _ h
      · intro h
        rw [hmem, ← hm2]
        exact keys_writeBack _ _ _ h
      · intro a ha
        rw [hst, hst0]
        rcases hseen a with h | h
        · exact h
        · exact absurd ha h.2.1
      · intro a
        rw [hst, hst0]
        exact hseen a
      · intro a
        rw [hmem, hread]
        split
        · next h =>
          right
          simp [hst0, Machine.seen, h.2, hvf]
        · exact .inl rfl
    · rw [hcache, hfind]
      exact if_pos rfl

/-! ## Cached accesses (20_memory.md R130-R132) -/

/-- Everything a cached read of an aligned access in range does: it answers what the stream sees, and at most brings a line in. -/
theorem cachedRead_spec (st : Stream) (s : State) (p n : Nat) (hc : s.cfg.wf = true) (hk : (s.cache st).wf s.cfg)
    (hn : n ∈ [1, 2, 4]) (ha : p % n = 0) (hr : p + n ≤ s.cfg.memSize) :
    ∃ t, cachedRead st p n s = some (bytesFrom (streamByte st s) p n, t) ∧ Refilled st s t p := by
  have hn0 : 0 < n := by
    simp only [List.mem_cons, List.not_mem_nil, or_false] at hn
    omega
  have hl2 : 2 ≤ s.cfg.lineLog2 := by
    simp only [Config.wf, Bool.and_eq_true, decide_eq_true_eq] at hc
    omega
  have hfit := access_fits s.cfg p n hl2 hn ha
  unfold cachedRead
  by_cases he : s.cfg.cacheEnable = true
  · rw [if_pos he]
    have hs : ∀ a, streamByte st s a = seen s.cfg (s.cache st) s.mem a := fun a => if_pos he
    cases hf : (s.cache st).find (lineNumber s.cfg p) with
    | some l =>
      rw [cacheLoad_hit _ _ s.mem _ _ l hf (hk.2.2 l (find_some _ _ _ hf).1).1 hfit]
      exact ⟨s, by rw [funext hs], .refl st s p hk⟩
    | none =>
      obtain ⟨t, h1, h2, h3⟩ := refill_spec st s p hc hk he hf (line_inRange _ hc _ _ hn0 hr)
      rw [(cacheLoad_miss _ _ _ _).2 hf]
      simp only [h1, Option.bind_some, h2.cfg]
      rw [cacheLoad_hit _ _ s.mem _ _ _ h3 (length_freshLine _ _ _) hfit]
      refine ⟨t, ?_, h2⟩
      simp only [Option.map_some, Option.some.injEq, Prod.mk.injEq, and_true]
      apply bytesFrom_congr
      intro a ha1 ha2
      obtain ⟨k, rfl⟩ := Nat.exists_eq_add_of_le ha1
      have hln := lineNumber_add s.cfg p k n hfit (by omega)
      rw [hs]
      simp only [seen, hln, hf, h3]
      rw [← hln]
      exact freshLine_getD _ _ _
  · rw [if_neg he]
    refine ⟨s, ?_, .refl st s p hk⟩
    rw [readRaw, if_pos (by simpa [inRange] using hr), Memory.readBytes_eq]
    simp only [Option.map_some, Option.some.injEq, Prod.mk.injEq, and_true]
    congr 1
    funext a
    rw [streamByte, if_neg he]

/-- Everything a cached write of an aligned access in range can do. -/
structure Stored (s t : State) (p : Nat) (bs : List Byte) : Prop where
  frame : t = { (s.setMem t.mem).setCache .data (t.cache .data) with draws := t.draws }
  wf : (t.cache .data).wf s.cfg
  empty : s.cfg.cacheEnable = false → t.cache .data = s.cache .data
  memWf : Memory.wf s.mem = true → Memory.wf t.mem = true
  keys : (∀ e ∈ s.mem, e.1 < s.cfg.memSize) → ∀ e ∈ t.mem, e.1 < s.cfg.memSize
  stored : ∀ a, p ≤ a → a < p + bs.length → viewByte t a = bs.getD (a - p) 0#8
  others : ∀ a, ¬ (p ≤ a ∧ a < p + bs.length) → SameView s t p a
  written : s.cfg.cacheEnable = true →
    OnlyWrittenBack s t ∧ ∃ l, (t.cache .data).find (lineNumber s.cfg p) = some l ∧ l.dirty = true

theorem cachedWrite_spec (s : State) (p n : Nat) (bs : List Byte) (hc : s.cfg.wf = true) (hk : (s.cache .data).wf s.cfg)
    (hn : n ∈ [1, 2, 4]) (hbs : bs.length = n) (ha : p % n = 0) (hr : p + n ≤ s.cfg.memSize) :
    ∃ t, cachedWrite p bs s = some t ∧ Stored s t p bs := by
  have hn0 : 0 < n := by
    simp only [List.mem_cons, List.not_mem_nil, or_false] at hn
    omega
  have hl2 : 2 ≤ s.cfg.lineLog2 := by
    simp only [Config.wf, Bool.and_eq_true, decide_eq_true_eq] at hc
    omega
  have hfit := access_fits s.cfg p n hl2 hn ha
  rw [← hbs] at hfit
  unfold cachedWrite
  by_cases he : s.cfg.cacheEnable = true
  · rw [if_pos he]
    -- the store after the line is present, from the state `u` in which it is
    have key : ∀ (u : State) (l : Line), Refilled .data s u p → (u.cache .data).find (lineNumber s.cfg p) = some l →
        ∃ k, cacheStore u.cfg (u.cache .data) p bs = some k ∧ Stored s (u.setCache .data k) p bs := by
      intro u l hu hf
      have hcfg := hu.cfg
      have heu : u.cfg.cacheEnable = true := by rw [hcfg]; exact he
      obtain ⟨k, h1, h2, -, ⟨l2, h4, h5⟩, h6, h7⟩ :=
        cacheStore_hit u.cfg (u.cache .data) u.mem p bs l (by rw [hcfg]; exact hu.wf) (by rw [hcfg]; exact hf)
          (by rw [hcfg]; exact hfit)
      have hv : ∀ a, viewByte (u.setCache .data k) a = seen u.cfg k u.mem a := fun a => viewByte_cached (u.setCache .data k) heu a
      have hvu : ∀ a, streamByte .data u a = seen u.cfg (u.cache .data) u.mem a := fun a => if_pos heu
      refine ⟨k, h1, ?_, by rw [← hcfg]; exact h2, by simp [he], hu.memWf, hu.keys, ?_, ?_, ?_⟩
      · rw [hu.frame]
        rfl
      · intro a ha1 ha2
        rw [hv, h6 a ha1 ha2]
      · intro a hna
        unfold SameView
        rw [hv, h7 a hna, ← hvu, viewByte_stream s]
        exact hu.seen a
      · intro _
        refine ⟨?_, l2, ?_, h5⟩
        · intro a
          rw [viewByte_stream]
          exact hu.written a
        · rw [hcfg] at h4
          exact h4
    cases hf : (s.cache .data).find (lineNumber s.cfg p) with
    | some l =>
      obtain ⟨k, h1, h2⟩ := key s l (.refl _ _ _ hk) hf
      rw [h1]
      exact ⟨_, rfl, h2⟩
    | none =>
      obtain ⟨t, h1, h2, h3⟩ := refill_spec .data s p hc hk he hf (line_inRange _ hc _ _ hn0 hr)
      obtain ⟨k, h4, h5⟩ := key t _ h2 h3
      rw [cacheStore, hf]
      simp only [Option.isSome_none, Bool.false_eq_true, if_false, h1, Option.bind_some, h4, Option.map_some]
      exact ⟨_, rfl, h5⟩
  · rw [if_neg he, if_pos (by simpa [inRange, hbs] using hr)]
    have he2 : s.cfg.cacheEnable = false := by simpa using he
    refine ⟨_, rfl, rfl, hk, fun _ => rfl, fun h => wf_writeRaw _ _ _ _ h, keys_writeRaw _ _ _ _, ?_, ?_, fun h => absurd h he⟩
    · intro a ha1 ha2
      rw [viewByte_uncached _ (by exact he2)]
      exact (read_writeRaw _ _ _ _ _ (by omega)).trans (if_pos ⟨ha1, ha2⟩)
    · intro a hna
      left
      rw [viewByte_uncached _ (by exact he2), viewByte_uncached _ he2]
      exact (read_writeRaw _ _ _ _ _ (by omega)).trans (if_neg hna)

/-! ## FENCE (20_memory.md R87, R134) -/

/-- Writing back a list of lines: a byte of a dirty line is that line's, every other byte is as it was. -/
theorem read_writeBacks (c : Config) (k : Cache) (m : List Host.Cell) (a : Nat)
    (hk : ∀ l ∈ k, l.data.length = c.lineSize ∧ inRange c (l.tag * c.lineSize) c.lineSize = true) (hn : (k.map Line.tag).Nodup) :
    Memory.read (k.foldl (writeBack c) m) a =
      match k.find (lineNumber c a) with
      | some l => if l.dirty then l.data.getD (lineOffset c a) 0#8 else Memory.read m a
      | none => Memory.read m a := by
  induction k generalizing m with
  | nil => rfl
  | cons l k ih =>
    simp only [List.map_cons, List.nodup_cons] at hn
    have hl := hk l (by simp)
    rw [List.foldl_cons, ih _ (fun l2 h => hk l2 (by simp [h])) hn.2, read_writeBack c m l a hl.1 hl.2]
    by_cases ht : l.tag = lineNumber c a
    · have hnone : Cache.find k (lineNumber c a) = none := by
        rw [find_none]
        intro l2 h2 e
        exact hn.1 (ht.trans e.symm ▸ List.mem_map_of_mem h2)
      rw [hnone]
      simp [Cache.find, ht]
    · have hcons : Cache.find (l :: k) (lineNumber c a) = Cache.find k (lineNumber c a) := by simp [Cache.find, ht]
      rw [hcons, if_neg (fun h => ht h.2.symm)]

theorem wf_writeBacks (c : Config) (k : Cache) (m : List Host.Cell) (h : Memory.wf m = true) :
    Memory.wf (k.foldl (writeBack c) m) = true := by
  induction k generalizing m with
  | nil => exact h
  | cons l k ih => exact ih _ (wf_writeBack _ _ _ h)

theorem keys_writeBacks (c : Config) (k : Cache) (m : List Host.Cell) (h : ∀ e ∈ m, e.1 < c.memSize) :
    ∀ e ∈ k.foldl (writeBack c) m, e.1 < c.memSize := by
  induction k generalizing m with
  | nil => exact h
  | cons l k ih => exact ih _ (keys_writeBack _ _ _ h)

/-- Making every line clean changes no byte a probe answers. -/
theorem find_map_clean (k : Cache) (t : Nat) :
    Cache.find (k.map (fun l => { l with dirty := false })) t = (k.find t).map (fun l => { l with dirty := false }) := by
  simp only [Cache.find, List.find?_map, Function.comp_def]

theorem wf_map_clean (c : Config) (k : Cache) (h : k.wf c) : Cache.wf c (k.map (fun l => { l with dirty := false })) := by
  refine ⟨by simpa using h.1, ?_, ?_⟩
  · rw [List.map_map]
    exact h.2.1
  · intro l hl
    obtain ⟨l1, h1, rfl⟩ := List.mem_map.1 hl
    exact h.2.2 l1 h1

end Sys2Proof.Machine
end

