-- ==== Sys2Proof/Laws/Decode.lean ====
section
/-! SUPPORT. The laws of instruction words: every field of a word of each format is the field put there, a word is put together again
from its fields, a register number survives its five bits, and an immediate survives the pieces of its format. -/

namespace Sys2Proof

/-! ## Register numbers -/

@[simp] theorem regOf_regBits (r : Reg) : regOf (regBits r) = r := by
  apply Fin.ext
  simp [regOf, regBits]

@[simp] theorem shamtOf_regBits (r : Reg) : shamtOf (regBits r) = r := regOf_regBits r

@[simp] theorem regBits_regOf (b : BitVec 5) : regBits (regOf b) = b := by
  apply BitVec.eq_of_toNat_eq
  simp [regOf, regBits]

@[simp] theorem regBits_shamtOf (b : BitVec 5) : regBits (shamtOf b) = b := regBits_regOf b

/-! ## The fields of an encoded word -/

@[simp] theorem opcode_encR (f7 : BitVec 7) (rs2 rs1 : BitVec 5) (f3 : BitVec 3) (rd : BitVec 5) (op : BitVec 7) :
    opcode (encR f7 rs2 rs1 f3 rd op) = op := by
  apply BitVec.eq_of_getLsbD_eq
  intro i hi
  simp only [opcode, encR, BitVec.getLsbD_extractLsb', BitVec.getLsbD_append]
  interval_cases i <;> simp

@[simp] theorem fieldRd_encR (f7 : BitVec 7) (rs2 rs1 : BitVec 5) (f3 : BitVec 3) (rd : BitVec 5) (op : BitVec 7) :
    fieldRd (encR f7 rs2 rs1 f3 rd op) = rd := by
  apply BitVec.eq_of_getLsbD_eq
  intro i hi
  simp only [fieldRd, encR, BitVec.getLsbD_extractLsb', BitVec.getLsbD_append]
  interval_cases i <;> simp

@[simp] theorem funct3_encR (f7 : BitVec 7) (rs2 rs1 : BitVec 5) (f3 : BitVec 3) (rd : BitVec 5) (op : BitVec 7) :
    funct3 (encR f7 rs2 rs1 f3 rd op) = f3 := by
  apply BitVec.eq_of_getLsbD_eq
  intro i hi
  simp only [funct3, encR, BitVec.getLsbD_extractLsb', BitVec.getLsbD_append]
  interval_cases i <;> simp

@[simp] theorem fieldRs1_encR (f7 : BitVec 7) (rs2 rs1 : BitVec 5) (f3 : BitVec 3) (rd : BitVec 5) (op : BitVec 7) :
    fieldRs1 (encR f7 rs2 rs1 f3 rd op) = rs1 := by
  apply BitVec.eq_of_getLsbD_eq
  intro i hi
  simp only [fieldRs1, encR, BitVec.getLsbD_extractLsb', BitVec.getLsbD_append]
  interval_cases i <;> simp

@[simp] theorem fieldRs2_encR (f7 : BitVec 7) (rs2 rs1 : BitVec 5) (f3 : BitVec 3) (rd : BitVec 5) (op : BitVec 7) :
    fieldRs2 (encR f7 rs2 rs1 f3 rd op) = rs2 := by
  apply BitVec.eq_of_getLsbD_eq
  intro i hi
  simp only [fieldRs2, encR, BitVec.getLsbD_extractLsb', BitVec.getLsbD_append]
  interval_cases i <;> simp

@[simp] theorem funct7_encR (f7 : BitVec 7) (rs2 rs1 : BitVec 5) (f3 : BitVec 3) (rd : BitVec 5) (op : BitVec 7) :
    funct7 (encR f7 rs2 rs1 f3 rd op) = f7 := by
  apply BitVec.eq_of_getLsbD_eq
  intro i hi
  simp only [funct7, encR, BitVec.getLsbD_extractLsb', BitVec.getLsbD_append]
  interval_cases i <;> simp

@[simp] theorem opcode_encI (imm : BitVec 12) (rs1 : BitVec 5) (f3 : BitVec 3) (rd : BitVec 5) (op : BitVec 7) :
    opcode (encI imm rs1 f3 rd op) = op := by
  apply BitVec.eq_of_getLsbD_eq
  intro i hi
  simp only [opcode, encI, BitVec.getLsbD_extractLsb', BitVec.getLsbD_append]
  interval_cases i <;> simp

@[simp] theorem fieldRd_encI (imm : BitVec 12) (rs1 : BitVec 5) (f3 : BitVec 3) (rd : BitVec 5) (op : BitVec 7) :
    fieldRd (encI imm rs1 f3 rd op) = rd := by
  apply BitVec.eq_of_getLsbD_eq
  intro i hi
  simp only [fieldRd, encI, BitVec.getLsbD_extractLsb', BitVec.getLsbD_append]
  interval_cases i <;> simp

@[simp] theorem funct3_encI (imm : BitVec 12) (rs1 : BitVec 5) (f3 : BitVec 3) (rd : BitVec 5) (op : BitVec 7) :
    funct3 (encI imm rs1 f3 rd op) = f3 := by
  apply BitVec.eq_of_getLsbD_eq
  intro i hi
  simp only [funct3, encI, BitVec.getLsbD_extractLsb', BitVec.getLsbD_append]
  interval_cases i <;> simp

@[simp] theorem fieldRs1_encI (imm : BitVec 12) (rs1 : BitVec 5) (f3 : BitVec 3) (rd : BitVec 5) (op : BitVec 7) :
    fieldRs1 (encI imm rs1 f3 rd op) = rs1 := by
  apply BitVec.eq_of_getLsbD_eq
  intro i hi
  simp only [fieldRs1, encI, BitVec.getLsbD_extractLsb', BitVec.getLsbD_append]
  interval_cases i <;> simp

@[simp] theorem immI_encI (imm : BitVec 12) (rs1 : BitVec 5) (f3 : BitVec 3) (rd : BitVec 5) (op : BitVec 7) :
    immI (encI imm rs1 f3 rd op) = imm := by
  apply BitVec.eq_of_getLsbD_eq
  intro i hi
  simp only [immI, encI, BitVec.getLsbD_extractLsb', BitVec.getLsbD_append]
  interval_cases i <;> simp

@[simp] theorem opcode_encU (imm : BitVec 20) (rd : BitVec 5) (op : BitVec 7) :
    opcode (encU imm rd op) = op := by
  apply BitVec.eq_of_getLsbD_eq
  intro i hi
  simp only [opcode, encU, BitVec.getLsbD_extractLsb', BitVec.getLsbD_append]
  interval_cases i <;> simp

@[simp] theorem fieldRd_encU (imm : BitVec 20) (rd : BitVec 5) (op : BitVec 7) :
    fieldRd (encU imm rd op) = rd := by
  apply BitVec.eq_of_getLsbD_eq
  intro i hi
  simp only [fieldRd, encU, BitVec.getLsbD_extractLsb', BitVec.getLsbD_append]
  interval_cases i <;> simp

@[simp] theorem immU_encU (imm : BitVec 20) (rd : BitVec 5) (op : BitVec 7) :
    immU (encU imm rd op) = imm := by
  apply BitVec.eq_of_getLsbD_eq
  intro i hi
  simp only [immU, encU, BitVec.getLsbD_extractLsb', BitVec.getLsbD_append]
  interval_cases i <;> simp

@[simp] theorem funct3_encS (imm : BitVec 12) (rs2 rs1 : BitVec 5) (f3 : BitVec 3) (op : BitVec 7) :
    funct3 (encS imm rs2 rs1 f3 op) = f3 := by simp [encS]

@[simp] theorem opcode_encS (imm : BitVec 12) (rs2 rs1 : BitVec 5) (f3 : BitVec 3) (op : BitVec 7) :
    opcode (encS imm rs2 rs1 f3 op) = op := by simp [encS]

@[simp] theorem fieldRs1_encS (imm : BitVec 12) (rs2 rs1 : BitVec 5) (f3 : BitVec 3) (op : BitVec 7) :
    fieldRs1 (encS imm rs2 rs1 f3 op) = rs1 := by simp [encS]

@[simp] theorem fieldRs2_encS (imm : BitVec 12) (rs2 rs1 : BitVec 5) (f3 : BitVec 3) (op : BitVec 7) :
    fieldRs2 (encS imm rs2 rs1 f3 op) = rs2 := by simp [encS]

@[simp] theorem immS_encS (imm : BitVec 12) (rs2 rs1 : BitVec 5) (f3 : BitVec 3) (op : BitVec 7) :
    immS (encS imm rs2 rs1 f3 op) = imm := by
  apply BitVec.eq_of_getLsbD_eq
  intro i hi
  simp only [immS, encS, encR, BitVec.getLsbD_extractLsb', BitVec.getLsbD_append]
  interval_cases i <;> simp

@[simp] theorem funct3_encB (off : BitVec 13) (rs2 rs1 : BitVec 5) (f3 : BitVec 3) (op : BitVec 7) :
    funct3 (encB off rs2 rs1 f3 op) = f3 := by simp [encB]

@[simp] theorem opcode_encB (off : BitVec 13) (rs2 rs1 : BitVec 5) (f3 : BitVec 3) (op : BitVec 7) :
    opcode (encB off rs2 rs1 f3 op) = op := by simp [encB]

@[simp] theorem fieldRs1_encB (off : BitVec 13) (rs2 rs1 : BitVec 5) (f3 : BitVec 3) (op : BitVec 7) :
    fieldRs1 (encB off rs2 rs1 f3 op) = rs1 := by simp [encB]

@[simp] theorem fieldRs2_encB (off : BitVec 13) (rs2 rs1 : BitVec 5) (f3 : BitVec 3) (op : BitVec 7) :
    fieldRs2 (encB off rs2 rs1 f3 op) = rs2 := by simp [encB]

theorem immB_encB (off : BitVec 13) (rs2 rs1 : BitVec 5) (f3 : BitVec 3) (op : BitVec 7) (h : evenOffset off = true) :
    immB (encB off rs2 rs1 f3 op) = off := by
  apply BitVec.eq_of_getLsbD_eq
  intro i hi
  simp only [immB, encB, encR, BitVec.getLsbD_extractLsb', BitVec.getLsbD_append]
  interval_cases i <;> simp_all [evenOffset]

@[simp] theorem opcode_encJ (off : BitVec 21) (rd : BitVec 5) (op : BitVec 7) : opcode (encJ off rd op) = op := by simp [encJ]

@[simp] theorem fieldRd_encJ (off : BitVec 21) (rd : BitVec 5) (op : BitVec 7) : fieldRd (encJ off rd op) = rd := by simp [encJ]

theorem immJ_encJ (off : BitVec 21) (rd : BitVec 5) (op : BitVec 7) (h : evenOffset off = true) :
    immJ (encJ off rd op) = off := by
  apply BitVec.eq_of_getLsbD_eq
  intro i hi
  simp only [immJ, encJ, encU, BitVec.getLsbD_extractLsb', BitVec.getLsbD_append]
  interval_cases i <;> simp_all [evenOffset]

@[simp] theorem funct5_encR (f5 : BitVec 5) (aq rl : Bool) (rs2 rs1 : BitVec 5) (f3 : BitVec 3) (rd : BitVec 5) (op : BitVec 7) :
    funct5 (encR (f5 ++ BitVec.ofBool aq ++ BitVec.ofBool rl) rs2 rs1 f3 rd op) = f5 := by
  apply BitVec.eq_of_getLsbD_eq
  intro i hi
  simp only [funct5, encR, BitVec.getLsbD_extractLsb', BitVec.getLsbD_append]
  interval_cases i <;> simp

@[simp] theorem fieldAq_encR (f5 : BitVec 5) (aq rl : Bool) (rs2 rs1 : BitVec 5) (f3 : BitVec 3) (rd : BitVec 5) (op : BitVec 7) :
    fieldAq (encR (f5 ++ BitVec.ofBool aq ++ BitVec.ofBool rl) rs2 rs1 f3 rd op) = aq := by
  simp only [fieldAq, encR, BitVec.getLsbD_append]
  simp

@[simp] theorem fieldRl_encR (f5 : BitVec 5) (aq rl : Bool) (rs2 rs1 : BitVec 5) (f3 : BitVec 3) (rd : BitVec 5) (op : BitVec 7) :
    fieldRl (encR (f5 ++ BitVec.ofBool aq ++ BitVec.ofBool rl) rs2 rs1 f3 rd op) = rl := by
  simp only [fieldRl, encR, BitVec.getLsbD_append]
  simp

/-- A FENCE word's first field. -/
@[simp] theorem fm_encI (fm pred succ : BitVec 4) (rs1 : BitVec 5) (f3 : BitVec 3) (rd : BitVec 5) (op : BitVec 7) :
    (encI (fm ++ pred ++ succ) rs1 f3 rd op).extractLsb' 28 4 = fm := by
  apply BitVec.eq_of_getLsbD_eq
  intro i hi
  simp only [encI, BitVec.getLsbD_extractLsb', BitVec.getLsbD_append]
  interval_cases i <;> simp

/-- A FENCE word's second field. -/
@[simp] theorem pred_encI (fm pred succ : BitVec 4) (rs1 : BitVec 5) (f3 : BitVec 3) (rd : BitVec 5) (op : BitVec 7) :
    (encI (fm ++ pred ++ succ) rs1 f3 rd op).extractLsb' 24 4 = pred := by
  apply BitVec.eq_of_getLsbD_eq
  intro i hi
  simp only [encI, BitVec.getLsbD_extractLsb', BitVec.getLsbD_append]
  interval_cases i <;> simp

/-- A FENCE word's third field. -/
@[simp] theorem succ_encI (fm pred succ : BitVec 4) (rs1 : BitVec 5) (f3 : BitVec 3) (rd : BitVec 5) (op : BitVec 7) :
    (encI (fm ++ pred ++ succ) rs1 f3 rd op).extractLsb' 20 4 = succ := by
  apply BitVec.eq_of_getLsbD_eq
  intro i hi
  simp only [encI, BitVec.getLsbD_extractLsb', BitVec.getLsbD_append]
  interval_cases i <;> simp

/-! ## A word from its fields -/

theorem encR_fields (w : Word) : encR (funct7 w) (fieldRs2 w) (fieldRs1 w) (funct3 w) (fieldRd w) (opcode w) = w := by
  apply BitVec.eq_of_getLsbD_eq
  intro i hi
  simp only [encR, funct7, fieldRs2, fieldRs1, funct3, fieldRd, opcode, BitVec.getLsbD_extractLsb', BitVec.getLsbD_append]
  interval_cases i <;> simp

theorem encI_fields (w : Word) : encI (immI w) (fieldRs1 w) (funct3 w) (fieldRd w) (opcode w) = w := by
  apply BitVec.eq_of_getLsbD_eq
  intro i hi
  simp only [encI, immI, fieldRs1, funct3, fieldRd, opcode, BitVec.getLsbD_extractLsb', BitVec.getLsbD_append]
  interval_cases i <;> simp

theorem encU_fields (w : Word) : encU (immU w) (fieldRd w) (opcode w) = w := by
  apply BitVec.eq_of_getLsbD_eq
  intro i hi
  simp only [encU, immU, fieldRd, opcode, BitVec.getLsbD_extractLsb', BitVec.getLsbD_append]
  interval_cases i <;> simp

theorem encS_fields (w : Word) : encS (immS w) (fieldRs2 w) (fieldRs1 w) (funct3 w) (opcode w) = w := by
  apply BitVec.eq_of_getLsbD_eq
  intro i hi
  simp only [encS, encR, immS, fieldRs2, fieldRs1, funct3, opcode, BitVec.getLsbD_extractLsb', BitVec.getLsbD_append]
  interval_cases i <;> simp

theorem encB_fields (w : Word) : encB (immB w) (fieldRs2 w) (fieldRs1 w) (funct3 w) (opcode w) = w := by
  apply BitVec.eq_of_getLsbD_eq
  intro i hi
  simp only [encB, encR, immB, fieldRs2, fieldRs1, funct3, opcode, BitVec.getLsbD_extractLsb', BitVec.getLsbD_append]
  interval_cases i <;> simp

theorem encJ_fields (w : Word) : encJ (immJ w) (fieldRd w) (opcode w) = w := by
  apply BitVec.eq_of_getLsbD_eq
  intro i hi
  simp only [encJ, encU, immJ, fieldRd, opcode, BitVec.getLsbD_extractLsb', BitVec.getLsbD_append]
  interval_cases i <;> simp

theorem evenOffset_immB (w : Word) : evenOffset (immB w) = true := by
  simp only [evenOffset, immB, BitVec.getLsbD_append]
  simp

theorem evenOffset_immJ (w : Word) : evenOffset (immJ w) = true := by
  simp only [evenOffset, immJ, BitVec.getLsbD_append]
  simp

/-- An AMO word's seven upper bits are its three fields. -/
theorem funct7_amo (w : Word) : funct5 w ++ BitVec.ofBool (fieldAq w) ++ BitVec.ofBool (fieldRl w) = funct7 w := by
  apply BitVec.eq_of_getLsbD_eq
  intro i hi
  simp only [funct5, fieldAq, fieldRl, funct7, BitVec.getLsbD_extractLsb', BitVec.getLsbD_append]
  interval_cases i <;> simp

/-- A MISC-MEM word's immediate is its three fields. -/
theorem immI_fence (w : Word) : w.extractLsb' 28 4 ++ w.extractLsb' 24 4 ++ w.extractLsb' 20 4 = immI w := by
  apply BitVec.eq_of_getLsbD_eq
  intro i hi
  simp only [immI, BitVec.getLsbD_extractLsb', BitVec.getLsbD_append]
  interval_cases i <;> simp

/-- The bytes of a word in memory order, put together again (20_memory.md R75). -/
theorem bytes_of_word (w : Word) :
    w.extractLsb' 24 8 ++ w.extractLsb' 16 8 ++ w.extractLsb' 8 8 ++ w.extractLsb' 0 8 = w := by
  apply BitVec.eq_of_getLsbD_eq
  intro i hi
  simp only [BitVec.getLsbD_extractLsb', BitVec.getLsbD_append]
  interval_cases i <;> simp

/-! ## The major opcode selects the decoder of its row (30_encoding.md R165) -/

theorem decode_load (w : Word) (h : opcode w = 0x03#7) : decode w = decodeLoad w := by
  simp [decode, h]

theorem decode_miscMem (w : Word) (h : opcode w = 0x0F#7) : decode w = decodeMiscMem w := by
  simp [decode, h]

theorem decode_opImm (w : Word) (h : opcode w = 0x13#7) : decode w = decodeOpImm w := by
  simp [decode, h]

theorem decode_auipc (w : Word) (h : opcode w = 0x17#7) : decode w = .instr (.auipc (regOf (fieldRd w)) (immU w)) := by
  simp [decode, h]

theorem decode_store (w : Word) (h : opcode w = 0x23#7) : decode w = decodeStore w := by
  simp [decode, h]

theorem decode_amo (w : Word) (h : opcode w = 0x2F#7) : decode w = decodeAmo w := by
  simp [decode, h]

theorem decode_op (w : Word) (h : opcode w = 0x33#7) : decode w = decodeOp w := by
  simp [decode, h]

theorem decode_lui (w : Word) (h : opcode w = 0x37#7) : decode w = .instr (.lui (regOf (fieldRd w)) (immU w)) := by
  simp [decode, h]

theorem decode_branch (w : Word) (h : opcode w = 0x63#7) : decode w = decodeBranch w := by
  simp [decode, h]

theorem decode_jalr (w : Word) (h : opcode w = 0x67#7) : decode w = decodeJalr w := by
  simp [decode, h]

theorem decode_jal (w : Word) (h : opcode w = 0x6F#7) : decode w = .instr (.jal (regOf (fieldRd w)) (immJ w)) := by
  simp [decode, h]

theorem decode_system (w : Word) (h : opcode w = 0x73#7) : decode w = decodeSystem w := by
  simp [decode, h]

/-! ## A word put together again from its fields -/

theorem encR_of {w : Word} {f7 : BitVec 7} {f3 : BitVec 3} {op : BitVec 7} (h7 : funct7 w = f7) (h3 : funct3 w = f3)
    (ho : opcode w = op) : encR f7 (fieldRs2 w) (fieldRs1 w) f3 (fieldRd w) op = w := by
  subst h7 h3 ho
  exact encR_fields w

theorem encI_of {w : Word} {f3 : BitVec 3} {op : BitVec 7} (h3 : funct3 w = f3) (ho : opcode w = op) :
    encI (immI w) (fieldRs1 w) f3 (fieldRd w) op = w := by
  subst h3 ho
  exact encI_fields w

theorem encS_of {w : Word} {f3 : BitVec 3} {op : BitVec 7} (h3 : funct3 w = f3) (ho : opcode w = op) :
    encS (immS w) (fieldRs2 w) (fieldRs1 w) f3 op = w := by
  subst h3 ho
  exact encS_fields w

theorem encB_of {w : Word} {f3 : BitVec 3} {op : BitVec 7} (h3 : funct3 w = f3) (ho : opcode w = op) :
    encB (immB w) (fieldRs2 w) (fieldRs1 w) f3 op = w := by
  subst h3 ho
  exact encB_fields w

/-- The bytes of a word, in memory order, decode to what the word decodes to. -/
theorem decodeBytes_word (w : Word) (rest : List Byte) :
    decodeBytes (w.extractLsb' 0 8 :: w.extractLsb' 8 8 :: w.extractLsb' 16 8 :: w.extractLsb' 24 8 :: rest) =
      .word (decode w) rest := by
  simp only [decodeBytes, bytes_of_word]

end Sys2Proof
end

