-- ==== Sys2Proof/Laws/Translate.lean ====
section
/-! SUPPORT. The laws of the TLBs, of translation and of the memory primitives: one lemma for each that says everything it can do. -/

namespace Sys2Proof.Machine

/-! ## TLBs (20_memory.md R100-R104) -/

/-- Bit 31 of a TLB key is clear (R100). -/
theorem vpiOf_bit31 (satp v : Word) : (vpiOf satp v).getLsbD 31 = false := by
  simp [vpiOf]

theorem vpiOf_lt (satp v : Word) : (vpiOf satp v).toNat < 2 ^ 31 := by
  have h := vpiOf_bit31 satp v
  have h2 := (vpiOf satp v).isLt
  rw [BitVec.getLsbD, Nat.testBit, Nat.shiftRight_eq_div_pow] at h
  simp only [Nat.one_and_eq_mod_two, bne_eq_false_iff_eq] at h
  omega

theorem length_foldl_set {α : Type} (l : List Nat) (t : List α) (v : α) : (l.foldl (fun u k => u.set k v) t).length = t.length := by
  induction l generalizing t with
  | nil => rfl
  | cons k l ih => simp [ih]

theorem mem_foldl_set {α : Type} (l : List Nat) (t : List α) (v e : α) (h : e ∈ l.foldl (fun u k => u.set k v) t) : e ∈ t ∨ e = v := by
  induction l generalizing t with
  | nil => exact .inl h
  | cons k l ih =>
    rcases ih _ h with h | h
    · exact List.mem_or_eq_of_mem_set h
    · exact .inr h

/-- The slots emptied by the replacement, and the others (R104). -/
theorem getD_foldl_set {α : Type} (l : List Nat) (t : List α) (v d : α) (j : Nat) (hj : j < t.length) :
    (l.foldl (fun u k => u.set k v) t).getD j d = if j ∈ l then v else t.getD j d := by
  induction l generalizing t with
  | nil => simp
  | cons k l ih =>
    rw [List.foldl_cons, ih _ (by simpa using hj)]
    by_cases h1 : j ∈ l
    · simp [h1]
    · by_cases h2 : j = k
      · subst h2
        simp [h1, hj]
      · simp [h1, h2, List.getElem?_set_ne (Ne.symm h2)]

theorem wf_tlbEmpty (c : Config) : (Tlb.empty c).wf c := by
  refine ⟨by simp [Tlb.empty], fun e he => .inl ?_⟩
  exact (List.mem_replicate.1 he).2

theorem wf_tlbSet (c : Config) (t : Tlb) (k : Nat) (e : DWord) (h : t.wf c) (he : e = tlbSentinel ∨ e.getLsbD 63 = false) :
    Tlb.wf c (t.set k e) := by
  refine ⟨by simpa using h.1, fun x hx => ?_⟩
  rcases List.mem_or_eq_of_mem_set hx with hx | rfl
  · exact h.2 x hx
  · exact he

/-- A TLB store keeps the TLB's shape (R104). -/
theorem wf_tlbStore (c : Config) (t : Tlb) (vpi pte : Word) (h : t.wf c) (hv : vpi.getLsbD 31 = false) :
    Tlb.wf c (tlbStore c t vpi pte) := by
  have he : tlbEntry vpi pte = tlbSentinel ∨ (tlbEntry vpi pte).getLsbD 63 = false := by
    right
    rw [tlbEntry, BitVec.getLsbD_append]
    exact hv
  unfold tlbStore
  split
  · exact wf_tlbSet c t _ _ h he
  · apply wf_tlbSet c _ _ _ _ he
    refine ⟨by rw [length_foldl_set]; exact h.1, fun x hx => ?_⟩
    rcases mem_foldl_set _ _ _ _ hx with hx | rfl
    · exact h.2 x hx
    · exact .inl rfl

/-! ## Translation (20_memory.md R112-R122) -/

/-- A pointer is followed only from level 1 (R114). -/
theorem readPte_zero (c : Config) (m : List Host.Cell) (v table lower : Word) : readPte c m v 0 table ≠ .pointer lower := by
  unfold readPte
  repeat' split
  all_goals simp_all

/-- A walk ends at level 1 or 0. -/
theorem walk_level (c : Config) (m : List Host.Cell) (v a : Word) (level : Nat) (pte : Word)
    (h : walk c m v 1 a = some (level, pte)) : level = 0 ∨ level = 1 := by
  simp only [walk] at h
  repeat' split at h
  all_goals simp_all

/-- Without a walk a translation changes nothing, and what it raises is the page fault of its access type with the virtual address. -/
theorem tlbTranslate_frame {t : AccessType} {v : Word} {s : State} {a : Access Word} (h : tlbTranslate t v s = some a) :
    (∃ p, a = .ok p s) ∨ a = .exc { cause := t.pageFault, info := some v } s := by
  unfold tlbTranslate at h
  split at h
  · cases h
    exact .inl ⟨_, rfl⟩
  · simp only [Option.map_eq_some_iff] at h
    obtain ⟨pte, -, rfl⟩ := h
    split
    · exact .inl ⟨_, rfl⟩
    · exact .inr rfl

/-- After a walk a translation changes the stream's TLB, or nothing, and then raises the page fault (R113). -/
theorem leafTranslate_frame (t : AccessType) (v : Word) (level : Nat) (pte : Word) (s : State) :
    (∃ k, leafTranslate t v level pte s = .ok (walkAddress level pte v) (s.setTlb t.stream k) ∧
      ((s.tlb t.stream).wf s.cfg → Tlb.wf s.cfg k)) ∨
      leafTranslate t v level pte s = .exc { cause := t.pageFault, info := some v } s := by
  unfold leafTranslate
  split
  · exact .inl ⟨_, rfl, fun hk => wf_tlbStore _ _ _ _ hk (vpiOf_bit31 _ _)⟩
  · exact .inr rfl

/-- A failed translation raises the page fault of its access type with the virtual address, and changes nothing (R113, R116). -/
theorem translate_exc {t : AccessType} {v : Word} {s s1 : State} {e : Exc} (h : translateVa t v s = .exc e s1) :
    e = { cause := t.pageFault, info := some v } ∧ s1 = s := by
  unfold translateVa at h
  split at h
  · next ha =>
    rcases tlbTranslate_frame ha with ⟨p, rfl⟩ | rfl
    · cases h
    · cases h
      exact ⟨rfl, rfl⟩
  · split at h
    · cases h
      exact ⟨rfl, rfl⟩
    · next level pte _ =>
      rcases leafTranslate_frame t v level pte s with ⟨k, hk, -⟩ | hk
      · rw [hk] at h
        cases h
      · rw [hk] at h
        cases h
        exact ⟨rfl, rfl⟩

/-- A translation that succeeds changes nothing but the stream's TLB, which keeps its shape. -/
theorem translate_ok {t : AccessType} {v p : Word} {s s1 : State} (h : translateVa t v s = .ok p s1) :
    ∃ k, s1 = s.setTlb t.stream k ∧ ((s.tlb t.stream).wf s.cfg → Tlb.wf s.cfg k) := by
  have hid : s = s.setTlb t.stream (s.tlb t.stream) := by cases t <;> rfl
  unfold translateVa at h
  split at h
  · next ha =>
    rcases tlbTranslate_frame ha with ⟨q, rfl⟩ | rfl
    · cases h
      exact ⟨_, hid, id⟩
    · cases h
  · split at h
    · cases h
    · next level pte _ =>
      rcases leafTranslate_frame t v level pte s with ⟨k, hk, hw⟩ | hk
      · rw [hk] at h
        cases h
        exact ⟨k, rfl, hw⟩
      · rw [hk] at h
        cases h

theorem low12_or (a v : Word) (m : Word) (hm : ∀ i, i < 12 → m.getLsbD i = true) :
    ((a &&& 0xFFFFFC00#32) <<< 2 ||| (v &&& m)).toNat % 4096 = v.toNat % 4096 := by
  have e : ∀ w : Word, w.toNat % 4096 = (w.extractLsb' 0 12).toNat := by
    intro w
    simp
  rw [e, e]
  congr 1
  apply BitVec.eq_of_getLsbD_eq
  intro i hi
  simp only [BitVec.getLsbD_extractLsb', hi, decide_true, Bool.true_and, Nat.zero_add, BitVec.getLsbD_or, BitVec.getLsbD_and,
    hm i hi, Bool.and_true, BitVec.getLsbD_shiftLeft]
  have : (decide (i < 32) && !decide (i < 2) && (a.getLsbD (i - 2) && (0xFFFFFC00#32).getLsbD (i - 2))) = false := by
    interval_cases i <;> simp
  rw [this, Bool.false_or]

/-- A translation keeps the page offset (R121, R122). -/
theorem translate_offset {t : AccessType} {v p : Word} {s s1 : State} (h : translateVa t v s = .ok p s1) :
    p.toNat % 4096 = v.toNat % 4096 := by
  unfold translateVa at h
  split at h
  · next a ha =>
    subst h
    unfold tlbTranslate at ha
    split at ha
    · cases ha
      rfl
    · simp only [Option.map_eq_some_iff] at ha
      obtain ⟨pte, -, ha⟩ := ha
      split at ha
      · cases ha
        exact low12_or _ _ _ (by intro i hi; interval_cases i <;> rfl)
      · cases ha
  · split at h
    · cases h
    · next level pte hw =>
      unfold leafTranslate at h
      split at h
      · cases h
        rcases walk_level _ _ _ _ _ _ hw with rfl | rfl
        · exact low12_or _ _ _ (by intro i hi; interval_cases i <;> rfl)
        · exact low12_or _ _ _ (by intro i hi; interval_cases i <;> rfl)
      · cases h

/-! ## The checks before an access (20_memory.md R130-R132) -/

theorem misaligned_iff (va : Word) (n : Nat) (hn : n ∈ [1, 2, 4]) : misaligned va n = true ↔ va.toNat % n ≠ 0 := by
  simp only [List.mem_cons, List.not_mem_nil, or_false] at hn
  have e : va.extractLsb' 0 2 = 0#2 ↔ va.toNat % 4 = 0 := by
    constructor
    · intro h
      simpa using congrArg BitVec.toNat h
    · intro h
      exact BitVec.eq_of_toNat_eq (by simpa using h)
  rcases hn with rfl | rfl | rfl
  · simp [misaligned, Nat.mod_one]
  · simp only [misaligned, decide_true, Bool.true_and, BitVec.getLsbD, Nat.testBit, Nat.shiftRight_zero, Nat.one_and_eq_mod_two,
      show decide ((2 : Nat) = 4) = false from rfl, Bool.false_and, Bool.or_false, bne_iff_ne]
  · simp [misaligned, e]

/-- Misaligned: that exception, and nothing else. -/
theorem physicalAddress_misaligned (t : AccessType) (va : Word) (n : Nat) (s : State) (hn : n ∈ [1, 2, 4]) (h : va.toNat % n ≠ 0) :
    physicalAddress t va n s = .exc { cause := t.misaligned, info := some va } s := by
  rw [physicalAddress, if_pos ((misaligned_iff va n hn).2 h)]

/-- Aligned: what the translation and the range test answer. -/
theorem physicalAddress_aligned (t : AccessType) (va : Word) (n : Nat) (s : State) (hn : n ∈ [1, 2, 4]) (h : va.toNat % n = 0) :
    physicalAddress t va n s =
      match translateVa t va s with
      | .exc e s1 => .exc e s1
      | .ok p s1 => if p.toNat + n ≤ s.cfg.memSize then .ok p s1 else .exc { cause := t.accessFault, info := some va } s1 := by
  have hm : ¬ misaligned va n = true := fun hm => (misaligned_iff va n hn).1 hm h
  rw [physicalAddress, if_neg hm]
  cases ht : translateVa t va s with
  | exc e s1 => rfl
  | ok p s1 =>
    obtain ⟨k, rfl, -⟩ := translate_ok ht
    simp [checkRange, inRange]

theorem aligned_physical {t : AccessType} {va p : Word} {s s1 : State} {n : Nat} (hn : n ∈ [1, 2, 4]) (h : va.toNat % n = 0)
    (ht : translateVa t va s = .ok p s1) : p.toNat % n = 0 := by
  have := translate_offset ht
  simp only [List.mem_cons, List.not_mem_nil, or_false] at hn
  rcases hn with rfl | rfl | rfl <;> omega

theorem streamByte_setTlb (st st2 : Stream) (s : State) (k : Tlb) : streamByte st (s.setTlb st2 k) = streamByte st s := by
  cases st <;> cases st2 <;> rfl

/-- `MemRead` of an aligned, translated address in range (R131). -/
theorem memRead_ok {va p : Word} {s s1 : State} {n : Nat} (hc : s.cfg.wf = true) (hk : (s.cache .data).wf s.cfg)
    (hn : n ∈ [1, 2, 4]) (h : va.toNat % n = 0) (ht : translateVa .load va s = .ok p s1) (hr : p.toNat + n ≤ s.cfg.memSize) :
    ∃ t, memRead va n s = .ok (leWord (viewBytes s p.toNat n)) t ∧ Refilled .data s1 t p.toNat := by
  rw [memRead, physicalAddress_aligned _ _ _ _ hn h]
  have ha := aligned_physical hn h ht
  obtain ⟨k, rfl, -⟩ := translate_ok ht
  obtain ⟨t, h1, h2⟩ := cachedRead_spec .data (s.setTlb .data k) p.toNat n hc hk hn ha hr
  simp only [ht, if_pos hr, readAt, AccessType.stream, h1, streamByte_setTlb, viewBytes_eq, viewByte_stream]
  exact ⟨t, rfl, h2⟩

/-- `Fetch` of an aligned, translated address in range (R130). -/
theorem fetch_ok {va p : Word} {s s1 : State} (hc : s.cfg.wf = true) (hk : (s.cache .instruction).wf s.cfg)
    (h : va.toNat % 4 = 0) (ht : translateVa .fetch va s = .ok p s1) (hr : p.toNat + 4 ≤ s.cfg.memSize) :
    ∃ t, fetchWord va s = .ok (leWord (bytesFrom (fetchByte s) p.toNat 4)) t ∧ Refilled .instruction s1 t p.toNat := by
  rw [fetchWord, physicalAddress_aligned _ _ _ _ (by simp) h]
  have ha := aligned_physical (n := 4) (by simp) h ht
  obtain ⟨k, rfl, -⟩ := translate_ok ht
  obtain ⟨t, h1, h2⟩ := cachedRead_spec .instruction (s.setTlb .instruction k) p.toNat 4 hc hk (by simp) ha hr
  simp only [ht, if_pos hr, readAt, AccessType.stream, h1, streamByte_setTlb, fetchByte_stream]
  exact ⟨t, rfl, h2⟩

/-- `MemWrite` to an aligned, translated address in range (R132). -/
theorem memWrite_ok {va p v : Word} {s s1 : State} {n : Nat} (hc : s.cfg.wf = true) (hk : (s.cache .data).wf s.cfg)
    (hn : n ∈ [1, 2, 4]) (h : va.toNat % n = 0) (ht : translateVa .store va s = .ok p s1) (hr : p.toNat + n ≤ s.cfg.memSize) :
    ∃ t, memWrite va n v s = .ok () (killReservations t p) ∧ Stored s1 t p.toNat (leBytes n v) := by
  rw [memWrite, physicalAddress_aligned _ _ _ _ hn h]
  have ha := aligned_physical hn h ht
  obtain ⟨k, rfl, -⟩ := translate_ok ht
  obtain ⟨t, h1, h2⟩ := cachedWrite_spec (s.setTlb .data k) p.toNat n (leBytes n v) hc hk hn (length_leBytes n v) ha hr
  simp only [ht, if_pos hr, writeAt, AccessType.stream, h1]
  exact ⟨t, rfl, h2⟩

/-! ## Hits (20_memory.md R83, R84): no event on `Mem`, nothing but the line itself changes -/

theorem dataHit_find {s : State} {p : Nat} (h : DataHit s p) : ∃ l, (s.cache .data).find (lineNumber s.cfg p) = some l := by
  obtain ⟨-, l, hl, ht⟩ := h
  cases hf : (s.cache .data).find (lineNumber s.cfg p) with
  | some m => exact ⟨m, rfl⟩
  | none => exact absurd ht ((find_none _ _).1 hf l hl)

/-- A load that hits changes no line, no byte of `Mem`, and takes no free value. -/
theorem memRead_hit {va p v : Word} {s s1 t : State} {n : Nat} (hn : n ∈ [1, 2, 4]) (ha : va.toNat % n = 0)
    (ht : translateVa .load va s = .ok p s1) (hh : DataHit s p.toNat) (h : memRead va n s = .ok v t) : t = s1 := by
  obtain ⟨l, hf⟩ := dataHit_find hh
  rw [memRead, physicalAddress_aligned _ _ _ _ hn ha, ht] at h
  obtain ⟨k, rfl, -⟩ := translate_ok ht
  have hl : cacheLoad s.cfg s.hart.dcache p.toNat n ≠ none := fun e => by
    rw [cacheLoad_miss] at e
    exact absurd (hf.symm.trans e) (by simp)
  by_cases hr : p.toNat + n ≤ s.cfg.memSize
  · simp only [if_pos hr] at h
    obtain ⟨bs, hbs⟩ := Option.ne_none_iff_exists'.1 hl
    have : cachedRead .data p.toNat n (s.setTlb .data k) = some (bs, s.setTlb .data k) := by
      rw [cachedRead, if_pos (show (s.setTlb .data k).cfg.cacheEnable = true from hh.1),
        show cacheLoad (s.setTlb .data k).cfg ((s.setTlb .data k).cache .data) p.toNat n = some bs from hbs]
    simp only [readAt, AccessType.stream, this] at h
    cases h
    rfl
  · simp only [if_neg hr] at h
    cases h

/-- A store that hits changes its line and nothing else of the D-cache, no byte of `Mem`, and takes no free value. -/
theorem memWrite_hit {va p v : Word} {s s1 t : State} {n : Nat} (hn : n ∈ [1, 2, 4]) (ha : va.toNat % n = 0)
    (ht : translateVa .store va s = .ok p s1) (hh : DataHit s p.toNat) (h : memWrite va n v s = .ok () t) :
    t = killReservations (s1.setCache .data ((s.cache .data).map (fun l =>
      if l.tag = lineNumber s.cfg p.toNat then l.store (lineOffset s.cfg p.toNat) (leBytes n v) else l))) p := by
  obtain ⟨l, hf⟩ := dataHit_find hh
  rw [memWrite, physicalAddress_aligned _ _ _ _ hn ha, ht] at h
  obtain ⟨k, rfl, -⟩ := translate_ok ht
  by_cases hr : p.toNat + n ≤ s.cfg.memSize
  · simp only [if_pos hr] at h
    have : cachedWrite p.toNat (leBytes n v) (s.setTlb .data k) =
        some ((s.setTlb .data k).setCache .data ((s.cache .data).map (fun l =>
          if l.tag = lineNumber s.cfg p.toNat then l.store (lineOffset s.cfg p.toNat) (leBytes n v) else l))) := by
      rw [cachedWrite, if_pos (show (s.setTlb .data k).cfg.cacheEnable = true from hh.1), cacheStore,
        if_pos (by
          show ((s.cache .data).find (lineNumber s.cfg p.toNat)).isSome = true
          rw [hf]
          rfl)]
      rfl
    simp only [writeAt, AccessType.stream, this] at h
    cases h
    rfl
  · simp only [if_neg hr] at h
    cases h

/-! ## Frames of the memory primitives, in every state -/

/-- The state a memory primitive leaves, whether it answers a value or an exception. -/
def Access.state {α : Type} : Access α → State
  | .ok _ s => s
  | .exc _ s => s

/-- Nothing but `Mem`, the free-value counter, and a stream's cache and TLB changed. -/
def StreamFrame (st : Stream) (s t : State) : Prop :=
  t = { ((s.setMem t.mem).setCache st (t.cache st)).setTlb st (t.tlb st) with draws := t.draws }

theorem streamFrame_refl (st : Stream) (s : State) : StreamFrame st s s := by cases st <;> rfl

theorem refill_frame {st : Stream} {n : Nat} {s t : State} (h : refill st n s = some t) : StreamFrame st s t := by
  unfold refill at h
  simp only at h
  repeat' split at h
  all_goals first
    | (injection h with h; subst h; cases st <;> rfl)
    | cases h

theorem cachedRead_frame {st : Stream} {p n : Nat} {s t : State} {bs : List Byte} (h : cachedRead st p n s = some (bs, t)) :
    StreamFrame st s t := by
  unfold cachedRead at h
  split at h
  · split at h
    · cases h
      exact streamFrame_refl st s
    · simp only [Option.bind_eq_some_iff, Option.map_eq_some_iff, Prod.mk.injEq] at h
      obtain ⟨u, h1, _, -, -, rfl⟩ := h
      exact refill_frame h1
  · simp only [Option.map_eq_some_iff, Prod.mk.injEq] at h
    obtain ⟨_, -, -, rfl⟩ := h
    exact streamFrame_refl st s

theorem cachedWrite_frame {p : Nat} {bs : List Byte} {s t : State} (h : cachedWrite p bs s = some t) : StreamFrame .data s t := by
  unfold cachedWrite at h
  split at h
  · split at h
    · cases h
      rfl
    · simp only [Option.bind_eq_some_iff, Option.map_eq_some_iff] at h
      obtain ⟨u, h1, k, -, rfl⟩ := h
      have := refill_frame h1
      unfold StreamFrame at this ⊢
      rw [this]
      rfl
  · split at h
    · cases h
      rfl
    · cases h

theorem translate_frame (t : AccessType) (v : Word) (s : State) :
    (translateVa t v s).state = s.setTlb t.stream ((translateVa t v s).state.tlb t.stream) := by
  cases h : translateVa t v s with
  | exc e s1 =>
    obtain ⟨-, rfl⟩ := translate_exc h
    cases t <;> rfl
  | ok p s1 =>
    obtain ⟨k, rfl, -⟩ := translate_ok h
    cases t <;> rfl

/-- The checks before an access change at most the stream's TLB. -/
theorem physicalAddress_frame (t : AccessType) (va : Word) (n : Nat) (s : State) :
    (physicalAddress t va n s).state = s.setTlb t.stream ((physicalAddress t va n s).state.tlb t.stream) := by
  have h := translate_frame t va s
  unfold physicalAddress
  split
  · cases t <;> rfl
  · cases ht : translateVa t va s with
    | exc e s1 =>
      rw [ht] at h
      exact h
    | ok p s1 =>
      rw [ht] at h
      unfold checkRange
      simp only
      split <;> exact h

/-- A change of a stream's TLB followed by one within the stream's frame. -/
theorem streamFrame_setTlb {st : Stream} {s s1 t : State} (h1 : s1 = s.setTlb st (s1.tlb st)) (h2 : StreamFrame st s1 t) :
    StreamFrame st s t := by
  unfold StreamFrame at h2 ⊢
  rw [h2]
  generalize s1.tlb st = k at h1
  subst h1
  cases st <;> rfl

theorem streamFrame_of_setTlb {st : Stream} {s s1 : State} (h1 : s1 = s.setTlb st (s1.tlb st)) : StreamFrame st s s1 :=
  streamFrame_setTlb h1 (streamFrame_refl st s1)

/-- The access of a fetch or a load changes at most `Mem` (a victim written back), the stream's cache and the free-value counter. -/
theorem readAt_frame (t : AccessType) (va : Word) (n : Nat) (p : Word) (s : State) : StreamFrame t.stream s (readAt t va n p s).state := by
  unfold readAt
  split
  · next h => exact cachedRead_frame h
  · exact streamFrame_refl _ s

/-- The access of a store changes at most `Mem`, the D-cache and the free-value counter. -/
theorem writeAt_frame (va : Word) (n : Nat) (v p : Word) (s : State) : StreamFrame .data s (writeAt va n v p s).state := by
  unfold writeAt
  split
  · next h => exact cachedWrite_frame h
  · exact streamFrame_refl _ s

/-- `MemRead` changes at most `Mem`, the D-cache, the D-TLB and the free-value counter. -/
theorem memRead_frame (va : Word) (n : Nat) (s : State) : StreamFrame .data s (memRead va n s).state := by
  have h := physicalAddress_frame .load va n s
  unfold memRead
  cases hp : physicalAddress .load va n s with
  | exc e s1 =>
    rw [hp] at h
    exact streamFrame_of_setTlb h
  | ok p s1 =>
    rw [hp] at h
    exact streamFrame_setTlb h (readAt_frame .load va n p s1)

/-- `Fetch` changes at most `Mem`, the I-cache, the I-TLB and the free-value counter. -/
theorem fetchWord_frame (va : Word) (s : State) : StreamFrame .instruction s (fetchWord va s).state := by
  have h := physicalAddress_frame .fetch va 4 s
  unfold fetchWord
  cases hp : physicalAddress .fetch va 4 s with
  | exc e s1 =>
    rw [hp] at h
    exact streamFrame_of_setTlb h
  | ok p s1 =>
    rw [hp] at h
    exact streamFrame_setTlb h (readAt_frame .fetch va 4 p s1)

/-- The reservations put back after a change within the stream's frame. -/
theorem StreamFrame.res {s t : State} (h : StreamFrame .data s t) : StreamFrame .data s (t.setRes s.res) := by
  unfold StreamFrame at h ⊢
  rw [h]
  rfl

/-- `MemWrite` changes at most `Mem`, the D-cache, the D-TLB, the free-value counter and the reservations. -/
theorem memWrite_frame (va : Word) (n : Nat) (v : Word) (s : State) :
    StreamFrame .data s ((memWrite va n v s).state.setRes s.res) := by
  have h := physicalAddress_frame .store va n s
  unfold memWrite
  cases hp : physicalAddress .store va n s with
  | exc e s1 =>
    rw [hp] at h
    exact (streamFrame_of_setTlb h).res
  | ok p s1 =>
    rw [hp] at h
    have h2 := (streamFrame_setTlb h (writeAt_frame va n v p s1)).res
    simp only
    cases hc : writeAt va n v p s1 with
    | exc e s2 =>
      rw [hc] at h2
      exact h2
    | ok _ s2 =>
      rw [hc] at h2
      exact h2

end Sys2Proof.Machine
end

