-- ==== Sys2Proof/Laws/Trap.lean ====
section
/-! SUPPORT. What taking a trap does: the state presented to the Host; the whole effect with a Host that does nothing; and what no
Host act at a port can change. -/

namespace Sys2Proof.Machine

/-! ## The state presented to the Host -/

/-- An exception with a value for `MTVAL` (60_exceptions.md R310, R315). -/
theorem raise_some (c : Cause) (v : Word) (site : Site) (s : State) :
    raise { cause := c, info := some v } site s = present site (trapSaved s c.code v s.draws) := rfl

/-- An exception without a value for `MTVAL`: a free value is there. -/
theorem raise_none (c : Cause) (site : Site) (s : State) :
    raise { cause := c, info := none } site s = present site (trapSaved s c.code (Config.freeWord s.draws) (s.draws + 1)) := rfl

/-- An interrupt: a free value in `MTVAL`. -/
theorem interrupt_eq (r : Word) (site : Site) (s : State) :
    interrupt r site s = present site (trapSaved s r (Config.freeWord s.draws) (s.draws + 1)) := rfl

/-! ## A Host that does nothing -/

/-- A Host with no script, or an empty one, finishes at once. -/
theorem present_nil (site : Site) (s : State) (h : s.replies = []) : present site s = leavePort site s := by
  simp only [present, h, List.headD_nil, List.tail_nil, hostActs, if_true]
  rw [show ({ s with replies := [] } : State) = s by rw [← h]]

theorem leavePort_trapSaved (site : Site) (s : State) (code info : Word) (n : Nat) :
    leavePort site (trapSaved s code info n) = trapSaved s code info n := by
  unfold leavePort
  split
  · rfl
  · rfl

/-- The whole effect of a trap with a Host that does nothing: the trap CSRs. -/
theorem present_trapSaved (site : Site) (s : State) (code info : Word) (n : Nat) (h : s.replies = []) :
    present site (trapSaved s code info n) = trapSaved s code info n := by
  rw [present_nil _ _ (by exact h), leavePort_trapSaved]

/-- An exception with a Host that does nothing. -/
theorem raise_quiet (e : Exc) (site : Site) (s : State) (h : s.replies = []) :
    ∃ v n, raise e site s = trapSaved s e.cause.code v n ∧ n ≤ s.draws + 1 ∧ ∀ info, e.info = some info → v = info := by
  obtain ⟨c, info⟩ := e
  cases info with
  | none =>
    exact ⟨_, _, (raise_none c site s).trans (present_trapSaved site s _ _ _ h), Nat.le_refl _, by simp⟩
  | some v =>
    exact ⟨_, _, (raise_some c v site s).trans (present_trapSaved site s _ _ _ h), by omega, by simp⟩

/-- An interrupt with a Host that does nothing. -/
theorem interrupt_quiet (r : Word) (site : Site) (s : State) (h : s.replies = []) :
    interrupt r site s = trapSaved s r (Config.freeWord s.draws) (s.draws + 1) :=
  (interrupt_eq r site s).trans (present_trapSaved site s _ _ _ h)

section Fields
variable (s : State) (code info : Word) (n : Nat)

@[simp] theorem trapSaved_cfg : (trapSaved s code info n).cfg = s.cfg := rfl
@[simp] theorem trapSaved_parked : (trapSaved s code info n).parked = s.parked := rfl
@[simp] theorem trapSaved_mem : (trapSaved s code info n).mem = s.mem := rfl
@[simp] theorem trapSaved_res : (trapSaved s code info n).res = s.res := rfl
@[simp] theorem trapSaved_grid : (trapSaved s code info n).grid = s.grid := rfl
@[simp] theorem trapSaved_agenda : (trapSaved s code info n).agenda = s.agenda := rfl
@[simp] theorem trapSaved_replies : (trapSaved s code info n).replies = s.replies := rfl
@[simp] theorem trapSaved_sysResponse : (trapSaved s code info n).sysResponse = s.sysResponse := rfl
@[simp] theorem trapSaved_draws : (trapSaved s code info n).draws = n := rfl
@[simp] theorem trapSaved_hart : (trapSaved s code info n).hart =
    { s.hart with csr := { s.hart.csr with mcause := code, mepc := s.hart.pc, mtval := info } } := rfl

end Fields

theorem trapsOnly_trapSaved (s : State) (code info : Word) (n : Nat) : TrapsOnly s (trapSaved s code info n) code := rfl

/-! ## What no Host act can change -/

/-- One Host act keeps the configuration, the other harts, the hart's id, port, caches and TLBs, and the inputs (60_exceptions.md R312:
the Host does not touch caches, TLBs or another hart). -/
theorem hostAct_frame (a : HostAct) (s t : State) (h : hostAct a s = some t) :
    t.cfg = s.cfg ∧ t.parked = s.parked ∧ t.hart.id = s.hart.id ∧ t.hart.port = s.hart.port ∧ t.agenda = s.agenda ∧
      t.replies = s.replies ∧ t.draws = s.draws ∧ t.sysResponse = s.sysResponse ∧ t.hart.icache = s.hart.icache ∧
      t.hart.dcache = s.hart.dcache ∧ t.hart.itlb = s.hart.itlb ∧ t.hart.dtlb = s.hart.dtlb ∧ t.hart.pollctr = s.hart.pollctr ∧
      t.hart.response = s.hart.response := by
  cases a <;> simp only [hostAct, Option.some.injEq, reduceCtorEq] at h <;> subst h
  case setX r v => unfold State.writeX; split <;> simp
  case setPending o c => split <;> simp
  all_goals simp [State.writeF, State.writeCsr, clearReservation, setReservation]

/-- The Host's acts at a port keep what one act keeps. -/
theorem hostActs_frame (l : List HostAct) (s : State) :
    (hostActs l s).2.cfg = s.cfg ∧ (hostActs l s).2.parked = s.parked ∧ (hostActs l s).2.hart.id = s.hart.id ∧
      (hostActs l s).2.hart.port = s.hart.port ∧ (hostActs l s).2.agenda = s.agenda ∧ (hostActs l s).2.replies = s.replies ∧
      (hostActs l s).2.draws = s.draws ∧ (hostActs l s).2.sysResponse = s.sysResponse ∧
      (hostActs l s).2.hart.icache = s.hart.icache ∧ (hostActs l s).2.hart.dcache = s.hart.dcache ∧
      (hostActs l s).2.hart.itlb = s.hart.itlb ∧ (hostActs l s).2.hart.dtlb = s.hart.dtlb ∧
      (hostActs l s).2.hart.pollctr = s.hart.pollctr ∧ (hostActs l s).2.hart.response = s.hart.response := by
  induction l generalizing s with
  | nil => simp [hostActs]
  | cons a as ih =>
    simp only [hostActs]
    split
    · next t h =>
      have h1 := hostAct_frame a s t h
      have h2 := ih t
      grind
    · simp

/-- A Host act that has to wait is the first of what is left. -/
theorem hostActs_rest (l : List HostAct) (s : State) (a : HostAct) (as : List HostAct) (h : (hostActs l s).1 = a :: as) :
    ∀ t, hostAct a t = none := by
  induction l generalizing s with
  | nil => simp [hostActs] at h
  | cons b bs ih =>
    simp only [hostActs] at h
    split at h
    · exact ih _ h
    · next hn =>
      obtain ⟨rfl, rfl⟩ := List.cons.inj h
      intro t
      cases b <;> simp_all [hostAct]

/-- One Host act begins and ends no task of the hart (60_exceptions.md R312). -/
theorem hostAct_task (a : HostAct) (s t : State) (h : hostAct a s = some t) : t.hart.task = s.hart.task := by
  cases a <;> simp only [hostAct, Option.some.injEq, reduceCtorEq] at h <;> subst h
  case setX r v => unfold State.writeX; split <;> simp
  case setPending o c => split <;> simp
  all_goals simp [State.writeF, State.writeCsr, clearReservation, setReservation]

/-- The Host's acts at a port begin and end no task. -/
theorem hostActs_task (l : List HostAct) (s : State) : (hostActs l s).2.hart.task = s.hart.task := by
  induction l generalizing s with
  | nil => rfl
  | cons a as ih =>
    simp only [hostActs]
    split
    · next t h => exact (ih t).trans (hostAct_task a s t h)
    · rfl

/-- A hart leaves a port with the task it has. -/
@[simp] theorem leavePort_task (site : Site) (s : State) : (leavePort site s).hart.task = s.hart.task := by
  unfold leavePort
  split <;> rfl

/-- The Host's presentation of a hart begins and ends no task. -/
@[simp] theorem present_task (site : Site) (s : State) : (present site s).hart.task = s.hart.task := by
  unfold present
  simp only
  split
  · exact (leavePort_task _ _).trans (hostActs_task _ _)
  · exact hostActs_task _ _

/-- A taken interrupt begins and ends no task. -/
@[simp] theorem deliverExternal_task (src : Nat) (s : State) : (deliverExternal src s).hart.task = s.hart.task := by
  unfold deliverExternal interrupt trap
  exact present_task _ _

theorem leavePort_frame (site : Site) (s : State) : leavePort site s = { s with hart := { s.hart with pc := (leavePort site s).hart.pc } } := by
  unfold leavePort; split <;> rfl

end Sys2Proof.Machine
end

