-- ==== Sys2Proof/Laws/Inv.lean ====
section
/-! SUPPORT. The shared operations keep the invariant. -/

namespace Sys2Proof.Machine

/-- What the invariant looks at, between two states of one configuration. -/
theorem SysInv.update {s t : State} (hI : SysInv s) (hc : t.cfg = s.cfg) (hp : t.parked = s.parked) (hid : t.hart.id = s.hart.id)
    (hh : t.hart.wf s.cfg) (hr : t.res.length = s.res.length) (hm : Memory.wf t.mem = true) (hk : ∀ e ∈ t.mem, e.1 < s.cfg.memSize)
    (hg : Sparse.wf 0#32 t.grid = true) : SysInv t := by
  obtain ⟨h1, -, h3, h4, h5, h6, h7, -, -, -⟩ := hI
  refine ⟨by rw [hc]; exact h1, by rw [hc]; exact hh, by rw [hc, hp]; exact h3, by rw [hp]; exact h4, ?_, by rw [hc, hp]; exact h6,
    by rw [hc, hr]; exact h7, hm, by rw [hc]; exact hk, hg⟩
  rw [hp, hid]
  exact h5

theorem SysInv.cfgWf {s : State} (h : SysInv s) : s.cfg.wf = true := h.1
theorem SysInv.hartWf {s : State} (h : SysInv s) : s.hart.wf s.cfg := h.2.1
theorem SysInv.memWf {s : State} (h : SysInv s) : Memory.wf s.mem = true := h.2.2.2.2.2.2.2.1
theorem SysInv.memKeys {s : State} (h : SysInv s) : ∀ e ∈ s.mem, e.1 < s.cfg.memSize := h.2.2.2.2.2.2.2.2.1
theorem SysInv.gridWf {s : State} (h : SysInv s) : Sparse.wf 0#32 s.grid = true := h.2.2.2.2.2.2.2.2.2
theorem SysInv.resLength {s : State} (h : SysInv s) : s.res.length = s.cfg.hartCount := h.2.2.2.2.2.2.1
theorem SysInv.idLt {s : State} (h : SysInv s) : s.hart.id < s.cfg.hartCount := h.2.1.1
theorem SysInv.cacheWf {s : State} (h : SysInv s) (st : Stream) : (s.cache st).wf s.cfg := by
  cases st
  · exact h.2.1.2.2.1
  · exact h.2.1.2.2.2.1
theorem SysInv.tlbWf {s : State} (h : SysInv s) (st : Stream) : (s.tlb st).wf s.cfg := by
  cases st
  · exact h.2.1.2.2.2.2.2.2.1
  · exact h.2.1.2.2.2.2.2.2.2.1

/-- A change of the acting hart only. -/
theorem SysInv.hart {s : State} (hI : SysInv s) (h : Hart) (hid : h.id = s.hart.id) (hh : h.wf s.cfg) : SysInv (s.setHart h) :=
  hI.update rfl rfl hid hh rfl hI.memWf hI.memKeys hI.gridWf

/-- The fields of a hart that its well-formedness does not look at. -/
theorem Hart.wf_congr {c : Config} {g h : Hart} (hg : g.wf c) (h1 : h.id = g.id) (h2 : h.x = g.x) (h3 : h.icache = g.icache)
    (h4 : h.dcache = g.dcache) (h5 : h.itlb = g.itlb) (h6 : h.dtlb = g.dtlb) (h7 : h.interruptedBy = g.interruptedBy)
    (h8 : h.pollctr = g.pollctr) (h9 : h.csr.other = g.csr.other) (h10 : h.task = g.task) : h.wf c := by
  unfold Hart.wf at hg ⊢
  rw [h1, h2, h3, h4, h5, h6, h7, h8, h9, h10]
  exact hg

theorem SysInv.setPc {s : State} (h : SysInv s) (v : Word) : SysInv (s.setPc v) :=
  h.hart _ rfl (Hart.wf_congr h.hartWf rfl rfl rfl rfl rfl rfl rfl rfl rfl rfl)
theorem SysInv.setJumped {s : State} (h : SysInv s) (b : Bool) : SysInv (s.setJumped b) :=
  h.hart _ rfl (Hart.wf_congr h.hartWf rfl rfl rfl rfl rfl rfl rfl rfl rfl rfl)
theorem SysInv.setLife {s : State} (h : SysInv s) (l : Life) : SysInv (s.setLife l) :=
  h.hart _ rfl (Hart.wf_congr h.hartWf rfl rfl rfl rfl rfl rfl rfl rfl rfl rfl)
theorem SysInv.setTimer {s : State} (h : SysInv s) (t : Timer) : SysInv (s.setTimer t) :=
  h.hart _ rfl (Hart.wf_congr h.hartWf rfl rfl rfl rfl rfl rfl rfl rfl rfl rfl)
theorem SysInv.setPort {s : State} (h : SysInv s) (p : List Activation) : SysInv (s.setPort p) :=
  h.hart _ rfl (Hart.wf_congr h.hartWf rfl rfl rfl rfl rfl rfl rfl rfl rfl rfl)
theorem SysInv.setResponse {s : State} (h : SysInv s) (v : Word) : SysInv (s.setResponse v) :=
  h.hart _ rfl (Hart.wf_congr h.hartWf rfl rfl rfl rfl rfl rfl rfl rfl rfl rfl)
theorem SysInv.setMtval {s : State} (h : SysInv s) (v : Word) : SysInv (s.setMtval v) :=
  h.hart _ rfl (Hart.wf_congr h.hartWf rfl rfl rfl rfl rfl rfl rfl rfl rfl rfl)
theorem SysInv.writeF {s : State} (h : SysInv s) (r : Reg) (v : DWord) : SysInv (s.writeF r v) :=
  h.hart _ rfl (Hart.wf_congr h.hartWf rfl rfl rfl rfl rfl rfl rfl rfl rfl rfl)
theorem SysInv.saveTrap {s : State} (h : SysInv s) (r : Word) : SysInv (saveTrap r s) :=
  h.hart _ rfl (Hart.wf_congr h.hartWf rfl rfl rfl rfl rfl rfl rfl rfl rfl rfl)

theorem SysInv.setTask {s : State} (h : SysInv s) (t : Task) (ht : t.wf s.cfg) : SysInv (s.setTask t) := by
  refine h.hart _ rfl ?_
  obtain ⟨h1, h2, h3, h4, h5, h6, h7, h8, h9, h10, h11, -⟩ := h.hartWf
  exact ⟨h1, h2, h3, h4, h5, h6, h7, h8, h9, h10, h11, ht⟩

theorem SysInv.setPollctr {s : State} (h : SysInv s) (n : Nat) (hn : n < s.cfg.pollInterval) : SysInv (s.setPollctr n) := by
  refine h.hart _ rfl ?_
  obtain ⟨h1, h2, h3, h4, h5, h6, h7, h8, h9, -, h11⟩ := h.hartWf
  exact ⟨h1, h2, h3, h4, h5, h6, h7, h8, h9, hn, h11⟩

theorem SysInv.setPending {s : State} (h : SysInv s) (o : Nat) (c : Word) (ho : o ≤ s.cfg.hartCount) : SysInv (s.setPending o c) := by
  refine h.hart _ rfl ?_
  obtain ⟨h1, h2, h3, h4, h5, h6, h7, h8, -, h10, h11⟩ := h.hartWf
  exact ⟨h1, h2, h3, h4, h5, h6, h7, h8, ho, h10, h11⟩

/-- A register write never reaches cell 0 (10_state.md R21). -/
theorem SysInv.writeX {s : State} (h : SysInv s) (r : Reg) (v : Word) : SysInv (s.writeX r v) := by
  unfold State.writeX
  split
  · exact h
  · next hr =>
    refine h.hart _ rfl ?_
    obtain ⟨h1, h2, h3⟩ := h.hartWf
    refine ⟨h1, ?_, h3⟩
    rw [State.get_set_vector, if_neg (fun e => hr e.symm)]
    exact h2

theorem SysInv.writeCsr {s : State} (h : SysInv s) (a : CsrAddr) (v : Word) : SysInv (s.writeCsr a v) := by
  refine h.hart _ rfl ?_
  obtain ⟨h1, h2, h3, h4, h5, h6, h7, h8, h9, h10, h11, h12⟩ := h.hartWf
  refine ⟨h1, h2, h3, h4, h5, h6, h7, h8, h9, h10, ?_, h12⟩
  show Sparse.wf 0#32 (s.hart.csr.write a v).other = true
  unfold CsrFile.write
  repeat' split
  all_goals first
    | exact h11
    | exact Sparse.wf_set _ _ _ _ h11

theorem SysInv.setTlb {s : State} (h : SysInv s) (st : Stream) (t : Tlb) (ht : t.wf s.cfg) : SysInv (s.setTlb st t) := by
  obtain ⟨h1, h2, h3, h4, h5, h6, h7, h8, h9, h10, h11⟩ := h.hartWf
  cases st
  · exact h.hart _ rfl ⟨h1, h2, h3, h4, h5, h6, ht, h8, h9, h10, h11⟩
  · exact h.hart _ rfl ⟨h1, h2, h3, h4, h5, h6, h7, ht, h9, h10, h11⟩

theorem SysInv.setMem {s : State} (h : SysInv s) (m : List Host.Cell) (hw : Memory.wf m = true) (hk : ∀ e ∈ m, e.1 < s.cfg.memSize) :
    SysInv (s.setMem m) :=
  h.update rfl rfl rfl h.hartWf rfl hw hk h.gridWf

theorem SysInv.writeRaw {s : State} (h : SysInv s) (a : Nat) (bs : List Byte) : SysInv (s.setMem (writeRaw s.cfg s.mem a bs)) :=
  h.setMem _ (wf_writeRaw _ _ _ _ h.memWf) (keys_writeRaw _ _ _ _ h.memKeys)

theorem SysInv.setRes {s : State} (h : SysInv s) (r : List Reservation) (hr : r.length = s.res.length) : SysInv (s.setRes r) :=
  h.update rfl rfl rfl h.hartWf hr h.memWf h.memKeys h.gridWf

theorem SysInv.clearReservation {s : State} (h : SysInv s) (i : Nat) : SysInv (clearReservation s i) := h.setRes _ (by simp)

theorem SysInv.setReservation {s : State} (h : SysInv s) (i : Nat) (r : Reservation) : SysInv (setReservation s i r) := h.setRes _ (by simp)

theorem SysInv.killReservations {s : State} (h : SysInv s) (p : Word) : SysInv (killReservations s p) := h.setRes _ (by simp)

theorem SysInv.gridWrite {s : State} (h : SysInv s) (dst src : Nat) (v : Word) : SysInv (s.gridWrite dst src v) :=
  h.update rfl rfl rfl h.hartWf rfl h.memWf h.memKeys (Sparse.wf_set _ _ _ _ h.gridWf)

theorem SysInv.draws {s : State} (h : SysInv s) (n : Nat) : SysInv { s with draws := n } :=
  h.update rfl rfl rfl h.hartWf rfl h.memWf h.memKeys h.gridWf

theorem SysInv.replies {s : State} (h : SysInv s) (r : List (List HostAct)) : SysInv { s with replies := r } :=
  h.update rfl rfl rfl h.hartWf rfl h.memWf h.memKeys h.gridWf

theorem SysInv.agenda {s : State} (h : SysInv s) (a : List Turn) : SysInv { s with agenda := a } :=
  h.update rfl rfl rfl h.hartWf rfl h.memWf h.memKeys h.gridWf

theorem SysInv.sysResponse {s : State} (h : SysInv s) (v : Word) : SysInv { s with sysResponse := v } :=
  h.update rfl rfl rfl h.hartWf rfl h.memWf h.memKeys h.gridWf

theorem SysInv.drawMtval {s : State} (h : SysInv s) : SysInv s.drawMtval := (h.setMtval _).draws _

/-! ## Memory system -/

/-- A cache put in place of another, by operations that keep it well formed, the I-cache clean, and both empty when disabled. -/
theorem SysInv.setCache {s : State} (h : SysInv s) (st : Stream) (k : Cache) (hk : k.wf s.cfg)
    (hclean : st = .instruction → ∀ l ∈ k, l.dirty = false) (hempty : s.cfg.cacheEnable = false → k = []) : SysInv (s.setCache st k) := by
  obtain ⟨h1, h2, h3, h4, h5, h6, h7, h8, h9, h10, h11⟩ := h.hartWf
  cases st
  · exact h.hart _ rfl ⟨h1, h2, hk, h4, hclean rfl, fun he => ⟨hempty he, (h6 he).2⟩, h7, h8, h9, h10, h11⟩
  · exact h.hart _ rfl ⟨h1, h2, h3, hk, h5, fun he => ⟨(h6 he).1, hempty he⟩, h7, h8, h9, h10, h11⟩

theorem SysInv.emptyWhenDisabled {s : State} (h : SysInv s) (st : Stream) (he : s.cfg.cacheEnable = false) : s.cache st = [] := by
  cases st
  · exact (h.hartWf.2.2.2.2.2.1 he).1
  · exact (h.hartWf.2.2.2.2.2.1 he).2

theorem Refilled.inv {st : Stream} {s t : State} {p : Nat} (h : Refilled st s t p) (hI : SysInv s) : SysInv t := by
  rw [h.frame]
  refine SysInv.draws (SysInv.setCache (hI.setMem _ (h.memWf hI.memWf) (h.keys hI.memKeys)) _ _ h.wf ?_ ?_) _
  · rintro rfl
    exact h.clean hI.hartWf.2.2.2.2.1
  · intro he
    rw [h.empty he]
    exact hI.emptyWhenDisabled st he

theorem Stored.inv {s t : State} {p : Nat} {bs : List Byte} (h : Stored s t p bs) (hI : SysInv s) : SysInv t := by
  rw [h.frame]
  refine SysInv.draws (SysInv.setCache (hI.setMem _ (h.memWf hI.memWf) (h.keys hI.memKeys)) _ _ h.wf (by simp) ?_) _
  intro he
  rw [h.empty he]
  exact hI.emptyWhenDisabled .data he

theorem SysInv.translate {s s1 : State} {t : AccessType} {v p : Word} (hI : SysInv s) (h : translateVa t v s = .ok p s1) : SysInv s1 := by
  obtain ⟨k, rfl, hk⟩ := translate_ok h
  exact hI.setTlb _ _ (hk (hI.tlbWf _))

theorem SysInv.fenceOp {s : State} (hI : SysInv s) : SysInv (fenceOp s) := by
  unfold Machine.fenceOp
  split
  · next he =>
    refine SysInv.setCache (hI.setMem _ (wf_writeBacks _ _ _ hI.memWf) (keys_writeBacks _ _ _ hI.memKeys)) _ _
      (wf_map_clean _ _ (hI.cacheWf .data)) (by simp) ?_
    intro h
    exact absurd (h.symm.trans he) (by simp)
  · exact hI

theorem SysInv.fenceIOp {s : State} (hI : SysInv s) : SysInv (fenceIOp s) := by
  unfold Machine.fenceIOp
  split
  · exact hI.setCache _ _ ⟨by simp, by simp, by simp⟩ (by simp) (fun _ => rfl)
  · exact hI

theorem SysInv.flushTlbs {s : State} (hI : SysInv s) : SysInv (flushTlbs s) :=
  (hI.setTlb _ _ (wf_tlbEmpty _)).setTlb _ _ (wf_tlbEmpty _)

theorem physicalAddress_inv (t : AccessType) (va : Word) (n : Nat) (s : State) (hn : n ∈ [1, 2, 4]) (hI : SysInv s) :
    SysInv (physicalAddress t va n s).state := by
  by_cases ha : va.toNat % n = 0
  · rw [physicalAddress_aligned _ _ _ _ hn ha]
    cases ht : translateVa t va s with
    | exc e s1 =>
      obtain ⟨-, rfl⟩ := translate_exc ht
      exact hI
    | ok p s1 =>
      have := hI.translate ht
      simp only
      split <;> exact this
  · rw [physicalAddress_misaligned _ _ _ _ hn ha]
    exact hI

theorem memRead_inv (va : Word) (n : Nat) (s : State) (hn : n ∈ [1, 2, 4]) (hI : SysInv s) : SysInv (memRead va n s).state := by
  by_cases ha : va.toNat % n = 0
  · cases ht : translateVa .load va s with
    | exc e s1 =>
      obtain ⟨-, rfl⟩ := translate_exc ht
      rw [memRead, physicalAddress_aligned _ _ _ _ hn ha, ht]
      exact hI
    | ok p s1 =>
      by_cases hr : p.toNat + n ≤ s.cfg.memSize
      · obtain ⟨t, h1, h2⟩ := memRead_ok hI.cfgWf (hI.cacheWf .data) hn ha ht hr
        rw [h1]
        exact h2.inv (hI.translate ht)
      · rw [memRead, physicalAddress_aligned _ _ _ _ hn ha, ht]
        simp only [if_neg hr]
        exact hI.translate ht
  · rw [memRead, physicalAddress_misaligned _ _ _ _ hn ha]
    exact hI

theorem fetchWord_inv (va : Word) (s : State) (hI : SysInv s) : SysInv (fetchWord va s).state := by
  by_cases ha : va.toNat % 4 = 0
  · cases ht : translateVa .fetch va s with
    | exc e s1 =>
      obtain ⟨-, rfl⟩ := translate_exc ht
      rw [fetchWord, physicalAddress_aligned _ _ _ _ (by simp) ha, ht]
      exact hI
    | ok p s1 =>
      by_cases hr : p.toNat + 4 ≤ s.cfg.memSize
      · obtain ⟨t, h1, h2⟩ := fetch_ok hI.cfgWf (hI.cacheWf .instruction) ha ht hr
        rw [h1]
        exact h2.inv (hI.translate ht)
      · rw [fetchWord, physicalAddress_aligned _ _ _ _ (by simp) ha, ht]
        simp only [if_neg hr]
        exact hI.translate ht
  · rw [fetchWord, physicalAddress_misaligned _ _ _ _ (by simp) ha]
    exact hI

theorem memWrite_inv (va : Word) (n : Nat) (v : Word) (s : State) (hn : n ∈ [1, 2, 4]) (hI : SysInv s) : SysInv (memWrite va n v s).state := by
  by_cases ha : va.toNat % n = 0
  · cases ht : translateVa .store va s with
    | exc e s1 =>
      obtain ⟨-, rfl⟩ := translate_exc ht
      rw [memWrite, physicalAddress_aligned _ _ _ _ hn ha, ht]
      exact hI
    | ok p s1 =>
      by_cases hr : p.toNat + n ≤ s.cfg.memSize
      · obtain ⟨t, h1, h2⟩ := memWrite_ok (v := v) hI.cfgWf (hI.cacheWf .data) hn ha ht hr
        rw [h1]
        exact (h2.inv (hI.translate ht)).killReservations _
      · rw [memWrite, physicalAddress_aligned _ _ _ _ hn ha, ht]
        simp only [if_neg hr]
        exact hI.translate ht
  · rw [memWrite, physicalAddress_misaligned _ _ _ _ hn ha]
    exact hI

/-- A refill keeps the invariant, wherever its address lies. -/
theorem refill_inv {st : Stream} {p : Nat} {s t : State} (hI : SysInv s) (he : s.cfg.cacheEnable = true)
    (h : refill st (lineNumber s.cfg p) s = some t) : SysInv t := by
  cases hf : (s.cache st).find (lineNumber s.cfg p) with
  | some l =>
    rw [refill, hf] at h
    cases h
    exact hI
  | none =>
    by_cases hr : inRange s.cfg (lineNumber s.cfg p * s.cfg.lineSize) s.cfg.lineSize = true
    · obtain ⟨u, h1, h2, -⟩ := refill_spec st s p hI.cfgWf (hI.cacheWf st) he hf
        (by simp only [inRange, decide_eq_true_eq] at hr; rw [Nat.add_mul]; omega)
      rw [h1] at h
      cases h
      exact h2.inv hI
    · simp [refill, hf, hr] at h

theorem cachedRead_inv {st : Stream} {p n : Nat} {s t : State} {bs : List Byte} (hI : SysInv s)
    (h : cachedRead st p n s = some (bs, t)) : SysInv t := by
  unfold cachedRead at h
  split at h
  · next he =>
    split at h
    · cases h
      exact hI
    · simp only [Option.bind_eq_some_iff, Option.map_eq_some_iff, Prod.mk.injEq] at h
      obtain ⟨u, h1, _, -, -, rfl⟩ := h
      exact refill_inv hI he h1
  · simp only [Option.map_eq_some_iff, Prod.mk.injEq] at h
    obtain ⟨_, -, -, rfl⟩ := h
    exact hI

theorem SysInv.cacheStore {s : State} {p : Nat} {bs : List Byte} {k : Cache} (hI : SysInv s)
    (h : cacheStore s.cfg (s.cache .data) p bs = some k) : SysInv (s.setCache .data k) := by
  have hk := hI.cacheWf .data
  unfold Machine.cacheStore at h
  split at h
  · cases h
    refine hI.setCache _ _ ⟨by simpa using hk.1, by rw [tags_map_store]; exact hk.2.1, ?_⟩ (by simp) fun he => ?_
    · intro l2 hl2
      obtain ⟨l1, h1, rfl⟩ := List.mem_map.1 hl2
      split
      · simpa [Line.store] using hk.2.2 l1 h1
      · exact hk.2.2 l1 h1
    · rw [hI.emptyWhenDisabled .data he]
      rfl
  · cases h

theorem cachedWrite_inv {p : Nat} {bs : List Byte} {s t : State} (hI : SysInv s) (h : cachedWrite p bs s = some t) : SysInv t := by
  unfold cachedWrite at h
  split at h
  · next he =>
    split at h
    · next hk =>
      cases h
      exact hI.cacheStore hk
    · simp only [Option.bind_eq_some_iff, Option.map_eq_some_iff] at h
      obtain ⟨u, h1, k, h2, rfl⟩ := h
      exact (refill_inv hI he h1).cacheStore h2
  · split at h
    · cases h
      exact hI.writeRaw _ _
    · cases h

theorem readAt_inv (t : AccessType) (va : Word) (n : Nat) (p : Word) (s : State) (hI : SysInv s) :
    SysInv (readAt t va n p s).state := by
  unfold readAt
  split
  · next h => exact cachedRead_inv hI h
  · exact hI

theorem writeAt_inv (va : Word) (n : Nat) (v p : Word) (s : State) (hI : SysInv s) : SysInv (writeAt va n v p s).state := by
  unfold writeAt
  split
  · next h => exact cachedWrite_inv hI h
  · exact hI

/-- One line of a FENCE (20_memory.md R87). -/
theorem SysInv.flushSlot {s : State} (hI : SysInv s) (slot : Nat) : SysInv (flushSlot slot s) := by
  unfold Machine.flushSlot
  cases hs : (s.cache .data)[slot]? with
  | none => exact hI
  | some l =>
    simp only
    split
    · have hk := hI.cacheWf .data
      have hl : l ∈ s.cache .data := List.mem_of_getElem? hs
      refine SysInv.setCache (hI.setMem _ (wf_writeBack _ _ _ hI.memWf) (keys_writeBack _ _ _ hI.memKeys)) _ _
        ⟨by simpa using hk.1, ?_, ?_⟩ (by simp) fun he => ?_
      · obtain ⟨hlt, hget⟩ := List.getElem?_eq_some_iff.1 hs
        have : ((s.cache .data).set slot { l with dirty := false }).map Line.tag = (s.cache .data).map Line.tag := by
          rw [List.map_set]
          show List.set _ slot l.tag = _
          rw [← hget, ← List.getElem_map Line.tag (h := by simpa using hlt)]
          exact List.set_getElem_self _
        rw [this]
        exact hk.2.1
      · intro m hm
        rcases List.mem_or_eq_of_mem_set hm with hm | rfl
        · exact hk.2.2 m hm
        · exact hk.2.2 l hl
      · rw [hI.emptyWhenDisabled .data he] at hl
        cases hl
    · exact hI

/-! ## The Host, traps, polls -/

theorem SysInv.hostAct {s t : State} (hI : SysInv s) (a : HostAct) (h : hostAct a s = some t) : SysInv t := by
  cases a <;> simp only [Machine.hostAct, Option.some.injEq, reduceCtorEq] at h <;> subst h
  case setX => exact hI.writeX _ _
  case setF => exact hI.writeF _ _
  case setPc => exact hI.setPc _
  case setCsr => exact hI.writeCsr _ _
  case setJumped => exact hI.setJumped _
  case setTimer => exact hI.setTimer _
  case setPending =>
    split
    · next h => exact hI.setPending _ _ h
    · exact hI
  case halt => exact hI.setLife _
  case stop => exact hI.setLife _
  case wake => exact hI.setLife _
  case writeMem => exact hI.writeRaw _ _
  case clearRes => exact hI.clearReservation _
  case respond => exact hI.gridWrite _ _ _

theorem SysInv.hostActs {s : State} (hI : SysInv s) (l : List HostAct) : SysInv (hostActs l s).2 := by
  induction l generalizing s with
  | nil => exact hI
  | cons a l ih =>
    unfold Machine.hostActs
    cases h : Machine.hostAct a s with
    | none => exact hI
    | some t => exact ih (hI.hostAct a h)

theorem SysInv.leavePort {s : State} (hI : SysInv s) (site : Site) : SysInv (leavePort site s) := by
  unfold Machine.leavePort
  split
  · exact hI.setPc _
  · exact hI

theorem SysInv.present {s : State} (hI : SysInv s) (site : Site) : SysInv (present site s) := by
  unfold Machine.present
  simp only
  have := (hI.replies s.replies.tail).hostActs (s.replies.headD [])
  split
  · exact this.leavePort _
  · exact this.setPort _

theorem SysInv.interrupt {s : State} (hI : SysInv s) (r : Word) (site : Site) : SysInv (interrupt r site s) :=
  (hI.drawMtval.saveTrap _).present _

theorem SysInv.raise {s : State} (hI : SysInv s) (e : Exc) (site : Site) : SysInv (raise e site s) := by
  unfold Machine.raise
  split
  · exact ((hI.setMtval _).saveTrap _).present _
  · exact (hI.drawMtval.saveTrap _).present _

/-! ## What a hart does alone -/

/-- What everything a hart does in its own turn keeps: the configuration, the parked harts, which hart acts, the coming turns, and the
invariant. -/
structure Local (s t : State) : Prop where
  cfg : t.cfg = s.cfg
  parked : t.parked = s.parked
  id : t.hart.id = s.hart.id
  agenda : t.agenda = s.agenda
  inv : SysInv s → SysInv t

theorem Local.refl (s : State) : Local s s := ⟨rfl, rfl, rfl, rfl, fun h => h⟩

theorem Local.trans {s t u : State} (h : Local s t) (g : Local t u) : Local s u :=
  ⟨g.cfg.trans h.cfg, g.parked.trans h.parked, g.id.trans h.id, g.agenda.trans h.agenda, fun hI => g.inv (h.inv hI)⟩

theorem local_present (site : Site) (s : State) : Local s (present site s) := by
  have hf := hostActs_frame (s.replies.headD []) { s with replies := s.replies.tail }
  have key : (present site s).cfg = s.cfg ∧ (present site s).parked = s.parked ∧ (present site s).hart.id = s.hart.id ∧
      (present site s).agenda = s.agenda := by
    unfold present
    simp only
    split
    · rw [leavePort_frame]
      exact ⟨hf.1, hf.2.1, hf.2.2.1, hf.2.2.2.2.1⟩
    · exact ⟨hf.1, hf.2.1, hf.2.2.1, hf.2.2.2.2.1⟩
  exact ⟨key.1, key.2.1, key.2.2.1, key.2.2.2, fun h => h.present site⟩

theorem local_interrupt (r : Word) (site : Site) (s : State) : Local s (interrupt r site s) :=
  have h := local_present site (saveTrap r s.drawMtval)
  ⟨h.cfg, h.parked, h.id, h.agenda, fun hI => hI.interrupt r site⟩

theorem local_raise (e : Exc) (site : Site) (s : State) : Local s (raise e site s) := by
  refine ⟨?_, ?_, ?_, ?_, fun hI => hI.raise e site⟩ <;> unfold raise <;> split
  · exact (local_present site (saveTrap e.cause.code (s.setMtval _))).cfg
  · exact (local_present site (saveTrap e.cause.code s.drawMtval)).cfg
  · exact (local_present site (saveTrap e.cause.code (s.setMtval _))).parked
  · exact (local_present site (saveTrap e.cause.code s.drawMtval)).parked
  · exact (local_present site (saveTrap e.cause.code (s.setMtval _))).id
  · exact (local_present site (saveTrap e.cause.code s.drawMtval)).id
  · exact (local_present site (saveTrap e.cause.code (s.setMtval _))).agenda
  · exact (local_present site (saveTrap e.cause.code s.drawMtval)).agenda

theorem pollSources_le (c : Config) (h k : Nat) (hk : k ∈ pollSources c h) : k ≤ c.hartCount := by
  simp only [pollSources, List.mem_filter] at hk
  have := hk.1
  split at this
  · simp only [List.mem_range] at this
    omega
  · simp only [List.mem_singleton] at this
    omega

theorem local_pollFrom (l : List Nat) (s : State) (hl : ∀ k ∈ l, k ≤ s.cfg.hartCount) : Local s (pollFrom l s).2 := by
  induction l generalizing s with
  | nil => exact .refl s
  | cons src rest ih =>
    unfold pollFrom
    split
    · exact ih s fun k hk => hl k (by simp [hk])
    · have h1 : Local s (s.setPending src (s.gridRead s.hart.id src)) :=
        ⟨rfl, rfl, rfl, rfl, fun hI => hI.setPending _ _ (hl src (by simp))⟩
      have h2 : Local s (deliverExternal src s) := h1.trans (local_interrupt externalReason (.poll src) _)
      simp only
      split
      · exact h2
      · generalize deliverExternal src s = u at h2 ⊢
        have h3 : Local s (u.gridWrite u.hart.id src 0#32) :=
          h2.trans ⟨rfl, rfl, rfl, rfl, fun hI => hI.gridWrite _ _ _⟩
        exact h3.trans (ih _ fun k hk => by rw [h3.cfg]; exact hl k (by simp [hk]))

theorem local_checkInterrupts (s : State) : Local s (checkInterrupts s).2 :=
  local_pollFrom _ s fun k hk => pollSources_le _ _ k hk

theorem local_setPollctr (s : State) (n : Nat) (hn : n = 0 ∨ (n = s.hart.pollctr + 1 ∧ n ≠ s.cfg.pollInterval)) :
    Local s (s.setPollctr n) := by
  refine ⟨rfl, rfl, rfl, rfl, fun hI => hI.setPollctr n ?_⟩
  have h1 := hI.hartWf.2.2.2.2.2.2.2.2.2.1
  omega

theorem local_pollPhase (s : State) : Local s (pollPhase s).2 := by
  unfold pollPhase
  split
  · exact (local_setPollctr s 0 (.inl rfl)).trans (local_checkInterrupts _)
  · next h => exact local_setPollctr s _ (.inr ⟨rfl, h⟩)

theorem local_setTimer (s : State) (t : Timer) : Local s (s.setTimer t) := ⟨rfl, rfl, rfl, rfl, fun hI => hI.setTimer t⟩

theorem local_timerPhase (s : State) : Local s (timerPhase s).2 := by
  unfold timerPhase
  split
  · simp only
    split
    · exact (local_setTimer s _).trans (local_interrupt _ _ _)
    · exact local_setTimer s _
  · exact .refl s

theorem local_advancePc (s : State) : Local s s.advancePc := by
  unfold State.advancePc
  split
  · exact .refl s
  · exact ⟨rfl, rfl, rfl, rfl, fun hI => hI.setPc _⟩

theorem local_setPort (s : State) (p : List Activation) : Local s (s.setPort p) := ⟨rfl, rfl, rfl, rfl, fun hI => hI.setPort p⟩

theorem local_leavePort (site : Site) (s : State) : Local s (leavePort site s) := by
  refine ⟨?_, ?_, ?_, ?_, fun hI => hI.leavePort site⟩ <;> rw [leavePort_frame]

theorem local_gridWrite (s : State) (dst src : Nat) (v : Word) : Local s (s.gridWrite dst src v) :=
  ⟨rfl, rfl, rfl, rfl, fun hI => hI.gridWrite dst src v⟩

theorem local_hostActs (l : List HostAct) (s : State) : Local s (hostActs l s).2 :=
  have hf := hostActs_frame l s
  ⟨hf.1, hf.2.1, hf.2.2.1, hf.2.2.2.2.1, fun hI => hI.hostActs l⟩

theorem local_afterPort (site : Site) (s : State) : Local s (afterPort site s) := by
  cases site
  case boot => exact .refl s
  case timer => exact local_pollPhase s
  case poll src =>
    refine (local_gridWrite s s.hart.id src 0#32).trans (local_pollFrom _ _ fun k hk => ?_)
    exact pollSources_le _ _ k (List.mem_filter.1 hk).1
  case fetch => exact .refl s
  case exec => exact local_advancePc s

theorem local_setTask (s : State) (t : Task) (ht : t.wf s.cfg) : Local s (s.setTask t) := ⟨rfl, rfl, rfl, rfl, fun hI => hI.setTask t ht⟩

theorem wf_allSources (c : Config) (h : Nat) (b : Bool) : (Task.scan (pollSources c h) b).wf c := fun k => pollSources_le c h k

theorem local_afterPortSplit (site : Site) (s : State) : Local s (afterPortSplit site s) := by
  cases site
  case boot => exact .refl s
  case timer =>
    unfold afterPortSplit
    simp only
    split
    · exact (local_setPollctr s 0 (.inl rfl)).trans (local_setTask _ _ (wf_allSources _ _ _))
    · next h => exact local_setPollctr s _ (.inr ⟨rfl, h⟩)
  case poll src => exact local_setTask _ _ fun k hk => pollSources_le _ _ k (List.mem_filter.1 hk).1
  case fetch => exact .refl s
  case exec => exact local_advancePc s

theorem local_continueWith (after : Site → State → State) (a : Activation) (below : List Activation) (script : List HostAct) (s : State)
    (h : ∀ u, Local s u → Local u (after a.site u)) : Local s (continueWith after a below script s) := by
  unfold continueWith
  simp only
  split
  · have h1 := ((local_hostActs script s).trans (local_setPort _ below)).trans (local_leavePort a.site _)
    exact h1.trans (h _ h1)
  · exact (local_hostActs script s).trans (local_setPort _ _)

theorem local_continueScript (a : Activation) (below : List Activation) (script : List HostAct) (s : State) :
    Local s (continueScript a below script s) :=
  local_continueWith _ _ _ _ _ fun u _ => local_afterPort _ u

/-- What a hart at a port does in its turn, if it is no misuse. -/
theorem local_resumeWith {poll : State → State} {goOn take : Activation → List Activation → List HostAct → State → State}
    (hp : ∀ u, Local u (poll u)) (hg : ∀ a below script u, Local u (goOn a below script u))
    (ht : ∀ a below script u, Local u (take a below script u)) (s t : State) (h : resumeWith poll goOn take s = .next t) : Local s t := by
  unfold resumeWith at h
  have hr : ∀ v, Local s (s.setResponse v) := fun v => ⟨rfl, rfl, rfl, rfl, fun hI => hI.setResponse _⟩
  dsimp only at h
  repeat' split at h
  all_goals (cases h <;> first
    | exact .refl s
    | exact (local_setPort s _).trans (hp _)
    | exact hg _ _ _ s
    | exact (local_gridWrite s _ _ _).trans (hg _ _ _ _)
    | exact (hr _).trans (ht _ _ _ _)
    | exact local_setPort s _)

theorem local_resumePort (s t : State) (h : resumePort s = .next t) : Local s t :=
  local_resumeWith local_checkInterrupts local_continueScript
    (fun a below script u => (local_gridWrite u _ _ _).trans (local_continueScript a below script _)) s t h

theorem local_continueSplit (a : Activation) (below : List Activation) (script : List HostAct) (s : State) :
    Local s (continueSplit a below script s) :=
  local_continueWith _ _ _ _ _ fun u _ => local_afterPortSplit _ u

theorem local_resumeSplit (s t : State) (h : resumeSplit s = .next t) : Local s t :=
  local_resumeWith (fun u => local_setTask u _ (wf_allSources _ _ _)) local_continueSplit
    (fun _ _ _ u => local_setTask u .consume trivial) s t h

/-! ## Instructions' shared shapes -/

theorem local_streamFrame {st : Stream} {s t : State} (h : StreamFrame st s t) (hI : SysInv s → SysInv t) : Local s t := by
  refine ⟨?_, ?_, ?_, ?_, hI⟩ <;> rw [h] <;> cases st <;> rfl

theorem local_physicalAddress (t : AccessType) (va : Word) (n : Nat) (s : State) (hn : n ∈ [1, 2, 4]) :
    Local s (physicalAddress t va n s).state :=
  local_streamFrame (streamFrame_of_setTlb (physicalAddress_frame t va n s)) (physicalAddress_inv t va n s hn)

theorem local_memRead (va : Word) (n : Nat) (s : State) (hn : n ∈ [1, 2, 4]) : Local s (memRead va n s).state :=
  local_streamFrame (memRead_frame va n s) (memRead_inv va n s hn)

theorem local_fetchWord (va : Word) (s : State) : Local s (fetchWord va s).state :=
  local_streamFrame (fetchWord_frame va s) (fetchWord_inv va s)

theorem local_memWrite (va : Word) (n : Nat) (v : Word) (s : State) (hn : n ∈ [1, 2, 4]) : Local s (memWrite va n v s).state := by
  have h := memWrite_frame va n v s
  unfold StreamFrame at h
  have h2 : ∀ t : State, Local s (t.setRes s.res) → (SysInv s → SysInv t) → Local s t := fun t hl hI =>
    ⟨hl.cfg, hl.parked, hl.id, hl.agenda, hI⟩
  refine h2 _ (local_streamFrame h fun hI => ?_) (memWrite_inv va n v s hn)
  have hJ := memWrite_inv va n v s hn hI
  refine hJ.setRes _ ?_
  have hc : (memWrite va n v s).state.cfg = s.cfg := by simpa using congrArg State.cfg h
  rw [hI.resLength, hJ.resLength, hc]

/-- An instruction that goes on with an access's value, or raises its exception. -/
theorem local_orRaise {α : Type} {s : State} (a : Access α) (k : α → State → State) (ha : Local s a.state)
    (hk : ∀ v u, Local s u → Local u (k v u)) (t : State) (h : orRaise a k = .next t) : Local s t := by
  unfold orRaise at h
  split at h <;> cases h
  · exact ha.trans (hk _ _ ha)
  · exact ha.trans (local_raise _ _ _)

theorem local_writeX (s : State) (r : Reg) (v : Word) : Local s (s.writeX r v) :=
  ⟨by simp, by simp, by rw [State.writeX_frame], by simp, fun hI => hI.writeX r v⟩

end Sys2Proof.Machine
end

