-- ==== Sys2Proof/Laws/Events.lean ====
section
/-! SUPPORT. What a piece of an iteration between two shared events can do (spec 60_exceptions.md R300): the event-level operations
change only what a hart changes alone, and keep the invariant, if every instruction does. -/

namespace Sys2Proof.Machine

/-! ## Progress -/

@[simp] theorem Access.progress_ok {α : Type} (a : α) (s : State) : (Access.ok a s).progress = .ok a s := rfl
@[simp] theorem Access.progress_exc {α : Type} (e : Exc) (s : State) : (Access.exc e s : Access α).progress = .exc e s := rfl
@[simp] theorem Progress.bind_ok {α β : Type} (a : α) (s : State) (k : α → State → Progress β) : (Progress.ok a s).bind k = k a s := rfl
@[simp] theorem Progress.bind_exc {α β : Type} (e : Exc) (s : State) (k : α → State → Progress β) :
    (Progress.exc e s : Progress α).bind k = .exc e s := rfl
@[simp] theorem Progress.bind_wait {α β : Type} (t : Task) (s : State) (k : α → State → Progress β) :
    (Progress.wait t s : Progress α).bind k = .wait t s := rfl

/-- What has come to `r` from `s` changed only what a hart changes alone, and what it waits for is well formed. -/
def Progress.Keeps {α : Type} (s : State) : Progress α → Prop
  | .ok _ t => Local s t
  | .exc _ t => Local s t
  | .wait k t => Local s t ∧ ∀ c, k.wf c

theorem keeps_progress {α : Type} {s : State} (a : Access α) (h : Local s a.state) : a.progress.Keeps s := by
  cases a <;> exact h

theorem Progress.Keeps.bind {α β : Type} {s : State} {r : Progress α} {k : α → State → Progress β} (h : r.Keeps s)
    (hk : ∀ a t, Local s t → (k a t).Keeps t) : (r.bind k).Keeps s := by
  cases r with
  | exc e t => exact h
  | wait w t => exact h
  | ok a t =>
    have h2 := hk a t h
    show (k a t).Keeps s
    cases hr : k a t with
    | ok b u => rw [hr] at h2; exact h.trans h2
    | exc e u => rw [hr] at h2; exact h.trans h2
    | wait w u => rw [hr] at h2; exact ⟨h.trans h2.1, h2.2⟩

/-! ## Accesses -/

theorem local_translated {t : AccessType} {s : State} {k : Tlb} (hk : (s.tlb t.stream).wf s.cfg → Tlb.wf s.cfg k) :
    Local s (s.setTlb t.stream k) := by
  refine ⟨?_, ?_, ?_, ?_, fun hI => hI.setTlb _ _ (hk (hI.tlbWf _))⟩ <;> cases t <;> rfl

theorem local_checkRange (t : AccessType) (va : Word) (n : Nat) (a : Access Word) {s : State} (h : Local s a.state) :
    Local s (checkRange t va n a).state := by
  cases a with
  | exc e u => exact h
  | ok p u =>
    unfold checkRange
    simp only
    split <;> exact h

theorem keeps_startAddress (waitAt : Stage → Task) (t : AccessType) (va : Word) (n : Nat) (s : State)
    (hw : ∀ st c, (waitAt st).wf c) : (startAddress waitAt t va n s).Keeps s := by
  unfold startAddress
  split
  · exact Local.refl s
  · split
    · next a ha =>
      apply keeps_progress
      apply local_checkRange
      rcases tlbTranslate_frame ha with ⟨p, rfl⟩ | rfl <;> exact Local.refl s
    · exact ⟨Local.refl s, hw _⟩

theorem keeps_pteEvent (waitAt : Stage → Task) (t : AccessType) (va : Word) (n level : Nat) (table : Word) (s : State)
    (hw : ∀ st c, (waitAt st).wf c) : (pteEvent waitAt t va n level table s).Keeps s := by
  unfold pteEvent
  split
  · exact Local.refl s
  · exact ⟨Local.refl s, hw _⟩
  · next pte _ =>
    apply keeps_progress
    apply local_checkRange
    rcases leafTranslate_frame t va level pte s with ⟨k, hk, hwf⟩ | hk
    · rw [hk]
      exact local_translated hwf
    · rw [hk]
      exact Local.refl s

theorem local_readAt (t : AccessType) (va : Word) (n : Nat) (p : Word) (s : State) : Local s (readAt t va n p s).state :=
  local_streamFrame (readAt_frame t va n p s) (readAt_inv t va n p s)

theorem local_writeAt (va : Word) (n : Nat) (v p : Word) (s : State) : Local s (writeAt va n v p s).state :=
  local_streamFrame (writeAt_frame va n v p s) (writeAt_inv va n v p s)

/-! ## Memory instructions -/

/-- A request whose critical section, if it has one, changes only what a hart changes alone. -/
def Request.LocalSection : Request → Prop
  | .atomic _ _ critical => ∀ p u, Local u (critical p u)
  | _ => True

theorem keeps_access (r : Request) (p : Word) (s : State) (hr : r.LocalSection) : (r.access p s).Keeps s := by
  cases r with
  | load n ext rd va => exact (keeps_progress _ (local_readAt _ _ _ _ _)).bind fun v t _ => local_writeX t rd (ext v)
  | store n va v => exact (keeps_progress _ (local_writeAt _ _ _ _ _)).bind fun _ t _ => ⟨Local.refl t, fun _ => trivial⟩
  | atomic t va critical => exact hr p s

theorem keeps_atAddress (i : Instr) (r : Request) (p : Word) (s : State) (hr : r.LocalSection) : (r.atAddress i p s).Keeps s := by
  unfold Request.atAddress
  split
  · exact keeps_access r p s hr
  · exact ⟨Local.refl s, fun _ => trivial⟩

theorem keeps_start (i : Instr) (r : Request) (s : State) (hr : r.LocalSection) : (r.start i s).Keeps s :=
  (keeps_startAddress (.exec i) _ _ _ _ fun _ _ => trivial).bind fun p t _ => keeps_atAddress i r p t hr

theorem keeps_event (i : Instr) (r : Request) (st : Stage) (s : State) (hr : r.LocalSection) : (r.event i st s).Keeps s := by
  cases st with
  | pte level table => exact (keeps_pteEvent (.exec i) _ _ _ _ _ _ fun _ _ => trivial).bind fun p t _ => keeps_atAddress i r p t hr
  | access p => exact keeps_access r p s hr

theorem local_setMem_writeRaw (s : State) (a : Nat) (bs : List Byte) : Local s (s.setMem (writeRaw s.cfg s.mem a bs)) :=
  ⟨rfl, rfl, rfl, rfl, fun hI => hI.writeRaw a bs⟩

theorem local_killReservations (s : State) (p : Word) : Local s (killReservations s p) :=
  ⟨rfl, rfl, rfl, rfl, fun hI => hI.killReservations p⟩

theorem local_setReservation (s : State) (i : Nat) (r : Reservation) : Local s (setReservation s i r) :=
  ⟨rfl, rfl, rfl, rfl, fun hI => hI.setReservation i r⟩

theorem local_lrSection (rd : Reg) (p : Word) (s : State) : Local s (lrSection rd p s) :=
  (local_setReservation s _ _).trans (local_writeX _ _ _)

theorem local_scSection (rd : Reg) (v p : Word) (s : State) : Local s (scSection rd v p s) := by
  unfold scSection
  split
  · exact (((local_setMem_writeRaw s p.toNat (leBytes 4 v)).trans (local_killReservations _ p)).trans
      (local_setReservation _ _ _)).trans (local_writeX _ _ _)
  · exact (local_setReservation s _ _).trans (local_writeX _ _ _)

theorem local_swapSection (rd : Reg) (v p : Word) (s : State) : Local s (swapSection rd v p s) :=
  ((local_setMem_writeRaw s p.toNat (leBytes 4 v)).trans (local_killReservations _ p)).trans (local_writeX _ _ _)

/-- Every instruction's request has a section of this kind. -/
theorem requestOf_local {i : Instr} {s : State} {r : Request} (h : requestOf i s = some r) : r.LocalSection := by
  cases i <;> simp only [requestOf, Option.some.injEq, reduceCtorEq] at h <;> subst h <;> first
    | exact fun p u => local_lrSection _ p u
    | exact fun p u => local_scSection _ _ p u
    | exact fun p u => local_swapSection _ _ p u
    | exact trivial

/-! ## Executions, fetches, polls -/

theorem local_finishExecute (s : State) : Local s (finishExecute s) := by
  unfold finishExecute
  split
  · exact local_advancePc s
  · exact .refl s

theorem local_concludeExecute {r : Progress Unit} {s t : State} (hr : r.Keeps s) (h : concludeExecute r = .next t) : Local s t := by
  cases r with
  | ok a u =>
    cases h
    exact Local.trans hr (local_finishExecute u)
  | exc e u =>
    cases h
    exact (Local.trans hr (local_raise e .exec u)).trans (local_finishExecute _)
  | wait k u =>
    cases h
    exact hr.1.trans (local_setTask u k (hr.2 _))

section
-- what every instruction is known to do
variable (hx : ∀ i s t, exec i s = .next t → Local s t)
include hx

theorem local_executeInstr {i : Instr} {s t : State} (h : executeInstr i s = .next t) : Local s t := by
  unfold executeInstr at h
  split at h
  · next u hu =>
    cases h
    exact (hx i s u hu).trans (local_finishExecute u)
  · cases h
  · cases h

theorem local_startInstr {i : Instr} {s t : State} (h : startInstr i s = .next t) : Local s t := by
  unfold startInstr at h
  split at h
  · next r hr => exact local_concludeExecute (keeps_start i r s (requestOf_local hr)) h
  · split at h
    · split at h
      · cases h
        exact local_setTask s .flush trivial
      · exact local_executeInstr hx h
    · exact local_executeInstr hx h

theorem local_execEvent {i : Instr} {st : Stage} {s t : State} (h : execEvent i st s = .next t) : Local s t := by
  unfold execEvent at h
  split at h
  · next r hr => exact local_concludeExecute (keeps_event i r st s (requestOf_local hr)) h
  · exact local_executeInstr hx h

omit hx in
theorem local_decodeThen {run : Instr → State → Host.Outcome State Fault Refusal}
    (hr : ∀ i u t, run i u = .next t → Local u t) {w : Word} {s t : State} (h : decodeThen run w s = .next t) : Local s t := by
  unfold decodeThen at h
  split at h
  · exact hr _ _ _ h
  · cases h
    exact (local_raise _ _ s).trans (local_finishExecute _)
  · cases h
  · cases h

theorem local_concludeFetch {r : Progress Word} {s t : State} (hr : r.Keeps s) (h : concludeFetch r = .next t) : Local s t := by
  cases r with
  | ok w u => exact Local.trans hr (local_decodeThen (fun _ _ _ h => local_startInstr hx h) h)
  | exc e u =>
    cases h
    exact Local.trans hr (local_raise e .fetch u)
  | wait k u =>
    cases h
    exact hr.1.trans (local_setTask u k (hr.2 _))

omit hx in
theorem keeps_fetchAtAddress (va p : Word) (s : State) : (fetchAtAddress va p s).Keeps s := by
  unfold fetchAtAddress
  split
  · exact keeps_progress _ (local_readAt _ _ _ _ _)
  · exact ⟨Local.refl s, fun _ => trivial⟩

theorem local_startFetch {s t : State} (h : startFetch s = .next t) : Local s t :=
  local_concludeFetch hx ((keeps_startAddress .fetch _ _ _ _ fun _ _ => trivial).bind fun p u _ => keeps_fetchAtAddress _ p u) h

theorem local_fetchEvent {st : Stage} {s t : State} (h : fetchEvent st s = .next t) : Local s t := by
  refine local_concludeFetch hx ?_ h
  cases st with
  | pte level table => exact (keeps_pteEvent .fetch _ _ _ _ _ _ fun _ _ => trivial).bind fun p u _ => keeps_fetchAtAddress _ p u
  | access p => exact keeps_progress _ (local_readAt _ _ _ _ _)

theorem local_afterScan {b : Bool} {s t : State} (h : afterScan b s = .next t) : Local s t := by
  unfold afterScan at h
  split at h
  · exact local_startFetch hx h
  · cases h
    exact .refl s

theorem local_scanOn {rest : List Nat} {b : Bool} {s t : State} (hw : ∀ k ∈ rest, k ≤ s.cfg.hartCount)
    (h : scanOn rest b s = .next t) : Local s t := by
  unfold scanOn at h
  split at h
  · exact local_afterScan hx h
  · cases h
    exact local_setTask s _ hw

theorem local_scanEvent {sources : List Nat} {b : Bool} {s t : State} (hw : ∀ k ∈ sources, k ≤ s.cfg.hartCount)
    (h : scanEvent sources b s = .next t) : Local s t := by
  cases sources with
  | nil => exact local_afterScan hx h
  | cons src rest =>
    have hrest : ∀ k ∈ rest, k ≤ s.cfg.hartCount := fun k hk => hw k (by simp [hk])
    unfold scanEvent at h
    simp only at h
    split at h
    · exact local_scanOn hx hrest h
    · have h1 : Local s (deliverExternal src s) :=
        Local.trans (t := s.setPending src (s.gridRead s.hart.id src))
          ⟨rfl, rfl, rfl, rfl, fun hI => hI.setPending _ _ (hw src (by simp))⟩ (local_interrupt externalReason (.poll src) _)
      cases h
      split
      · exact h1
      · exact h1.trans (local_setTask _ _ (by rw [h1.cfg]; exact hrest))

omit hx in
theorem local_flushEvent (slot : Nat) (s : State) : Local s (flushEvent slot s) := by
  have h1 : Local s (flushSlot slot s) := by
    refine ⟨?_, ?_, ?_, ?_, fun hI => hI.flushSlot slot⟩ <;> unfold flushSlot <;> split <;> (try split) <;> rfl
  unfold flushEvent
  split
  · exact h1
  · exact (h1.trans (local_setTask _ .idle trivial)).trans (local_finishExecute _)

/-! ## Turns of a hart -/

/-- One event of a hart. The sources still to scan are bounded in every state that meets the invariant. -/
theorem local_taskEvent {s t : State} (hw : s.hart.task.wf s.cfg) (h : taskEvent s = .next t) : Local s t := by
  have h0 : Local s (s.setTask .idle) := local_setTask s .idle trivial
  unfold taskEvent at h
  simp only at h
  split at h
  · cases h
    exact .refl s
  · next hk => exact h0.trans (local_scanEvent hx (by rw [hk] at hw; exact hw) h)
  · next src rest hk =>
    have h1 := h0.trans (local_gridWrite (s.setTask .idle) s.hart.id src 0#32)
    exact h1.trans (local_scanOn hx (by rw [h1.cfg]; rw [hk] at hw; exact hw) h)
  · exact h0.trans (local_fetchEvent hx h)
  · exact h0.trans (local_execEvent hx h)
  · cases h
    exact (h0.trans (local_killReservations _ _)).trans (local_finishExecute _)
  · cases h
    exact local_flushEvent _ s
  · have h1 := h0.trans (local_gridWrite _ s.hart.id s.hart.id 0#32)
    split at h
    · cases h
      exact h1
    · cases h
      exact h1.trans (local_continueSplit _ _ _ _)

theorem local_startStep {s t : State} (h : startStep s = .next t) : Local s t := by
  have h0 : Local s (timerPhase (s.setJumped false)).2 :=
    Local.trans (t := s.setJumped false) ⟨rfl, rfl, rfl, rfl, fun hI => hI.setJumped _⟩ (local_timerPhase _)
  unfold startStep at h
  simp only at h
  split at h
  · cases h
    exact h0
  · split at h
    · cases h
      exact (h0.trans (local_setPollctr _ 0 (.inl rfl))).trans (local_setTask _ _ (wf_allSources _ _ _))
    · next hk => exact (h0.trans (local_setPollctr _ _ (.inr ⟨rfl, hk⟩))).trans (local_afterScan hx h)

/-- A hart in the middle of nothing that goes on by at most one event. -/
theorem local_startTurn {s t : State} (h : startTurn s = .next t) : Local s t := by
  unfold startTurn at h
  split at h
  · split at h
    · cases h
      exact .refl s
    · cases h
      exact ⟨rfl, rfl, rfl, rfl, fun hI => hI.setLife _⟩
    · cases h
      exact Local.trans (t := s.setJumped false) ⟨rfl, rfl, rfl, rfl, fun hI => hI.setJumped _⟩ (local_setTask _ _ (wf_allSources _ _ _))
    · exact local_startStep hx h
  · exact local_resumeSplit s t h

end

/-! ## Steps -/

/-- With nothing scheduled, a hart in the middle of nothing takes a whole turn. -/
theorem step_idle (s : State) (ha : s.agenda = []) (ht : s.hart.task = .idle) : step s = wholeTurn s := by
  rw [step, nextTurn, ha]
  exact if_pos ht

/-- With nothing scheduled, a hart in the middle of something performs its next event. -/
theorem step_task (s : State) (ha : s.agenda = []) (ht : s.hart.task ≠ .idle) : step s = taskEvent s := by
  rw [step, nextTurn, ha]
  exact if_neg ht

/-- A turn of the acting hart itself. -/
theorem onHart_self (s : State) (f : State → Host.Outcome State Fault Refusal) : onHart s.hart.id f s = f s := by
  rw [onHart, focus, if_pos rfl]

/-- A scheduled split turn of the acting hart. -/
theorem step_split (s : State) (ha : s.agenda = []) :
    step { s with agenda := [.split s.hart.id] } = splitTurn s := by
  have hs : ({ s with agenda := [] } : State) = s := by rw [← ha]
  show onHart s.hart.id splitTurn { s with agenda := [] } = _
  rw [hs]
  exact onHart_self s splitTurn

/-- A running hart at no port performs a step (60_exceptions.md R345). -/
theorem wholeTurn_running (s : State) (hp : s.hart.port = []) (hl : s.hart.life = .running) : wholeTurn s = runningStep s := by
  rw [wholeTurn, if_pos hp, hl]

/-- A hart at a port goes on there. -/
theorem wholeTurn_port (s : State) (hp : s.hart.port ≠ []) : wholeTurn s = resumePort s := if_neg hp

/-- What a fetched word comes to (R302). -/
theorem decodeThen_instr (run : Instr → State → Host.Outcome State Fault Refusal) (w : Word) (i : Instr) (s : State)
    (h : decode w = .instr i) : decodeThen run w s = run i s := by
  rw [decodeThen, h]

end Sys2Proof.Machine
end

