-- ==== Sys2Proof/Laws/PerInstr.lean ====
section
/-! SUPPORT. Statements about every instruction as syntax, one lemma per constructor (LAWS.json names the family). -/

namespace Sys2Proof.Laws.OpcodeSupported

/-- The word of an instruction has one of the twelve supported major opcodes (spec 30_encoding.md R165, R168). -/
def Statement (i : Instr) : Prop := opcode (encode i) ∈ supportedOpcodes

theorem of_opcode {w : Word} {op : BitVec 7} (h : opcode w = op) (hm : op ∈ supportedOpcodes) : opcode w ∈ supportedOpcodes := by
  rw [h]
  exact hm

theorem lui (rd : Reg) (imm : BitVec 20) : Statement (.lui rd imm) :=
  of_opcode (opcode_encU _ _ _) (by decide)
theorem auipc (rd : Reg) (imm : BitVec 20) : Statement (.auipc rd imm) :=
  of_opcode (opcode_encU _ _ _) (by decide)
theorem jal (rd : Reg) (off : BitVec 21) : Statement (.jal rd off) :=
  of_opcode (opcode_encJ _ _ _) (by decide)
theorem jalr (rd : Reg) (rs1 : Reg) (imm : BitVec 12) : Statement (.jalr rd rs1 imm) :=
  of_opcode (opcode_encI _ _ _ _ _) (by decide)
theorem beq (rs1 : Reg) (rs2 : Reg) (off : BitVec 13) : Statement (.beq rs1 rs2 off) :=
  of_opcode (opcode_encB _ _ _ _ _) (by decide)
theorem bne (rs1 : Reg) (rs2 : Reg) (off : BitVec 13) : Statement (.bne rs1 rs2 off) :=
  of_opcode (opcode_encB _ _ _ _ _) (by decide)
theorem blt (rs1 : Reg) (rs2 : Reg) (off : BitVec 13) : Statement (.blt rs1 rs2 off) :=
  of_opcode (opcode_encB _ _ _ _ _) (by decide)
theorem bge (rs1 : Reg) (rs2 : Reg) (off : BitVec 13) : Statement (.bge rs1 rs2 off) :=
  of_opcode (opcode_encB _ _ _ _ _) (by decide)
theorem bltu (rs1 : Reg) (rs2 : Reg) (off : BitVec 13) : Statement (.bltu rs1 rs2 off) :=
  of_opcode (opcode_encB _ _ _ _ _) (by decide)
theorem bgeu (rs1 : Reg) (rs2 : Reg) (off : BitVec 13) : Statement (.bgeu rs1 rs2 off) :=
  of_opcode (opcode_encB _ _ _ _ _) (by decide)
theorem lb (rd : Reg) (rs1 : Reg) (imm : BitVec 12) : Statement (.lb rd rs1 imm) :=
  of_opcode (opcode_encI _ _ _ _ _) (by decide)
theorem lh (rd : Reg) (rs1 : Reg) (imm : BitVec 12) : Statement (.lh rd rs1 imm) :=
  of_opcode (opcode_encI _ _ _ _ _) (by decide)
theorem lw (rd : Reg) (rs1 : Reg) (imm : BitVec 12) : Statement (.lw rd rs1 imm) :=
  of_opcode (opcode_encI _ _ _ _ _) (by decide)
theorem lbu (rd : Reg) (rs1 : Reg) (imm : BitVec 12) : Statement (.lbu rd rs1 imm) :=
  of_opcode (opcode_encI _ _ _ _ _) (by decide)
theorem lhu (rd : Reg) (rs1 : Reg) (imm : BitVec 12) : Statement (.lhu rd rs1 imm) :=
  of_opcode (opcode_encI _ _ _ _ _) (by decide)
theorem sb (rs1 : Reg) (rs2 : Reg) (imm : BitVec 12) : Statement (.sb rs1 rs2 imm) :=
  of_opcode (opcode_encS _ _ _ _ _) (by decide)
theorem sh (rs1 : Reg) (rs2 : Reg) (imm : BitVec 12) : Statement (.sh rs1 rs2 imm) :=
  of_opcode (opcode_encS _ _ _ _ _) (by decide)
theorem sw (rs1 : Reg) (rs2 : Reg) (imm : BitVec 12) : Statement (.sw rs1 rs2 imm) :=
  of_opcode (opcode_encS _ _ _ _ _) (by decide)
theorem addi (rd : Reg) (rs1 : Reg) (imm : BitVec 12) : Statement (.addi rd rs1 imm) :=
  of_opcode (opcode_encI _ _ _ _ _) (by decide)
theorem slti (rd : Reg) (rs1 : Reg) (imm : BitVec 12) : Statement (.slti rd rs1 imm) :=
  of_opcode (opcode_encI _ _ _ _ _) (by decide)
theorem sltiu (rd : Reg) (rs1 : Reg) (imm : BitVec 12) : Statement (.sltiu rd rs1 imm) :=
  of_opcode (opcode_encI _ _ _ _ _) (by decide)
theorem xori (rd : Reg) (rs1 : Reg) (imm : BitVec 12) : Statement (.xori rd rs1 imm) :=
  of_opcode (opcode_encI _ _ _ _ _) (by decide)
theorem ori (rd : Reg) (rs1 : Reg) (imm : BitVec 12) : Statement (.ori rd rs1 imm) :=
  of_opcode (opcode_encI _ _ _ _ _) (by decide)
theorem andi (rd : Reg) (rs1 : Reg) (imm : BitVec 12) : Statement (.andi rd rs1 imm) :=
  of_opcode (opcode_encI _ _ _ _ _) (by decide)
theorem slli (rd : Reg) (rs1 : Reg) (shamt : Fin 32) : Statement (.slli rd rs1 shamt) :=
  of_opcode (opcode_encR _ _ _ _ _ _) (by decide)
theorem srli (rd : Reg) (rs1 : Reg) (shamt : Fin 32) : Statement (.srli rd rs1 shamt) :=
  of_opcode (opcode_encR _ _ _ _ _ _) (by decide)
theorem srai (rd : Reg) (rs1 : Reg) (shamt : Fin 32) : Statement (.srai rd rs1 shamt) :=
  of_opcode (opcode_encR _ _ _ _ _ _) (by decide)
theorem add (rd : Reg) (rs1 : Reg) (rs2 : Reg) : Statement (.add rd rs1 rs2) :=
  of_opcode (opcode_encR _ _ _ _ _ _) (by decide)
theorem sub (rd : Reg) (rs1 : Reg) (rs2 : Reg) : Statement (.sub rd rs1 rs2) :=
  of_opcode (opcode_encR _ _ _ _ _ _) (by decide)
theorem sll (rd : Reg) (rs1 : Reg) (rs2 : Reg) : Statement (.sll rd rs1 rs2) :=
  of_opcode (opcode_encR _ _ _ _ _ _) (by decide)
theorem slt (rd : Reg) (rs1 : Reg) (rs2 : Reg) : Statement (.slt rd rs1 rs2) :=
  of_opcode (opcode_encR _ _ _ _ _ _) (by decide)
theorem sltu (rd : Reg) (rs1 : Reg) (rs2 : Reg) : Statement (.sltu rd rs1 rs2) :=
  of_opcode (opcode_encR _ _ _ _ _ _) (by decide)
theorem xor (rd : Reg) (rs1 : Reg) (rs2 : Reg) : Statement (.xor rd rs1 rs2) :=
  of_opcode (opcode_encR _ _ _ _ _ _) (by decide)
theorem srl (rd : Reg) (rs1 : Reg) (rs2 : Reg) : Statement (.srl rd rs1 rs2) :=
  of_opcode (opcode_encR _ _ _ _ _ _) (by decide)
theorem sra (rd : Reg) (rs1 : Reg) (rs2 : Reg) : Statement (.sra rd rs1 rs2) :=
  of_opcode (opcode_encR _ _ _ _ _ _) (by decide)
theorem or (rd : Reg) (rs1 : Reg) (rs2 : Reg) : Statement (.or rd rs1 rs2) :=
  of_opcode (opcode_encR _ _ _ _ _ _) (by decide)
theorem and (rd : Reg) (rs1 : Reg) (rs2 : Reg) : Statement (.and rd rs1 rs2) :=
  of_opcode (opcode_encR _ _ _ _ _ _) (by decide)
theorem mul (rd : Reg) (rs1 : Reg) (rs2 : Reg) : Statement (.mul rd rs1 rs2) :=
  of_opcode (opcode_encR _ _ _ _ _ _) (by decide)
theorem mulh (rd : Reg) (rs1 : Reg) (rs2 : Reg) : Statement (.mulh rd rs1 rs2) :=
  of_opcode (opcode_encR _ _ _ _ _ _) (by decide)
theorem mulhsu (rd : Reg) (rs1 : Reg) (rs2 : Reg) : Statement (.mulhsu rd rs1 rs2) :=
  of_opcode (opcode_encR _ _ _ _ _ _) (by decide)
theorem mulhu (rd : Reg) (rs1 : Reg) (rs2 : Reg) : Statement (.mulhu rd rs1 rs2) :=
  of_opcode (opcode_encR _ _ _ _ _ _) (by decide)
theorem div (rd : Reg) (rs1 : Reg) (rs2 : Reg) : Statement (.div rd rs1 rs2) :=
  of_opcode (opcode_encR _ _ _ _ _ _) (by decide)
theorem divu (rd : Reg) (rs1 : Reg) (rs2 : Reg) : Statement (.divu rd rs1 rs2) :=
  of_opcode (opcode_encR _ _ _ _ _ _) (by decide)
theorem rem (rd : Reg) (rs1 : Reg) (rs2 : Reg) : Statement (.rem rd rs1 rs2) :=
  of_opcode (opcode_encR _ _ _ _ _ _) (by decide)
theorem remu (rd : Reg) (rs1 : Reg) (rs2 : Reg) : Statement (.remu rd rs1 rs2) :=
  of_opcode (opcode_encR _ _ _ _ _ _) (by decide)
theorem fence (rd : Reg) (rs1 : Reg) (fm : BitVec 4) (pred : BitVec 4) (succ : BitVec 4) : Statement (.fence rd rs1 fm pred succ) :=
  of_opcode (opcode_encI _ _ _ _ _) (by decide)
theorem fenceI (rd : Reg) (rs1 : Reg) (imm : BitVec 12) : Statement (.fenceI rd rs1 imm) :=
  of_opcode (opcode_encI _ _ _ _ _) (by decide)
theorem ecall : Statement .ecall :=
  of_opcode (op := 0x73#7) rfl (by decide)
theorem ebreak : Statement .ebreak :=
  of_opcode (op := 0x73#7) rfl (by decide)
theorem csrrw (rd : Reg) (rs1 : Reg) (csr : CsrAddr) : Statement (.csrrw rd rs1 csr) :=
  of_opcode (opcode_encI _ _ _ _ _) (by decide)
theorem csrrs (rd : Reg) (rs1 : Reg) (csr : CsrAddr) : Statement (.csrrs rd rs1 csr) :=
  of_opcode (opcode_encI _ _ _ _ _) (by decide)
theorem csrrc (rd : Reg) (rs1 : Reg) (csr : CsrAddr) : Statement (.csrrc rd rs1 csr) :=
  of_opcode (opcode_encI _ _ _ _ _) (by decide)
theorem csrrwi (rd : Reg) (uimm : BitVec 5) (csr : CsrAddr) : Statement (.csrrwi rd uimm csr) :=
  of_opcode (opcode_encI _ _ _ _ _) (by decide)
theorem csrrsi (rd : Reg) (uimm : BitVec 5) (csr : CsrAddr) : Statement (.csrrsi rd uimm csr) :=
  of_opcode (opcode_encI _ _ _ _ _) (by decide)
theorem csrrci (rd : Reg) (uimm : BitVec 5) (csr : CsrAddr) : Statement (.csrrci rd uimm csr) :=
  of_opcode (opcode_encI _ _ _ _ _) (by decide)
theorem sfenceVma (rs1 : Reg) (rs2 : Reg) : Statement (.sfenceVma rs1 rs2) :=
  of_opcode (opcode_encR _ _ _ _ _ _) (by decide)
theorem lrW (rd : Reg) (rs1 : Reg) (aq : Bool) (rl : Bool) : Statement (.lrW rd rs1 aq rl) :=
  of_opcode (opcode_encR _ _ _ _ _ _) (by decide)
theorem scW (rd : Reg) (rs1 : Reg) (rs2 : Reg) (aq : Bool) (rl : Bool) : Statement (.scW rd rs1 rs2 aq rl) :=
  of_opcode (opcode_encR _ _ _ _ _ _) (by decide)
theorem amoswapW (rd : Reg) (rs1 : Reg) (rs2 : Reg) (aq : Bool) (rl : Bool) : Statement (.amoswapW rd rs1 rs2 aq rl) :=
  of_opcode (opcode_encR _ _ _ _ _ _) (by decide)
theorem amoaddW (rd : Reg) (rs1 : Reg) (rs2 : Reg) (aq : Bool) (rl : Bool) : Statement (.amoaddW rd rs1 rs2 aq rl) :=
  of_opcode (opcode_encR _ _ _ _ _ _) (by decide)
theorem amoxorW (rd : Reg) (rs1 : Reg) (rs2 : Reg) (aq : Bool) (rl : Bool) : Statement (.amoxorW rd rs1 rs2 aq rl) :=
  of_opcode (opcode_encR _ _ _ _ _ _) (by decide)
theorem amoandW (rd : Reg) (rs1 : Reg) (rs2 : Reg) (aq : Bool) (rl : Bool) : Statement (.amoandW rd rs1 rs2 aq rl) :=
  of_opcode (opcode_encR _ _ _ _ _ _) (by decide)
theorem amoorW (rd : Reg) (rs1 : Reg) (rs2 : Reg) (aq : Bool) (rl : Bool) : Statement (.amoorW rd rs1 rs2 aq rl) :=
  of_opcode (opcode_encR _ _ _ _ _ _) (by decide)
theorem amominW (rd : Reg) (rs1 : Reg) (rs2 : Reg) (aq : Bool) (rl : Bool) : Statement (.amominW rd rs1 rs2 aq rl) :=
  of_opcode (opcode_encR _ _ _ _ _ _) (by decide)
theorem amomaxW (rd : Reg) (rs1 : Reg) (rs2 : Reg) (aq : Bool) (rl : Bool) : Statement (.amomaxW rd rs1 rs2 aq rl) :=
  of_opcode (opcode_encR _ _ _ _ _ _) (by decide)
theorem amominuW (rd : Reg) (rs1 : Reg) (rs2 : Reg) (aq : Bool) (rl : Bool) : Statement (.amominuW rd rs1 rs2 aq rl) :=
  of_opcode (opcode_encR _ _ _ _ _ _) (by decide)
theorem amomaxuW (rd : Reg) (rs1 : Reg) (rs2 : Reg) (aq : Bool) (rl : Bool) : Statement (.amomaxuW rd rs1 rs2 aq rl) :=
  of_opcode (opcode_encR _ _ _ _ _ _) (by decide)

end Sys2Proof.Laws.OpcodeSupported
end

