-- ==== Sys2Proof/Laws/Poll.lean ====
section
/-! SUPPORT. The IPI matrix and the poll with a Host that does nothing (spec 60_exceptions.md R330, R331). -/

namespace Sys2Proof.Machine

/-- Everything a poll of the sources `l` does when the Host does nothing: which cells it empties, what it records, what the trap CSRs show. -/
structure Delivered (s t : State) (l : List Nat) (any : Bool) : Prop where
  frame : t = { s with
            grid := t.grid, draws := t.draws,
            hart := { s.hart with
              interruptedBy := t.hart.interruptedBy, interruptCode := t.hart.interruptCode,
              csr := { s.hart.csr with
                mcause := t.hart.csr.mcause, mepc := t.hart.csr.mepc, mtval := t.hart.csr.mtval } } }
  anyIff : any = true ↔ ∃ src ∈ l, s.gridRead s.hart.id src ≠ 0#32
  none : any = false → t = s
  empty : ∀ src ∈ l, t.gridRead s.hart.id src = 0#32
  other : ∀ dst src, src ≤ s.cfg.hartCount → ¬ (dst = s.hart.id ∧ src ∈ l) → t.gridRead dst src = s.gridRead dst src
  last : ∀ src ∈ l, s.gridRead s.hart.id src ≠ 0#32 → (∀ later ∈ l, src < later → s.gridRead s.hart.id later = 0#32) →
     t.hart.interruptedBy = src ∧ t.hart.interruptCode = s.gridRead s.hart.id src ∧ t.hart.csr.mcause = 0x80B#32 ∧
          t.hart.csr.mepc = s.hart.pc

/-- A cell of the IPI matrix after a write of a cell. -/
theorem gridRead_write (s : State) (d c d2 c2 : Nat) (v : Word) (h1 : c ≤ s.cfg.hartCount) (h2 : c2 ≤ s.cfg.hartCount) :
    (s.gridWrite d c v).gridRead d2 c2 = if d2 = d ∧ c2 = c then v else s.gridRead d2 c2 := by
  have hk : (d2 * (s.cfg.hartCount + 1) + c2 = d * (s.cfg.hartCount + 1) + c) ↔ (d2 = d ∧ c2 = c) := by
    constructor
    · intro h
      have e1 := congrArg (· / (s.cfg.hartCount + 1)) h
      rw [Nat.mul_comm, Nat.mul_add_div (by omega), Nat.mul_comm d, Nat.mul_add_div (by omega), Nat.div_eq_of_lt (by omega), Nat.div_eq_of_lt (by omega)] at e1
      have : d2 = d := by simpa using e1
      subst this
      exact ⟨rfl, by omega⟩
    · rintro ⟨rfl, rfl⟩; rfl
  simp only [State.gridRead, State.gridWrite, State.gridKey]
  rw [Sparse.get_set]
  simp only [hk]

/-- A poll of rising sources with a Host that does nothing. -/
theorem pollFrom_quiet (l : List Nat) (s : State) (hq : s.replies = []) (hs : l.Pairwise (· < ·)) (hle : ∀ k ∈ l, k ≤ s.cfg.hartCount) :
    Delivered s (pollFrom l s).2 l (pollFrom l s).1 := by
  induction l generalizing s with
  | nil => exact ⟨rfl, by simp [pollFrom], fun _ => rfl, by simp, fun _ _ _ _ => rfl, by simp⟩
  | cons src rest ih =>
    rw [List.pairwise_cons] at hs
    unfold pollFrom
    by_cases h0 : s.gridRead s.hart.id src = 0#32
    · rw [if_pos h0]
      have := ih s hq hs.2 (fun k hk => hle k (by simp [hk]))
      refine ⟨this.frame, ?_, this.none, ?_, ?_, ?_⟩
      · rw [this.anyIff]; simp [h0]
      · intro k hk
        rcases List.mem_cons.1 hk with rfl | hk
        · by_cases hm : k ∈ rest
          · exact this.empty k hm
          · rw [this.other _ _ (hle k (by simp)) (fun h => hm h.2)]; exact h0
        · exact this.empty k hk
      · intro d c hc hn
        exact this.other d c hc (fun h => hn ⟨h.1, by simp [h.2]⟩)
      · intro k hk hne hl
        rcases List.mem_cons.1 hk with rfl | hk
        · exact absurd h0 hne
        · exact this.last k hk hne (fun later h1 h2 => hl later (by simp [h1]) h2)
    · rw [if_neg h0]
      obtain ⟨v, n, hv⟩ : ∃ v n, interrupt externalReason (.poll src) (s.setPending src (s.gridRead s.hart.id src)) = trapSaved (s.setPending src (s.gridRead s.hart.id src)) externalReason v n := by
        refine ⟨Config.freeWord s.draws, s.draws + 1, ?_⟩
        rw [interrupt_eq, present_trapSaved _ _ _ _ _ (by exact hq)]; rfl
      dsimp only
      rw [show deliverExternal src s = interrupt externalReason (.poll src) (s.setPending src (s.gridRead s.hart.id src)) from rfl, hv]
      generalize hu : trapSaved (s.setPending src (s.gridRead s.hart.id src)) externalReason v n = u
      have hh : held s u = false := by rw [← hu]; simp [held]
      rw [hh]; simp only [Bool.false_eq_true, if_false]
      have hcfg : u.cfg = s.cfg := by rw [← hu]; rfl
      have hid : u.hart.id = s.hart.id := by rw [← hu]; rfl
      have hg : ∀ d c, u.gridRead d c = s.gridRead d c := by intro d c; rw [← hu]; rfl
      have hih := ih (u.gridWrite u.hart.id src 0#32) (by rw [← hu]; exact hq) hs.2 (fun k hk => by
        rw [State.gridWrite_cfg, hcfg]; exact hle k (by simp [hk]))
      generalize hu2 : u.gridWrite u.hart.id src 0#32 = u2 at hih
      have hg2 : ∀ d c, c ≤ s.cfg.hartCount → u2.gridRead d c = if d = s.hart.id ∧ c = src then 0#32 else s.gridRead d c := by
        intro d c hc
        rw [← hu2, gridRead_write _ _ _ _ _ _ (by rw [hcfg]; exact hle src (by simp)) (by rw [hcfg]; exact hc), hid, hg]
      have hid2 : u2.hart.id = s.hart.id := by rw [← hu2]; exact hid
      have hcfg2 : u2.cfg = s.cfg := by rw [← hu2]; exact hcfg
      have hsrc : src ∉ rest := fun h => absurd (hs.1 src h) (by omega)
      refine ⟨?_, ?_, by simp, ?_, ?_, ?_⟩
      · rw [hih.frame, ← hu2, ← hu]; rfl
      · simp only [true_iff]; exact ⟨src, by simp, h0⟩
      · intro k hk
        rcases List.mem_cons.1 hk with rfl | hk
        · have := hih.other s.hart.id k (by rw [hcfg2]; exact hle k (by simp)) (by rintro ⟨-, h⟩; exact hsrc h)
          rw [this, hg2 _ _ (hle k (by simp)), if_pos ⟨rfl, rfl⟩]
        · have := hih.empty k hk; rw [hid2] at this; exact this
      · intro d c hc hn
        rw [hih.other d c (by rw [hcfg2]; exact hc) (fun h => hn ⟨by rw [← hid2]; exact h.1, by simp [h.2]⟩), hg2 d c hc, if_neg]
        rintro ⟨rfl, rfl⟩; exact hn ⟨rfl, by simp⟩
      · intro k hk hne hl
        rcases List.mem_cons.1 hk with rfl | hk
        · have hany : (pollFrom rest u2).1 = false := by
            cases hb : (pollFrom rest u2).1 with
            | false => rfl
            | true =>
              obtain ⟨j, hj, hj2⟩ := hih.anyIff.1 hb
              exfalso
              rw [hid2, hg2 _ _ (hle j (by simp [hj])), if_neg (by rintro ⟨-, rfl⟩; exact hsrc hj)] at hj2
              exact hj2 (hl j (by simp [hj]) (hs.1 j hj))
          rw [hih.none hany, ← hu2, ← hu]
          exact ⟨rfl, rfl, rfl, rfl⟩
        · have hks : k ≠ src := fun h => hsrc (h ▸ hk)
          have hkv : u2.gridRead u2.hart.id k = s.gridRead s.hart.id k := by
            rw [hid2, hg2 _ _ (hle k (by simp [hk])), if_neg (fun h => hks h.2)]
          have := hih.last k hk (by rw [hkv]; exact hne) (by
            intro later h1 h2
            rw [hid2, hg2 _ _ (hle later (by simp [h1])), if_neg (by rintro ⟨-, rfl⟩; exact hsrc h1)]
            exact hl later (by simp [h1]) h2)
          rw [hkv] at this
          refine ⟨this.1, this.2.1, this.2.2.1, this.2.2.2.trans ?_⟩
          rw [← hu2, ← hu]; rfl

/-- The polled sources. -/
theorem polled_iff (s : State) (src : Nat) : src ∈ pollSources s.cfg s.hart.id ↔ Polled s src := by
  unfold pollSources Polled
  simp only [List.mem_filter, decide_eq_true_eq]
  by_cases h : s.cfg.ipiEnable = true
  · simp [h]
  · simp [h]; omega

/-- Sources are polled in rising order. -/
theorem sources_sorted (c : Config) (h : Nat) : (pollSources c h).Pairwise (· < ·) := by
  unfold pollSources
  apply List.Pairwise.filter
  split
  · exact List.pairwise_lt_range
  · simp

end Sys2Proof.Machine
end

