-- ==== Sys2Proof/Laws/Sv32.lean ====
section
/-! SUPPORT. The bits of page-table entries, the two levels of a walk, and the slots of a TLB (spec 20_memory.md R100-R122). -/

namespace Sys2Proof.Machine

/-! ## Page-table entries and the walk -/

/-- A page-table entry read is the word of `Mem` in range (R114 step 2). -/
theorem pteAt_eq (s : State) (p : Word) : physLoadWord s.cfg s.mem p = pteAt s p.toNat := by
  unfold physLoadWord readRaw pteAt inRange
  simp only [decide_eq_true_eq]
  split
  · simp only [Option.map_some, leWord_readBytes]
  · rfl

/-- The root entry's address. -/
theorem root_eq (s : State) (v : Word) : (rootTable s.hart.csr.satp + vpnOf v 1 * 4#32).toNat = rootEntryAddress s v := by
  have h1 : (s.hart.csr.satp &&& 0x003FFFFF#32).toNat = s.hart.csr.satp.toNat % 2^22 := by
    rw [BitVec.toNat_and]; exact Nat.and_two_pow_sub_one_eq_mod _ 22
  have h2 : ((v >>> (12 + 10 * 1)) &&& 0x3FF#32).toNat = v.toNat / 2^22 := by
    rw [BitVec.toNat_and, BitVec.toNat_ushiftRight, Nat.shiftRight_eq_div_pow]
    have := Nat.and_two_pow_sub_one_eq_mod (v.toNat / 2^22) 10
    have h3 := v.isLt
    norm_num at this ⊢; rw [this]; omega
  unfold rootTable vpnOf rootEntryAddress
  rw [BitVec.toNat_add, BitVec.toNat_mul, BitVec.toNat_mul, h1, h2]
  simp only [BitVec.toNat_ofNat]
  omega

/-- The second-level entry's address. -/
theorem leaf_eq (pte v : Word) : (((pte >>> 10) * 4096#32) + vpnOf v 0 * 4#32).toNat = leafEntryAddress pte v := by
  have h2 : ((v >>> (12 + 10 * 0)) &&& 0x3FF#32).toNat = v.toNat / 2^12 % 2^10 := by
    rw [BitVec.toNat_and, BitVec.toNat_ushiftRight, Nat.shiftRight_eq_div_pow]
    exact Nat.and_two_pow_sub_one_eq_mod _ 10
  unfold vpnOf leafEntryAddress
  rw [BitVec.toNat_add, BitVec.toNat_mul, BitVec.toNat_mul, h2, BitVec.toNat_ushiftRight, Nat.shiftRight_eq_div_pow]
  simp only [BitVec.toNat_ofNat]
  omega

/-- A bit of a word as a digit of its number. -/
theorem bitn (w : Word) (n : Nat) : w.getLsbD n = decide (w.toNat / 2^n % 2 = 1) := by
  rw [BitVec.getLsbD, Nat.testBit, Nat.shiftRight_eq_div_pow]
  simp only [Nat.one_and_eq_mod_two]
  rcases Nat.mod_two_eq_zero_or_one (w.toNat / 2^n) with h | h <;> simp [h]

/-- Step 3 of the walk. -/
theorem bad_iff (pte : Word) : (pteV pte = false ∨ (pteR pte = false ∧ pteW pte = true)) ↔ badEntry pte := by
  simp only [pteV, pteR, pteW, bitn, badEntry, xwrv, decide_eq_false_iff_not, decide_eq_true_eq]
  have : pte.toNat % 16 < 16 := Nat.mod_lt _ (by decide)
  omega

/-- Step 4 of the walk. -/
theorem ptr_iff (pte : Word) (h : ¬ badEntry pte) : (pteR pte = false ∧ pteX pte = false) ↔ pointerEntry pte := by
  simp only [pteX, pteR, bitn, pointerEntry, badEntry, xwrv, decide_eq_false_iff_not] at h ⊢
  omega

/-- A leaf passes steps 3 and 4. -/
theorem leaf_not_bad (pte : Word) (h : leafEntry pte) : ¬ badEntry pte ∧ ¬ pointerEntry pte := by
  simp only [leafEntry, pointerEntry, badEntry, List.mem_cons, List.not_mem_nil, or_false] at h ⊢
  omega

/-- A pointer passes step 3. -/
theorem ptr_not_bad (pte : Word) (h : pointerEntry pte) : ¬ badEntry pte := by
  simp only [pointerEntry, badEntry] at h ⊢
  omega

/-- The alignment test of a megapage (step 5). -/
theorem ppn0_iff (pte : Word) : pte.extractLsb' 10 10 ≠ 0#10 ↔ pte.toNat / 2^10 % 2^10 ≠ 0 := by
  rw [not_iff_not, ← BitVec.toNat_inj, BitVec.extractLsb'_toNat, Nat.shiftRight_eq_div_pow]; simp

/-- A mask is contained in a word iff all its bits are. -/
theorem mask_iff (w m : Word) : (w &&& m = m) ↔ ∀ i, i < 32 → m.getLsbD i = true → w.getLsbD i = true := by
  constructor
  · intro h i hi hm
    have := congrArg (fun x => x.getLsbD i) h
    simp only [BitVec.getLsbD_and, hm, Bool.and_true] at this; exact this
  · intro h
    apply BitVec.eq_of_getLsbD_eq
    intro i hi
    rw [BitVec.getLsbD_and]
    cases hm : m.getLsbD i
    · simp
    · simp only [Bool.and_true]; exact h i hi hm

/-- The permission check, by masks (R117). -/
theorem permitted_iff (pte : Word) (t : AccessType) : permitted pte t = true ↔ Allows pte t := by
  cases t <;> simp only [permitted, Allows, mask_iff, Bool.and_eq_true, pteU, pteX, pteA, pteR, pteW, pteD]
  · constructor
    · rintro ⟨⟨h1, h2⟩, h3⟩ i hi hm
      interval_cases i <;> simp_all
    · intro h
      refine ⟨⟨h 4 (by decide) (by decide), h 1 (by decide) (by decide)⟩, h 6 (by decide) (by decide)⟩
  · constructor
    · rintro ⟨⟨⟨h1, h2⟩, h3⟩, h4⟩ i hi hm
      interval_cases i <;> simp_all
    · intro h
      refine ⟨⟨⟨h 4 (by decide) (by decide), h 2 (by decide) (by decide)⟩, h 6 (by decide) (by decide)⟩, h 7 (by decide) (by decide)⟩
  · constructor
    · rintro ⟨⟨h1, h2⟩, h3⟩ i hi hm
      interval_cases i <;> simp_all
    · intro h
      refine ⟨⟨h 4 (by decide) (by decide), h 3 (by decide) (by decide)⟩, h 6 (by decide) (by decide)⟩

/-- The sign bit of a word. -/
theorem getLsbD31 (w : Word) : w.getLsbD 31 = false ↔ w.toNat < 2 ^ 31 := by
  rw [BitVec.getLsbD, Nat.testBit, Nat.shiftRight_eq_div_pow]
  simp only [Nat.one_and_eq_mod_two, bne_eq_false_iff_eq]
  have := w.isLt; omega

/-- Translation is on when `SATP` bit 31 is set. -/
theorem satp31 (s : State) (h : 2^31 ≤ s.hart.csr.satp.toNat) : ¬ s.hart.csr.satp.getLsbD 31 = false := by
  rw [getLsbD31]; omega

/-- A translation that misses the TLB. -/
theorem translate_miss (s : State) (t v) (h : 2^31 ≤ s.hart.csr.satp.toNat) (hm : tlbLoad s.cfg (s.tlb t.stream) (vpiOf s.hart.csr.satp v) = none) :
    translateVa t v s = match walk s.cfg s.mem v 1 (rootTable s.hart.csr.satp) with
      | none => .exc ⟨t.pageFault, some v⟩ s
      | some (level, pte) =>
        if permitted pte t then
          .ok (walkAddress level pte v)
            (s.setTlb t.stream (tlbStore s.cfg (s.tlb t.stream) (vpiOf s.hart.csr.satp v) (foldedPte level pte v)))
        else .exc ⟨t.pageFault, some v⟩ s := by
  rw [translateVa, tlbTranslate, if_neg (satp31 s h), hm]
  rfl

/-- A translation that hits the TLB (R122). -/
theorem translate_hit (s : State) (t v) (pte : Word) (h : 2^31 ≤ s.hart.csr.satp.toNat)
    (hm : tlbLoad s.cfg (s.tlb t.stream) (vpiOf s.hart.csr.satp v) = some pte) :
    translateVa t v s = if permitted pte t then .ok (hitAddress pte v) s else .exc ⟨t.pageFault, some v⟩ s := by
  rw [translateVa, tlbTranslate, if_neg (satp31 s h), hm]
  rfl

/-- A translation in bare mode (R112). -/
theorem translate_bare (s : State) (t v) (h : s.hart.csr.satp.getLsbD 31 = false) : translateVa t v s = .ok v s := by
  rw [translateVa, tlbTranslate, if_pos h]

/-- The walk from the root table. -/
theorem walk_root (s : State) (v : Word) : walk s.cfg s.mem v 1 (rootTable s.hart.csr.satp) =
   match pteAt s (rootEntryAddress s v) with
   | none => none
   | some pte =>
    if pteV pte = false ∨ (pteR pte = false ∧ pteW pte = true) then none
    else if pteR pte = false ∧ pteX pte = false then walk s.cfg s.mem v 0 ((pte >>> 10) * 4096#32)
    else if 0 < 1 ∧ pte.extractLsb' 10 10 ≠ 0#10 then none
    else some (1, pte) := by
  rw [walk, readPte, pteAt_eq, root_eq]
  cases pteAt s (rootEntryAddress s v) with
  | none => rfl
  | some pte =>
    simp only
    repeat' split
    all_goals simp_all

/-- The walk's second level. -/
theorem walk_leaf (s : State) (p v : Word) : walk s.cfg s.mem v 0 ((p >>> 10) * 4096#32) =
   match pteAt s (leafEntryAddress p v) with
   | none => none
   | some pte =>
    if pteV pte = false ∨ (pteR pte = false ∧ pteW pte = true) then none
    else if pteR pte = false ∧ pteX pte = false then none
    else some (0, pte) := by
  rw [walk, readPte, pteAt_eq, leaf_eq]
  cases pteAt s (leafEntryAddress p v) with
  | none => rfl
  | some pte =>
    simp only
    repeat' split
    all_goals simp_all

/-- The physical address of a 4 KiB page. -/
theorem hitAddr (pte v : Word) : (((pte &&& 0xFFFFFC00#32) <<< 2) ||| (v &&& 0xFFF#32)).toNat = (pte.toNat / 2 ^ 10 * 4096) % 2 ^ 32 + v.toNat % 4096 := by
  have h1 : ((pte &&& 0xFFFFFC00#32) <<< 2) = BitVec.ofNat 32 (pte.toNat / 2^10 * 4096) := by
    have : (pte &&& 0xFFFFFC00#32) = (pte >>> 10) <<< 10 := by
      apply BitVec.eq_of_getLsbD_eq; intro i hi
      simp only [BitVec.getLsbD_and, BitVec.getLsbD_shiftLeft, BitVec.getLsbD_ushiftRight]
      by_cases h : i < 10
      · have : (0xFFFFFC00#32).getLsbD i = false := by interval_cases i <;> rfl
        simp [this, h]
      · have : (0xFFFFFC00#32).getLsbD i = true := by interval_cases i <;> rfl
        simp [this, h, hi, show 10 + (i - 10) = i by omega]
    rw [this]
    apply BitVec.eq_of_toNat_eq
    simp only [BitVec.toNat_shiftLeft, BitVec.toNat_ushiftRight, Nat.shiftLeft_eq, Nat.shiftRight_eq_div_pow, BitVec.toNat_ofNat]
    omega
  have h2 : (v &&& 0xFFF#32).toNat = v.toNat % 4096 := by
    rw [BitVec.toNat_and]; exact Nat.and_two_pow_sub_one_eq_mod _ 12
  rw [h1, BitVec.toNat_or, h2, BitVec.toNat_ofNat]
  have : (pte.toNat / 2 ^ 10 * 4096) % 2 ^ 32 = 2^12 * (pte.toNat / 2^10 % 2^20) := by omega
  rw [this, ← Nat.two_pow_add_eq_or_of_lt (by omega : v.toNat % 4096 < 2^12)]

/-! ## TLB slots -/

/-- A stored entry is not the sentinel. -/
theorem entry_key (vpi pte : Word) (h : vpi.toNat < 2^31) : tlbEntry vpi pte ≠ tlbSentinel := by
  intro he
  have := congrArg BitVec.toNat he
  simp only [tlbEntry, BitVec.toNat_append, tlbSentinel, BitVec.toNat_ofNat] at this
  rw [← Nat.shiftLeft_add_eq_or_of_lt pte.isLt, Nat.shiftLeft_eq] at this
  have := pte.isLt
  omega

/-- A stored entry's key. -/
theorem entry_hi (vpi pte : Word) : (tlbEntry vpi pte).extractLsb' 32 32 = vpi := by
  apply BitVec.eq_of_getLsbD_eq; intro i hi
  rw [BitVec.getLsbD_extractLsb', tlbEntry, BitVec.getLsbD_append]
  simp [hi]

/-- A stored entry's PTE. -/
theorem entry_lo (vpi pte : Word) : (tlbEntry vpi pte).extractLsb' 0 32 = pte := by
  apply BitVec.eq_of_getLsbD_eq; intro i hi
  rw [BitVec.getLsbD_extractLsb', tlbEntry, BitVec.getLsbD_append]
  simp [hi]

/-- An entry is its key and its PTE. -/
theorem entry_split (e : DWord) : e = e.extractLsb' 32 32 ++ e.extractLsb' 0 32 := by
  apply BitVec.eq_of_getLsbD_eq; intro i hi
  rw [BitVec.getLsbD_append]
  by_cases h : i < 32
  · simp [h]
  · simp [h, show i - 32 < 32 by omega, show 32 + (i - 32) = i by omega]

/-- Which key a stored entry answers. -/
theorem matches_entry (vpi pte key : Word) (h : vpi.toNat < 2^31) : tlbMatches (tlbEntry vpi pte) key = true ↔ key = vpi := by
  simp [tlbMatches, entry_key _ _ h, entry_hi, eq_comm]

/-- The probed slots are slots of the TLB (R102). -/
theorem slots_lt (c : Config) (vpi : Word) (hc : c.wf = true) : ∀ k ∈ tlbSlots c vpi, k < c.tlbSize := by
  intro k hk
  simp only [Config.wf, Bool.and_eq_true, decide_eq_true_eq] at hc
  simp only [tlbSlots, List.mem_map] at hk
  obtain ⟨i, -, rfl⟩ := hk
  exact Nat.mod_lt _ (by omega)

/-- The primary slot is probed first (R102). -/
theorem primary_mem (c : Config) (vpi : Word) (hc : c.wf = true) : ∃ rest, tlbSlots c vpi = (vpi.toNat % c.tlbSize) :: rest := by
  simp only [Config.wf, Bool.and_eq_true, decide_eq_true_eq] at hc
  obtain ⟨d, hd⟩ : ∃ d, c.tlbDepth = d + 1 := ⟨c.tlbDepth - 1, by omega⟩
  rw [tlbSlots, hd, List.range_succ_eq_map]
  simp

/-- A slot after a write. -/
theorem entry_set (t : Tlb) (k j : Nat) (e : DWord) (hk : k < t.length) : Tlb.entry (t.set k e) j = if j = k then e else t.entry j := by
  unfold Tlb.entry
  by_cases h : j = k
  · subst h; simp [hk]
  · simp [h, List.getElem?_set_ne (Ne.symm h)]

/-- A slot after the replacement emptied the probed ones. -/
theorem entry_foldl (l : List Nat) (t : Tlb) (j : Nat) : Tlb.entry (l.foldl (fun u k => u.set k tlbSentinel) t) j = if j ∈ l then tlbSentinel else t.entry j := by
  by_cases hj : j < t.length
  · exact getD_foldl_set l t _ _ j hj
  · have h1 : Tlb.entry (l.foldl (fun u k => u.set k tlbSentinel) t) j = tlbSentinel := by
      unfold Tlb.entry; rw [List.getD_eq_default]; rw [length_foldl_set]; omega
    have h2 : t.entry j = tlbSentinel := by unfold Tlb.entry; rw [List.getD_eq_default]; omega
    rw [h1, h2]; simp

/-- What a TLB store leaves: one probed slot holds the entry, every other slot holds what it held or is empty. -/
theorem store_slots (c : Config) (t : Tlb) (vpi pte : Word) (hc : c.wf = true) (hl : t.length = c.tlbSize) :
    ∃ k ∈ tlbSlots c vpi, (tlbStore c t vpi pte).entry k = tlbEntry vpi pte ∧
     ∀ j, j ≠ k → (tlbStore c t vpi pte).entry j = t.entry j ∨ (tlbStore c t vpi pte).entry j = tlbSentinel := by
  unfold tlbStore
  split
  · next k hk =>
    have hm := List.mem_of_find?_eq_some hk
    have hlt : k < t.length := by rw [hl]; exact slots_lt _ _ hc k hm
    refine ⟨k, hm, ?_, fun j hj => .inl ?_⟩
    · rw [entry_set _ _ _ _ hlt, if_pos rfl]
    · rw [entry_set _ _ _ _ hlt, if_neg hj]
  · obtain ⟨rest, hr⟩ := primary_mem c vpi hc
    have hm : vpi.toNat % c.tlbSize ∈ tlbSlots c vpi := by rw [hr]; simp
    have hlt : vpi.toNat % c.tlbSize < ((tlbSlots c vpi).foldl (fun u k => u.set k tlbSentinel) t).length := by
      rw [length_foldl_set, hl]; exact slots_lt _ _ hc _ hm
    refine ⟨_, hm, ?_, fun j hj => ?_⟩
    · rw [entry_set _ _ _ _ hlt, if_pos rfl]
    · rw [entry_set _ _ _ _ hlt, if_neg hj, entry_foldl]
      split
      · exact .inr rfl
      · exact .inl rfl

/-- A probe misses iff no probed slot matches. -/
theorem tlbLoad_none (c : Config) (t : Tlb) (vpi : Word) : tlbLoad c t vpi = none ↔ ∀ k ∈ tlbSlots c vpi, tlbMatches (t.entry k) vpi = false := by
  simp [tlbLoad]

end Sys2Proof.Machine
end

