-- ==== Sys2Proof/Tests/Slice0.lean ====
section
/-! SUPPORT. Tests: the checks of WellFormed; every constructor's decoding from a word the spec writes out (95_test_vectors.md); one-step
results the spec works out; and, for every statement with hypotheses, a concrete state and operands that meet them. -/

namespace Sys2Proof.Tests

open Sys2Proof.Machine

/-! ## Helpers -/

/-- A small configuration, so that tests evaluate fast; 0x340 is supported as in 95_test_vectors.md P4. -/
def tiny : Config :=
  { hartCount := 2, memLog2 := 0, lineLog2 := 3, cacheSlots := 2, tlbSize := 4, tlbDepth := 2, pollInterval := 100,
    ipiEnable := true, cacheEnable := true, csrSupported := Config.namedCsrs ++ [0x340#12], resMatchExtra := [] }

/-- Hart 0 running at `pc` with these registers. -/
def start (pc : Word) (regs : List (Reg × Word)) : State :=
  let s := State.resetWith tiny
  regs.foldl (fun u r => u.writeX r.1 r.2) (s.setHart { s.hart with pc := pc, life := .running })

/-- Words placed in `Mem`. -/
def withWords (s : State) (ws : List (Nat × Word)) : State :=
  s.setMem (ws.foldl (fun m w => Memory.writeBytes m w.1 (leBytes 4 w.2)) s.mem)

/-- A CSR set. -/
def withCsr (s : State) (a : CsrAddr) (v : Word) : State := s.writeCsr a v

def nextOf (o : Host.Outcome State Fault Refusal) : Option State :=
  match o with
  | .next t => some t
  | _ => none

/-- The state after the step that runs the word `w`. -/
def after (w : Word) (s : State) : Option State := nextOf (step (s.withFetchWord 32 w.toNat))

/-- A register after the word `w`. -/
def reg (w : Word) (s : State) (r : Reg) : Option Word := (after w s).map (fun t => t.readX r)

/-- The pc after the word `w`. -/
def pcAfter (w : Word) (s : State) : Option Word := (after w s).map (fun t => t.hart.pc)

/-- `MCAUSE`, `MEPC` and the pc after the word `w`. -/
def trapped (w : Word) (s : State) : Option (Word × Word × Word) :=
  (after w s).map (fun t => (t.hart.csr.mcause, t.hart.csr.mepc, t.hart.pc))

/-- `MTVAL` after the word `w`. -/
def mtvalAfter (w : Word) (s : State) : Option Word := (after w s).map (fun t => t.hart.csr.mtval)

/-- The hart's view of four bytes after the word `w`. -/
def viewAfter (w : Word) (s : State) (a : Nat) : Option (List Byte) := (after w s).map (fun t => viewBytes t a 4)

/-- The word of `Mem` at `p` after the word `w`. -/
def memAfter (w : Word) (s : State) (p : Word) : Option Word := (after w s).map (fun t => memWord t p)

/-- The reservation of hart 0 after the word `w`. -/
def resAfter (w : Word) (s : State) : Option Reservation := (after w s).map (fun t => reservationOf t 0)

def faultOf (o : Host.Outcome State Fault Refusal) : Option Fault :=
  match o with
  | .fault f => some f
  | _ => none

def refusalOf (o : Host.Outcome State Fault Refusal) : Option Refusal :=
  match o with
  | .refused r => some r
  | _ => none

/-! ## WellFormed: the offset checks (30_encoding.md R163) -/

theorem test_illformed_jal : WellFormed (.jal 1 3#21) = false := by decide
theorem test_illformed_beq : WellFormed (.beq 1 2 5#13) = false := by decide
theorem test_illformed_bne : WellFormed (.bne 1 2 1#13) = false := by decide
theorem test_illformed_blt : WellFormed (.blt 1 2 7#13) = false := by decide
theorem test_illformed_bge : WellFormed (.bge 1 2 0x1FFF#13) = false := by decide
theorem test_illformed_bltu : WellFormed (.bltu 1 2 9#13) = false := by decide
theorem test_illformed_bgeu : WellFormed (.bgeu 1 2 3#13) = false := by decide

/-! ## Decoding (95_test_vectors.md parts 2.1 to 2.8): every constructor from a word of the spec -/

theorem test_decode_jal_jalr :
    decode 0x008000EF#32 = .instr (.jal 1 8#21) ∧
      decode 0xFFDFF06F#32 = .instr (.jal 0 0x1FFFFC#21) ∧
      decode 0x7FFFF06F#32 = .instr (.jal 0 0x0FFFFE#21) ∧
      decode 0x8000006F#32 = .instr (.jal 0 0x100000#21) ∧
      decode 0x004280E7#32 = .instr (.jalr 1 5 4#12) := by
  decide

theorem test_decode_branches :
    decode 0x00208863#32 = .instr (.beq 1 2 16#13) ∧
      decode 0xFE209CE3#32 = .instr (.bne 1 2 0x1FF8#13) ∧
      decode 0x0020C863#32 = .instr (.blt 1 2 16#13) ∧
      decode 0x0020D863#32 = .instr (.bge 1 2 16#13) ∧
      decode 0x0020E863#32 = .instr (.bltu 1 2 16#13) ∧
      decode 0x0020F863#32 = .instr (.bgeu 1 2 16#13) ∧
      decode 0x80000063#32 = .instr (.beq 0 0 0x1000#13) ∧
      decode 0x7E000FE3#32 = .instr (.beq 0 0 0x0FFE#13) := by
  decide

theorem test_decode_loads :
    decode 0x00830283#32 = .instr (.lb 5 6 8#12) ∧
      decode 0x00831283#32 = .instr (.lh 5 6 8#12) ∧
      decode 0x00832283#32 = .instr (.lw 5 6 8#12) ∧
      decode 0x00834283#32 = .instr (.lbu 5 6 8#12) ∧
      decode 0x00835283#32 = .instr (.lhu 5 6 8#12) := by
  decide

theorem test_decode_stores :
    decode 0x00730423#32 = .instr (.sb 6 7 8#12) ∧
      decode 0x00731423#32 = .instr (.sh 6 7 8#12) ∧
      decode 0x00732423#32 = .instr (.sw 6 7 8#12) ∧
      decode 0xFE730FA3#32 = .instr (.sb 6 7 0xFFF#12) ∧
      decode 0x7E732FA3#32 = .instr (.sw 6 7 0x7FF#12) ∧
      decode 0x80732023#32 = .instr (.sw 6 7 0x800#12) := by
  decide

theorem test_decode_op_imm :
    decode 0x7FF08093#32 = .instr (.addi 1 1 0x7FF#12) ∧
      decode 0xFFB12093#32 = .instr (.slti 1 2 0xFFB#12) ∧
      decode 0xFFF13093#32 = .instr (.sltiu 1 2 0xFFF#12) ∧
      decode 0xFFF24193#32 = .instr (.xori 3 4 0xFFF#12) ∧
      decode 0x0F026193#32 = .instr (.ori 3 4 0x0F0#12) ∧
      decode 0x7FF27193#32 = .instr (.andi 3 4 0x7FF#12) ∧
      decode 0x01F31293#32 = .instr (.slli 5 6 31) ∧
      decode 0x00435293#32 = .instr (.srli 5 6 4) ∧
      decode 0x40435293#32 = .instr (.srai 5 6 4) := by
  decide

theorem test_decode_op :
    decode 0x009403B3#32 = .instr (.add 7 8 9) ∧
      decode 0x409403B3#32 = .instr (.sub 7 8 9) ∧
      decode 0x009413B3#32 = .instr (.sll 7 8 9) ∧
      decode 0x009423B3#32 = .instr (.slt 7 8 9) ∧
      decode 0x009433B3#32 = .instr (.sltu 7 8 9) ∧
      decode 0x009443B3#32 = .instr (.xor 7 8 9) ∧
      decode 0x009453B3#32 = .instr (.srl 7 8 9) ∧
      decode 0x409453B3#32 = .instr (.sra 7 8 9) ∧
      decode 0x009463B3#32 = .instr (.or 7 8 9) ∧
      decode 0x009473B3#32 = .instr (.and 7 8 9) := by
  decide

theorem test_decode_upper :
    decode 0xABCDE537#32 = .instr (.lui 10 0xABCDE#20) ∧
      decode 0x00001597#32 = .instr (.auipc 11 1#20) := by
  decide

theorem test_decode_muldiv :
    decode 0x02C58533#32 = .instr (.mul 10 11 12) ∧
      decode 0x02C59533#32 = .instr (.mulh 10 11 12) ∧
      decode 0x02C5A533#32 = .instr (.mulhsu 10 11 12) ∧
      decode 0x02C5B533#32 = .instr (.mulhu 10 11 12) ∧
      decode 0x02C5C533#32 = .instr (.div 10 11 12) ∧
      decode 0x02C5D533#32 = .instr (.divu 10 11 12) ∧
      decode 0x02C5E533#32 = .instr (.rem 10 11 12) ∧
      decode 0x02C5F533#32 = .instr (.remu 10 11 12) := by
  decide

theorem test_decode_miscmem :
    decode 0x0FF0000F#32 = .instr (.fence 0 0 0#4 0xF#4 0xF#4) ∧
      decode 0x8330000F#32 = .instr (.fence 0 0 8#4 3#4 3#4) ∧
      decode 0x0100000F#32 = .instr (.fence 0 0 0#4 1#4 0#4) ∧
      decode 0x0000100F#32 = .instr (.fenceI 0 0 0#12) := by
  decide

theorem test_decode_system :
    decode 0x00000073#32 = .instr .ecall ∧
      decode 0x00100073#32 = .instr .ebreak ∧
      decode 0x340312F3#32 = .instr (.csrrw 5 6 0x340#12) ∧
      decode 0x340022F3#32 = .instr (.csrrs 5 0 0x340#12) ∧
      decode 0x300332F3#32 = .instr (.csrrc 5 6 0x300#12) ∧
      decode 0x0033D2F3#32 = .instr (.csrrwi 5 7#5 0x003#12) ∧
      decode 0x30046073#32 = .instr (.csrrsi 0 8#5 0x300#12) ∧
      decode 0x300072F3#32 = .instr (.csrrci 5 0#5 0x300#12) ∧
      decode 0x12628073#32 = .instr (.sfenceVma 5 6) := by
  decide

theorem test_decode_atomics :
    decode 0x100322AF#32 = .instr (.lrW 5 6 false false) ∧
      decode 0x160322AF#32 = .instr (.lrW 5 6 true true) ∧
      decode 0x188323AF#32 = .instr (.scW 7 6 8 false false) ∧
      decode 0x087322AF#32 = .instr (.amoswapW 5 6 7 false false) := by
  decide

theorem test_decode_amos :
    decode 0x007322AF#32 = .instr (.amoaddW 5 6 7 false false) ∧
      decode 0x207322AF#32 = .instr (.amoxorW 5 6 7 false false) ∧
      decode 0x607322AF#32 = .instr (.amoandW 5 6 7 false false) ∧
      decode 0x407322AF#32 = .instr (.amoorW 5 6 7 false false) ∧
      decode 0x807322AF#32 = .instr (.amominW 5 6 7 false false) ∧
      decode 0xA07322AF#32 = .instr (.amomaxW 5 6 7 false false) ∧
      decode 0xC07322AF#32 = .instr (.amominuW 5 6 7 false false) ∧
      decode 0xE07322AF#32 = .instr (.amomaxuW 5 6 7 false false) := by
  decide

theorem test_decode_illegal :
    [0x40109093#32, 0x400090B3#32, 0x00002063#32, 0x00003083#32, 0x00003023#32, 0x00009067#32, 0x0000200F#32, 0x300040F3#32,
      0x30200073#32, 0x10200073#32, 0x00200073#32, 0x10500073#32, 0x087332AF#32, 0x101322AF#32, 0x287322AF#32].map decode =
      List.replicate 15 .illegal := by
  decide

theorem test_decode_abort_refused :
    [0x00000000#32, 0xFFFFFFFF#32, 0x00000001#32, 0x0000000B#32].map decode = List.replicate 4 .unsupported ∧
      [0x00000053#32, 0x00002007#32].map decode = List.replicate 2 .floatingPoint := by
  decide

/-- Bytes in memory order (20_memory.md R75; 95_test_vectors.md V1). -/
theorem test_decode_bytes :
    decodeBytes [0x93#8, 0x02#8, 0x10#8, 0x01#8, 0x13#8] = .word (.instr (.addi 5 0 0x011#12)) [0x13#8] ∧
      decodeTableWord 32 0x00628533 = some (.add 10 5 6) := by
  decide

/-! ## Integer results (95_test_vectors.md 2.1, V1) -/

theorem test_addi :
    reg 0x7FF08093#32 (start 0#32 [(1, 0x7FFFF801#32)]) 1 = some 0x80000000#32 ∧
      reg 0x01100013#32 (start 0#32 []) 0 = some 0#32 := by
  decide

theorem test_slti :
    reg 0xFFB12093#32 (start 0#32 [(2, 0xFFFFFFF6#32)]) 1 = some 1#32 ∧
      reg 0xFFB12093#32 (start 0#32 [(2, 0xFFFFFFFB#32)]) 1 = some 0#32 := by
  decide

theorem test_sltiu :
    reg 0xFFF13093#32 (start 0#32 [(2, 0xFFFFFFFE#32)]) 1 = some 1#32 ∧
      reg 0xFFF13093#32 (start 0#32 [(2, 0xFFFFFFFF#32)]) 1 = some 0#32 := by
  decide

theorem test_xori_ori_andi :
    reg 0xFFF24193#32 (start 0#32 [(4, 0x0F0F0F0F#32)]) 3 = some 0xF0F0F0F0#32 ∧
      reg 0x0F026193#32 (start 0#32 [(4, 0x00000F0F#32)]) 3 = some 0x00000FFF#32 ∧
      reg 0x7FF27193#32 (start 0#32 [(4, 0xFFFFFFFF#32)]) 3 = some 0x000007FF#32 := by
  decide

theorem test_shift_immediates :
    reg 0x01F31293#32 (start 0#32 [(6, 3#32)]) 5 = some 0x80000000#32 ∧
      reg 0x00435293#32 (start 0#32 [(6, 0x80000010#32)]) 5 = some 0x08000001#32 ∧
      reg 0x40435293#32 (start 0#32 [(6, 0x80000010#32)]) 5 = some 0xF8000001#32 := by
  decide

theorem test_add_sub :
    reg 0x009403B3#32 (start 0#32 [(8, 0x7FFFFFFF#32), (9, 1#32)]) 7 = some 0x80000000#32 ∧
      reg 0x409403B3#32 (start 0#32 [(8, 0x80000000#32), (9, 1#32)]) 7 = some 0x7FFFFFFF#32 ∧
      reg 0x00628333#32 (start 0#32 [(5, 1#32), (6, 2#32)]) 6 = some 3#32 := by
  decide

theorem test_shifts :
    reg 0x009413B3#32 (start 0#32 [(8, 1#32), (9, 33#32)]) 7 = some 2#32 ∧
      reg 0x009453B3#32 (start 0#32 [(8, 0x80000000#32), (9, 31#32)]) 7 = some 1#32 ∧
      reg 0x409453B3#32 (start 0#32 [(8, 0x80000000#32), (9, 31#32)]) 7 = some 0xFFFFFFFF#32 := by
  decide

theorem test_slt_sltu :
    reg 0x009423B3#32 (start 0#32 [(8, 0xFFFFFFFF#32), (9, 1#32)]) 7 = some 1#32 ∧
      reg 0x009433B3#32 (start 0#32 [(8, 0xFFFFFFFF#32), (9, 1#32)]) 7 = some 0#32 := by
  decide

theorem test_xor_or_and :
    reg 0x009443B3#32 (start 0#32 [(8, 0xFF00FF00#32), (9, 0x0FF00FF0#32)]) 7 = some 0xF0F0F0F0#32 ∧
      reg 0x009463B3#32 (start 0#32 [(8, 0xF0F00000#32), (9, 0x00000F0F#32)]) 7 = some 0xF0F00F0F#32 ∧
      reg 0x009473B3#32 (start 0#32 [(8, 0xFFFF0000#32), (9, 0x0FF00FF0#32)]) 7 = some 0x0FF00000#32 := by
  decide

theorem test_lui_auipc :
    reg 0xABCDE537#32 (start 0#32 []) 10 = some 0xABCDE000#32 ∧
      reg 0x00001597#32 (start 0x100#32 []) 11 = some 0x1100#32 ∧
      pcAfter 0x00001597#32 (start 0x100#32 []) = some 0x104#32 := by
  decide

/-! ## Multiply and divide (2.2) -/

theorem test_mul :
    reg 0x02C58533#32 (start 0#32 [(11, 0xFFFFFFF9#32), (12, 3#32)]) 10 = some 0xFFFFFFEB#32 ∧
      reg 0x02C58533#32 (start 0#32 [(11, 0x80000000#32), (12, 0xFFFFFFFF#32)]) 10 = some 0x80000000#32 := by
  decide

theorem test_mulh :
    reg 0x02C59533#32 (start 0#32 [(11, 0xFFFFFFF9#32), (12, 3#32)]) 10 = some 0xFFFFFFFF#32 ∧
      reg 0x02C59533#32 (start 0#32 [(11, 0x80000000#32), (12, 0xFFFFFFFF#32)]) 10 = some 0x00000000#32 := by
  decide

theorem test_mulhsu :
    reg 0x02C5A533#32 (start 0#32 [(11, 0xFFFFFFF9#32), (12, 3#32)]) 10 = some 0xFFFFFFFF#32 ∧
      reg 0x02C5A533#32 (start 0#32 [(11, 0x80000000#32), (12, 0xFFFFFFFF#32)]) 10 = some 0x80000000#32 := by
  decide

theorem test_mulhu :
    reg 0x02C5B533#32 (start 0#32 [(11, 0xFFFFFFF9#32), (12, 3#32)]) 10 = some 0x00000002#32 ∧
      reg 0x02C5B533#32 (start 0#32 [(11, 0x80000000#32), (12, 0xFFFFFFFF#32)]) 10 = some 0x7FFFFFFF#32 := by
  decide

theorem test_div :
    reg 0x02C5C533#32 (start 0#32 [(11, 0xFFFFFFF9#32), (12, 3#32)]) 10 = some 0xFFFFFFFE#32 ∧
      reg 0x02C5C533#32 (start 0#32 [(11, 0x80000000#32), (12, 0xFFFFFFFF#32)]) 10 = some 0x80000000#32 := by
  decide

theorem test_divu :
    reg 0x02C5D533#32 (start 0#32 [(11, 0xFFFFFFF9#32), (12, 3#32)]) 10 = some 0x55555553#32 ∧
      reg 0x02C5D533#32 (start 0#32 [(11, 0x80000000#32), (12, 0xFFFFFFFF#32)]) 10 = some 0x00000000#32 := by
  decide

theorem test_rem :
    reg 0x02C5E533#32 (start 0#32 [(11, 0xFFFFFFF9#32), (12, 3#32)]) 10 = some 0xFFFFFFFF#32 ∧
      reg 0x02C5E533#32 (start 0#32 [(11, 0x80000000#32), (12, 0xFFFFFFFF#32)]) 10 = some 0x00000000#32 := by
  decide

theorem test_remu :
    reg 0x02C5F533#32 (start 0#32 [(11, 0xFFFFFFF9#32), (12, 3#32)]) 10 = some 0x00000000#32 ∧
      reg 0x02C5F533#32 (start 0#32 [(11, 0x80000000#32), (12, 0xFFFFFFFF#32)]) 10 = some 0x80000000#32 := by
  decide

theorem test_division_by_zero :
    reg 0x02C5C533#32 (start 0 [(11, 0x12345678#32)]) 10 = some 0xFFFFFFFF#32 ∧
      reg 0x02C5D533#32 (start 0 [(11, 0x12345678#32)]) 10 = some 0xFFFFFFFF#32 ∧
      reg 0x02C5E533#32 (start 0 [(11, 0x12345678#32)]) 10 = some 0x12345678#32 ∧
      reg 0x02C5F533#32 (start 0 [(11, 0x12345678#32)]) 10 = some 0x12345678#32 := by
  decide

/-! ## Control transfer (2.3) -/

theorem test_jal :
    reg 0x008000EF#32 (start 0x100#32 []) 1 = some 0x104#32 ∧
      pcAfter 0x008000EF#32 (start 0x100#32 []) = some 0x108#32 ∧
      pcAfter 0x8000006F#32 (start 0x100#32 []) = some 0xFFF00100#32 := by
  decide

theorem test_jal_misaligned :
    trapped 0x002000EF#32 (start 0x100#32 []) = some (0#32, 0x100#32, 0x104#32) ∧
      mtvalAfter 0x002000EF#32 (start 0x100#32 []) = some 0x102#32 := by
  decide

theorem test_jalr :
    pcAfter 0x004280E7#32 (start 0x200#32 [(5, 0x1001#32)]) = some 0x1004#32 ∧
      reg 0x000282E7#32 (start 0x200#32 [(5, 0x400#32)]) 5 = some 0x204#32 ∧
      pcAfter 0x000282E7#32 (start 0x200#32 [(5, 0x400#32)]) = some 0x400#32 := by
  decide

theorem test_jalr_misaligned :
    trapped 0x004280E7#32 (start 0x200#32 [(5, 0x1002#32)]) = some (0#32, 0x200#32, 0x204#32) ∧
      mtvalAfter 0x004280E7#32 (start 0x200#32 [(5, 0x1002#32)]) = some 0x1006#32 := by
  decide

theorem test_beq :
    pcAfter 0x00208863#32 (start 0x40#32 [(1, 7#32), (2, 7#32)]) = some 0x50#32 ∧
      pcAfter 0x00208863#32 (start 0x40#32 [(1, 7#32), (2, 8#32)]) = some 0x44#32 := by
  decide

theorem test_bne :
    pcAfter 0xFE209CE3#32 (start 0x48#32 [(1, 1#32), (2, 0#32)]) = some 0x40#32 := by
  decide

theorem test_blt_bge :
    pcAfter 0x0020C863#32 (start 0x40#32 [(1, 0xFFFFFFFF#32), (2, 0#32)]) = some 0x50#32 ∧
      pcAfter 0x0020D863#32 (start 0x40#32 [(1, 0xFFFFFFFF#32), (2, 0#32)]) = some 0x44#32 := by
  decide

theorem test_bltu_bgeu :
    pcAfter 0x0020E863#32 (start 0x40#32 [(1, 0#32), (2, 0xFFFFFFFF#32)]) = some 0x50#32 ∧
      pcAfter 0x0020F863#32 (start 0x40#32 [(1, 0#32), (2, 0xFFFFFFFF#32)]) = some 0x44#32 := by
  decide

theorem test_branch_misaligned :
    trapped 0x7E000FE3#32 (start 0x40#32 []) = some (0#32, 0x40#32, 0x44#32) ∧
      mtvalAfter 0x7E000FE3#32 (start 0x40#32 []) = some 0x103E#32 ∧
      pcAfter 0x00101363#32 (start 0x40#32 [(1, 0#32)]) = some 0x44#32 := by
  decide

/-! ## Loads and stores (2.4) -/

/-- `x6 = 0xFF8`, `x7 = 0x12345678`, and `80 FF 7F 01` at 0x1000. -/
def loadState : State := withWords (start 0 [(6, 0xFF8#32), (7, 0x12345678#32)]) [(0x1000, 0x017FFF80#32)]

theorem test_lb : reg 0x00830283#32 loadState 5 = some 0xFFFFFF80#32 := by decide
theorem test_lh : reg 0x00831283#32 loadState 5 = some 0xFFFFFF80#32 := by decide
theorem test_lw : reg 0x00832283#32 loadState 5 = some 0x017FFF80#32 := by decide
theorem test_lbu : reg 0x00834283#32 loadState 5 = some 0x00000080#32 := by decide
theorem test_lhu : reg 0x00835283#32 loadState 5 = some 0x0000FF80#32 := by decide

theorem test_sb :
    viewAfter 0x00730423#32 loadState 0x1000 = some [0x78#8, 0xFF#8, 0x7F#8, 0x01#8] ∧
      memAfter 0x00730423#32 loadState 0x1000#32 = some 0x017FFF80#32 := by
  decide

theorem test_sh :
    viewAfter 0x00731423#32 loadState 0x1000 = some [0x78#8, 0x56#8, 0x7F#8, 0x01#8] ∧
      memAfter 0x00731423#32 loadState 0x1000#32 = some 0x017FFF80#32 := by
  decide

theorem test_sw :
    viewAfter 0x00732423#32 loadState 0x1000 = some [0x78#8, 0x56#8, 0x34#8, 0x12#8] ∧
      memAfter 0x00732423#32 loadState 0x1000#32 = some 0x017FFF80#32 := by
  decide

theorem test_load_misaligned :
    trapped 0x00131283#32 (start 0#32 [(6, 0x1000#32)]) = some (4#32, 0#32, 4#32) ∧
      mtvalAfter 0x00131283#32 (start 0#32 [(6, 0x1000#32)]) = some 0x1001#32 ∧
      trapped 0x00032003#32 (start 0#32 [(6, 0x1002#32)]) = some (4#32, 0#32, 4#32) ∧
      mtvalAfter 0x00032003#32 (start 0#32 [(6, 0x1002#32)]) = some 0x1002#32 := by
  decide

theorem test_store_misaligned :
    trapped 0x00732123#32 (start 0#32 [(6, 0x1000#32)]) = some (6#32, 0#32, 4#32) ∧
      mtvalAfter 0x00732123#32 (start 0#32 [(6, 0x1000#32)]) = some 0x1002#32 := by
  decide

theorem test_access_faults :
    trapped 0x00032283#32 (start 0#32 [(6, 0x00100000#32)]) = some (5#32, 0#32, 4#32) ∧
      mtvalAfter 0x00032283#32 (start 0#32 [(6, 0x00100000#32)]) = some 0x00100000#32 ∧
      trapped 0x00732023#32 (start 0#32 [(6, 0xFFFFFFFC#32)]) = some (7#32, 0#32, 4#32) ∧
      mtvalAfter 0x00732023#32 (start 0#32 [(6, 0xFFFFFFFC#32)]) = some 0xFFFFFFFC#32 := by
  decide

/-! ## FENCE, FENCE.I, SFENCE.VMA (2.5, 2.6; P2) -/

/-- A dirty D-cache line of address 0x1000 over a `Mem` of zeros, and a line in the I-cache. -/
def dirtyState : State :=
  let s := start 0 []
  s.setHart { s.hart with
    dcache := [{ tag := 0x200, dirty := true, data := [0x80#8, 0#8, 0x80#8, 0xFF#8, 0#8, 0#8, 0#8, 0#8] }],
    icache := [{ tag := 0x300, dirty := false, data := List.replicate 8 0x55#8 }] }

/-- Two dirty D-cache lines, of 0x1000 and of 0x2000, over a `Mem` of zeros. -/
def withDirty (s : State) : State :=
  s.setHart { s.hart with
    dcache := [{ tag := 0x200, dirty := true, data := [1#8, 2#8, 3#8, 4#8, 5#8, 6#8, 7#8, 8#8] },
      { tag := 0x400, dirty := true, data := List.replicate 8 9#8 }] }

theorem test_fence :
    memAfter 0x0FF0000F#32 dirtyState 0x1000#32 = some 0xFF800080#32 ∧
      (after 0x0FF0000F#32 dirtyState).map (fun t => t.hart.dcache.map Line.dirty) = some [false] := by
  decide

theorem test_fence_i :
    nextOf (exec (.fenceI 0 0 0#12) dirtyState) = some { dirtyState with hart := { dirtyState.hart with icache := [] } } := by
  decide

theorem test_sfence_vma :
    (nextOf (exec (.sfenceVma 0 0) ((start 0 []).setTlb .data [1#64, 2#64, 3#64, 4#64]))).map (fun t => t.hart.dtlb) =
      some (List.replicate 4 tlbSentinel) := by
  decide

/-! ## SYSTEM (2.6) -/

theorem test_ecall_ebreak :
    trapped 0x00000073#32 (start 0x80 []) = some (8#32, 0x80#32, 0x84#32) ∧
      trapped 0x00100073#32 (start 0x84 []) = some (3#32, 0x84#32, 0x88#32) := by
  decide

theorem test_host_returns :
    pcAfter 0x00000073#32 { start 0x80 [] with replies := [[.setCsr 0x341#12 0x200#32, .setJumped true]] } = some 0x200#32 ∧
      pcAfter 0x00000073#32 { start 0x80 [] with replies := [[.setJumped true]] } = some 0x80#32 := by
  decide

theorem test_csrrw :
    (after 0x340312F3#32 (withCsr (start 0 [(6, 0x12345678#32)]) 0x340#12 0xAAAA5555#32)).map (fun t => (t.readX 5, t.readCsr 0x340#12)) =
      some (0xAAAA5555#32, 0x12345678#32) := by
  decide

theorem test_csrrs :
    (after 0x300322F3#32 (withCsr (start 0 [(6, 8#32)]) 0x300#12 7#32)).map (fun t => (t.readX 5, t.readCsr 0x300#12)) =
      some (7#32, 15#32) := by
  decide

theorem test_csrrc :
    (after 0x300332F3#32 (withCsr (start 0 [(6, 0x00000F0F#32)]) 0x300#12 0x0000FFFF#32)).map (fun t => (t.readX 5, t.readCsr 0x300#12)) =
      some (0x0000FFFF#32, 0x0000F0F0#32) := by
  decide

theorem test_csrrwi :
    (after 0x0033D2F3#32 (withCsr (start 0 []) 0x003#12 0xE0#32)).map (fun t => (t.readX 5, t.readCsr 0x003#12)) =
      some (0xE0#32, 7#32) := by
  decide

theorem test_csrrsi :
    (after 0x30046073#32 (withCsr (start 0 []) 0x300#12 0#32)).map (fun t => (t.readX 0, t.readCsr 0x300#12)) =
      some (0#32, 8#32) := by
  decide

theorem test_csrrci :
    (after 0x300072F3#32 (withCsr (start 0 []) 0x300#12 0x1F#32)).map (fun t => (t.readX 5, t.readCsr 0x300#12)) =
      some (0x1F#32, 0x1F#32) := by
  decide

theorem test_csr_illegal :
    [0xF14022F3#32, 0xC00022F3#32, 0x7C0312F3#32].map (fun w => trapped w (start 0 [])) =
      List.replicate 3 (some (2#32, 0#32, 4#32)) := by
  decide

/-! ## Atomics (2.7) -/

/-- `x6 = 0x1000`, `x7 = 1`, `x8 = 0x2B`, the word 0x2A at 0x1000, and hart 0's reservation as given. -/
def atomicState (r : Reservation) : State :=
  setReservation (withWords (start 0 [(6, 0x1000#32), (7, 1#32), (8, 0x2B#32)]) [(0x1000, 0x2A#32)]) 0 r

def noReservation : Reservation := { valid := false, addr := 0#32 }

theorem test_lr_w :
    reg 0x100322AF#32 (atomicState noReservation) 5 = some 0x2A#32 ∧
      resAfter 0x100322AF#32 (atomicState noReservation) = some { valid := true, addr := 0x1000#32 } := by
  decide

theorem test_sc_w_succeeds :
    reg 0x188323AF#32 (atomicState { valid := true, addr := 0x1000#32 }) 7 = some 0#32 ∧
      memAfter 0x188323AF#32 (atomicState { valid := true, addr := 0x1000#32 }) 0x1000#32 = some 0x2B#32 ∧
      (resAfter 0x188323AF#32 (atomicState { valid := true, addr := 0x1000#32 })).map Reservation.valid = some false := by
  decide

theorem test_sc_w_fails :
    reg 0x188323AF#32 (atomicState { valid := true, addr := 0x1004#32 }) 7 = some 1#32 ∧
      memAfter 0x188323AF#32 (atomicState { valid := true, addr := 0x1004#32 }) 0x1000#32 = some 0x2A#32 ∧
      (resAfter 0x188323AF#32 (atomicState { valid := true, addr := 0x1004#32 })).map Reservation.valid = some false := by
  decide

theorem test_amoswap_w :
    reg 0x087322AF#32 (atomicState noReservation) 5 = some 0x2A#32 ∧
      memAfter 0x087322AF#32 (atomicState noReservation) 0x1000#32 = some 1#32 := by
  decide

theorem test_amos_illegal :
    [0x007322AF#32, 0x207322AF#32, 0x607322AF#32, 0x407322AF#32, 0x807322AF#32, 0xA07322AF#32, 0xC07322AF#32, 0xE07322AF#32].map
      (fun w => trapped w (start 0 [])) = List.replicate 8 (some (2#32, 0#32, 4#32)) := by
  decide

theorem test_atomics_misaligned :
    trapped 0x100322AF#32 (start 0 [(6, 0x1002#32)]) = some (4#32, 0#32, 4#32) ∧
      trapped 0x188323AF#32 (start 0 [(6, 0x1002#32)]) = some (6#32, 0#32, 4#32) := by
  decide

/-! ## Translation (2.9 T1, T4, T5; P5) -/

/-- `SATP = 0x80000002`; the root table at 0x2000 and a second table at 0x3000, with good and bad entries. -/
def paged (satp : Word) (regs : List (Reg × Word)) : State :=
  withCsr (withWords (start 0 regs)
    [(0x2000, 0x000000DF#32), (0x2004, 0x002004DF#32), (0x200C, 0x00000405#32), (0x2010, 0x0000009F#32), (0x2100, 0x00000C01#32),
      (0x2104, 0x00100001#32), (0x2014, 0x100000DF#32), (0x3000, 0x000004DF#32), (0x3008, 0x00000C01#32), (0x300C, 0x0000049F#32), (0x1000, 0xDEADBEEF#32)])
    0x180#12 satp

def okAddress (a : Access Word) : Option Word :=
  match a with
  | .ok p _ => some p
  | .exc _ _ => none

theorem test_two_level : okAddress (translateVa .load 0x10000ABC#32 (paged 0x80000002#32 [])) = some 0x00001ABC#32 := by decide

theorem test_megapage : okAddress (translateVa .fetch 0x00003ABC#32 (paged 0x80000002#32 [])) = some 0x00003ABC#32 := by decide

theorem test_load_translated :
    (nextOf (exec (.lw 1 2 0#12) (paged 0x80000002#32 [(2, 0x10000000#32)]))).map (fun t => (t.readX 1, t.hart.dtlb.getD 0 0#64)) =
      some (0xDEADBEEF#32, 0x00010000000004DF#64) := by
  decide

theorem test_load_page_fault :
    (nextOf (exec (.lw 1 2 0#12) (paged 0x80000002#32 [(2, 0x10003000#32)]))).map
      (fun t => (t.hart.csr.mcause, t.hart.csr.mtval, t.hart.dtlb)) =
      some (0xD#32, 0x10003000#32, List.replicate 4 tlbSentinel) := by
  decide

/-- 95_test_vectors.md T5: which flags let which access pass, fetch, load, store. -/
theorem test_permissions :
    [0xDF#32, 0x9F#32, 0x5F#32, 0xCF#32, 0xD9#32, 0xD3#32, 0xD7#32].map
      (fun f => (permitted f .fetch, permitted f .load, permitted f .store)) =
      [(true, true, true), (false, false, false), (true, true, false), (false, false, false), (true, false, false),
        (false, true, false), (false, true, true)] := by
  decide

/-- 95_test_vectors.md T7 with four slots: keys 0x100, 0x200, 0x300 share their probed slots 0 and 1. -/
theorem test_tlb_collision :
    let t := tlbStore tiny (tlbStore tiny (tlbStore tiny (Tlb.empty tiny) 0x100#32 1#32) 0x200#32 2#32) 0x300#32 3#32
    [0x100#32, 0x200#32, 0x300#32].map (tlbLoad tiny t) = [none, none, some 3#32] := by
  decide

/-! ## Steps, timer, poll (2.10; V5, V6) -/

/-- Hart 0 running at 0x40 over zero memory with this timer, poll counter and matrix. -/
def timed (t : Timer) (ctr : Nat) (grid : Sparse Word) : State :=
  let s := start 0x40 []
  { s.setHart { s.hart with timer := t, pollctr := ctr } with grid := grid }

theorem test_timer_step :
    (nextOf (step (timed { enabled := true, value := 1#64 } 0 []))).map
      (fun t => (t.hart.timer, t.hart.csr.mcause, t.hart.csr.mepc, t.hart.pc, t.hart.pollctr)) =
      some ({ enabled := false, value := 0#64 }, 0x807#32, 0x40#32, 0x40#32, 1) := by
  decide

theorem test_timer_and_poll :
    (nextOf (step (timed { enabled := true, value := 1#64 } 99 [(2, 9#32)]))).map
      (fun t => (t.hart.csr.mcause, t.hart.interruptedBy, t.hart.interruptCode, t.gridRead 0 2, t.hart.pc)) =
      some (0x80B#32, 2, 9#32, 0#32, 0x40#32) := by
  decide

theorem test_poll_schedule :
    (nextOf (step ((timed { enabled := false, value := 0#64 } 98 [(2, 9#32)]).withFetchWord 32 0x13))).map
      (fun t => (t.hart.pc, t.hart.pollctr, t.grid)) = some (0x44#32, 1, [(2, 9#32)]) ∧
      (nextOf (step (timed { enabled := false, value := 0#64 } 99 [(2, 9#32)]))).map (fun t => (t.hart.pc, t.hart.pollctr, t.grid)) =
      some (0x40#32, 0, []) := by
  decide

theorem test_fetch_misaligned :
    (nextOf (step (start 0x102 []))).map (fun t => (t.hart.csr.mcause, t.hart.csr.mtval, t.hart.csr.mepc, t.hart.pc)) =
      some (0#32, 0x102#32, 0x102#32, 0x102#32) := by
  decide

theorem test_fetch_out_of_range :
    (nextOf (step (start 0x00100000 []))).map (fun t => (t.hart.csr.mcause, t.hart.csr.mtval, t.hart.pc)) =
      some (1#32, 0x00100000#32, 0x00100000#32) := by
  decide

/-- An all-zero word is Abort (2.8). -/
theorem test_abort : faultOf (step (start 0 [])) = some (.abortUnsupportedOpcode 0#32) := by decide

theorem test_floating_point_refused :
    refusalOf (step ((start 0 []).withFetchWord 32 0x00000053)) = some (.floatingPoint 0x00000053#32) := by
  decide

theorem test_raise_interrupt :
    let s := { start 0x40 [] with replies := [[.wait, .raise 1 0x42#32]] }
    (nextOf (step (s.withFetchWord 32 0x73))).bind (fun t => (nextOf (step t)).bind (fun u => (nextOf (step u)).map
      (fun v => (v.gridRead 1 0, v.hart.port, v.hart.pc)))) = some (0x42#32, [], 0x44#32) := by
  decide

theorem test_raise_misuse :
    let s := { start 0x40 [] with replies := [[.raise 0 5#32]] }
    (nextOf (step (s.withFetchWord 32 0x73))).bind (fun t => faultOf (step t)) = some .abortIpiMisuse := by
  decide

/-- Boot, then the first step of hart 1 (V1; 70_reset_and_hazards.md R363). -/
theorem test_boot :
    let s := { State.resetWith tiny with
      agenda := [.writeMem 0x80 [0x93#8, 0x02#8, 0x10#8, 0x01#8], .start 1, .hart 1],
      replies := [[.setCsr 0x341#12 0x80#32, .setCsr 0x180#12 0#32]] }
    (nextOf (step s)).bind (fun t => (nextOf (step t)).bind (fun u => (nextOf (step u)).map
      (fun v => (v.hart.id, v.hart.pc, v.readX 5, v.parked.map Hart.id)))) = some (1, 0x84#32, 0x11#32, [0]) := by
  decide

/-! ## Shared events one by one (60_exceptions.md R300): what one event does -/

/-- A hart in the middle of something: its task, its pc and `x5` after its next event. -/
def eventOf (s : State) : Option (Task × Word × Word) := (nextOf (step s)).map (fun t => (t.hart.task, t.hart.pc, t.readX 5))

/-- `LW x5, 0(x1)` through the tables of `paged`: the root entry, the leaf, the word (20_memory.md R114). -/
theorem test_walk_events :
    let s := paged 0x80000002#32 [(1, 0x10000000#32)]
    let task := fun st => Task.exec (.lw 5 1 0#12) st
    [eventOf (s.setTask (task (.pte 1 0x2000#32))), eventOf (s.setTask (task (.pte 0 0x3000#32))),
      eventOf (s.setTask (task (.access 0x1000#32)))] =
      [some (task (.pte 0 0x3000#32), 0#32, 0#32), some (task (.access 0x1000#32), 0#32, 0#32),
        some (.idle, 4#32, 0xDEADBEEF#32)] := by
  decide

/-- Two dirty lines: a FENCE begins without a write; the second one can go first, and `Mem` then has it alone (44_miscmem.md R260). -/
theorem test_fence_events :
    let s := withDirty (start 0 [])
    (nextOf (turn (.split 0) (s.withFetchWord 32 0x0FF0000F))).map (fun t => t.hart.task) = some (.fetch (.access 0#32)) ∧
      (nextOf (startInstr (.fence 0 0 0#4 0xF#4 0xF#4) s)).map (fun t => (t.hart.task, memWord t 0x1000#32)) = some (.flush, 0#32) ∧
      (nextOf (turn (.writeBack 0 1) (s.setTask .flush))).map
        (fun t => (t.hart.task, memWord t 0x1000#32, memWord t 0x2000#32, t.hart.dcache.map Line.dirty)) =
        some (.flush, 0#32, 0x09090909#32, [true, false]) := by
  decide

/-- SW at 0x1000 with a reservation of hart 1 there: the store, then its CS-KILL (20_memory.md R132, R141). -/
theorem test_kill_event :
    let s := setReservation loadState 1 { valid := true, addr := 0x1000#32 }
    (nextOf (step (s.setTask (.exec (.sw 6 7 8#12) (.access 0x1000#32))))).map (fun t => (t.hart.task, (reservationOf t 1).valid)) =
      some (.kill 0x1000#32, true) ∧
      (nextOf (step (s.setTask (.kill 0x1000#32)))).map (fun t => (t.hart.task, (reservationOf t 1).valid, t.hart.pc)) =
      some (.idle, false, 4#32) := by
  decide

/-- A poll loads a full cell and takes the interrupt; the store of 0 comes after the trap (60_exceptions.md R331). -/
theorem test_poll_events :
    let s := timed { enabled := false, value := 0#64 } 0 [(2, 9#32)]
    (nextOf (step (s.setTask (.scan [2] true)))).map (fun t => (t.hart.task, t.gridRead 0 2, t.hart.interruptCode, t.hart.csr.mcause)) =
      some (.zero 2 [], 9#32, 9#32, 0x80B#32) ∧
      (nextOf (step (s.setTask (.zero 2 [])))).map (fun t => (t.hart.task, t.gridRead 0 2, t.hart.pc)) =
      some (.idle, 0#32, 0x40#32) := by
  decide

/-! ## Witnesses: states and operands that meet the hypotheses of the statements -/

theorem hartWf_of {c : Config} {h : Hart} (h1 : h.id < c.hartCount) (h2 : h.x.get 0 = 0#32) (h3 : h.icache.wf c) (h4 : h.dcache.wf c)
    (h5 : (h.icache.all fun l => !l.dirty) = true) (h6 : c.cacheEnable = true) (h7 : h.itlb.wf c) (h8 : h.dtlb.wf c)
    (h9 : h.interruptedBy ≤ c.hartCount) (h10 : h.pollctr < c.pollInterval) (h11 : Sparse.wf 0#32 h.csr.other = true)
    (h12 : h.task = .idle) : h.wf c :=
  ⟨h1, h2, h3, h4, by simpa using h5, fun h => absurd (h.symm.trans h6) (by decide), h7, h8, h9, h10, h11, by rw [h12]; trivial⟩

/-- Hart 1 as reset leaves it. -/
theorem wf_hart1 : (Hart.reset tiny 1).wf tiny := by
  refine hartWf_of (by decide) (by decide) ?_ ?_ (by decide) (by decide) (wf_tlbEmpty tiny) (wf_tlbEmpty tiny)
    (by decide) (by decide) (by decide) rfl
  all_goals (unfold Cache.wf; decide)

/-- A state with hart 1 as reset leaves it. -/
theorem inv_of {s : State} (hc : s.cfg = tiny) (hp : s.parked = [Hart.reset tiny 1]) (hid : s.hart.id = 0) (hh : s.hart.wf tiny)
    (hr : s.res.length = 2) (hm : Memory.wf s.mem = true) (hk : (s.mem.all fun e => decide (e.1 < tiny.memSize)) = true)
    (hg : Sparse.wf 0#32 s.grid = true) : SysInv s := by
  refine ⟨by rw [hc]; decide, by rw [hc]; exact hh, ?_, by rw [hp]; simp, ?_, by rw [hp, hc]; decide, by rw [hr, hc]; decide, hm, ?_, hg⟩
  · rw [hp, hc]
    simpa using wf_hart1
  · rw [hp, hid]
    simp [Hart.reset]
  · rw [hc]
    simpa using hk

/-- A bare state: `x1` the last word in range, `x2` and `x3` misaligned, `x4` just out of range, `x10` to `x13` operands. -/
def w : State :=
  start 0x100 [(1, 0xFFFFC#32), (2, 0x1001#32), (3, 0x1002#32), (4, 0x100000#32), (5, 7#32), (6, 7#32), (7, 8#32),
    (10, 0xFFFFFFF9#32), (11, 3#32), (12, 0x80000000#32), (13, 0xFFFFFFFF#32)]

/-- A translated state: `x1` maps, `x2` does not. -/
def p : State := paged 0x80000002#32 [(1, 0x10000000#32), (2, 0x00800000#32)]

theorem inv_w : SysInv w := by
  refine inv_of rfl rfl rfl (hartWf_of (by decide) (by decide) ?_ ?_ (by decide) (by decide) (wf_tlbEmpty tiny) (wf_tlbEmpty tiny)
    (by decide) (by decide) (by decide) rfl) (by decide) (by decide) (by decide) (by decide)
  all_goals (unfold Cache.wf; decide)

theorem inv_p : SysInv p := by
  refine inv_of rfl rfl rfl (hartWf_of (by decide) (by decide) ?_ ?_ (by decide) (by decide) (wf_tlbEmpty tiny) (wf_tlbEmpty tiny)
    (by decide) (by decide) (by decide) rfl) (by decide) (by decide) (by decide) (by decide)
  all_goals (unfold Cache.wf; decide)

theorem inv_dirty : SysInv dirtyState := by
  refine inv_of rfl rfl rfl (hartWf_of (by decide) (by decide) ?_ ?_ (by decide) (by decide) (wf_tlbEmpty tiny) (wf_tlbEmpty tiny)
    (by decide) (by decide) (by decide) rfl) (by decide) (by decide) (by decide) (by decide)
  all_goals (unfold Cache.wf; decide)

/-- `w` with `x1 = 0x1004` and two dirty lines, of 0x1000 and of 0x2000. -/
def hit : State := withDirty (w.writeX 1 0x1004#32)

theorem inv_hit : SysInv hit := by
  refine inv_of rfl rfl rfl (hartWf_of (by decide) (by decide) ?_ ?_ (by decide) (by decide) (wf_tlbEmpty tiny) (wf_tlbEmpty tiny)
    (by decide) (by decide) (by decide) rfl) (by decide) (by decide) (by decide) (by decide)
  all_goals (unfold Cache.wf; decide)

theorem witness_DecodeOfEncode : WellFormed (.jal 1 0x0FFFFE#21) = true := by decide

theorem witness_EncodeOfDecode : decode 0xFE209CE3#32 = .instr (.bne 1 2 0x1FF8#13) := by decide

theorem witness_DivisionLaws :
    (10 : Reg) ≠ 0 ∧ (w.readX 11 ≠ 0#32 ∧ ¬ (w.readX 10 = 0x80000000#32 ∧ w.readX 11 = 0xFFFFFFFF#32)) ∧ w.readX 20 = 0#32 ∧
      (w.readX 12 = 0x80000000#32 ∧ w.readX 13 = 0xFFFFFFFF#32) := by
  decide

/-- Even offsets; JAL and JALR to an aligned and to a misaligned target. -/
theorem witness_JumpResults :
    (8#21).toNat % 2 = 0 ∧ (BitVec.ofInt 32 (w.hart.pc.toNat + (8#21).toInt)).toNat % 4 = 0 ∧
      (2#21).toNat % 2 = 0 ∧ (BitVec.ofInt 32 (w.hart.pc.toNat + (2#21).toInt)).toNat % 4 ≠ 0 ∧
      (jalrTarget w 2 3#12).toNat % 4 = 0 ∧ (jalrTarget w 3 0#12).toNat % 4 ≠ 0 := by
  decide

/-- Taken to an aligned target, taken to a misaligned one, not taken. -/
theorem witness_BranchResults :
    (0x1000#13).toNat % 2 = 0 ∧ w.readX 5 = w.readX 6 ∧ (BitVec.ofInt 32 (w.hart.pc.toNat + (0x1000#13).toInt)).toNat % 4 = 0 ∧
      (0x0FFE#13).toNat % 2 = 0 ∧ (BitVec.ofInt 32 (w.hart.pc.toNat + (0x0FFE#13).toInt)).toNat % 4 ≠ 0 ∧
      w.readX 5 ≠ w.readX 7 := by
  decide

/-- Misaligned; a page fault; one byte beyond the last word; the last word in range, in no line; a word in a line. -/
theorem witness_LoadResults :
    SysInv w ∧ SysInv p ∧ (effectiveAddress w 2 0#12).toNat % 2 ≠ 0 ∧ (effectiveAddress w 3 0#12).toNat % 4 ≠ 0 ∧
      (effectiveAddress p 2 0#12).toNat % 4 = 0 ∧ (∃ e s1, translateVa .load (effectiveAddress p 2 0#12) p = .exc e s1) ∧
      (effectiveAddress w 4 0#12).toNat % 4 = 0 ∧
      (∃ q s1, translateVa .load (effectiveAddress w 4 0#12) w = .ok q s1 ∧ w.cfg.memSize < q.toNat + 1) ∧
      (effectiveAddress w 1 0#12).toNat % 4 = 0 ∧
      (∃ q s1, translateVa .load (effectiveAddress w 1 0#12) w = .ok q s1 ∧ q.toNat + 4 = w.cfg.memSize) ∧
      SysInv hit ∧ ∃ q s1, translateVa .load (effectiveAddress hit 1 0#12) hit = .ok q s1 ∧ q.toNat + 4 ≤ hit.cfg.memSize ∧
        DataHit hit q.toNat :=
  ⟨inv_w, inv_p, by decide, by decide, by decide, ⟨_, _, rfl⟩, by decide, ⟨_, _, rfl, by decide⟩, by decide, ⟨_, _, rfl, by decide⟩,
    inv_hit, _, _, rfl, by decide, rfl, by decide⟩

theorem witness_StoreResults :
    SysInv w ∧ SysInv p ∧ (effectiveAddress w 2 0#12).toNat % 2 ≠ 0 ∧ (effectiveAddress w 3 0#12).toNat % 4 ≠ 0 ∧
      (effectiveAddress p 2 0#12).toNat % 4 = 0 ∧ (∃ e s1, translateVa .store (effectiveAddress p 2 0#12) p = .exc e s1) ∧
      (effectiveAddress w 4 0#12).toNat % 4 = 0 ∧
      (∃ q s1, translateVa .store (effectiveAddress w 4 0#12) w = .ok q s1 ∧ w.cfg.memSize < q.toNat + 1) ∧
      (effectiveAddress w 1 0#12).toNat % 4 = 0 ∧ w.cfg.cacheEnable = true ∧
      (∃ q s1, translateVa .store (effectiveAddress w 1 0#12) w = .ok q s1 ∧ q.toNat + 4 = w.cfg.memSize) ∧
      SysInv hit ∧ (∃ q s1, translateVa .store (effectiveAddress hit 1 0#12) hit = .ok q s1 ∧ q.toNat + 4 ≤ hit.cfg.memSize ∧
        DataHit hit q.toNat) ∧ ∃ l, hit.hart.dcache[1]? = some l ∧ l.tag ≠ 0x1004 / hit.cfg.lineSize :=
  ⟨inv_w, inv_p, by decide, by decide, by decide, ⟨_, _, rfl⟩, by decide, ⟨_, _, rfl, by decide⟩, by decide, rfl, ⟨_, _, rfl, by decide⟩,
    inv_hit, ⟨_, _, rfl, by decide, rfl, by decide⟩, _, rfl, by decide⟩

theorem witness_StoreThenLoadByte :
    SysInv w ∧ w.hart.csr.satp.getLsbD 31 = false ∧ 3 < 4 ∧ (w.readX 1).toNat % 4 = 0 ∧ (w.readX 1).toNat + 4 ≤ w.cfg.memSize :=
  ⟨inv_w, by decide, by decide, by decide, by decide⟩

/-- A byte of a dirty line, and one of none. -/
theorem witness_FenceWritesBack :
    SysInv dirtyState ∧ (∃ l ∈ dirtyState.hart.dcache, l.dirty = true ∧ l.tag = 0x1007 / dirtyState.cfg.lineSize) ∧
      ¬ ∃ l ∈ dirtyState.hart.dcache, l.dirty = true ∧ l.tag = 0x1008 / dirtyState.cfg.lineSize :=
  ⟨inv_dirty, by decide, by decide⟩

theorem witness_FenceIEmptiesInstructionCache : SysInv dirtyState ∧ dirtyState.hart.icache ≠ [] := ⟨inv_dirty, by decide⟩

/-- A legal write, a legal read of an unsupported CSR at the last legal address, an illegal write of one, the first illegal address. -/
theorem witness_CsrResults :
    CsrLegal w.cfg 0x340#12 True ∧ CsrLegal w.cfg 0x3FF#12 False ∧ ¬ CsrLegal w.cfg 0x3FF#12 True ∧ ¬ CsrLegal w.cfg 0x400#12 False := by
  unfold CsrLegal
  decide

theorem witness_CsrRoundTrip : (0x340#12).toNat < 0x400 ∧ 0x340#12 ∈ w.cfg.csrSupported := by decide

theorem witness_LoadReservedResult :
    SysInv w ∧ SysInv p ∧ (w.readX 3).toNat % 4 ≠ 0 ∧ (p.readX 2).toNat % 4 = 0 ∧
      (∃ e s1, translateVa .load (p.readX 2) p = .exc e s1) ∧
      (∃ q s1, translateVa .load (w.readX 4) w = .ok q s1 ∧ w.cfg.memSize < q.toNat + 4) ∧
      ∃ q s1, translateVa .load (w.readX 1) w = .ok q s1 ∧ q.toNat + 4 = w.cfg.memSize :=
  ⟨inv_w, inv_p, by decide, by decide, ⟨_, _, rfl⟩, ⟨_, _, rfl, by decide⟩, _, _, rfl, by decide⟩

/-- `w` with a reservation of hart 0 at the last word. -/
def reserved : State := setReservation w 0 { valid := true, addr := 0xFFFFC#32 }

/-- With the reservation; with one elsewhere; and the three exceptions as in `witness_AtomicSwapResult`. -/
theorem witness_StoreConditionalResult :
    SysInv reserved ∧ reserved.res[reserved.hart.id]? = some { valid := true, addr := 0xFFFFC#32 } ∧
      (∃ q s1, translateVa .store (reserved.readX 1) reserved = .ok q s1 ∧ q = 0xFFFFC#32 ∧ q.toNat + 4 = reserved.cfg.memSize) ∧
      SysInv w ∧ w.res[w.hart.id]? ≠ some { valid := true, addr := 0xFFFFC#32 } :=
  ⟨inv_w.setReservation _ _, by decide, ⟨_, _, rfl, by decide, by decide⟩, inv_w, by decide⟩

theorem witness_AtomicSwapResult :
    SysInv w ∧ SysInv p ∧ (w.readX 3).toNat % 4 ≠ 0 ∧ (p.readX 2).toNat % 4 = 0 ∧
      (∃ e s1, translateVa .store (p.readX 2) p = .exc e s1) ∧
      (∃ q s1, translateVa .store (w.readX 4) w = .ok q s1 ∧ w.cfg.memSize < q.toNat + 4) ∧
      ∃ q s1, translateVa .store (w.readX 1) w = .ok q s1 ∧ q.toNat + 4 = w.cfg.memSize :=
  ⟨inv_w, inv_p, by decide, by decide, ⟨_, _, rfl⟩, ⟨_, _, rfl, by decide⟩, _, _, rfl, by decide⟩

theorem witness_LoadReservedStoreConditionalPair :
    SysInv w ∧ w.hart.csr.satp.getLsbD 31 = false ∧ (9 : Reg) ≠ 1 ∧ (9 : Reg) ≠ 5 ∧ (w.readX 1).toNat % 4 = 0 ∧
      (w.readX 1).toNat + 4 ≤ w.cfg.memSize ∧ w.cfg.cacheEnable = true :=
  ⟨inv_w, by decide, by decide, by decide, by decide, by decide, rfl⟩

theorem witness_UnimplementedAmosTrap : w.replies = [] := rfl

theorem witness_EnvironmentCallAndBreakpoint : w.replies = [] := rfl

/-- An ECALL with each of the four scripts. -/
theorem witness_HostOutcomes (script : List HostAct) :
    decode 0x00000073#32 = .instr .ecall ∧
      exec .ecall { w with replies := [script] } =
        .next (raise { cause := .ecallUMode, info := none } .exec { w with replies := [script] }) ∧
      w.hart.port = [] ∧ w.hart.jumped = false ∧ w.hart.life = .running :=
  ⟨by decide, rfl, rfl, rfl, rfl⟩

/-- A Host that takes its time. -/
theorem witness_HostOutcomes_wait :
    let s := { w with replies := [[.wait]] }
    s.replies = (.wait :: []) :: [] ∧ s.hart.task = .idle ∧ s.hart.port = [] ∧ s.agenda = [] ∧ s.hart.jumped = false :=
  ⟨rfl, rfl, rfl, rfl, rfl⟩

/-- `w` about to fetch this word at 0x100; its timer and poll counter one before they act. -/
def fetching (word : Word) : State :=
  let s := withWords w [(0x100, word)]
  s.setHart { s.hart with timer := { enabled := true, value := 2#64 }, pollctr := 98 }

theorem ready_fetching (word : Word) : ReadyToFetch (fetching word) :=
  ⟨rfl, rfl, rfl, rfl, fun _ => (by decide : (2#64 : BitVec 64) ≠ 1#64), (by decide : 98 + 1 ≠ 100)⟩

theorem witness_StepRunsDecodedInstruction :
    ReadyToFetch (fetching 0x01100293#32) ∧
      (∃ s1, fetchWord (fetching 0x01100293#32).hart.pc (beforeFetch (fetching 0x01100293#32)) = .ok 0x01100293#32 s1) ∧
      decode 0x01100293#32 = .instr (.addi 5 0 0x011#12) :=
  ⟨ready_fetching _, ⟨_, rfl⟩, by decide⟩

theorem witness_FetchReadsInstructionView :
    let s := w.setPc 0xFFFFC#32
    SysInv s ∧ s.hart.pc.toNat % 4 = 0 ∧ translateVa .fetch s.hart.pc s = .ok 0xFFFFC#32 s ∧ (0xFFFFC#32).toNat + 4 ≤ s.cfg.memSize :=
  ⟨inv_w.setPc _, by decide, rfl, by decide⟩

/-- A hart with a disabled timer at no port is ready to fetch from any pc. -/
theorem ready_setPc (s : State) (pc : Word) (h : s.hart.task = .idle ∧ s.hart.port = [] ∧ s.hart.life = .running)
    (ha : s.agenda = []) (ht : s.hart.timer.enabled = false) (hk : s.hart.pollctr + 1 ≠ s.cfg.pollInterval) :
    ReadyToFetch (s.setPc pc) :=
  ⟨ha, h.1, h.2.1, h.2.2, fun h2 => absurd (ht.symm.trans h2) (by decide), hk⟩

/-- A misaligned pc; a page fault; a pc just out of range, bare and translated. -/
theorem witness_FetchExceptions :
    ReadyToFetch (w.setPc 0x102#32) ∧ (0x102#32).toNat % 4 ≠ 0 ∧
      ReadyToFetch (p.setPc 0x00800000#32) ∧ (0x00800000#32).toNat % 4 = 0 ∧
      (∃ e s1, translateVa .fetch 0x00800000#32 (beforeFetch (p.setPc 0x00800000#32)) = .exc e s1) ∧
      ReadyToFetch (w.setPc 0x100000#32) ∧ (0x100000#32).toNat % 4 = 0 ∧
      (∃ q s1, translateVa .fetch 0x100000#32 (beforeFetch (w.setPc 0x100000#32)) = .ok q s1 ∧ w.cfg.memSize < q.toNat + 4) ∧
      w.replies = [] ∧ ReadyToFetch (p.setPc 0x01400000#32) ∧ (0x01400000#32).toNat % 4 = 0 ∧
      (∃ q s1, translateVa .fetch 0x01400000#32 (beforeFetch (p.setPc 0x01400000#32)) = .ok q s1 ∧ p.cfg.memSize < q.toNat + 4) ∧
      p.replies = [] :=
  ⟨ready_setPc _ _ ⟨rfl, rfl, rfl⟩ rfl rfl (by decide), by decide, ready_setPc _ _ ⟨rfl, rfl, rfl⟩ rfl rfl (by decide), by decide,
    ⟨_, _, rfl⟩, ready_setPc _ _ ⟨rfl, rfl, rfl⟩ rfl rfl (by decide), by decide, ⟨_, _, rfl, by decide⟩, rfl,
    ready_setPc _ _ ⟨rfl, rfl, rfl⟩ rfl rfl (by decide), by decide, ⟨_, _, rfl, by decide⟩, rfl⟩

theorem witness_NonInstructionWords :
    ([0x30200073#32, 0x00000000#32, 0x00002007#32] : List Word).map decode = [.illegal, .unsupported, .floatingPoint] ∧
      (∀ word, ReadyToFetch (fetching word)) ∧
      (∃ s1, fetchWord (fetching 0x30200073#32).hart.pc (beforeFetch (fetching 0x30200073#32)) = .ok 0x30200073#32 s1) ∧
      (∃ s1, fetchWord (fetching 0x00000000#32).hart.pc (beforeFetch (fetching 0x00000000#32)) = .ok 0x00000000#32 s1) ∧
      (∃ s1, fetchWord (fetching 0x00002007#32).hart.pc (beforeFetch (fetching 0x00002007#32)) = .ok 0x00002007#32 s1) ∧
      (fetching 0x30200073#32).replies = [] :=
  ⟨by decide, ready_fetching, ⟨_, rfl⟩, ⟨_, rfl⟩, ⟨_, rfl⟩, rfl⟩

/-- `w` with an armed timer. -/
def armed (v : DWord) : State := w.setTimer { enabled := true, value := v }

/-- Values 0 (which counts as 2^64), 1 and 2. -/
theorem witness_TimerCountdown :
    (∀ v, (armed v).hart.timer.enabled = true) ∧ (armed 0#64).hart.timer.value = 0#64 ∧ 0 + 1 < 2 ^ 64 ∧
      (armed 1#64).hart.timer.value.toNat = 0 + 1 ∧ 0 + 1 < (armed 2#64).hart.timer.value.toNat :=
  ⟨fun _ => rfl, rfl, by decide, by decide, by decide⟩

theorem witness_TimerStep :
    let s := armed 1#64
    s.agenda = [] ∧ s.hart.task = .idle ∧ s.hart.port = [] ∧ s.hart.life = .running ∧
      s.hart.timer = { enabled := true, value := 1#64 } ∧ s.replies = [] ∧ s.hart.pollctr + 1 ≠ s.cfg.pollInterval :=
  ⟨rfl, rfl, rfl, rfl, rfl, rfl, by decide⟩

/-- `w` one step before its poll is due, with this matrix. -/
def polling (grid : Sparse Word) : State := { w.setPollctr 99 with grid := grid }

theorem witness_PollStep :
    (∀ g, (polling g).agenda = [] ∧ (polling g).hart.task = .idle ∧ (polling g).hart.port = [] ∧ (polling g).hart.life = .running ∧
      ((polling g).hart.timer.enabled = true → (polling g).hart.timer.value ≠ 1#64) ∧
      (polling g).hart.pollctr + 1 = (polling g).cfg.pollInterval ∧ (polling g).replies = []) ∧
      InterruptPending (polling [(2, 9#32)]) ∧ ¬ InterruptPending (polling []) :=
  ⟨fun _ => ⟨rfl, rfl, rfl, rfl, fun h => absurd (show false = true from h) (by decide), rfl, rfl⟩, ⟨2, ⟨by decide, by decide, .inl rfl⟩, by decide⟩,
    fun ⟨_, _, h⟩ => h rfl⟩

/-- The last source `N` and an earlier one, both pending. -/
theorem witness_CheckInterruptsDelivers :
    let s := polling [(1, 6#32), (2, 9#32)]
    s.replies = [] ∧ Polled s 2 ∧ s.gridRead s.hart.id 2 ≠ 0#32 ∧ (∀ later, 2 < later → Polled s later → s.gridRead s.hart.id later = 0#32) ∧
      Polled s 1 ∧ ¬ Polled s 0 ∧ ¬ Polled s 3 := by
  refine ⟨rfl, ⟨by decide, by decide, .inl rfl⟩, by decide, ?_, ⟨by decide, by decide, .inl rfl⟩, ?_, ?_⟩
  · rintro later h ⟨h1, -, -⟩
    exact absurd h1 (by change ¬ later ≤ 2; omega)
  · rintro ⟨-, h, -⟩
    exact h rfl
  · rintro ⟨h, -, -⟩
    exact absurd h (by decide)

theorem witness_NopLoopIteration :
    let s := { (polling [(2, 1#32)]).setLife .nopLoop with replies := [[.wake]] }
    s.agenda = [] ∧ s.hart.task = .idle ∧ s.hart.port = [] ∧ s.hart.life = .nopLoop ∧ s.replies = [[.wake]] ∧ InterruptPending s ∧
      w.replies = [] :=
  ⟨rfl, rfl, rfl, rfl, rfl, ⟨2, ⟨by decide, by decide, .inl rfl⟩, by decide⟩, rfl⟩

theorem witness_LifecycleTransitions :
    w.agenda = [] ∧ w.hart.task = .idle ∧ w.hart.port = [] ∧ w.hart.life ≠ .stopped ∧ (w.setLife .stopped).hart.life = .stopped ∧
      (w.setLife .stopping).hart.life = .stopping :=
  ⟨rfl, rfl, rfl, by decide, rfl, rfl⟩

theorem witness_BootSequence :
    State.reset.hart.life = .stopped ∧ State.reset.replies = [] ∧
      ({ State.reset with replies := [[.setCsr 0x341#12 0x80#32, .setCsr 0x180#12 0#32]] }).replies =
        [.setCsr 0x341#12 0x80#32, .setCsr 0x180#12 0#32] :: [] :=
  ⟨rfl, rfl, rfl⟩

/-- `w` at the port of an exception, with this script and matrix. -/
def atPort (script : List HostAct) (pollNext : Bool) (grid : Sparse Word) : State :=
  { w.setPort [{ site := .exec, script := script, pollNext := pollNext }] with grid := grid }

/-- To itself, to no hart, to an empty cell, to an occupied one. -/
theorem witness_RaiseInterruptAttempt :
    (∀ script next grid, (atPort script next grid).agenda = [] ∧ (atPort script next grid).hart.task = .idle) ∧
      (atPort [.raise 0 5#32] false []).hart.port = { site := .exec, script := [.raise 0 5#32], pollNext := false } :: [] ∧
      0 = (atPort [.raise 0 5#32] false []).hart.id ∧ (atPort [.raise 2 5#32] false []).cfg.hartCount ≤ 2 ∧
      1 ≠ (atPort [.raise 1 5#32] false []).hart.id ∧ 1 < (atPort [.raise 1 5#32] false []).cfg.hartCount ∧
      (atPort [.raise 1 5#32] false []).gridRead 1 0 = 0#32 ∧ (atPort [.raise 1 5#32] false [(3, 1#32)]).gridRead 1 0 ≠ 0#32 :=
  ⟨fun _ _ _ => ⟨rfl, rfl⟩, rfl, rfl, by decide, by decide, by decide, by decide, by decide⟩

/-- With its cell empty, and set; after a failed attempt; and between the two events of a split one. -/
theorem witness_ResponseProtocol :
    (∀ next grid, (atPort [.await] next grid).agenda = [] ∧ (atPort [.await] next grid).hart.task = .idle ∧
      (atPort [.await] next grid).hart.port = { site := .exec, script := [.await], pollNext := next } :: []) ∧
      (atPort [.await] false []).gridRead 0 0 = 0#32 ∧ (atPort [.await] false [(0, 0x99#32)]).gridRead 0 0 ≠ 0#32 ∧
      0 < (atPort [.await] false []).cfg.hartCount ∧
      ((atPort [.await] false [(0, 0x99#32)]).setTask .consume).hart.task = .consume ∧
      ((atPort [.await] false [(0, 0x99#32)]).setTask .consume).hart.port =
        { site := .exec, script := [.await], pollNext := false } :: [] :=
  ⟨fun _ _ => ⟨rfl, rfl, rfl⟩, by decide, by decide, by decide, rfl, rfl⟩

/-- The largest bare value of `SATP`. -/
theorem witness_BareTranslation : (withCsr w 0x180#12 0x7FFFFFFF#32).hart.csr.satp.toNat < 2 ^ 31 := by decide

theorem witness_TwoLevelTranslation :
    2 ^ 31 ≤ p.hart.csr.satp.toNat ∧ tlbLoad p.cfg (p.tlb .data) (vpiOf p.hart.csr.satp 0x10000ABC#32) = none ∧
      pteAt p (rootEntryAddress p 0x10000ABC#32) = some 0x00000C01#32 ∧ pointerEntry 0x00000C01#32 ∧
      pteAt p (leafEntryAddress 0x00000C01#32 0x10000ABC#32) = some 0x000004DF#32 ∧ leafEntry 0x000004DF#32 ∧
      Allows 0x000004DF#32 .load ∧ Allows 0x000004DF#32 .store ∧ Allows 0x000004DF#32 .fetch := by
  unfold pointerEntry leafEntry Allows
  and_intros <;> decide

theorem witness_MegapageTranslation :
    2 ^ 31 ≤ p.hart.csr.satp.toNat ∧ tlbLoad p.cfg (p.tlb .instruction) (vpiOf p.hart.csr.satp 0x003FFFFF#32) = none ∧
      pteAt p (rootEntryAddress p 0x003FFFFF#32) = some 0x000000DF#32 ∧ leafEntry 0x000000DF#32 ∧
      (0x000000DF#32).toNat / 2 ^ 10 % 2 ^ 10 = 0 ∧ Allows 0x000000DF#32 .fetch := by
  unfold leafEntry Allows
  and_intros <;> decide

/-- A hit that is not permitted; then each failure of the walk. -/
theorem witness_TranslationFaults :
    2 ^ 31 ≤ p.hart.csr.satp.toNat ∧
      (let t := p.setTlb .data [0x000102000000049F#64, tlbSentinel, tlbSentinel, tlbSentinel]
      tlbLoad t.cfg (t.tlb .data) (vpiOf t.hart.csr.satp 0x10200000#32) = some 0x0000049F#32 ∧ ¬ Allows 0x0000049F#32 .load) ∧
      (∀ v ∈ ([0x00400000#32, 0x00800000#32, 0x00C00000#32, 0x01000000#32, 0x10001000#32, 0x10002000#32, 0x10003000#32,
        0x10400000#32] : List Word), tlbLoad p.cfg (p.tlb .data) (vpiOf p.hart.csr.satp v) = none) ∧
      pteAt (withCsr p 0x180#12 0x80000400#32) (rootEntryAddress (withCsr p 0x180#12 0x80000400#32) 0#32) = none ∧
      pteAt p (rootEntryAddress p 0x00800000#32) = some 0#32 ∧ badEntry 0#32 ∧
      pteAt p (rootEntryAddress p 0x00C00000#32) = some 0x00000405#32 ∧ badEntry 0x00000405#32 ∧
      pteAt p (rootEntryAddress p 0x00400000#32) = some 0x002004DF#32 ∧ leafEntry 0x002004DF#32 ∧
      (0x002004DF#32).toNat / 2 ^ 10 % 2 ^ 10 ≠ 0 ∧
      pteAt p (rootEntryAddress p 0x01000000#32) = some 0x0000009F#32 ∧ leafEntry 0x0000009F#32 ∧ ¬ Allows 0x0000009F#32 .load ∧
      pteAt p (rootEntryAddress p 0x10400000#32) = some 0x00100001#32 ∧ pointerEntry 0x00100001#32 ∧
      pteAt p (leafEntryAddress 0x00100001#32 0x10400000#32) = none ∧
      pteAt p (leafEntryAddress 0x00000C01#32 0x10001000#32) = some 0#32 ∧
      pteAt p (leafEntryAddress 0x00000C01#32 0x10002000#32) = some 0x00000C01#32 ∧
      pteAt p (leafEntryAddress 0x00000C01#32 0x10003000#32) = some 0x0000049F#32 ∧ leafEntry 0x0000049F#32 := by
  unfold pointerEntry leafEntry badEntry Allows
  simp only [List.forall_mem_cons, List.not_mem_nil, false_imp_iff, implies_true, and_true]
  and_intros <;> decide

theorem witness_TranslationIsStable :
    SysInv p ∧ (∃ q s1, translateVa .load 0x10000ABC#32 p = .ok q s1) ∧ 2 ^ 31 ≤ p.hart.csr.satp.toNat :=
  ⟨inv_p, ⟨_, _, rfl⟩, by decide⟩

/-- A miss in a TLB whose probed slots are full, and another key that stays. -/
theorem witness_TlbStoreThenLoad :
    let t : Tlb := [0x0000010000000001#64, 0x0000020000000002#64, 0x0000000200000003#64, tlbSentinel]
    tiny.wf = true ∧ t.length = tiny.tlbSize ∧ (0x7FFFFF00#32).toNat < 2 ^ 31 ∧ tlbLoad tiny t 0x7FFFFF00#32 = none ∧
      0x00000002#32 ≠ 0x7FFFFF00#32 ∧ tlbLoad tiny (tlbStore tiny t 0x7FFFFF00#32 7#32) 0x00000002#32 = some 3#32 := by
  decide

/-- An access that hits and one that misses, at the ends of a line. -/
theorem witness_CacheProbeWriteProbe :
    SysInv dirtyState ∧ dirtyState.cfg.cacheEnable = true ∧ 4 ∈ [1, 2, 4] ∧ 0x1004 % 4 = 0 ∧ 0x1004 + 4 ≤ dirtyState.cfg.memSize ∧
      (∃ old, cacheLoad dirtyState.cfg (dirtyState.cache .data) 0x1004 4 = some old) ∧
      cacheLoad dirtyState.cfg (dirtyState.cache .data) 0x1008 4 = none :=
  ⟨inv_dirty, rfl, by decide, by decide, by decide, ⟨_, rfl⟩, by decide⟩

/-- A state whose D-cache has both its slots in use, one of them dirty. -/
def fullState : State :=
  dirtyState.setHart { dirtyState.hart with
    dcache := dirtyState.hart.dcache ++ [{ tag := 0x201, dirty := false, data := List.replicate 8 0#8 }] }

theorem inv_full : SysInv fullState := by
  refine inv_of rfl rfl rfl (hartWf_of (by decide) (by decide) ?_ ?_ (by decide) (by decide) (wf_tlbEmpty tiny) (wf_tlbEmpty tiny)
    (by decide) (by decide) (by decide) rfl) (by decide) (by decide) (by decide) (by decide)
  all_goals (unfold Cache.wf; decide)

/-- The last line of memory, with a free slot and without. -/
theorem witness_CacheRefill :
    SysInv dirtyState ∧ dirtyState.cfg.cacheEnable = true ∧ (dirtyState.cache .data).find 0x1FFFF = none ∧
      (0x1FFFF + 1) * dirtyState.cfg.lineSize ≤ dirtyState.cfg.memSize ∧
      (dirtyState.cache .data).length < dirtyState.cfg.cacheSlots ∧ SysInv fullState ∧ fullState.cfg.cacheEnable = true ∧
      (fullState.cache .data).find 0x1FFFF = none ∧ (fullState.cache .data).length = fullState.cfg.cacheSlots ∧
      (fullState.cache .data).map Line.dirty = [true, false] :=
  ⟨inv_dirty, rfl, by decide, by decide, by decide, inv_full, rfl, by decide, by decide, by decide⟩

theorem witness_TranslationIgnoresDataCache :
    (∃ q s1, translateVa .load 0x10000ABC#32 p = .ok q s1) ∧ ∃ e s1, translateVa .load 0x00800000#32 p = .exc e s1 :=
  ⟨⟨_, _, rfl⟩, _, _, rfl⟩

theorem witness_ResetValues : 1 ≤ tiny.hartCount ∧ 1 ≤ Config.atReset.hartCount := by decide

/-- A step of an instruction, and one of a scheduled turn. -/
theorem witness_StepKeepsInvariant :
    SysInv w ∧ (∃ t, step (w.setLife .stopping) = .next t) ∧ SysInv ({ w with agenda := [.sysRaise 1 3#32] }) ∧
      ∃ t, step ({ w with agenda := [.sysRaise 1 3#32] }) = .next t :=
  ⟨inv_w, ⟨_, rfl⟩, inv_w.agenda _, _, rfl⟩

theorem witness_InstructionsLeaveHostState :
    w.replies = [] ∧ (∃ t, exec (.csrrw 5 6 0x300#12) w = .next t) ∧ ∃ t, exec (.sw 1 5 0#12) w = .next t :=
  ⟨rfl, ⟨_, rfl⟩, _, rfl⟩

/-- A taken branch, a branch not taken, an instruction that is no transfer. -/
theorem witness_OnlyTransfersJump :
    w.replies = [] ∧ w.hart.jumped = false ∧ (∃ t, exec (.beq 5 6 8#13) w = .next t ∧ t.hart.jumped = true) ∧
      (∃ t, exec (.beq 5 7 8#13) w = .next t ∧ t.hart.jumped = false) ∧ isTransfer (.add 1 2 3) = false ∧
      ∃ t, exec (.add 1 2 3) w = .next t :=
  ⟨rfl, rfl, ⟨_, rfl, rfl⟩, ⟨_, rfl, rfl⟩, rfl, _, rfl⟩

theorem witness_MemorySystemWriters :
    w.replies = [] ∧ (∃ t, exec (.add 1 2 3) w = .next t) ∧ isLoad (.add 1 2 3) = false ∧ isStore (.add 1 2 3) = false ∧
      isFence (.add 1 2 3) = false ∧ isFenceI (.add 1 2 3) = false ∧ isSfence (.add 1 2 3) = false ∧ isAtomic (.add 1 2 3) = false :=
  ⟨rfl, ⟨_, rfl⟩, rfl, rfl, rfl, rfl, rfl, rfl⟩

/-- Hart 1, parked, while hart 0 takes its own turn, and while it takes a scheduled one. -/
theorem witness_TurnsAreIsolated :
    let s := w.setLife .stopping
    SysInv s ∧ (∃ t, step s = .next t) ∧ Hart.reset tiny 1 ∈ s.hart :: s.parked ∧ (Hart.reset tiny 1).id ≠ s.hart.id ∧
      turnHart (.stop 0) ≠ some (Hart.reset tiny 1).id ∧ ∃ t, step { s with agenda := [.stop 0] } = .next t :=
  ⟨inv_w.setLife _, ⟨_, rfl⟩, by simp [w, start, State.resetWith, tiny], by decide, by decide, _, rfl⟩

/-- A hart at no port, and one at a port. -/
theorem witness_SplitIterationIsWhole :
    w.agenda = [] ∧ w.hart.task = .idle ∧ (atPort [.await] true []).agenda = [] ∧ (atPort [.await] true []).hart.task = .idle :=
  ⟨rfl, rfl, rfl, rfl⟩

/-- `p` in the middle of `LW x5, 0(x1)`. -/
def loading (st : Stage) : State := p.setTask (.exec (.lw 5 1 0#12) st)

/-- The FENCE begun, one of two dirty lines next; the last dirty line next; the walk of a load at either level, with a pointer, a
failure, a leaf; the walk of a fetch; a kill; a poll with an empty cell and with a full one, its last source among them; a zeroing. -/
theorem witness_SharedEventsAreSeparate :
    (SysInv hit ∧ hit.agenda = [] ∧ hit.hart.port = [] ∧ ∃ l ∈ hit.hart.dcache, l.dirty = true) ∧
      ((hit.setTask .flush).hart.task = .flush ∧ SysInv (hit.setTask .flush) ∧
        ∃ l, (hit.setTask .flush).hart.dcache[1]? = some l ∧ l.dirty = true) ∧
      (SysInv (dirtyState.setTask .flush) ∧ ∃ l, (dirtyState.setTask .flush).hart.dcache[0]? = some l ∧ l.dirty = true) ∧
      (∀ st, SysInv (loading st) ∧ (loading st).agenda = [] ∧ (loading st).hart.port = [] ∧
        requestOf (.lw 5 1 0#12) (loading st) = some (.load 4 id 5 0x10000000#32)) ∧
      rootTable p.hart.csr.satp = 0x2000#32 ∧ pteAt p (rootEntryAddress p 0x10000000#32) = some 0x00000C01#32 ∧
      pointerEntry 0x00000C01#32 ∧ (0x00000C01#32 >>> 10) * 4096#32 = 0x3000#32 ∧
      pteAt p (leafEntryAddress 0x00000C01#32 0x10000000#32) = some 0x000004DF#32 ∧ leafEntry 0x000004DF#32 ∧
      Allows 0x000004DF#32 .load ∧ ¬ DataHit p 0x1000 ∧
      pteAt p (leafEntryAddress 0x00000C01#32 0x10001000#32) = some 0#32 ∧ badEntry 0#32 ∧
      pteAt p (rootEntryAddress p (p.setPc 0x10000000#32).hart.pc) = some 0x00000C01#32 ∧
      SysInv (w.setTask (.kill 0x1000#32)) ∧
      SysInv ((polling [(2, 9#32)]).setTask (.scan [1, 2] true)) ∧ (polling [(2, 9#32)]).gridRead 0 1 = 0#32 ∧
      (polling [(2, 9#32)]).gridRead 0 2 ≠ 0#32 ∧ SysInv ((polling [(2, 9#32)]).setTask (.scan [2] true)) ∧
      SysInv ((polling [(2, 9#32)]).setTask (.zero 2 [])) := by
  have hs : SysInv (polling [(2, 9#32)]) := by
    refine inv_of rfl rfl rfl (hartWf_of (by decide) (by decide) ?_ ?_ (by decide) (by decide) (wf_tlbEmpty tiny) (wf_tlbEmpty tiny)
      (by decide) (by decide) (by decide) rfl) (by decide) (by decide) (by decide) (by decide)
    all_goals (unfold Cache.wf; decide)
  refine ⟨⟨inv_hit, rfl, rfl, by decide⟩, ⟨rfl, inv_hit.setTask _ trivial, _, rfl, rfl⟩, ⟨inv_dirty.setTask _ trivial, _, rfl, rfl⟩,
    fun st => ⟨inv_p.setTask _ trivial, rfl, rfl, rfl⟩, by decide, by decide, by unfold pointerEntry; decide, by decide,
    by decide, by unfold leafEntry; decide, by unfold Allows; decide, ?_, by decide, by unfold badEntry; decide, by decide,
    inv_w.setTask _ trivial, hs.setTask _ ?_, by decide, by decide, hs.setTask _ ?_, hs.setTask _ ?_⟩
  · rintro ⟨-, l, hl, -⟩
    cases hl
  all_goals (unfold Task.wf; decide)

theorem witness_RegisterFile : (5 : Reg) ≠ 0 ∧ (6 : Reg) ≠ 5 := by decide

end Sys2Proof.Tests
end

section
/-! SUPPORT. What an instruction can come to, from any state (spec 60_exceptions.md R302): a register, a CSR cell, a jump, an exception,
a fence, or an access to memory. Everything said of all instructions below is said of these effects. -/

namespace Sys2Proof.Machine

/-- The states the instruction `i` can come to from `s`. -/
inductive Effect (i : Instr) (s : State) : State → Prop where
  | nothing : Effect i s s
  | register (rd : Reg) (v : Word) : Effect i s (s.writeX rd v)
  | csr (a : CsrAddr) (v : Word) (rd : Reg) (old : Word) (ha : a.extractLsb' 10 2 = 0b00#2) :
      Effect i s ((s.writeCsr a v).writeX rd old)
  /-- A branch links into `x0`. -/
  | jump (rd : Reg) (v target : Word) (hi : isTransfer i = true) (ht : alignedTarget target = true) :
      Effect i s (jumpTo (s.writeX rd v) target)
  | raised (e : Exc) : Effect i s (raise e .exec s)
  | fence (hi : isFence i = true) : Effect i s (fenceOp s)
  | fenceI (hi : isFenceI i = true) : Effect i s (fenceIOp s)
  | sfence (hi : isSfence i = true) : Effect i s (flushTlbs s)
  | access (r : Request) (t : State) (hi : requestOf i s = some r) (hr : r.run s = .next t) : Effect i s t

theorem effect_aluImm {i : Instr} {op : Word → Word → Word} {rd rs1 : Reg} {imm : Word} {s t : State}
    (h : aluImm op rd rs1 imm s = .next t) : Effect i s t := by
  cases h
  exact .register _ _

theorem effect_aluReg {i : Instr} {op : Word → Word → Word} {rd rs1 rs2 : Reg} {s t : State}
    (h : aluReg op rd rs1 rs2 s = .next t) : Effect i s t := by
  cases h
  exact .register _ _

theorem effect_raise {i : Instr} {e : Exc} {s t : State}
    (h : (.next (raise e .exec s) : Host.Outcome State Fault Refusal) = .next t) : Effect i s t := by
  cases h
  exact .raised e

theorem effect_jumpAndLink {i : Instr} {rd : Reg} {target : Word} {s t : State} (hi : isTransfer i = true)
    (h : jumpAndLink rd target s = .next t) : Effect i s t := by
  unfold jumpAndLink at h
  split at h
  · next ht =>
    cases h
    exact .jump _ _ _ hi ht
  · exact effect_raise h

theorem effect_branchIf {i : Instr} {taken : Bool} {off : BitVec 13} {s t : State} (hi : isTransfer i = true)
    (h : branchIf taken off s = .next t) : Effect i s t := by
  unfold branchIf at h
  split at h
  · split at h
    · next ht =>
      cases h
      simpa using Effect.jump (s := s) 0 0#32 _ hi ht
    · exact effect_raise h
  · cases h
    exact .nothing

/-- A CSR address that passes `CsrCheck` is an unprivileged one (45_system.md R268). -/
theorem csrCheck_unprivileged {c : Config} {a : CsrAddr} {writes : Bool} (h : csrCheck c a writes = true) :
    a.extractLsb' 10 2 = 0b00#2 := by
  by_contra hn
  rw [csrCheck, if_pos hn] at h
  cases h

theorem effect_csrAccess {i : Instr} {rd : Reg} {a : CsrAddr} {writes : Bool} {new : Word → Word} {s t : State}
    (h : csrAccess rd a writes new s = .next t) : Effect i s t := by
  unfold csrAccess at h
  split at h
  · next hc =>
    cases h
    split
    · exact .csr _ _ _ _ (csrCheck_unprivileged hc)
    · exact .register _ _
  · exact effect_raise h

/-- What `exec` does with each instruction is one of these effects; an arm of `exec` is the meaning it calls. -/
theorem exec_effect {i : Instr} {s t : State} (h : exec i s = .next t) : Effect i s t := by
  cases i
  case lui | auipc =>
    cases h
    exact .register _ _
  case jal | jalr => exact effect_jumpAndLink rfl h
  case beq | bne | blt | bge | bltu | bgeu => exact effect_branchIf rfl h
  case lb | lh | lw | lbu | lhu | sb | sh | sw | lrW | scW | amoswapW => exact .access _ t rfl h
  case addi | slti | sltiu | xori | ori | andi | slli | srli | srai => exact effect_aluImm h
  case add | sub | sll | slt | sltu | xor | srl | sra | or | and | mul | mulh | mulhsu | mulhu | div | divu | rem | remu =>
    exact effect_aluReg h
  case csrrw | csrrs | csrrc | csrrwi | csrrsi | csrrci =>
    simp only [exec, execCsrrw, execCsrrs, execCsrrc, execCsrrwi, execCsrrsi, execCsrrci] at h
    exact effect_csrAccess h
  case ecall | ebreak | amoaddW | amoxorW | amoandW | amoorW | amominW | amomaxW | amominuW | amomaxuW => exact effect_raise h
  case fence =>
    cases h
    exact .fence rfl
  case fenceI =>
    cases h
    exact .fenceI rfl
  case sfenceVma =>
    cases h
    exact .sfence rfl

/-! ## Every instruction acts on its own hart and the shared memory, and keeps the invariant -/

theorem local_fenceOp (s : State) : Local s (fenceOp s) := by
  refine ⟨?_, ?_, ?_, ?_, fun hI => hI.fenceOp⟩ <;> unfold fenceOp <;> split <;> rfl

theorem local_fenceIOp (s : State) : Local s (fenceIOp s) := by
  refine ⟨?_, ?_, ?_, ?_, fun hI => hI.fenceIOp⟩ <;> unfold fenceIOp <;> split <;> rfl

/-- The widths of the accesses that instructions ask for (43_loadstore.md R250). -/
theorem requestOf_width {i : Instr} {s : State} {r : Request} (h : requestOf i s = some r) : r.width ∈ [1, 2, 4] := by
  cases i <;> simp only [requestOf, Option.some.injEq, reduceCtorEq] at h <;> subst h
  case lb | lbu | sb => exact (by decide : 1 ∈ [1, 2, 4])
  case lh | lhu | sh => exact (by decide : 2 ∈ [1, 2, 4])
  case lw | sw | lrW | scW | amoswapW => exact (by decide : 4 ∈ [1, 2, 4])

theorem local_run {r : Request} {s t : State} (hw : r.width ∈ [1, 2, 4]) (hr : r.LocalSection) (h : r.run s = .next t) : Local s t := by
  cases r with
  | load n ext rd va => exact local_orRaise _ _ (local_memRead va n s hw) (fun v u _ => local_writeX u rd (ext v)) t h
  | store n va v => exact local_orRaise _ _ (local_memWrite va n v s hw) (fun _ u _ => .refl u) t h
  | atomic ty va critical => exact local_orRaise _ _ (local_physicalAddress ty va 4 s hw) (fun p u _ => hr p u) t h

theorem local_of_effect {i : Instr} {s t : State} (h : Effect i s t) : Local s t := by
  cases h with
  | nothing => exact .refl s
  | register rd v => exact local_writeX s rd v
  | csr a v rd old => exact Local.trans (t := s.writeCsr a v) ⟨rfl, rfl, rfl, rfl, fun hI => hI.writeCsr a v⟩ (local_writeX _ rd old)
  | jump rd v target =>
    exact (local_writeX s rd v).trans ⟨rfl, rfl, rfl, rfl, fun hI => (hI.setPc target).setJumped true⟩
  | raised e => exact local_raise e .exec s
  | fence => exact local_fenceOp s
  | fenceI => exact local_fenceIOp s
  | sfence => exact ⟨rfl, rfl, rfl, rfl, fun hI => hI.flushTlbs⟩
  | access r _ hi hr => exact local_run (requestOf_width hi) (requestOf_local hi) hr

theorem local_exec (i : Instr) (s t : State) (h : exec i s = .next t) : Local s t := local_of_effect (exec_effect h)

/-! ## Every turn of a hart, likewise -/

theorem SysInv.taskWf {s : State} (h : SysInv s) : s.hart.task.wf s.cfg := h.hartWf.2.2.2.2.2.2.2.2.2.2.2

theorem local_fetchExecute {s t : State} (h : fetchExecute s = .next t) : Local s t := by
  have hf := local_fetchWord s.hart.pc s
  unfold fetchExecute at h
  split at h
  · next e u hu =>
    cases h
    rw [hu] at hf
    exact hf.trans (local_raise e .fetch u)
  · next w u hu =>
    rw [hu] at hf
    exact hf.trans (local_decodeThen (fun _ _ _ => local_executeInstr local_exec) h)

theorem local_setJumped (s : State) (b : Bool) : Local s (s.setJumped b) := ⟨rfl, rfl, rfl, rfl, fun hI => hI.setJumped b⟩

theorem local_setLife (s : State) (l : Life) : Local s (s.setLife l) := ⟨rfl, rfl, rfl, rfl, fun hI => hI.setLife l⟩

theorem local_runningStep {s t : State} (h : runningStep s = .next t) : Local s t := by
  have h2 := (local_setJumped s false).trans (local_timerPhase _)
  have h3 := h2.trans (local_pollPhase _)
  unfold runningStep at h
  dsimp only at h
  split at h
  · cases h
    exact h2
  · split at h
    · cases h
      exact h3
    · exact h3.trans (local_fetchExecute h)

theorem local_wholeTurn {s t : State} (h : wholeTurn s = .next t) : Local s t := by
  unfold wholeTurn at h
  split at h
  · split at h
    · cases h
      exact .refl s
    · cases h
      exact local_setLife s .stopped
    · cases h
      exact (local_setJumped s false).trans (local_checkInterrupts _)
    · exact local_runningStep h
  · exact local_resumePort s t h

theorem local_iterate {s t : State} (hI : SysInv s) (h : iterate s = .next t) : Local s t := by
  unfold iterate at h
  split at h
  · exact local_wholeTurn h
  · exact local_taskEvent local_exec hI.taskWf h

theorem local_splitTurn {s t : State} (hI : SysInv s) (h : splitTurn s = .next t) : Local s t := by
  unfold splitTurn at h
  split at h
  · exact local_startTurn local_exec h
  · exact local_taskEvent local_exec hI.taskWf h

theorem local_writeBackTurn (slot : Nat) (s : State) : Local s (writeBackTurn slot s) := by
  unfold writeBackTurn
  split
  · exact local_flushEvent slot s
  · exact .refl s

theorem local_startHart (s : State) : Local s (startHart s) := by
  unfold startHart
  split
  · exact (local_setLife s .running).trans (local_present .boot _)
  · exact .refl s

theorem local_hostAct {a : HostAct} {s t : State} (h : hostAct a s = some t) : Local s t := by
  obtain ⟨hcfg, hparked, hid, -, hagenda, -⟩ := hostAct_frame a s t h
  exact ⟨hcfg, hparked, hid, hagenda, fun hI => hI.hostAct a h⟩

theorem local_accessHart (a : HostAct) (s : State) : Local s (accessHart a s) := by
  unfold accessHart
  split
  · cases h : hostAct a s with
    | none => exact .refl s
    | some t => exact local_hostAct h
  · exact .refl s

theorem local_tlbDrop (st : Stream) (slot : Nat) (s : State) : Local s (s.setTlb st ((s.tlb st).set slot tlbSentinel)) := by
  refine ⟨by simp, by simp, by cases st <;> rfl, by simp, fun hI => hI.setTlb _ _ ?_⟩
  exact wf_tlbSet _ _ _ _ (hI.tlbWf st) (.inl rfl)

end Sys2Proof.Machine
end

section
/-! PROOFS. Which harts there are (spec 10_state.md R20): making a hart the acting one only reorders them, so a turn changes no hart but
the one it is about, and keeps the invariant of the system. -/

namespace Sys2Proof.Machine

/-- Every hart of the system, the acting one first. -/
def State.harts (s : State) : List Hart := s.hart :: s.parked

/-- `insertHart` puts one hart in, wherever. -/
theorem insertHart_perm (g : Hart) (l : List Hart) : (insertHart g l).Perm (g :: l) := by
  induction l with
  | nil => exact .refl _
  | cons k ks ih =>
    unfold insertHart
    split
    · exact .refl _
    · exact (ih.cons k).trans (.swap g k ks)

/-- `insertHart` keeps the ids rising. -/
theorem pairwise_insertHart {g : Hart} {l : List Hart} (hl : l.Pairwise (fun a b => a.id < b.id)) (hg : ∀ k ∈ l, k.id ≠ g.id) :
    (insertHart g l).Pairwise (fun a b => a.id < b.id) := by
  induction l with
  | nil => exact List.pairwise_singleton _ _
  | cons k ks ih =>
    obtain ⟨hk, hks⟩ := List.pairwise_cons.1 hl
    have hkg := hg k (by simp)
    unfold insertHart
    split
    · next hlt =>
      refine List.pairwise_cons.2 ⟨fun b hb => ?_, hl⟩
      rcases List.mem_cons.1 hb with rfl | hb
      · exact hlt
      · exact hlt.trans (hk b hb)
    · refine List.pairwise_cons.2 ⟨fun b hb => ?_, ih hks fun b hb => hg b (by simp [hb])⟩
      rcases List.mem_cons.1 ((insertHart_perm g ks).mem_iff.1 hb) with rfl | hb
      · omega
      · exact hk b hb

/-- Of harts with rising ids, all but the one of an id are one less. -/
theorem perm_cons_filter {g : Hart} {l : List Hart} (hl : l.Pairwise (fun a b => a.id < b.id)) (hg : g ∈ l) :
    (g :: l.filter (fun k => decide (k.id ≠ g.id))).Perm l := by
  induction l with
  | nil => cases hg
  | cons k ks ih =>
    obtain ⟨hk, hks⟩ := List.pairwise_cons.1 hl
    rcases List.mem_cons.1 hg with rfl | hg
    · have hrest : ks.filter (fun k => decide (k.id ≠ g.id)) = ks :=
        List.filter_eq_self.2 fun b hb => by simpa using (hk b hb).ne'
      rw [List.filter_cons_of_neg (by simp), hrest]
    · have hne : k.id ≠ g.id := (hk g hg).ne
      rw [List.filter_cons_of_pos (by simpa using hne)]
      exact (List.Perm.swap k g _).trans ((ih hks hg).cons k)

theorem SysInv.parkedRising {s : State} (h : SysInv s) : s.parked.Pairwise (fun a b => a.id < b.id) := h.2.2.2.1
theorem SysInv.parkedNe {s : State} (h : SysInv s) : ∀ k ∈ s.parked, k.id ≠ s.hart.id := h.2.2.2.2.1

/-- What `focus` makes of the state when the parked hart `g` is to act. -/
def State.bringForward (g : Hart) (s : State) : State :=
  { s with hart := g, parked := insertHart s.hart (s.parked.filter (fun k => decide (k.id ≠ g.id))) }

/-- Bringing a parked hart forward keeps the invariant and every hart. -/
theorem bringForward_keeps {s : State} {g : Hart} (hI : SysInv s) (hg : g ∈ s.parked) :
    SysInv (s.bringForward g) ∧ (s.bringForward g).harts.Perm s.harts := by
  have hperm : (s.bringForward g).parked.Perm (s.hart :: s.parked.filter (fun k => decide (k.id ≠ g.id))) := insertHart_perm _ _
  have hall : (s.bringForward g).harts.Perm s.harts :=
    ((hperm.cons g).trans (.swap s.hart g _)).trans ((perm_cons_filter hI.parkedRising hg).cons s.hart)
  obtain ⟨hcfg, hhart, hwf, hrising, hne, hlen, hres, hmem, hkeys, hgrid⟩ := hI
  have hwfAll : ∀ k ∈ s.harts, k.wf s.cfg := List.forall_mem_cons.2 ⟨hhart, hwf⟩
  have hwfParked : ∀ k ∈ (s.bringForward g).parked, k.wf s.cfg := fun k hk => hwfAll k (hall.mem_iff.1 (List.mem_cons_of_mem g hk))
  refine ⟨⟨hcfg, hwf g hg, hwfParked, ?_, ?_, ?_, hres, hmem, hkeys, hgrid⟩, hall⟩
  · exact pairwise_insertHart (hrising.filter _) fun k hk => hne k (List.mem_filter.1 hk).1
  · intro k hk
    rcases List.mem_cons.1 (hperm.mem_iff.1 hk) with rfl | hk
    · exact (hne g hg).symm
    · exact of_decide_eq_true (List.mem_filter.1 hk).2
  · exact hall.length_eq.trans hlen

theorem focus_keeps {h : Nat} {s u : State} (hI : SysInv s) (hu : focus h s = some u) :
    SysInv u ∧ u.hart.id = h ∧ u.harts.Perm s.harts := by
  unfold focus at hu
  split at hu
  · next hid =>
    cases hu
    exact ⟨hI, hid, .refl _⟩
  · obtain ⟨g, hfind, rfl⟩ := Option.map_eq_some_iff.1 hu
    have hgid : g.id = h := by simpa using List.find?_some hfind
    subst hgid
    obtain ⟨hinv, hperm⟩ := bringForward_keeps hI (List.mem_of_find?_eq_some hfind)
    exact ⟨hinv, rfl, hperm⟩

/-- The invariant holds after a turn, and every hart but the one of the id `who` is still there as it was. -/
def Isolated (who : Option Nat) (s t : State) : Prop :=
  SysInv t ∧ ∀ k ∈ s.harts, who ≠ some k.id → k ∈ t.harts

/-- What only the acting hart does leaves the others as they are. -/
theorem isolated_of_local {s t : State} (hI : SysInv s) (h : Local s t) : Isolated (some s.hart.id) s t := by
  refine ⟨h.inv hI, fun k hk hne => ?_⟩
  rcases List.mem_cons.1 hk with rfl | hk
  · exact absurd rfl hne
  · exact List.mem_cons_of_mem _ (h.parked ▸ hk)

/-- What is done with hart `h`, by something that it does alone, leaves the others as they are. -/
theorem isolated_onHart {h : Nat} {f : State → Host.Outcome State Fault Refusal} {s t : State} (hI : SysInv s)
    (hf : ∀ u v, SysInv u → f u = .next v → Local u v) (ht : onHart h f s = .next t) : Isolated (some h) s t := by
  unfold onHart at ht
  split at ht
  · next u hu =>
    obtain ⟨hIu, hid, hperm⟩ := focus_keeps hI hu
    obtain ⟨hIt, hothers⟩ := isolated_of_local hIu (hf u t hIu ht)
    rw [hid] at hothers
    exact ⟨hIt, fun k hk => hothers k (hperm.mem_iff.2 hk)⟩
  · cases ht
    exact ⟨hI, fun k hk _ => hk⟩

/-- The same of something that always answers a next state. -/
theorem isolated_onHart_next {h : Nat} {f : State → State} {s t : State} (hI : SysInv s) (hf : ∀ u, Local u (f u))
    (ht : onHart h (fun u => .next (f u)) s = .next t) : Isolated (some h) s t := by
  refine isolated_onHart hI (fun u v _ hv => ?_) ht
  cases hv
  exact hf u

/-- An act on shared state that keeps the invariant leaves every hart as it is. -/
theorem isolated_shared {s t : State} (hI : SysInv t) (hh : t.harts = s.harts) : Isolated none s t :=
  ⟨hI, fun _ hk _ => hh ▸ hk⟩

theorem SysInv.systemLoad {s : State} (hI : SysInv s) (src : Nat) : SysInv (systemLoad src s) := by
  unfold Machine.systemLoad
  split
  · exact hI.sysResponse _
  · exact hI

theorem SysInv.systemClear {s : State} (hI : SysInv s) (src : Nat) : SysInv (systemClear src s) := by
  unfold Machine.systemClear
  split
  · exact hI.gridWrite _ _ _
  · exact hI

@[simp] theorem systemLoad_harts (src : Nat) (s : State) : (systemLoad src s).harts = s.harts := by
  unfold systemLoad; split <;> rfl

@[simp] theorem systemClear_harts (src : Nat) (s : State) : (systemClear src s).harts = s.harts := by
  unfold systemClear; split <;> rfl

theorem isolated_systemRaise {h : Nat} {code : Word} {s t : State} (hI : SysInv s) (ht : systemRaise h code s = .next t) :
    Isolated none s t := by
  unfold systemRaise at ht
  split at ht
  · cases ht
  · split at ht <;> cases ht
    · exact isolated_shared (hI.gridWrite _ _ _) rfl
    · exact isolated_shared hI rfl

/-- Every turn keeps the invariant and every hart but the one it is about. -/
theorem isolated_turn {tn : Turn} {s t : State} (hI : SysInv s) (ht : turn tn s = .next t) : Isolated (turnHart tn) s t := by
  cases tn with
  | hart h => exact isolated_onHart hI (fun _ _ => local_iterate) ht
  | split h => exact isolated_onHart hI (fun _ _ => local_splitTurn) ht
  | writeBack h slot => exact isolated_onHart_next hI (local_writeBackTurn slot) ht
  | start h => exact isolated_onHart_next hI local_startHart ht
  | stop h => exact isolated_onHart_next hI (fun u => local_setLife u _) ht
  | halt h => exact isolated_onHart_next hI (fun u => local_setLife u _) ht
  | access h a => exact isolated_onHart_next hI (local_accessHart a) ht
  | tlbDrop h st slot => exact isolated_onHart_next hI (local_tlbDrop st slot) ht
  | sysRaise h code => exact isolated_systemRaise hI ht
  | writeMem a bs =>
    cases ht
    exact isolated_shared (hI.writeRaw a bs) rfl
  | clearRes i =>
    cases ht
    exact isolated_shared (hI.clearReservation i) rfl
  | sysTake src =>
    cases ht
    exact isolated_shared ((hI.systemLoad src).systemClear src) (by simp)
  | sysLoad src =>
    cases ht
    exact isolated_shared (hI.systemLoad src) (by simp)
  | sysClear src =>
    cases ht
    exact isolated_shared (hI.systemClear src) (by simp)

/-- The hart the next step is about: the acting one, or that of the first turn scheduled. -/
def stepHart (s : State) : Option Nat :=
  match s.agenda with
  | [] => some s.hart.id
  | tn :: _ => turnHart tn

theorem stepHart_nil {s : State} (ha : s.agenda = []) : stepHart s = some s.hart.id := by
  rw [stepHart, ha]

theorem stepHart_cons {s : State} {tn : Turn} {rest : List Turn} (ha : s.agenda = tn :: rest) : stepHart s = turnHart tn := by
  rw [stepHart, ha]

/-- Every step keeps the invariant and every hart but the one it is about. -/
theorem isolated_step {s t : State} (hI : SysInv s) (h : step s = .next t) : Isolated (stepHart s) s t := by
  rw [step, nextTurn] at h
  cases ha : s.agenda with
  | nil =>
    rw [ha] at h
    rw [stepHart_nil ha]
    exact isolated_of_local hI (local_iterate hI h)
  | cons tn rest =>
    rw [ha] at h
    rw [stepHart_cons ha]
    exact isolated_turn (s := { s with agenda := rest }) (hI.agenda rest) h

/-- Settles O52: whatever the turn is, the hart it is about changes only what a hart changes alone, and that keeps the invariant. -/
theorem stepKeepsInvariant : Obligations.StepKeepsInvariant := fun _ _ hI h => (isolated_step hI h).1

/-- Settles O57: a hart that the step is not about is one of those that `isolated_step` keeps. -/
theorem turnsAreIsolated : Obligations.TurnsAreIsolated := by
  intro s t hI h k hk hown hturn
  refine (isolated_step hI h).2 k hk ?_
  cases ha : s.agenda with
  | nil =>
    rw [stepHart_nil ha]
    exact fun he => hown ha (Option.some.inj he).symm
  | cons tn rest =>
    rw [stepHart_cons ha]
    exact hturn tn rest ha

end Sys2Proof.Machine
end

section
/-! PROOFS. Reset (spec 10_state.md R55) and the register file (R21). -/

namespace Sys2Proof.Machine

/-- The harts after reset are `0 .. N-1`, each as constructed. -/
theorem resetWith_harts {c : Config} (hc : 1 ≤ c.hartCount) :
    (State.resetWith c).harts = (List.range c.hartCount).map (Hart.reset c) := by
  obtain ⟨n, hn⟩ := Nat.exists_eq_add_of_le' hc
  rw [hn, List.range_succ_eq_map, List.map_cons, List.map_map, State.harts, State.resetWith, hn]
  rfl

theorem mem_resetWith_harts {c : Config} (hc : 1 ≤ c.hartCount) {h : Hart} (hh : h ∈ (State.resetWith c).harts) :
    ∃ k, Hart.reset c k = h := by
  rw [resetWith_harts hc] at hh
  obtain ⟨k, -, hk⟩ := List.mem_map.1 hh
  exact ⟨k, hk⟩

theorem Cache.wf_nil (c : Config) : Cache.wf c [] := ⟨Nat.zero_le _, List.nodup_nil, by simp⟩

/-- A legal configuration has a hart and a poll interval (00_scope.md R9). -/
theorem positive_of_wf {c : Config} (hc : c.wf = true) : 1 ≤ c.hartCount ∧ 1 ≤ c.pollInterval := by
  simp only [Config.wf, Bool.and_eq_true, decide_eq_true_eq] at hc
  omega

theorem Hart.wf_reset {c : Config} (hc : c.wf = true) {k : Nat} (hk : k < c.hartCount) : (Hart.reset c k).wf c :=
  ⟨hk, by simp [Hart.reset, Vector.get_eq_getElem], Cache.wf_nil c, Cache.wf_nil c, by simp [Hart.reset], fun _ => ⟨rfl, rfl⟩, wf_tlbEmpty c,
    wf_tlbEmpty c, Nat.zero_le _, (positive_of_wf hc).2, rfl, trivial⟩

/-- Reset meets the invariant in every legal configuration. -/
theorem sysInv_resetWith {c : Config} (hc : c.wf = true) : SysInv (State.resetWith c) := by
  have hn := (positive_of_wf hc).1
  refine ⟨hc, Hart.wf_reset hc hn, ?_, ?_, ?_, ?_, List.length_replicate, rfl, by simp [State.resetWith], rfl⟩
  · intro h hh
    obtain ⟨k, hk, rfl⟩ := List.mem_map.1 hh
    exact Hart.wf_reset hc (Nat.add_lt_of_lt_sub (List.mem_range.1 hk))
  · refine List.pairwise_map.2 (List.pairwise_lt_range.imp fun hab => ?_)
    exact Nat.succ_lt_succ hab
  · intro h hh
    obtain ⟨k, -, rfl⟩ := List.mem_map.1 hh
    exact Nat.succ_ne_zero k
  · simpa [State.resetWith] using Nat.sub_add_cancel hn

/-- Settles O50: the configuration of `State.reset` is a legal one. -/
theorem resetInvariant : Obligations.ResetInvariant := sysInv_resetWith (by decide)

/-- Settles O51, hart by hart, each being `Hart.reset` of its id. -/
theorem resetValues : Obligations.ResetValues := by
  intro c hc
  refine ⟨?_, ?_, List.length_replicate, fun r hr => ?_, fun _ _ => rfl⟩
  · rw [← State.harts, resetWith_harts hc, List.map_map]
    exact List.map_id _
  · intro h hh
    obtain ⟨k, rfl⟩ := mem_resetWith_harts hc hh
    exact ⟨rfl, rfl, by simp [Hart.reset, Vector.get_eq_getElem], rfl, rfl, rfl, rfl, rfl, rfl, rfl, rfl, rfl⟩
  · rw [List.eq_of_mem_replicate hr]

/-- Settles O58, by the law of a register read after a register write. -/
theorem registerFile : Obligations.RegisterFile := by
  intro s r q v
  refine ⟨s.readX_zero, s.writeX_zero v, fun hr => ?_, fun hq => ?_⟩
  · rw [State.readX_writeX, if_pos ⟨rfl, hr⟩]
  · rw [State.readX_writeX, if_neg fun h => hq h.1]

end Sys2Proof.Machine
end

section
/-! PROOFS. What an instruction leaves as it is when the Host does nothing in its trap (spec 10_state.md R25 to R29, R37 (d), R41, R50). -/

namespace Sys2Proof.Machine

/-- The state with everything erased that an instruction other than a jump can write: `Mem`, the reservations, the free-value counter,
and of the acting hart `x`, the caches, the D-TLB and the I-TLB, and every CSR but `MHARTID`. -/
def State.untouched (s : State) : State :=
  { s with
    mem := [], res := [], draws := 0,
    hart := { s.hart with
      x := Vector.replicate 32 0#32, icache := [], dcache := [], itlb := [], dtlb := [],
      csr := { fcsr := 0#32, satp := 0#32, mstatus := 0#32, mepc := 0#32, mcause := 0#32, mtval := 0#32,
               mhartid := s.hart.csr.mhartid, other := [] } } }

@[simp] theorem untouched_writeX (s : State) (r : Reg) (v : Word) : (s.writeX r v).untouched = s.untouched := by
  rw [State.writeX_frame]
  rfl

@[simp] theorem untouched_setRes (s : State) (r : List Reservation) : (s.setRes r).untouched = s.untouched := rfl

@[simp] theorem untouched_setMem (s : State) (m : List Host.Cell) : (s.setMem m).untouched = s.untouched := rfl

@[simp] theorem untouched_setTlb (s : State) (st : Stream) (k : Tlb) : (s.setTlb st k).untouched = s.untouched := by cases st <;> rfl

@[simp] theorem untouched_setCache (s : State) (st : Stream) (k : Cache) : (s.setCache st k).untouched = s.untouched := by
  cases st <;> rfl

/-- `MHARTID` (0xF14) is no unprivileged CSR. -/
theorem mhartid_write (c : CsrFile) (a : CsrAddr) (v : Word) (ha : a.extractLsb' 10 2 = 0b00#2) : (c.write a v).mhartid = c.mhartid := by
  have hne : a ≠ 0xF14#12 := by
    rintro rfl
    exact absurd ha (by decide)
  unfold CsrFile.write
  split_ifs <;> rfl

theorem untouched_writeCsr (s : State) (a : CsrAddr) (v : Word) (ha : a.extractLsb' 10 2 = 0b00#2) :
    (s.writeCsr a v).untouched = s.untouched := by
  simp [State.untouched, mhartid_write _ a v ha]

theorem untouched_raise (e : Exc) (site : Site) (s : State) (hq : s.replies = []) : (raise e site s).untouched = s.untouched := by
  obtain ⟨v, n, h, -⟩ := raise_quiet e site s hq
  rw [h]
  rfl

theorem untouched_fenceOp (s : State) : (fenceOp s).untouched = s.untouched := by
  unfold fenceOp
  split <;> simp

theorem untouched_fenceIOp (s : State) : (fenceIOp s).untouched = s.untouched := by
  unfold fenceIOp
  split <;> simp

theorem untouched_streamFrame {st : Stream} {s t : State} (h : StreamFrame st s t) : t.untouched = s.untouched := by
  rw [h]
  cases st <;> rfl

theorem untouched_physicalAddress (ty : AccessType) (va : Word) (n : Nat) (s : State) :
    (physicalAddress ty va n s).state.untouched = s.untouched := by
  rw [physicalAddress_frame ty va n s, untouched_setTlb]

theorem untouched_memWrite (va : Word) (n : Nat) (v : Word) (s : State) : (memWrite va n v s).state.untouched = s.untouched :=
  (untouched_setRes _ s.res).symm.trans (untouched_streamFrame (memWrite_frame va n v s))

theorem untouched_scSection (rd : Reg) (v p : Word) (s : State) : (scSection rd v p s).untouched = s.untouched := by
  unfold scSection
  split <;> simp [clearReservation, setReservation, killReservations]

/-- A critical section, if the request has one, leaves what an instruction cannot write. -/
def Request.LeavesUntouched : Request → Prop
  | .atomic _ _ critical => ∀ p u, (critical p u).untouched = u.untouched
  | _ => True

theorem requestOf_leavesUntouched {i : Instr} {s : State} {r : Request} (h : requestOf i s = some r) : r.LeavesUntouched := by
  cases i <;> simp only [requestOf, Option.some.injEq, reduceCtorEq] at h <;> subst h
  case lrW => exact fun p u => untouched_writeX _ _ _
  case scW => exact fun p u => untouched_scSection _ _ p u
  case amoswapW => exact fun p u => untouched_writeX _ _ _
  all_goals trivial

theorem untouched_orRaise {α : Type} {a : Access α} {k : α → State → State} {s t : State} (hq : s.replies = [])
    (ha : a.state.untouched = s.untouched) (hk : ∀ v u, (k v u).untouched = u.untouched) (h : orRaise a k = .next t) :
    t.untouched = s.untouched := by
  cases a with
  | ok v u =>
    cases h
    exact (hk v u).trans ha
  | exc e u =>
    cases h
    have hu : u.replies = [] := (congrArg State.replies ha).trans hq
    exact (untouched_raise e .exec u hu).trans ha

theorem untouched_run {r : Request} {s t : State} (hq : s.replies = []) (hr : r.LeavesUntouched) (h : r.run s = .next t) :
    t.untouched = s.untouched := by
  cases r with
  | load n ext rd va =>
    exact untouched_orRaise hq (untouched_streamFrame (memRead_frame va n s)) (fun v u => untouched_writeX u rd (ext v)) h
  | store n va v => exact untouched_orRaise hq (untouched_memWrite va n v s) (fun _ _ => rfl) h
  | atomic ty va critical => exact untouched_orRaise hq (untouched_physicalAddress ty va 4 s) hr h

/-- With a Host that does nothing, an instruction leaves all that, or it is a control transfer that also jumped to an aligned target. -/
theorem untouched_or_jump {i : Instr} {s t : State} (hq : s.replies = []) (h : exec i s = .next t) :
    t.untouched = s.untouched ∨
      isTransfer i = true ∧ ∃ target : Word, target.toNat % 4 = 0 ∧ t.untouched = (jumpTo s target).untouched := by
  cases exec_effect h with
  | nothing => exact .inl rfl
  | register rd v => exact .inl (untouched_writeX s rd v)
  | csr a v rd old ha => exact .inl ((untouched_writeX _ rd old).trans (untouched_writeCsr s a v ha))
  | jump rd v target hi ht =>
    refine .inr ⟨hi, target, (alignedTarget_iff target).1 ht, ?_⟩
    rw [State.writeX_frame]
    rfl
  | raised e => exact .inl (untouched_raise e .exec s hq)
  | fence => exact .inl (untouched_fenceOp s)
  | fenceI => exact .inl (untouched_fenceIOp s)
  | sfence => exact .inl rfl
  | access r _ hi hr => exact .inl (untouched_run hq (requestOf_leavesUntouched hi) hr)

/-- What neither an instruction's own writes nor a jump reach. -/
theorem untouched_up_to_jump {i : Instr} {s t : State} (hq : s.replies = []) (h : exec i s = .next t) :
    ∃ pc jumped, t.untouched = ((s.setPc pc).setJumped jumped).untouched := by
  rcases untouched_or_jump hq h with h | ⟨-, target, -, h⟩
  · exact ⟨s.hart.pc, s.hart.jumped, h⟩
  · exact ⟨target, true, h⟩

/-- Settles O54: every field it names is kept by `State.untouched`, and is neither the pc nor `jumped`. -/
theorem instructionsLeaveHostState : Obligations.InstructionsLeaveHostState := by
  intro i s t hq h
  obtain ⟨pc, jumped, hu⟩ := untouched_up_to_jump hq h
  simp only [State.untouched, State.setJumped_hart, State.setPc_hart, State.mk.injEq, Hart.mk.injEq, CsrFile.mk.injEq] at hu
  simp [hu]

/-- Settles O55: `State.untouched` keeps the pc and `jumped`, and only a transfer jumps. -/
theorem onlyTransfersJump : Obligations.OnlyTransfersJump := by
  intro i s t hq h
  rcases untouched_or_jump hq h with hu | ⟨hi, target, haligned, hu⟩
  all_goals
    have hpc := congrArg (fun u => u.hart.pc) hu
    have hjumped := congrArg (fun u => u.hart.jumped) hu
    dsimp only [State.untouched] at hpc hjumped
  · refine ⟨fun _ => ⟨hpc, hjumped⟩, fun hs => ⟨fun ht => ?_, fun _ => hpc⟩⟩
    rw [hjumped, hs] at ht
    cases ht
  · refine ⟨fun hn => ?_, fun _ => ⟨fun _ => ⟨hi, hpc ▸ haligned⟩, fun ht => ?_⟩⟩
    · rw [hi] at hn
      cases hn
    · rw [hjumped] at ht
      cases ht

end Sys2Proof.Machine
end

section
/-! PROOFS. Decoding undoes encoding (spec 30_encoding.md R160 to R175; 20_memory.md R75). -/

namespace Sys2Proof

/-- Decoding the word of an instruction: the major opcode picks the decoder of its row, in which `funct3` and `funct7` or `funct5` pick
the instruction, and every operand is the field that holds it. -/
theorem decode_encode {i : Instr} (hi : WellFormed i = true) : decode (encode i) = .instr i := by
  cases i
  case lui rd imm => simp [encode, decode_lui]
  case auipc rd imm => simp [encode, decode_auipc]
  case jal rd off => simp [encode, decode_jal, immJ_encJ off _ _ hi]
  case jalr rd rs1 imm => simp [encode, decode_jalr, decodeJalr]
  case beq rs1 rs2 off | bne rs1 rs2 off | blt rs1 rs2 off | bge rs1 rs2 off | bltu rs1 rs2 off | bgeu rs1 rs2 off =>
    simp [encode, decode_branch, decodeBranch, immB_encB off _ _ _ _ hi]
  case lb | lh | lw | lbu | lhu => simp [encode, decode_load, decodeLoad]
  case sb | sh | sw => simp [encode, decode_store, decodeStore]
  case addi | slti | sltiu | xori | ori | andi | slli | srli | srai => simp [encode, decode_opImm, decodeOpImm]
  case add | sub | sll | slt | sltu | xor | srl | sra | or | and | mul | mulh | mulhsu | mulhu | div | divu | rem | remu =>
    simp [encode, decode_op, decodeOp]
  case fence | fenceI => simp [encode, decode_miscMem, decodeMiscMem]
  case ecall | ebreak => decide
  case csrrw | csrrs | csrrc | csrrwi | csrrsi | csrrci => simp [encode, decode_system, decodeSystem]
  case sfenceVma rs1 rs2 =>
    -- neither the word of ECALL nor that of EBREAK, which have another `funct7`
    have hne : ∀ w : Word, funct7 w ≠ 0b0001001#7 →
        encR 0b0001001#7 (regBits rs2) (regBits rs1) 0b000#3 0b00000#5 0x73#7 ≠ w := by
      rintro _ hw rfl
      exact hw (funct7_encR _ _ _ _ _ _)
    simp [encode, decode_system, decodeSystem, hne 0x00000073#32 (by decide), hne 0x00100073#32 (by decide)]
  case lrW | scW | amoswapW | amoaddW | amoxorW | amoandW | amoorW | amominW | amomaxW | amominuW | amomaxuW =>
    simp [encode, encAmo, decode_amo, decodeAmo]

/-- The bytes of a word in memory order decode to what the word decodes to (20_memory.md R75). -/
theorem decodeBytes_leBytes (w : Word) (rest : List Byte) :
    decodeBytes (Machine.leBytes 4 w ++ rest) = .word (decode w) rest := by
  have hbytes := Machine.leWord_leBytes w
  simp only [Machine.leBytes, Machine.leWord_four] at hbytes
  simp only [Machine.leBytes, List.cons_append, List.nil_append, decodeBytes, hbytes]

/-- Settles O1: the word decodes to the instruction, and the bytes to what the word decodes to. -/
theorem decodeOfEncode : Obligations.DecodeOfEncode := by
  intro i hi
  refine ⟨decode_encode hi, fun rest => ?_⟩
  rw [decodeBytes_leBytes, decode_encode hi]

end Sys2Proof
end

section
/-! PROOFS. Sv32 translation and the TLBs (spec 20_memory.md R100 to R123, R158). -/

namespace Sys2Proof.Machine

/-! ## What the walk answers, by the kind of the entries it reads (R114) -/

theorem walk_root_none {s : State} {v : Word} (hr : pteAt s (rootEntryAddress s v) = none) :
    walk s.cfg s.mem v 1 (rootTable s.hart.csr.satp) = none := by
  rw [walk_root, hr]

theorem walk_root_bad {s : State} {v pte : Word} (hr : pteAt s (rootEntryAddress s v) = some pte) (hb : badEntry pte) :
    walk s.cfg s.mem v 1 (rootTable s.hart.csr.satp) = none := by
  rw [walk_root, hr]
  exact if_pos ((bad_iff pte).2 hb)

theorem walk_root_pointer {s : State} {v pte : Word} (hr : pteAt s (rootEntryAddress s v) = some pte) (hp : pointerEntry pte) :
    walk s.cfg s.mem v 1 (rootTable s.hart.csr.satp) = walk s.cfg s.mem v 0 ((pte >>> 10) * 4096#32) := by
  have hb := ptr_not_bad pte hp
  rw [walk_root, hr]
  dsimp only
  rw [if_neg (mt (bad_iff pte).1 hb), if_pos ((ptr_iff pte hb).2 hp)]

/-- A leaf in the root table is found, unless its page is not aligned to its size (R114 step 5). -/
theorem walk_root_leaf {s : State} {v pte : Word} (hr : pteAt s (rootEntryAddress s v) = some pte) (hl : leafEntry pte) :
    walk s.cfg s.mem v 1 (rootTable s.hart.csr.satp) = if pte.toNat / 2 ^ 10 % 2 ^ 10 = 0 then some (1, pte) else none := by
  obtain ⟨hb, hp⟩ := leaf_not_bad pte hl
  rw [walk_root, hr]
  dsimp only
  rw [if_neg (mt (bad_iff pte).1 hb), if_neg (mt (ptr_iff pte hb).1 hp)]
  simp only [ppn0_iff, Nat.zero_lt_one, true_and, ne_eq, ite_not]

theorem walk_leaf_none {s : State} {v pte1 : Word} (hr : pteAt s (leafEntryAddress pte1 v) = none) :
    walk s.cfg s.mem v 0 ((pte1 >>> 10) * 4096#32) = none := by
  rw [walk_leaf, hr]

theorem walk_leaf_bad {s : State} {v pte1 pte : Word} (hr : pteAt s (leafEntryAddress pte1 v) = some pte)
    (hb : badEntry pte ∨ pointerEntry pte) : walk s.cfg s.mem v 0 ((pte1 >>> 10) * 4096#32) = none := by
  rw [walk_leaf, hr]
  dsimp only
  by_cases h : badEntry pte
  · rw [if_pos ((bad_iff pte).2 h)]
  · rw [if_neg (mt (bad_iff pte).1 h), if_pos ((ptr_iff pte h).2 (hb.resolve_left h))]

theorem walk_leaf_leaf {s : State} {v pte1 pte : Word} (hr : pteAt s (leafEntryAddress pte1 v) = some pte) (hl : leafEntry pte) :
    walk s.cfg s.mem v 0 ((pte1 >>> 10) * 4096#32) = some (0, pte) := by
  obtain ⟨hb, hp⟩ := leaf_not_bad pte hl
  rw [walk_leaf, hr]
  dsimp only
  rw [if_neg (mt (bad_iff pte).1 hb), if_neg (mt (ptr_iff pte hb).1 hp)]

/-! ## A translation, by what the walk answers (R113) -/

section Miss

variable {s : State} {t : AccessType} {v : Word} (hon : 2 ^ 31 ≤ s.hart.csr.satp.toNat)
  (hmiss : tlbLoad s.cfg (s.tlb t.stream) (vpiOf s.hart.csr.satp v) = none)

include hon hmiss

theorem translate_walkFails (hw : walk s.cfg s.mem v 1 (rootTable s.hart.csr.satp) = none) :
    translateVa t v s = .exc { cause := t.pageFault, info := some v } s := by
  rw [translate_miss s t v hon hmiss, hw]

theorem translate_permitted {level : Nat} {pte : Word} (hw : walk s.cfg s.mem v 1 (rootTable s.hart.csr.satp) = some (level, pte))
    (ha : Allows pte t) :
    translateVa t v s = .ok (walkAddress level pte v)
      (s.setTlb t.stream (tlbStore s.cfg (s.tlb t.stream) (vpiOf s.hart.csr.satp v) (foldedPte level pte v))) := by
  rw [translate_miss s t v hon hmiss, hw]
  exact if_pos ((permitted_iff pte t).2 ha)

theorem translate_denied {level : Nat} {pte : Word} (hw : walk s.cfg s.mem v 1 (rootTable s.hart.csr.satp) = some (level, pte))
    (ha : ¬ Allows pte t) : translateVa t v s = .exc { cause := t.pageFault, info := some v } s := by
  rw [translate_miss s t v hon hmiss, hw]
  exact if_neg (mt (permitted_iff pte t).1 ha)

end Miss

/-- Settles O41: bit 31 of `SATP` is clear. -/
theorem bareTranslation : Obligations.BareTranslation := fun s t v h => translate_bare s t v ((getLsbD31 _).2 h)

/-- Settles O42: the walk follows the pointer to the leaf. -/
theorem twoLevelTranslation : Obligations.TwoLevelTranslation := by
  intro s t v pte1 pte0 hon hmiss hroot hptr hleaf hl ha
  have hw := (walk_root_pointer hroot hptr).trans (walk_leaf_leaf hleaf hl)
  exact ⟨walkAddress 0 pte0 v, hitAddr pte0 v, translate_permitted hon hmiss hw ha⟩

/-! ## Megapages (R120, R121) -/

/-- The page number of an entry, as an address modulo 2^32. -/
theorem toNat_pageAddress (pte : Word) : ((pte &&& 0xFFFFFC00#32) <<< 2).toNat = (pte.toNat / 2 ^ 10 * 4096) % 2 ^ 32 := by
  simpa using hitAddr pte 0#32

theorem toNat_walkAddress_megapage (pte v : Word) (h0 : pte.toNat / 2 ^ 10 % 2 ^ 10 = 0) :
    (walkAddress 1 pte v).toNat = (pte.toNat / 2 ^ 20 * 2 ^ 22) % 2 ^ 32 + v.toNat % 2 ^ 22 := by
  have hoffset : (v &&& 0x3FFFFF#32).toNat = v.toNat % 2 ^ 22 := by
    rw [BitVec.toNat_and]
    exact Nat.and_two_pow_sub_one_eq_mod _ 22
  have hpage : (pte.toNat / 2 ^ 10 * 4096) % 2 ^ 32 = 2 ^ 22 * (pte.toNat / 2 ^ 20 % 2 ^ 10) := by omega
  rw [show walkAddress 1 pte v = (pte &&& 0xFFFFFC00#32) <<< 2 ||| (v &&& 0x3FFFFF#32) from rfl, BitVec.toNat_or, toNat_pageAddress,
    hoffset, hpage, ← Nat.two_pow_add_eq_or_of_lt (Nat.mod_lt _ (by decide))]
  omega

/-- `VPN[0]` in the place of `PPN[0]`. -/
theorem toNat_vpn0 (v : Word) : (((v >>> 12) &&& 0x3FF#32) <<< 10).toNat = v.toNat / 2 ^ 12 % 2 ^ 10 * 2 ^ 10 := by
  have h : ((v >>> 12) &&& 0x3FF#32).toNat = v.toNat / 2 ^ 12 % 2 ^ 10 := by
    rw [BitVec.toNat_and, BitVec.toNat_ushiftRight, Nat.shiftRight_eq_div_pow]
    exact Nat.and_two_pow_sub_one_eq_mod _ 10
  rw [BitVec.toNat_shiftLeft, h, Nat.shiftLeft_eq]
  omega

theorem toNat_foldedPte_megapage (pte v : Word) (h0 : pte.toNat / 2 ^ 10 % 2 ^ 10 = 0) :
    (foldedPte 1 pte v).toNat = pte.toNat + v.toNat / 2 ^ 12 % 2 ^ 10 * 2 ^ 10 := by
  have hsplit : pte.toNat = 2 ^ 20 * (pte.toNat / 2 ^ 20) + pte.toNat % 2 ^ 10 := by omega
  have hdisjoint : pte &&& (((v >>> 12) &&& 0x3FF#32) <<< 10) = 0#32 := by
    have hppn : pte.extractLsb' 10 10 = 0#10 := by
      by_contra h
      exact (ppn0_iff pte).1 h h0
    apply BitVec.eq_of_getLsbD_eq
    intro i hi
    have hbit : ∀ j, j < 10 → pte.getLsbD (10 + j) = false := fun j hj => by
      simpa [hj] using congrArg (fun b => b.getLsbD j) hppn
    rcases Nat.lt_or_ge i 10 with h1 | h1
    · simp [h1]
    · obtain ⟨j, rfl⟩ := Nat.exists_eq_add_of_le h1
      rcases Nat.lt_or_ge j 10 with h2 | h2
      · simp [hbit j h2]
      · have hmask : (0x3FF#32).getLsbD j = false := by
          have : j < 22 := by omega
          interval_cases j <;> rfl
        simp [hmask]
  rw [foldedPte, if_pos rfl, ← BitVec.add_eq_or_of_and_eq_zero _ _ hdisjoint, BitVec.toNat_add_of_and_eq_zero hdisjoint, toNat_vpn0]

/-- Settles O43. -/
theorem megapageTranslation : Obligations.MegapageTranslation := by
  intro s t v pte1 hon hmiss hroot hl h0 ha
  have hw := (walk_root_leaf hroot hl).trans (if_pos h0)
  exact ⟨_, _, toNat_walkAddress_megapage pte1 v h0, toNat_foldedPte_megapage pte1 v h0, translate_permitted hon hmiss hw ha⟩

/-- Settles O44: the check fails on a hit, or the walk fails, or the leaf it found is not permitted. -/
theorem translationFaults : Obligations.TranslationFaults := by
  intro s t v hon
  refine ⟨fun pte hhit ha => ?_, fun hmiss => ⟨fun hr => ?_, fun pte1 hr => ⟨fun hb => ?_, fun hl h0 => ?_, fun hl ha => ?_,
    fun hp => ⟨fun hr0 => ?_, fun pte0 hr0 => ⟨fun hb => ?_, fun hl ha => ?_⟩⟩⟩⟩⟩
  · rw [translate_hit s t v pte hon hhit]
    exact if_neg (mt (permitted_iff pte t).1 ha)
  · exact translate_walkFails hon hmiss (walk_root_none hr)
  · exact translate_walkFails hon hmiss (walk_root_bad hr hb)
  · exact translate_walkFails hon hmiss ((walk_root_leaf hr hl).trans (if_neg h0))
  · by_cases h0 : pte1.toNat / 2 ^ 10 % 2 ^ 10 = 0
    · exact translate_denied hon hmiss ((walk_root_leaf hr hl).trans (if_pos h0)) ha
    · exact translate_walkFails hon hmiss ((walk_root_leaf hr hl).trans (if_neg h0))
  · exact translate_walkFails hon hmiss ((walk_root_pointer hr hp).trans (walk_leaf_none hr0))
  · exact translate_walkFails hon hmiss ((walk_root_pointer hr hp).trans (walk_leaf_bad hr0 hb))
  · exact translate_denied hon hmiss ((walk_root_pointer hr hp).trans (walk_leaf_leaf hr0 hl)) ha

/-! ## The TLB after a store (R103, R104) -/

/-- An empty slot answers no key. -/
theorem tlbMatches_sentinel (key : Word) : tlbMatches tlbSentinel key = false := by simp [tlbMatches]

/-- A hit is a probed slot that matches. -/
theorem tlbLoad_some {c : Config} {t : Tlb} {key q : Word} (h : tlbLoad c t key = some q) :
    ∃ k ∈ tlbSlots c key, tlbMatches (t.entry k) key = true ∧ (t.entry k).extractLsb' 0 32 = q := by
  obtain ⟨k, hfind, rfl⟩ := Option.map_eq_some_iff.1 h
  exact ⟨k, List.mem_of_find?_eq_some hfind, by simpa using List.find?_some hfind, rfl⟩

/-- A slot that matches holds the key and what the probe answers. -/
theorem entry_of_matches {e : DWord} {key : Word} (h : tlbMatches e key = true) :
    e ≠ tlbSentinel ∧ e = key ++ e.extractLsb' 0 32 := by
  simp only [tlbMatches, Bool.and_eq_true, decide_eq_true_eq] at h
  obtain ⟨hne, hkey⟩ := h
  exact ⟨hne, hkey ▸ entry_split e⟩

/-- After a store that followed a miss the key answers the entry stored: only the slot written matches it. -/
theorem tlbLoad_tlbStore_same {c : Config} {t : Tlb} {vpi : Word} (pte : Word) (hc : c.wf = true) (hl : t.length = c.tlbSize)
    (hv : vpi.toNat < 2 ^ 31) (hmiss : tlbLoad c t vpi = none) : tlbLoad c (tlbStore c t vpi pte) vpi = some pte := by
  obtain ⟨k, hk, hstored, hothers⟩ := store_slots c t vpi pte hc hl
  cases hload : tlbLoad c (tlbStore c t vpi pte) vpi with
  | none =>
    have hfalse := (tlbLoad_none _ _ _).1 hload k hk
    rw [hstored, (matches_entry vpi pte vpi hv).2 rfl] at hfalse
    cases hfalse
  | some q =>
    obtain ⟨j, hj, hmatch, rfl⟩ := tlbLoad_some hload
    by_cases hjk : j = k
    · rw [hjk, hstored, entry_lo]
    · rcases hothers j hjk with h | h
      · rw [h, (tlbLoad_none _ _ _).1 hmiss j hj] at hmatch
        cases hmatch
      · rw [h, tlbMatches_sentinel] at hmatch
        cases hmatch

/-- A store gives another key no answer that no slot held for it. -/
theorem tlbLoad_tlbStore_other {c : Config} {t : Tlb} {vpi pte key q : Word} (hc : c.wf = true) (hl : t.length = c.tlbSize)
    (hv : vpi.toNat < 2 ^ 31) (hkey : key ≠ vpi) (hload : tlbLoad c (tlbStore c t vpi pte) key = some q) :
    ∃ slot, t.entry slot ≠ tlbSentinel ∧ t.entry slot = key ++ q := by
  obtain ⟨k, -, hstored, hothers⟩ := store_slots c t vpi pte hc hl
  obtain ⟨j, -, hmatch, rfl⟩ := tlbLoad_some hload
  have hjk : j ≠ k := by
    rintro rfl
    rw [hstored] at hmatch
    exact hkey ((matches_entry vpi pte key hv).1 hmatch)
  rcases hothers j hjk with h | h
  · rw [h] at hmatch ⊢
    exact ⟨j, entry_of_matches hmatch⟩
  · rw [h, tlbMatches_sentinel] at hmatch
    cases hmatch

/-- Settles O46, from what the slots hold after a store. -/
theorem tlbStoreThenLoad : Obligations.TlbStoreThenLoad := fun _ _ _ pte hc hl hv hmiss =>
  ⟨tlbLoad_tlbStore_same pte hc hl hv hmiss, fun _ _ hkey hload => tlbLoad_tlbStore_other hc hl hv hkey hload⟩

/-! ## A second translation (R123) -/

/-- The entry put in the TLB permits what the leaf does: the fold leaves its flag bits alone (R120). -/
theorem permitted_foldedPte (level : Nat) (pte v : Word) (t : AccessType) : permitted (foldedPte level pte v) t = permitted pte t := by
  have hflag : ∀ i, i < 10 → (foldedPte level pte v).getLsbD i = pte.getLsbD i := by
    intro i hi
    unfold foldedPte
    split
    · simp [hi]
    · rfl
  cases t <;>
    simp only [permitted, pteU, pteX, pteA, pteR, pteW, pteD, hflag 4 (by decide), hflag 3 (by decide), hflag 6 (by decide),
      hflag 1 (by decide), hflag 2 (by decide), hflag 7 (by decide)]

/-- On a hit of the entry that a walk put there the address is the walk's (R121, R122). -/
theorem hitAddress_foldedPte (level : Nat) (pte v : Word) (h : level = 0 ∨ level = 1) :
    hitAddress (foldedPte level pte v) v = walkAddress level pte v := by
  rcases h with rfl | rfl
  · rfl
  · rw [foldedPte, if_pos rfl, hitAddress, walkAddress]
    apply BitVec.eq_of_getLsbD_eq
    intro i hi
    interval_cases i <;> simp

theorem setTlb_csr (s : State) (st : Stream) (k : Tlb) : (s.setTlb st k).hart.csr = s.hart.csr := by cases st <;> rfl

/-- Settles O45: a hit is there the second time too; after a walk the key answers the entry stored. -/
theorem translationIsStable : Obligations.TranslationIsStable := by
  intro s s1 t v p hI h
  rcases Nat.lt_or_ge s.hart.csr.satp.toNat (2 ^ 31) with hoff | hon
  · have hbare := translate_bare s t v ((getLsbD31 _).2 hoff)
    cases hbare.symm.trans h
    exact ⟨hbare, fun hon => absurd hoff (Nat.not_lt.2 hon)⟩
  cases hload : tlbLoad s.cfg (s.tlb t.stream) (vpiOf s.hart.csr.satp v) with
  | some pte =>
    have hhit := h
    rw [translate_hit s t v pte hon hload] at hhit
    split at hhit
    · cases hhit
      exact ⟨h, fun _ => by simp [hload]⟩
    · cases hhit
  | none =>
    cases hw : walk s.cfg s.mem v 1 (rootTable s.hart.csr.satp) with
    | none => cases (translate_walkFails hon hload hw).symm.trans h
    | some found =>
      obtain ⟨level, pte⟩ := found
      by_cases ha : Allows pte t
      · cases (translate_permitted hon hload hw ha).symm.trans h
        have hstored := tlbLoad_tlbStore_same (foldedPte level pte v) hI.cfgWf (hI.tlbWf t.stream).1 (vpiOf_lt _ v) hload
        have hhit := translate_hit (s.setTlb t.stream (tlbStore s.cfg (s.tlb t.stream) (vpiOf s.hart.csr.satp v) (foldedPte level pte v)))
          t v (foldedPte level pte v) (by rwa [setTlb_csr]) (by simpa [setTlb_csr] using hstored)
        rw [permitted_foldedPte, if_pos ((permitted_iff pte t).2 ha), hitAddress_foldedPte _ _ _ (walk_level _ _ _ _ _ _ hw)] at hhit
        exact ⟨hhit, fun _ => by simp [setTlb_csr, hstored]⟩
      · cases (translate_denied hon hload hw ha).symm.trans h

/-! ## The walk reads `Mem` (R158) -/

/-- The outcome of an access with its state changed. -/
def Access.mapState {α : Type} (f : State → State) : Access α → Access α
  | .ok a s => .ok a (f s)
  | .exc e s => .exc e (f s)

/-- A translation reads the TLB of its stream, `SATP` and `Mem`, none of which the D-cache's content is part of. -/
theorem translate_setCache (t : AccessType) (v : Word) (s : State) (k : Cache) :
    translateVa t v (s.setCache .data k) = (translateVa t v s).mapState (fun u => u.setCache .data k) := by
  have hprobe : tlbLoad s.cfg ((s.setCache .data k).tlb t.stream) (vpiOf s.hart.csr.satp v) =
      tlbLoad s.cfg (s.tlb t.stream) (vpiOf s.hart.csr.satp v) := by cases t <;> rfl
  rcases Nat.lt_or_ge s.hart.csr.satp.toNat (2 ^ 31) with hoff | hon
  · have hbare := (getLsbD31 _).2 hoff
    rw [translate_bare s t v hbare, translate_bare (s.setCache .data k) t v hbare]
    rfl
  cases hload : tlbLoad s.cfg (s.tlb t.stream) (vpiOf s.hart.csr.satp v) with
  | some pte =>
    rw [translate_hit s t v pte hon hload, translate_hit (s.setCache .data k) t v pte hon (hprobe.trans hload)]
    split <;> rfl
  | none =>
    have hmiss := hprobe.trans hload
    cases hw : walk s.cfg s.mem v 1 (rootTable s.hart.csr.satp) with
    | none =>
      rw [translate_walkFails hon hload hw, translate_walkFails (s := s.setCache .data k) hon hmiss hw]
      rfl
    | some found =>
      by_cases ha : Allows found.2 t
      · rw [translate_permitted hon hload hw ha, translate_permitted (s := s.setCache .data k) hon hmiss hw ha]
        cases t <;> rfl
      · rw [translate_denied hon hload hw ha, translate_denied (s := s.setCache .data k) hon hmiss hw ha]
        rfl

/-- Settles O49: translation and a change of the D-cache commute. -/
theorem translationIgnoresDataCache : Obligations.TranslationIgnoresDataCache := by
  intro s t v k
  refine ⟨fun p s1 h => ?_, fun e s1 h => ?_⟩
  all_goals
    rw [translate_setCache, h]
    rfl

end Sys2Proof.Machine
end

section
/-! PROOFS. Probe, store and refill of a cache (spec 20_memory.md R83 to R86). -/

namespace Sys2Proof.Machine

/-- A probe that hits does so in a line that the index names (R83). -/
theorem cacheLoad_some {c : Config} {k : Cache} {p n : Nat} {bs : List Byte} (h : cacheLoad c k p n = some bs) :
    ∃ l, k.find (lineNumber c p) = some l := by
  obtain ⟨l, hl, -⟩ := Option.map_eq_some_iff.1 h
  exact ⟨l, hl⟩

/-- A store that misses changes nothing (R84). -/
theorem cacheStore_miss {c : Config} {k : Cache} {p : Nat} (bs : List Byte) (h : k.find (lineNumber c p) = none) :
    cacheStore c k p bs = none := by
  rw [cacheStore, h]
  rfl

/-- A probe of a line just brought in answers `Mem`'s bytes (R86). -/
theorem cacheLoad_freshLine {c : Config} {k : Cache} {m : List Host.Cell} {p n : Nat}
    (hf : k.find (lineNumber c p) = some (freshLine c m (lineNumber c p))) (hfit : p % c.lineSize + n ≤ c.lineSize) :
    cacheLoad c k p n = some (Memory.readBytes m p n) := by
  rw [cacheLoad_hit c k m p n _ hf (length_freshLine _ _ _) hfit, Memory.readBytes_eq]
  refine congrArg some (bytesFrom_shift _ _ _ _ _ fun j hj => ?_)
  have hline := lineNumber_add c p j n hfit hj
  simp only [seen, hline, hf]
  rw [← hline]
  exact freshLine_getD c m (p + j)

/-- A legal configuration has lines of at least four bytes, and a slot to put one in (00_scope.md R9). -/
theorem cacheGeometry_of_wf {c : Config} (hc : c.wf = true) : 2 ≤ c.lineLog2 ∧ 1 ≤ c.cacheSlots := by
  simp only [Config.wf, Bool.and_eq_true, decide_eq_true_eq] at hc
  omega

/-- Settles O47: a store that hits is seen by the next probe, and a refill makes a probe hit. -/
theorem cacheProbeWriteProbe : Obligations.CacheProbeWriteProbe := by
  intro s p n bs hI he hn ha hr hbs
  have hfit := access_fits s.cfg p n (cacheGeometry_of_wf hI.cfgWf).1 hn ha
  refine ⟨fun old hold => ?_, fun hmiss => ?_⟩
  · obtain ⟨l, hf⟩ := cacheLoad_some hold
    obtain ⟨k, hstore, hwf, htags, ⟨l2, hf2, -⟩, hstored, -⟩ :=
      cacheStore_hit s.cfg (s.cache .data) s.mem p bs l (hI.cacheWf .data) hf (hbs ▸ hfit)
    refine ⟨k, hstore, ?_, htags⟩
    rw [cacheLoad_hit s.cfg k s.mem p n l2 hf2 (hwf.2.2 l2 (find_some _ _ _ hf2).1).1 hfit]
    conv => rhs; rw [eq_bytesFrom bs 0#8, hbs]
    refine congrArg some (bytesFrom_shift _ _ _ _ _ fun j hj => ?_)
    rw [hstored _ (Nat.le_add_right p j) (by omega), Nat.add_sub_cancel_left, Nat.zero_add]
  · have hf := (cacheLoad_miss _ _ _ _).1 hmiss
    have hpos : 0 < n := Nat.pos_of_ne_zero (by rintro rfl; simp at hn)
    obtain ⟨t, hrefill, hrefilled, hfresh⟩ :=
      refill_spec .data s p hI.cfgWf (hI.cacheWf .data) he hf (line_inRange _ hI.cfgWf p n hpos hr)
    refine ⟨cacheStore_miss bs hf, t, hrefill, ?_⟩
    rw [hrefilled.cfg]
    exact cacheLoad_freshLine hfresh hfit

/-! ## Which slot a refill takes (R86) -/

/-- The state after a refill of a slot: `Mem` is `m`, the cache is `k`, and one more free value is taken. -/
def State.replaced (s : State) (st : Stream) (m : List Host.Cell) (k : Cache) : State :=
  { (s.setMem m).setCache st k with draws := s.draws + 1 }

theorem replaced_cfg (s : State) (st : Stream) (m : List Host.Cell) (k : Cache) : (s.replaced st m k).cfg = s.cfg := by cases st <;> rfl
theorem replaced_mem (s : State) (st : Stream) (m : List Host.Cell) (k : Cache) : (s.replaced st m k).mem = m := by cases st <;> rfl
theorem replaced_cache (s : State) (st : Stream) (m : List Host.Cell) (k : Cache) : (s.replaced st m k).cache st = k := by
  cases st <;> rfl

section Refill

variable {s : State} {st : Stream} {line : Nat} (hf : (s.cache st).find line = none)
  (hr : inRange s.cfg (line * s.cfg.lineSize) s.cfg.lineSize = true)

include hf hr

/-- With a free slot the line goes to the next one. -/
theorem refill_free (hfree : (s.cache st).length < s.cfg.cacheSlots) :
    refill st line s = some (s.setCache st (s.cache st ++ [freshLine s.cfg s.mem line])) := by
  rw [refill, hf, if_neg (by simp), if_pos hr, if_pos hfree]

/-- Without one the line takes a victim's slot, the victim written back first; the line is not the victim's, so what it holds is what
`Mem` held before. -/
theorem refill_full (hk : (s.cache st).wf s.cfg) (hfull : (s.cache st).length = s.cfg.cacheSlots) (hpos : 1 ≤ s.cfg.cacheSlots) :
    ∃ slot victim, (s.cache st)[slot]? = some victim ∧
      refill st line s = some (s.replaced st (writeBack s.cfg s.mem victim) ((s.cache st).set slot (freshLine s.cfg s.mem line))) := by
  have hslot : Config.freeNat s.draws % s.cfg.cacheSlots < (s.cache st).length := by
    rw [hfull]
    exact Nat.mod_lt _ hpos
  have hv := List.getElem?_eq_getElem hslot
  refine ⟨_, _, hv, ?_⟩
  generalize (s.cache st)[Config.freeNat s.draws % s.cfg.cacheSlots] = victim at hv
  have hmem := List.mem_of_getElem? hv
  obtain ⟨hlength, hrange⟩ := hk.2.2 victim hmem
  have hfresh : freshLine s.cfg (writeBack s.cfg s.mem victim) line = freshLine s.cfg s.mem line := by
    refine freshLine_congr _ _ _ _ fun a ha => ?_
    rw [read_writeBack _ _ _ _ hlength hrange, if_neg]
    rintro ⟨-, htag⟩
    exact (find_none _ _).1 hf victim hmem (htag.symm.trans ha)
  rw [refill, hf, if_neg (by simp), if_pos hr, if_neg (by omega)]
  simp only [hv, Option.map_some, Option.getD_some, hfresh]
  rfl

end Refill

/-- Settles O48: a free slot is filled; in a full cache the victim's slot is, after its write-back. -/
theorem cacheRefill : Obligations.CacheRefill := by
  intro s st line hI he hf hline
  have hr : inRange s.cfg (line * s.cfg.lineSize) s.cfg.lineSize = true := by
    rw [Nat.add_mul, Nat.one_mul] at hline
    exact decide_eq_true hline
  have hk := hI.cacheWf st
  rcases Nat.lt_or_ge (s.cache st).length s.cfg.cacheSlots with hfree | hge
  · exact ⟨_, freshLine s.cfg s.mem line, refill_free hf hr hfree, rfl, rfl, rfl, State.setCache_cfg _ _ _,
      fun _ => ⟨State.setCache_cache _ _ _, State.setCache_mem _ _ _⟩, fun hfull => absurd hfree (by omega)⟩
  · have hfull := Nat.le_antisymm hk.1 hge
    obtain ⟨slot, victim, hv, hrefill⟩ := refill_full hf hr hk hfull (cacheGeometry_of_wf hI.cfgWf).2
    obtain ⟨hlength, hrange⟩ := hk.2.2 victim (List.mem_of_getElem? hv)
    refine ⟨_, freshLine s.cfg s.mem line, hrefill, rfl, rfl, rfl, replaced_cfg _ _ _ _, fun hfree => absurd hfree (by omega),
      fun _ => ⟨slot, victim, hv, replaced_cache _ _ _ _, fun hclean => ?_, fun hdirty a => ⟨fun ha => ?_, fun ha => ?_⟩⟩⟩
    · rw [replaced_mem, writeBack, hclean]
      rfl
    · rw [replaced_mem, read_writeBack _ _ _ _ hlength hrange]
      exact if_pos ⟨hdirty, ha⟩
    · rw [replaced_mem, read_writeBack _ _ _ _ hlength hrange]
      exact if_neg fun h => ha h.2

end Sys2Proof.Machine
end

section
/-! PROOFS. The fetch: what it answers, what it changes, and its exceptions (spec 20_memory.md R130; 60_exceptions.md R301). -/

namespace Sys2Proof.Machine

/-- The four bytes at an address, put together. -/
theorem leWord_bytesFrom (f : Nat → Byte) (a : Nat) : leWord (bytesFrom f a 4) = f (a + 3) ++ f (a + 2) ++ f (a + 1) ++ f a := by
  simp only [bytesFrom, leWord_four, Nat.add_assoc]

/-- Settles O29: the I-cache is never dirty, so bringing a line in writes nothing back. -/
theorem fetchReadsInstructionView : Obligations.FetchReadsInstructionView := by
  intro s s1 p hI ha ht hr
  obtain ⟨s2, hfetch, hrefilled⟩ := fetch_ok hI.cfgWf (hI.cacheWf .instruction) ha ht hr
  obtain ⟨k, rfl, -⟩ := translate_ok ht
  rw [leWord_bytesFrom] at hfetch
  have hmem : s2.mem = s.mem := hrefilled.memClean hI.hartWf.2.2.2.2.1
  refine ⟨s2, hfetch, ?_, fun a => ?_⟩
  · conv => lhs; rw [hrefilled.frame, hmem]
    rfl
  · rw [fetchByte_stream, fetchByte_stream, ← streamByte_setTlb .instruction .instruction s k]
    rcases hrefilled.seen a with hsame | ⟨hevicted, hline, -⟩
    · exact .inl hsame
    · exact .inr ⟨hline, hevicted⟩

/-! ## A step that comes to its fetch (60_exceptions.md R301) -/

/-- Phase 2 with a timer that does not reach 0. -/
theorem timerPhase_quiet {s : State} (h : s.hart.timer.enabled = true → s.hart.timer.value ≠ 1#64) :
    timerPhase s = (false, s.setTimer
      (if s.hart.timer.enabled then { enabled := true, value := s.hart.timer.value - 1#64 } else s.hart.timer)) := by
  unfold timerPhase
  by_cases hen : s.hart.timer.enabled = true
  · have hne : s.hart.timer.value - 1#64 ≠ 0#64 := fun h0 => h hen (sub_eq_zero.1 h0)
    rw [if_pos hen, if_pos hen]
    exact if_neg hne
  · rw [if_neg hen, if_neg hen]
    rfl

/-- Phase 3 with no poll due. -/
theorem pollPhase_quiet {s : State} (h : s.hart.pollctr + 1 ≠ s.cfg.pollInterval) :
    pollPhase s = (false, s.setPollctr (s.hart.pollctr + 1)) := if_neg h

/-- A step of a hart that is about to fetch is phase 4, from the state after phases 1 to 3. -/
theorem step_ready {s : State} (h : ReadyToFetch s) : step s = fetchExecute (beforeFetch s) := by
  obtain ⟨hagenda, htask, hport, hlife, htimer, hpoll⟩ := h
  rw [step, nextTurn, hagenda]
  show iterate s = _
  rw [iterate, if_pos htask, wholeTurn, if_pos hport, hlife]
  show runningStep s = _
  rw [runningStep, timerPhase_quiet (s := s.setJumped false) htimer]
  dsimp only
  rw [if_neg (by simp [held]), pollPhase_quiet (by exact hpoll)]
  exact if_neg (by simp [hlife])

/-- A fetch whose checks raise an exception (R301 (c)). -/
theorem fetchExecute_exc {s s1 : State} {e : Exc} (h : physicalAddress .fetch s.hart.pc 4 s = .exc e s1) :
    fetchExecute s = .next (raise e .fetch s1) := by
  rw [fetchExecute, fetchWord, h]

/-- An exception with a Host that does nothing writes the trap CSRs and nothing else. -/
theorem raise_some_quiet (c : Cause) (v : Word) (site : Site) {s : State} (hq : s.replies = []) :
    raise { cause := c, info := some v } site s = trapSaved s c.code v s.draws :=
  (raise_some c v site s).trans (present_trapSaved site s _ _ _ hq)

/-- Settles O30: `physicalAddress` makes the three checks in their order. -/
theorem fetchExceptions : Obligations.FetchExceptions := by
  intro s hready
  dsimp only
  rw [step_ready hready]
  refine ⟨fun hmis => ?_, fun ha => ⟨fun e s1 ht => ?_, fun p s1 ht hr => ?_⟩, fun hq => ⟨fun c => ?_, fun p s1 ht => ?_⟩⟩
  · exact fetchExecute_exc (physicalAddress_misaligned .fetch _ 4 _ (by simp) hmis)
  · apply fetchExecute_exc
    obtain ⟨rfl, rfl⟩ := translate_exc ht
    refine (physicalAddress_aligned .fetch _ 4 _ (by simp) ha).trans ?_
    rw [ht]
    rfl
  · apply fetchExecute_exc
    refine (physicalAddress_aligned .fetch _ 4 _ (by simp) ha).trans ?_
    rw [ht]
    exact if_neg (Nat.not_le.2 hr)
  · exact raise_some_quiet c _ .fetch hq
  · obtain ⟨k, rfl, -⟩ := translate_ok ht
    exact ⟨rfl, raise_some_quiet .instructionAccessFault _ .fetch hq⟩

end Sys2Proof.Machine
end

section
/-! PROOFS. Loads, stores and the LR.W/SC.W pair as one hart sees them (spec 20_memory.md R75, R150, R156; 46_atomic.md R281, R282). -/

namespace Sys2Proof.Machine

/-! ## What a request does when its translation succeeds in range -/

section Requests

variable {s s1 : State} {va p : Word} {n : Nat} (hI : SysInv s) (hn : n ∈ [1, 2, 4]) (ha : va.toNat % n = 0)
  (hr : p.toNat + n ≤ s.cfg.memSize)

include hI hn ha hr

theorem run_load_ok (ext : Word → Word) (rd : Reg) (ht : translateVa .load va s = .ok p s1) :
    ∃ t, (Request.load n ext rd va).run s = .next (t.writeX rd (ext (leWord (viewBytes s p.toNat n)))) ∧
      Refilled .data s1 t p.toNat := by
  obtain ⟨t, hread, hrefilled⟩ := memRead_ok hI.cfgWf (hI.cacheWf .data) hn ha ht hr
  exact ⟨t, by rw [Request.run, hread, orRaise], hrefilled⟩

theorem run_store_ok (v : Word) (ht : translateVa .store va s = .ok p s1) :
    ∃ t, (Request.store n va v).run s = .next (killReservations t p) ∧ Stored s1 t p.toNat (leBytes n v) := by
  obtain ⟨t, hwrite, hstored⟩ := memWrite_ok (v := v) hI.cfgWf (hI.cacheWf .data) hn ha ht hr
  exact ⟨t, by rw [Request.run, hwrite, orRaise], hstored⟩

end Requests

/-! ## Registers and CSRs across an access -/

theorem Refilled.readX {s t : State} {p : Nat} (h : Refilled .data s t p) (q : Reg) : t.readX q = s.readX q := by
  rw [h.frame]
  rfl

theorem Stored.readX {s t : State} {p : Nat} {bs : List Byte} (h : Stored s t p bs) (q : Reg) : t.readX q = s.readX q := by
  rw [h.frame]
  rfl

theorem Stored.csr {s t : State} {p : Nat} {bs : List Byte} (h : Stored s t p bs) : t.hart.csr = s.hart.csr := by
  rw [h.frame]
  rfl

theorem Stored.cfg {s t : State} {p : Nat} {bs : List Byte} (h : Stored s t p bs) : t.cfg = s.cfg := by
  rw [h.frame]
  rfl

theorem writesRd_writeX {s u : State} {rd : Reg} (v : Word) (h : ∀ q, u.readX q = s.readX q) : WritesRd s (u.writeX rd v) rd v := by
  intro q
  rw [State.readX_writeX, h]

/-! ## Reservations (R140 to R143) -/

theorem reservationOf_setReservation {s : State} {i : Nat} (r : Reservation) (h : i < s.res.length) :
    reservationOf (setReservation s i r) i = r := by
  simp [reservationOf, setReservation, h]

theorem reservationOf_killReservations (s : State) (p : Word) (i : Nat) :
    reservationOf (killReservations s p) i =
      if killed s.cfg p (reservationOf s i) then { reservationOf s i with valid := false } else reservationOf s i := by
  simp only [reservationOf, killReservations, State.setRes_res, List.getD_eq_getElem?_getD, List.getElem?_map]
  cases s.res[i]? with
  | none => simp [killed]
  | some r => rfl

/-- No store leaves a reservation of its own address (R142). -/
theorem holdsReservation_killReservations (s : State) (p : Word) : holdsReservation (killReservations s p) p = false := by
  rw [holdsReservation, reservationOf_killReservations]
  split
  · rfl
  · next h =>
    rw [killed, resMatches] at h
    by_contra hheld
    simp only [Bool.not_eq_false, Bool.and_eq_true, decide_eq_true_eq] at hheld
    exact h (by simp [hheld])

/-- What SW of `v` to the physical address `p` leaves, as its own hart sees it: the bytes of the word (R150 (a)), no reservation of `p`
(R142), and `Mem` changed by write-back only. -/
structure WordStored (s t : State) (p v : Word) : Prop where
  cfg : t.cfg = s.cfg
  csr : t.hart.csr = s.hart.csr
  readX : ∀ q, t.readX q = s.readX q
  bytes : ∀ k, k < 4 → viewByte t (p.toNat + k) = byteOf v k
  lost : holdsReservation t p = false
  written : s.cfg.cacheEnable = true → OnlyWrittenBack s t

theorem Stored.word {s t : State} {p v : Word} (h : Stored s t p.toNat (leBytes 4 v)) : WordStored s (killReservations t p) p v where
  cfg := h.cfg
  csr := h.csr
  readX := h.readX
  bytes k hk := by
    have hbyte := h.stored _ (Nat.le_add_right _ k) (by rw [length_leBytes]; omega)
    rwa [Nat.add_sub_cancel_left, getD_leBytes _ _ _ _ hk] at hbyte
  lost := holdsReservation_killReservations t p
  written he := (h.written he).1

/-! ## The instructions in bare mode (R112), at an aligned address in range -/

theorem effectiveAddress_zero (s : State) (rs1 : Reg) : effectiveAddress s rs1 0#12 = s.readX rs1 := by
  simp [effectiveAddress, sext12]

section Bare

variable {s : State} {rs1 : Reg} (hoff : s.hart.csr.satp.getLsbD 31 = false) (ha : (s.readX rs1).toNat % 4 = 0)
  (hr : (s.readX rs1).toNat + 4 ≤ s.cfg.memSize)

include hoff ha hr

theorem exec_sw_bare (rs2 : Reg) (hI : SysInv s) :
    ∃ t, exec (.sw rs1 rs2 0#12) s = .next t ∧ WordStored s t (s.readX rs1) (s.readX rs2) := by
  obtain ⟨t, hrun, hstored⟩ := run_store_ok hI (n := 4) (by simp) ha hr (s.readX rs2) (translate_bare s .store _ hoff)
  refine ⟨_, ?_, hstored.word⟩
  rw [← hrun, ← effectiveAddress_zero]
  rfl

theorem run_atomic_bare (ty : AccessType) (critical : Word → State → State) :
    (Request.atomic ty (s.readX rs1) critical).run s = .next (critical (s.readX rs1) s) := by
  have haddress : physicalAddress ty (s.readX rs1) 4 s = .ok (s.readX rs1) s := by
    rw [physicalAddress_aligned _ _ _ _ (by simp) ha, translate_bare s ty _ hoff]
    exact if_pos hr
  rw [Request.run, haddress, orRaise]

theorem exec_lrW_bare (rd : Reg) (aq rl : Bool) : exec (.lrW rd rs1 aq rl) s = .next (lrSection rd (s.readX rs1) s) :=
  run_atomic_bare hoff ha hr .load _

theorem exec_scW_bare (rd rs2 : Reg) (aq rl : Bool) :
    exec (.scW rd rs1 rs2 aq rl) s = .next (scSection rd (s.readX rs2) (s.readX rs1) s) :=
  run_atomic_bare hoff ha hr .store _

end Bare

/-! ## A store and a load of its bytes -/

/-- A byte of a word, zero-extended, as a digit of the word's number (R75). -/
theorem setWidth_byteOf (v : Word) (k : Nat) : (byteOf v k).setWidth 32 = BitVec.ofNat 32 (v.toNat / 2 ^ (8 * k) % 256) := by
  apply BitVec.eq_of_toNat_eq
  simp only [byteOf, BitVec.toNat_setWidth, BitVec.extractLsb'_toNat, Nat.shiftRight_eq_div_pow, BitVec.toNat_ofNat]

theorem zeroByte_leWord (b : Byte) : zeroByte (leWord [b]) = b.setWidth 32 := by
  simp [leWord_one, zeroByte]

/-- The address of the `k`-th byte of an aligned word. -/
theorem toNat_byteAddress {s : State} {rs1 : Reg} {k : Nat} (hk : k < 4) (ha : (s.readX rs1).toNat % 4 = 0) :
    (effectiveAddress s rs1 (BitVec.ofNat 12 k)).toNat = (s.readX rs1).toNat + k := by
  have hlt := (s.readX rs1).isLt
  have hoffset : (sext12 (BitVec.ofNat 12 k)).toNat = k := by interval_cases k <;> rfl
  rw [effectiveAddress, BitVec.toNat_add, hoffset]
  omega

/-- Settles O14: the load sees the bytes stored, whether its line stayed or was brought in again. -/
theorem storeThenLoadByte : Obligations.StoreThenLoadByte := by
  intro s rs1 rs2 rd k hI hoff hk ha hr
  obtain ⟨t, hsw, hstored⟩ := exec_sw_bare hoff ha hr rs2 hI
  have haddress : (effectiveAddress t rs1 (BitVec.ofNat 12 k)).toNat = (s.readX rs1).toNat + k := by
    rw [toNat_byteAddress hk (by rwa [hstored.readX]), hstored.readX]
  obtain ⟨u, hlbu, hrefilled⟩ := run_load_ok ((local_exec _ _ _ hsw).inv hI) (n := 1) (by simp) (Nat.mod_one _)
    (by rw [haddress, hstored.cfg]; omega) zeroByte rd (translate_bare t .load _ (by rwa [hstored.csr]))
  rw [haddress, viewBytes, viewBytes, zeroByte_leWord, hstored.bytes k hk, setWidth_byteOf] at hlbu
  exact ⟨t, _, hsw, hlbu, writesRd_writeX _ hrefilled.readX⟩

/-! ## SC.W (R282) -/

theorem scSection_held {rd : Reg} {v p : Word} {s : State} (h : holdsReservation s p = true) :
    scSection rd v p s =
      (clearReservation (killReservations (s.setMem (physStoreWord s.cfg s.mem p v)) p) s.hart.id).writeX rd 0#32 := if_pos h

theorem scSection_lost {rd : Reg} {v p : Word} {s : State} (h : holdsReservation s p = false) :
    scSection rd v p s = (clearReservation s s.hart.id).writeX rd 1#32 := if_neg (by simp [h])

/-- A word stored past the caches (R74). -/
theorem read_physStoreWord {c : Config} {m : List Host.Cell} {p v : Word} (hr : p.toNat + 4 ≤ c.memSize) (a : Nat) :
    Memory.read (physStoreWord c m p v) a =
      if p.toNat ≤ a ∧ a < p.toNat + 4 then byteOf v (a - p.toNat) else Memory.read m a := by
  rw [physStoreWord, read_writeRaw _ _ _ _ _ (by simpa using hr), length_leBytes]
  split
  · exact getD_leBytes _ _ _ _ (by omega)
  · rfl

/-! ## After LR.W (R281) -/

section LoadReserved

variable (rd : Reg) (p : Word) (s : State)

@[simp] theorem lrSection_cfg : (lrSection rd p s).cfg = s.cfg := by simp [lrSection, setReservation]
@[simp] theorem lrSection_mem : (lrSection rd p s).mem = s.mem := by simp [lrSection, setReservation]
@[simp] theorem lrSection_csr : (lrSection rd p s).hart.csr = s.hart.csr := by simp [lrSection, setReservation]
@[simp] theorem lrSection_dcache : (lrSection rd p s).hart.dcache = s.hart.dcache := by simp [lrSection, setReservation]

theorem readX_lrSection {q : Reg} (h : rd ≠ q) : (lrSection rd p s).readX q = s.readX q := by
  rw [lrSection, State.readX_writeX, if_neg fun hq => h hq.1.symm]
  rfl

theorem viewByte_lrSection : viewByte (lrSection rd p s) = viewByte s := by
  funext a
  simp [viewByte_stream, streamByte]

/-- The hart holds the reservation, when it has a slot for one. -/
theorem holdsReservation_lrSection (h : s.hart.id < s.res.length) : holdsReservation (lrSection rd p s) p = true := by
  have hid : (lrSection rd p s).hart.id = s.hart.id := by simp [lrSection, setReservation]
  have hres : reservationOf (lrSection rd p s) s.hart.id = { valid := true, addr := p } := by
    rw [← reservationOf_setReservation { valid := true, addr := p } h, reservationOf, lrSection, State.writeX_res, reservationOf]
  simp [holdsReservation, hid, hres]

end LoadReserved

/-- Settles O23: LR.W leaves the hart its reservation, which its own SW takes away. -/
theorem loadReservedStoreConditionalPair : Obligations.LoadReservedStoreConditionalPair := by
  intro s rd rs1 rs2 rs3 rd2 hI hoff hrd1 hrd2 ha hr
  have hlr := exec_lrW_bare hoff ha hr rd false false
  have hIt := (local_exec _ _ _ hlr).inv hI
  have hheld := holdsReservation_lrSection rd (s.readX rs1) s (by rw [hI.resLength]; exact hI.idLt)
  have hx1 := readX_lrSection rd (s.readX rs1) s hrd1
  have hx2 := readX_lrSection rd (s.readX rs1) s hrd2
  have hmem := lrSection_mem rd (s.readX rs1) s
  have hcfg := lrSection_cfg rd (s.readX rs1) s
  have hview := viewByte_lrSection rd (s.readX rs1) s
  rw [← lrSection_csr rd (s.readX rs1) s] at hoff
  generalize lrSection rd (s.readX rs1) s = t at *
  rw [← hx1, ← hcfg] at hr
  rw [← hx1] at ha hheld
  rw [← hx1, ← hx2]
  refine ⟨t, hlr, ?_, ?_⟩
  · have hsc := exec_scW_bare hoff ha hr rd2 rs2 false false
    rw [scSection_held hheld] at hsc
    refine ⟨_, hsc, writesRd_writeX _ fun q => rfl, fun a => ?_⟩
    rw [State.writeX_mem, ← hmem]
    exact read_physStoreWord hr a
  · obtain ⟨v, hsw, hstored⟩ := exec_sw_bare hoff ha hr rs3 hIt
    have hsc := exec_scW_bare (by rwa [hstored.csr]) (by rwa [hstored.readX]) (by rwa [hstored.readX, hstored.cfg]) rd2 rs2 false false
    rw [scSection_lost (by rw [hstored.readX]; exact hstored.lost)] at hsc
    refine ⟨v, _, hsw, hsc, writesRd_writeX _ fun q => rfl, State.writeX_mem _ _ _, fun he a => ?_⟩
    have hwritten := hstored.written (hcfg ▸ he) a
    rw [hmem, hview] at hwritten
    rwa [State.writeX_mem]

end Sys2Proof.Machine
end

section
/-! PROOFS. Which instructions can change the memory system when the Host does nothing (spec 20_memory.md R89, R134, R135, R143, R153,
R155). -/

namespace Sys2Proof.Machine

/-- What an instruction asks is a load, a store, or the critical section of an atomic, on the data stream; and a critical section
changes nothing of its hart but `x`. -/
inductive Asks (i : Instr) : Request → Prop where
  | load (n : Nat) (ext : Word → Word) (rd : Reg) (va : Word) (hi : isLoad i = true) : Asks i (.load n ext rd va)
  | store (n : Nat) (va v : Word) (hi : isStore i = true) : Asks i (.store n va v)
  | atomic (ty : AccessType) (va : Word) (critical : Word → State → State) (hi : isAtomic i = true) (hdata : ty.stream = .data)
      (hcritical : ∀ p u, (critical p u).hart = { u.hart with x := (critical p u).hart.x }) : Asks i (.atomic ty va critical)

theorem scSection_hart (rd : Reg) (v p : Word) (s : State) :
    (scSection rd v p s).hart = { s.hart with x := (scSection rd v p s).hart.x } := by
  unfold scSection
  split <;> simp [clearReservation, setReservation, killReservations]

theorem asks_requestOf {i : Instr} {s : State} {r : Request} (h : requestOf i s = some r) : Asks i r := by
  cases i <;> simp only [requestOf, Option.some.injEq, reduceCtorEq] at h <;> subst h
  case lb | lh | lw | lbu | lhu => exact .load _ _ _ _ rfl
  case sb | sh | sw => exact .store _ _ _ rfl
  case lrW => exact .atomic _ _ _ rfl rfl fun p u => by simp [lrSection, setReservation]
  case scW => exact .atomic _ _ _ rfl rfl (scSection_hart _ _)
  case amoswapW => exact .atomic _ _ _ rfl rfl fun p u => by simp [swapSection, killReservations]

/-- What the access, what follows it and a trap all keep is kept by an instruction that accesses memory. -/
theorem kept_orRaise {α β : Type} (keep : State → β) (htrap : ∀ u c v n, keep (trapSaved u c v n) = keep u) {a : Access α}
    {k : α → State → State} {s t : State} (hreplies : a.state.replies = []) (ha : keep a.state = keep s)
    (hk : ∀ v u, keep (k v u) = keep u) (h : orRaise a k = .next t) : keep t = keep s := by
  cases a with
  | ok v u =>
    cases h
    exact (hk v u).trans ha
  | exc e u =>
    cases h
    obtain ⟨v, n, hraise, -⟩ := raise_quiet e .exec u hreplies
    rw [hraise, htrap]
    exact ha

/-- The cache and the TLB of the instruction stream. -/
def State.fetchPath (s : State) : Cache × Tlb := (s.hart.icache, s.hart.itlb)

/-- A load changes no reservation and nothing of the instruction stream. -/
theorem run_load_keeps {n : Nat} {ext : Word → Word} {rd : Reg} {va : Word} {s t : State} (hq : s.replies = [])
    (h : (Request.load n ext rd va).run s = .next t) : (t.res, t.fetchPath) = (s.res, s.fetchPath) := by
  have hframe := memRead_frame va n s
  refine kept_orRaise (fun u => (u.res, u.fetchPath)) (fun _ _ _ _ => rfl) ?_ ?_ (fun v u => ?_) h
  · rw [hframe]
    exact hq
  · rw [hframe]
    rfl
  · simp [State.fetchPath]

/-- A store changes nothing of the instruction stream. -/
theorem run_store_keeps {n : Nat} {va v : Word} {s t : State} (hq : s.replies = [])
    (h : (Request.store n va v).run s = .next t) : t.fetchPath = s.fetchPath := by
  have hframe := memWrite_frame va n v s
  unfold StreamFrame at hframe
  have hreplies := congrArg State.replies hframe
  have hpath := congrArg State.fetchPath hframe
  exact kept_orRaise State.fetchPath (fun _ _ _ _ => rfl) (hreplies.trans hq) hpath (fun _ _ => rfl) h

/-- An atomic changes no cache and nothing of the instruction stream. -/
theorem run_atomic_keeps {ty : AccessType} {va : Word} {critical : Word → State → State} {s t : State} (hq : s.replies = [])
    (hdata : ty.stream = .data) (hcritical : ∀ p u, (critical p u).hart = { u.hart with x := (critical p u).hart.x })
    (h : (Request.atomic ty va critical).run s = .next t) : (t.hart.dcache, t.fetchPath) = (s.hart.dcache, s.fetchPath) := by
  have hframe := physicalAddress_frame ty va 4 s
  rw [hdata] at hframe
  refine kept_orRaise (fun u => (u.hart.dcache, u.fetchPath)) (fun _ _ _ _ => rfl) ?_ ?_ (fun p u => ?_) h
  · rw [hframe]
    exact hq
  · rw [hframe]
    rfl
  · simp only [State.fetchPath]
    rw [hcritical]

theorem fenceOp_keeps (s : State) :
    (fenceOp s).res = s.res ∧ (fenceOp s).hart = { s.hart with dcache := (fenceOp s).hart.dcache } := by
  unfold fenceOp
  split <;> exact ⟨rfl, rfl⟩

theorem fenceIOp_keeps (s : State) : fenceIOp s = s.setCache .instruction (fenceIOp s).hart.icache := by
  unfold fenceIOp
  split <;> rfl

/-- Settles O56, by the effect the instruction comes to. -/
theorem memorySystemWriters : Obligations.MemorySystemWriters := by
  intro i s t hq h
  cases exec_effect h with
  | nothing => simp
  | register rd v => simp
  | csr a v rd old ha => simp
  | jump rd v target hi ht => simp [jumpTo]
  | raised e =>
    obtain ⟨v, n, hraise, -⟩ := raise_quiet e .exec s hq
    simp [hraise]
  | fence hi =>
    obtain ⟨hres, hhart⟩ := fenceOp_keeps s
    simp [hi, hres, congrArg Hart.icache hhart, congrArg Hart.itlb hhart, congrArg Hart.dtlb hhart]
  | fenceI hi =>
    rw [fenceIOp_keeps]
    simp [hi]
  | sfence hi => simp [hi, flushTlbs]
  | access r _ hr hrun =>
    cases asks_requestOf hr with
    | load n ext rd va hi =>
      obtain ⟨hres, hicache, hitlb⟩ := by simpa [State.fetchPath] using run_load_keeps hq hrun
      simp [hi, hres, hicache, hitlb]
    | store n va v hi =>
      obtain ⟨hicache, hitlb⟩ := by simpa [State.fetchPath] using run_store_keeps hq hrun
      simp [hi, hicache, hitlb]
    | atomic ty va critical hi hdata hcritical =>
      obtain ⟨hdcache, hicache, hitlb⟩ := by simpa [State.fetchPath] using run_atomic_keeps hq hdata hcritical hrun
      simp [hi, hdcache, hicache, hitlb]

end Sys2Proof.Machine
end

section
/-! PROOFS. What a word decodes to, by its major opcode (spec 30_encoding.md R165 to R180): in a supported row an instruction whose
word it is, or no instruction; outside the rows a floating-point word or an unsupported one. -/

namespace Sys2Proof

/-! ## What a row answers -/

/-- What a row of the encoding tables answers for a word: an instruction whose word it is, or no instruction (R177). -/
def RowAnswer (w : Word) : Decoded → Prop
  | .instr i => WellFormed i = true ∧ encode i = w
  | .illegal => True
  | .unsupported => False
  | .floatingPoint => False

@[simp] theorem rowAnswer_instr (w : Word) (i : Instr) : RowAnswer w (.instr i) ↔ WellFormed i = true ∧ encode i = w := Iff.rfl

@[simp] theorem rowAnswer_illegal (w : Word) : RowAnswer w .illegal := trivial

theorem RowAnswer.illegal_or_instr {w : Word} {d : Decoded} (h : RowAnswer w d) : d = .illegal ∨ ∃ i, d = .instr i := by
  cases d with
  | instr i => exact .inr ⟨i, rfl⟩
  | illegal => exact .inl rfl
  | unsupported => exact h.elim
  | floatingPoint => exact h.elim

/-! A word put together again from the fields of the U, J and AMO formats. -/

theorem encU_of {w : Word} {op : BitVec 7} (ho : opcode w = op) : encU (immU w) (fieldRd w) op = w := by
  subst ho
  exact encU_fields w

theorem encJ_of {w : Word} {op : BitVec 7} (ho : opcode w = op) : encJ (immJ w) (fieldRd w) op = w := by
  subst ho
  exact encJ_fields w

theorem encAmo_of {w : Word} {f5 : BitVec 5} (h5 : funct5 w = f5) (h3 : funct3 w = 0b010#3) (ho : opcode w = 0x2F#7) :
    encAmo f5 (fieldAq w) (fieldRl w) (fieldRs2 w) (fieldRs1 w) (fieldRd w) = w :=
  encR_of (by rw [← funct7_amo, h5]) h3 ho

/-- The last `funct3` of an OP row that uses all eight. -/
theorem funct3_eq_and {f3 : BitVec 3} (h0 : f3 ≠ 0b000#3) (h1 : f3 ≠ 0b001#3) (h2 : f3 ≠ 0b010#3) (h3 : f3 ≠ 0b011#3)
    (h4 : f3 ≠ 0b100#3) (h5 : f3 ≠ 0b101#3) (h6 : f3 ≠ 0b110#3) : f3 = 0b111#3 := by bv_omega

/-- The `funct3` of the right shifts, the last that OP-IMM tests for. -/
theorem funct3_eq_srl {f3 : BitVec 3} (h0 : f3 ≠ 0b000#3) (h1 : f3 ≠ 0b001#3) (h2 : f3 ≠ 0b010#3) (h3 : f3 ≠ 0b011#3)
    (h4 : f3 ≠ 0b100#3) (h6 : f3 ≠ 0b110#3) (h7 : f3 ≠ 0b111#3) : f3 = 0b101#3 := by bv_omega

/-! ## The rows: each test made on the way to an instruction fixes a field of its word -/

section Rows

variable {w : Word}

theorem rowAnswer_load (ho : opcode w = 0x03#7) : RowAnswer w (decodeLoad w) := by
  unfold decodeLoad
  dsimp only
  split_ifs with h0 h1 h2 h4 h5
  all_goals simp [WellFormed, encode, encI_of, *]

theorem rowAnswer_store (ho : opcode w = 0x23#7) : RowAnswer w (decodeStore w) := by
  unfold decodeStore
  dsimp only
  split_ifs with h0 h1 h2
  all_goals simp [WellFormed, encode, encS_of, *]

theorem rowAnswer_branch (ho : opcode w = 0x63#7) : RowAnswer w (decodeBranch w) := by
  unfold decodeBranch
  dsimp only
  split_ifs with h0 h1 h4 h5 h6 h7
  all_goals simp [WellFormed, evenOffset_immB, encode, encB_of, *]

theorem rowAnswer_opImm (ho : opcode w = 0x13#7) : RowAnswer w (decodeOpImm w) := by
  unfold decodeOpImm
  dsimp only
  split_ifs with h0 h2 h3 h4 h6 h7 h1 hslli hsrli hsrai
  iterate 6 · simp [WellFormed, encode, encI_of, *]
  · simp [WellFormed, encode, encR_of hslli h1 ho]
  · exact rowAnswer_illegal w
  · simp [WellFormed, encode, encR_of hsrli (funct3_eq_srl h0 h1 h2 h3 h4 h6 h7) ho]
  · simp [WellFormed, encode, encR_of hsrai (funct3_eq_srl h0 h1 h2 h3 h4 h6 h7) ho]
  · exact rowAnswer_illegal w

theorem rowAnswer_op (ho : opcode w = 0x33#7) : RowAnswer w (decodeOp w) := by
  unfold decodeOp
  dsimp only
  by_cases hbase : funct7 w = 0b0000000#7
  · rw [if_pos hbase]
    split_ifs with h0 h1 h2 h3 h4 h5 h6
    case neg => simp [WellFormed, encode, encR_of hbase (funct3_eq_and h0 h1 h2 h3 h4 h5 h6) ho]
    all_goals simp [WellFormed, encode, encR_of, *]
  rw [if_neg hbase]
  by_cases halt : funct7 w = 0b0100000#7
  · rw [if_pos halt]
    split_ifs with h0 h5
    all_goals simp [WellFormed, encode, encR_of, *]
  rw [if_neg halt]
  by_cases hmuldiv : funct7 w = 0b0000001#7
  · rw [if_pos hmuldiv]
    split_ifs with h0 h1 h2 h3 h4 h5 h6
    case neg => simp [WellFormed, encode, encR_of hmuldiv (funct3_eq_and h0 h1 h2 h3 h4 h5 h6) ho]
    all_goals simp [WellFormed, encode, encR_of, *]
  · rw [if_neg hmuldiv]
    exact rowAnswer_illegal w

theorem rowAnswer_miscMem (ho : opcode w = 0x0F#7) : RowAnswer w (decodeMiscMem w) := by
  unfold decodeMiscMem
  dsimp only
  split_ifs with h0 h1
  · simp [WellFormed, encode, immI_fence, encI_of h0 ho]
  · simp [WellFormed, encode, encI_of h1 ho]
  · exact rowAnswer_illegal w

theorem rowAnswer_system (ho : opcode w = 0x73#7) : RowAnswer w (decodeSystem w) := by
  unfold decodeSystem
  dsimp only
  split_ifs with h0 hecall hebreak hsfence h1 h2 h3 h5 h6 h7
  -- ECALL and EBREAK are compared as whole words; SFENCE.VMA has no `rd`.
  · exact ⟨rfl, hecall.symm⟩
  · exact ⟨rfl, hebreak.symm⟩
  · obtain ⟨hf7, hrd⟩ := hsfence
    simp [WellFormed, encode, ← hrd, encR_of hf7 h0 ho]
  · exact rowAnswer_illegal w
  all_goals simp [WellFormed, encode, encI_of, *]

theorem rowAnswer_amo (ho : opcode w = 0x2F#7) : RowAnswer w (decodeAmo w) := by
  unfold decodeAmo
  dsimp only
  by_cases h3 : funct3 w = 0b010#3
  · rw [if_pos h3]
    by_cases hlr : funct5 w = 0b00010#5
    · rw [if_pos hlr]
      -- LR.W has no `rs2`.
      split_ifs with hrs2
      · simp [WellFormed, encode, ← hrs2, encAmo_of hlr h3 ho]
      · exact rowAnswer_illegal w
    · rw [if_neg hlr]
      split_ifs
      all_goals simp [WellFormed, encode, encAmo_of, *]
  · rw [if_neg h3]
    exact rowAnswer_illegal w

theorem rowAnswer_jalr (ho : opcode w = 0x67#7) : RowAnswer w (decodeJalr w) := by
  unfold decodeJalr
  split_ifs with h0
  · simp [WellFormed, encode, encI_of h0 ho]
  · exact rowAnswer_illegal w

end Rows

/-! ## Decoding by the major opcode -/

/-- A word of a supported major opcode is what its row answers (R165, R168). -/
theorem decode_supported {w : Word} (h : opcode w ∈ supportedOpcodes) : RowAnswer w (decode w) := by
  simp only [supportedOpcodes, List.mem_cons, List.not_mem_nil, or_false] at h
  rcases h with h | h | h | h | h | h | h | h | h | h | h | h
  · exact decode_load w h ▸ rowAnswer_load h
  · exact decode_miscMem w h ▸ rowAnswer_miscMem h
  · exact decode_opImm w h ▸ rowAnswer_opImm h
  · exact decode_auipc w h ▸ ⟨rfl, by simp [encode, encU_of h]⟩
  · exact decode_store w h ▸ rowAnswer_store h
  · exact decode_amo w h ▸ rowAnswer_amo h
  · exact decode_op w h ▸ rowAnswer_op h
  · exact decode_lui w h ▸ ⟨rfl, by simp [encode, encU_of h]⟩
  · exact decode_branch w h ▸ rowAnswer_branch h
  · exact decode_jalr w h ▸ rowAnswer_jalr h
  · exact decode_jal w h ▸ ⟨evenOffset_immJ w, by simp [encode, encJ_of h]⟩
  · exact decode_system w h ▸ rowAnswer_system h

/-- A word of no supported major opcode is a floating-point word or unsupported (R176, R178). -/
theorem decode_not_supported {w : Word} (h : opcode w ∉ supportedOpcodes) :
    decode w = if opcode w ∈ floatingPointOpcodes then .floatingPoint else .unsupported := by
  simp only [supportedOpcodes, List.mem_cons, List.not_mem_nil, or_false, not_or] at h
  simp [decode, h]

/-- Settles O2: only a supported major opcode gives an instruction, and each row answers one whose word it is. -/
theorem encodeOfDecode : Obligations.EncodeOfDecode := by
  intro w i hd
  by_cases h : opcode w ∈ supportedOpcodes
  · have hrow := decode_supported h
    rwa [hd] at hrow
  · rw [decode_not_supported h] at hd
    split_ifs at hd

/-! ## The three outcomes -/

/-- A list of major opcodes as numbers. -/
theorem toNat_opcode_mem (w : Word) (ops : List (BitVec 7)) : w.toNat % 128 ∈ ops.map BitVec.toNat ↔ opcode w ∈ ops := by
  have hop : w.toNat % 128 = (opcode w).toNat := by simp [opcode]
  rw [hop, List.mem_map_of_injective BitVec.toNat_injective]

theorem not_floatingPoint_of_supported : ∀ op ∈ supportedOpcodes, op ∉ floatingPointOpcodes := by decide

/-- The three kinds of major opcodes are disjoint, and the outcome tells them apart. -/
theorem decode_outcome_iff (w : Word) :
    (decode w = .unsupported ↔ opcode w ∉ supportedOpcodes ∧ opcode w ∉ floatingPointOpcodes) ∧
      (decode w = .floatingPoint ↔ opcode w ∈ floatingPointOpcodes) ∧
      ((decode w = .illegal ∨ ∃ i, decode w = .instr i) ↔ opcode w ∈ supportedOpcodes) := by
  by_cases hs : opcode w ∈ supportedOpcodes
  · have hf := not_floatingPoint_of_supported _ hs
    rcases (decode_supported hs).illegal_or_instr with hd | ⟨i, hd⟩
    · simp [hd, hs, hf]
    · simp [hd, hs, hf]
  · by_cases hf : opcode w ∈ floatingPointOpcodes
    · simp [decode_not_supported hs, hs, hf]
    · simp [decode_not_supported hs, hs, hf]

/-- Settles O3: the statement's lists are those of the decoder, as numbers. -/
theorem decodeOutcomes : Obligations.DecodeOutcomes := by
  intro w
  have h := decode_outcome_iff w
  simp only [← toNat_opcode_mem] at h
  exact h

end Sys2Proof
end

section
/-! PROOFS. What a step comes to after a fetch that answers a word (spec 60_exceptions.md R301, R302; 30_encoding.md R176 to R178). -/

namespace Sys2Proof.Machine

/-- A step whose fetch answers a word decodes it and goes on. -/
theorem step_fetched {s s1 : State} {w : Word} (hready : ReadyToFetch s) (hf : fetchWord s.hart.pc (beforeFetch s) = .ok w s1) :
    step s = decodeThen executeInstr w s1 := by
  have hpc : fetchWord (beforeFetch s).hart.pc (beforeFetch s) = .ok w s1 := hf
  rw [step_ready hready, fetchExecute, hpc]
  rfl

/-- A fetch keeps the pc, the trap port, the cleared `jumped` and the Host's scripts. -/
theorem fetched_frame {s s1 : State} {w va : Word} (hf : fetchWord va (beforeFetch s) = .ok w s1) :
    s1.hart.pc = s.hart.pc ∧ s1.hart.port = s.hart.port ∧ s1.hart.jumped = false ∧ s1.replies = s.replies := by
  have hframe : StreamFrame .instruction (beforeFetch s) s1 := by
    simpa only [hf, Access.state] using fetchWord_frame va (beforeFetch s)
  rw [hframe]
  exact ⟨rfl, rfl, rfl, rfl⟩

/-- The end of an executed instruction's step, in the statements' words. -/
theorem next_finishExecute (t : State) : .next (finishExecute t) = afterExecute (.next t) := by
  rw [afterExecute, finishExecute, State.advancePc]
  by_cases hport : t.hart.port = []
  · cases hjumped : t.hart.jumped
    · simp [hport, State.setPc, State.setHart]
    · simp [hport]
  · simp [hport]

/-- After an exception with a Host that does nothing, in a step that has not jumped, the pc advances (R301 phase 4). -/
theorem afterExecute_trapSaved {s : State} (hport : s.hart.port = []) (hjumped : s.hart.jumped = false) (code v : Word) (n : Nat) :
    afterExecute (.next (trapSaved s code v n)) =
      .next { trapSaved s code v n with hart := { (trapSaved s code v n).hart with pc := s.hart.pc + 4#32 } } := by
  simp [afterExecute, hport, hjumped]

/-- Settles O31: IllegalInstruction has no value for `MTVAL`, and after the fetch the pc is still the word's address. -/
theorem nonInstructionWords : Obligations.NonInstructionWords := by
  intro s s1 w hready hf
  have hstep := step_fetched hready hf
  refine ⟨fun hd => ?_, fun hd => ?_, fun hd => ?_⟩
  · have hraised : step s =
        afterExecute (.next (present .exec (trapSaved s1 0x2#32 (Config.freeWord s1.draws) (s1.draws + 1)))) := by
      rw [hstep, decodeThen, hd]
      exact next_finishExecute _
    refine ⟨⟨_, hraised⟩, fun hq => ⟨Config.freeWord s1.draws, ?_⟩⟩
    obtain ⟨-, -, hport, -⟩ := hready
    obtain ⟨hpc, hkept, hjumped, hreplies⟩ := fetched_frame hf
    rw [hraised, present_trapSaved _ _ _ _ _ (hreplies.trans hq), afterExecute_trapSaved (hkept.trans hport) hjumped, hpc]
  · rw [hstep, decodeThen, hd]
  · rw [hstep, decodeThen, hd]

end Sys2Proof.Machine
end

section
/-! PROOFS. The integer computational instructions (spec 40_integer.md R200 to R222). -/

namespace Sys2Proof.Machine

/-- An instruction whose meaning is one register write completes by its rule: its word decodes to it, and nothing but `x[rd]` changes. -/
theorem computes_writeX {w : Word} {i : Instr} {s : State} {rd : Reg} {v u : Word} (hi : WellFormed i = true) (hw : encode i = w)
    (hx : exec i s = .next (s.writeX rd u)) (hv : u = v) : Computes w i s rd v := by
  subst hw hv
  exact ⟨decode_encode hi, _, hx, State.writeX_frame s rd u, fun q => State.readX_writeX s rd q u⟩

/-! ## OP-IMM (R202 to R210) -/

theorem opAdd_sext12 (a : Word) (imm : BitVec 12) : opAdd a (sext12 imm) = BitVec.ofInt 32 (a.toInt + imm.toInt) := by
  rw [opAdd_eq, toInt_sext12]

theorem opSlt_sext12 (a : Word) (imm : BitVec 12) : opSlt a (sext12 imm) = if a.toInt < imm.toInt then 1#32 else 0#32 := by
  rw [opSlt_eq, toInt_sext12]

theorem opSll_shamt (a : Word) (sh : Fin 32) : opSll a (BitVec.ofNat 32 sh.val) = BitVec.ofNat 32 (a.toNat * 2 ^ sh.val) := by
  rw [opSll_eq, shiftAmount_shamt]

theorem opSrl_shamt (a : Word) (sh : Fin 32) : opSrl a (BitVec.ofNat 32 sh.val) = BitVec.ofNat 32 (a.toNat / 2 ^ sh.val) := by
  rw [opSrl_eq, shiftAmount_shamt]

theorem opSra_shamt (a : Word) (sh : Fin 32) : opSra a (BitVec.ofNat 32 sh.val) = BitVec.ofInt 32 (a.toInt / 2 ^ sh.val) := by
  rw [opSra_eq, shiftAmount_shamt]

/-- SLLI has one `funct7`; any other word of its row is illegal (30_encoding.md R166, R177). -/
theorem decode_slli_otherFunct7 {f7 : BitVec 7} (rs2 rs1 rd : BitVec 5) (h : f7 ≠ 0b0000000#7) :
    decode (encR f7 rs2 rs1 0b001#3 rd 0x13#7) = .illegal := by
  simp [decode_opImm, decodeOpImm, h]

/-- SRLI and SRAI share a `funct3` and have one `funct7` each; any other word of their row is illegal (30_encoding.md R166, R177). -/
theorem decode_srli_srai_otherFunct7 {f7 : BitVec 7} (rs2 rs1 rd : BitVec 5) (h : f7 ≠ 0b0000000#7) (h' : f7 ≠ 0b0100000#7) :
    decode (encR f7 rs2 rs1 0b101#3 rd 0x13#7) = .illegal := by
  simp [decode_opImm, decodeOpImm, h, h']

/-- Settles O5: each meaning is one register write, of its operation's result on the sign-extended immediate or the shift amount. -/
theorem opImmediateResults : Obligations.OpImmediateResults := by
  intro s rd rs1 imm sh a b
  refine ⟨?addi, ?slti, ?sltiu, ?xori, ?ori, ?andi, ?slli, ?srli, ?srai, ?illegal⟩
  case addi => exact computes_writeX rfl rfl rfl (opAdd_sext12 a imm)
  case slti => exact computes_writeX rfl rfl rfl (opSlt_sext12 a imm)
  case sltiu => exact computes_writeX rfl rfl rfl (opSltu_eq a b)
  case xori | ori | andi => exact computes_writeX rfl rfl rfl rfl
  case slli => exact computes_writeX rfl rfl rfl (opSll_shamt a sh)
  case srli => exact computes_writeX rfl rfl rfl (opSrl_shamt a sh)
  case srai => exact computes_writeX rfl rfl rfl (opSra_shamt a sh)
  case illegal =>
    exact fun f7 h => ⟨decode_slli_otherFunct7 _ _ _ h, decode_srli_srai_otherFunct7 _ _ _ h⟩

/-! ## OP (R211 to R220) -/

theorem opSll_low5 (a b : Word) : opSll a b = BitVec.ofNat 32 (a.toNat * 2 ^ (b.toNat % 32)) := by
  rw [opSll_eq, shiftAmount_eq]

theorem opSrl_low5 (a b : Word) : opSrl a b = BitVec.ofNat 32 (a.toNat / 2 ^ (b.toNat % 32)) := by
  rw [opSrl_eq, shiftAmount_eq]

theorem opSra_low5 (a b : Word) : opSra a b = BitVec.ofInt 32 (a.toInt / 2 ^ (b.toNat % 32)) := by
  rw [opSra_eq, shiftAmount_eq]

/-- Settles O6: each meaning is one register write, of its operation's result on the two sources. -/
theorem opRegisterResults : Obligations.OpRegisterResults := by
  intro s rd rs1 rs2 a b n word
  refine ⟨?add, ?sub, ?sll, ?slt, ?sltu, ?xor, ?srl, ?sra, ?or, ?and⟩
  case add => exact computes_writeX rfl rfl rfl (opAdd_eq a b)
  case sub => exact computes_writeX rfl rfl rfl (opSub_eq a b)
  case sll => exact computes_writeX rfl rfl rfl (opSll_low5 a b)
  case slt => exact computes_writeX rfl rfl rfl (opSlt_eq a b)
  case sltu => exact computes_writeX rfl rfl rfl (opSltu_eq a b)
  case srl => exact computes_writeX rfl rfl rfl (opSrl_low5 a b)
  case sra => exact computes_writeX rfl rfl rfl (opSra_low5 a b)
  case xor | or | and => exact computes_writeX rfl rfl rfl rfl

/-! ## LUI and AUIPC (R221, R222) -/

theorem add_upperImm (pc : Word) (imm : BitVec 20) : pc + upperImm imm = BitVec.ofNat 32 (pc.toNat + imm.toNat * 4096) := by
  rw [upperImm_eq, BitVec.ofNat_add, BitVec.ofNat_toNat, BitVec.setWidth_eq]

/-- Settles O7: LUI writes the upper immediate, AUIPC its sum with the address of the AUIPC. -/
theorem upperImmediateResults : Obligations.UpperImmediateResults := fun s _ imm =>
  ⟨computes_writeX rfl rfl rfl (upperImm_eq imm), computes_writeX rfl rfl rfl (add_upperImm s.hart.pc imm)⟩

end Sys2Proof.Machine
end

section
/-! PROOFS. Multiply and divide (spec 41_muldiv.md R230 to R239). -/

namespace Sys2Proof.Machine

/-! ## Results (R231 to R238) -/

theorem opDiv_eq (a b : Word) :
    opDiv a b =
      if b.toInt = 0 then BitVec.ofInt 32 (-1)
      else if a.toInt = -2 ^ 31 ∧ b.toInt = -1 then BitVec.ofInt 32 (-2 ^ 31) else BitVec.ofInt 32 (a.toInt.tdiv b.toInt) := by
  simp only [opDiv, eq_zero_iff_toInt, divOverflow_iff]
  rfl

theorem opDivu_eq (a b : Word) :
    opDivu a b = if b.toNat = 0 then BitVec.ofNat 32 (2 ^ 32 - 1) else BitVec.ofNat 32 (a.toNat / b.toNat) := by
  simp only [opDivu, eq_zero_iff_toNat]
  rfl

theorem opRem_eq (a b : Word) :
    opRem a b =
      if b.toInt = 0 then a
      else if a.toInt = -2 ^ 31 ∧ b.toInt = -1 then 0#32 else BitVec.ofInt 32 (a.toInt - b.toInt * a.toInt.tdiv b.toInt) := by
  simp only [opRem, eq_zero_iff_toInt, divOverflow_iff]

theorem opRemu_eq (a b : Word) : opRemu a b = if b.toNat = 0 then a else BitVec.ofNat 32 (a.toNat % b.toNat) := by
  simp only [opRemu, eq_zero_iff_toNat]

/-- Settles O8: each meaning is one register write, of the rule's value for the two sources. -/
theorem multiplyDivideResults : Obligations.MultiplyDivideResults := by
  intro s rd rs1 rs2 a b overflow word
  refine ⟨?mul, ?mulh, ?mulhsu, ?mulhu, ?div, ?divu, ?rem, ?remu⟩
  case mul => exact computes_writeX rfl rfl rfl rfl
  case mulh => exact computes_writeX rfl rfl rfl (opMulh_eq a b)
  case mulhsu => exact computes_writeX rfl rfl rfl (opMulhsu_eq a b)
  case mulhu => exact computes_writeX rfl rfl rfl (opMulhu_eq a b)
  case div => exact computes_writeX rfl rfl rfl (opDiv_eq a b)
  case divu => exact computes_writeX rfl rfl rfl (opDivu_eq a b)
  case rem => exact computes_writeX rfl rfl rfl (opRem_eq a b)
  case remu => exact computes_writeX rfl rfl rfl (opRemu_eq a b)

/-! ## Division laws (R239) -/

theorem abs_tmod_lt_abs (a : Int) {b : Int} (hb : b ≠ 0) : |a.tmod b| < |b| := by
  rw [Int.abs_eq_natAbs, Int.abs_eq_natAbs, Int.natAbs_tmod, Int.ofNat_lt]
  exact Nat.mod_lt _ (Int.natAbs_pos.2 hb)

/-- The remainder of a division rounded toward zero has the sign of the dividend. -/
theorem tmod_eq_zero_or_neg_iff (a b : Int) : a.tmod b = 0 ∨ (a.tmod b < 0 ↔ a < 0) := by
  by_cases hdvd : b ∣ a
  · exact .inl (Int.tmod_eq_zero_of_dvd hdvd)
  · have hsign : (a.tmod b).sign = a.sign := by rw [Int.sign_tmod, if_neg hdvd]
    right
    rw [← Int.sign_eq_neg_one_iff_neg, hsign, Int.sign_eq_neg_one_iff_neg]

/-- (a) and (c) of R239 for DIV and REM. -/
theorem signed_division_law {a b : Word} (h0 : b ≠ 0#32) (h1 : ¬ (a = 0x80000000#32 ∧ b = 0xFFFFFFFF#32)) :
    (opDiv a b).toInt * b.toInt + (opRem a b).toInt = a.toInt ∧ |(opRem a b).toInt| < |b.toInt| ∧
      ((opRem a b).toInt = 0 ∨ ((opRem a b).toInt < 0 ↔ a.toInt < 0)) := by
  have hov : divOverflow a b = false := by simpa [divOverflow] using h1
  have hb : b.toInt ≠ 0 := mt (eq_zero_iff_toInt b).2 h0
  rw [toInt_opDiv a b h0 hov, toInt_opRem a b h0 hov]
  exact ⟨Int.tdiv_mul_add_tmod _ _, abs_tmod_lt_abs _ hb, tmod_eq_zero_or_neg_iff _ _⟩

theorem toNat_opDivu (a : Word) {b : Word} (h0 : b ≠ 0#32) : (opDivu a b).toNat = a.toNat / b.toNat := by
  rw [opDivu, if_neg h0, BitVec.toNat_ofNat, Nat.mod_eq_of_lt ((Nat.div_le_self _ _).trans_lt a.isLt)]

theorem toNat_opRemu (a : Word) {b : Word} (h0 : b ≠ 0#32) : (opRemu a b).toNat = a.toNat % b.toNat := by
  rw [opRemu, if_neg h0, BitVec.toNat_ofNat, Nat.mod_eq_of_lt ((Nat.mod_le _ _).trans_lt a.isLt)]

/-- (a) of R239 for DIVU and REMU, and the bound of the remainder. -/
theorem unsigned_division_law (a : Word) {b : Word} (h0 : b ≠ 0#32) :
    (opDivu a b).toNat * b.toNat + (opRemu a b).toNat = a.toNat ∧ (opRemu a b).toNat < b.toNat := by
  have hb : b.toNat ≠ 0 := mt (eq_zero_iff_toNat b).2 h0
  rw [toNat_opDivu a h0, toNat_opRemu a h0]
  exact ⟨Nat.div_add_mod' _ _, Nat.mod_lt _ (Nat.pos_of_ne_zero hb)⟩

/-- (b) of R239, divisor 0. -/
theorem division_by_zero (a : Word) :
    opDiv a 0#32 = 0xFFFFFFFF#32 ∧ opDivu a 0#32 = 0xFFFFFFFF#32 ∧ opRem a 0#32 = a ∧ opRemu a 0#32 = a :=
  ⟨rfl, rfl, rfl, rfl⟩

/-- (b) of R239, the signed overflow; the unsigned division is an ordinary one. -/
theorem division_overflow :
    opDiv 0x80000000#32 0xFFFFFFFF#32 = 0x80000000#32 ∧ opDivu 0x80000000#32 0xFFFFFFFF#32 = 0#32 ∧
      opRem 0x80000000#32 0xFFFFFFFF#32 = 0#32 ∧ opRemu 0x80000000#32 0xFFFFFFFF#32 = 0x80000000#32 := by
  decide

/-- A register other than `x0` reads what was written to it (10_state.md R21). -/
theorem readX_writeX_same (s : State) {r : Reg} (v : Word) (hr : r ≠ 0) : (s.writeX r v).readX r = v := by
  rw [State.readX_writeX, if_pos ⟨rfl, hr⟩]

/-- Settles O9: `rd` reads the operation's result on the two sources, and the operations obey the laws. -/
theorem divisionLaws : Obligations.DivisionLaws := by
  intro s rd rs1 rs2 hrd
  refine ⟨_, _, _, _, rfl, rfl, rfl, rfl, ?_⟩
  simp only [readX_writeX_same s _ hrd]
  refine ⟨signed_division_law, unsigned_division_law _, fun hzero => ?_, fun ⟨ha, hb⟩ => ?_⟩
  · rw [hzero]
    exact division_by_zero _
  · rw [ha, hb]
    exact division_overflow

end Sys2Proof.Machine
end

section
/-! PROOFS. Control transfer (spec 42_control.md R240 to R248). -/

namespace Sys2Proof.Machine

/-- An offset whose value is even is one that a word can encode (30_encoding.md R163). -/
theorem evenOffset_of_even {n : Nat} {off : BitVec n} (h : off.toNat % 2 = 0) : evenOffset off = true := by
  simp [evenOffset, BitVec.getLsbD, h]

/-! ## Targets -/

theorem jalTarget_eq (s : State) (off : BitVec 21) : jalTarget s off = BitVec.ofInt 32 (s.hart.pc.toNat + off.toInt) :=
  add_signExtend _ _

theorem branchTarget_eq (s : State) (off : BitVec 13) : branchTarget s off = BitVec.ofInt 32 (s.hart.pc.toNat + off.toInt) :=
  add_signExtend _ _

theorem jalrTarget_eq (s : State) (rs1 : Reg) (imm : BitVec 12) :
    jalrTarget s rs1 imm =
      let t : Word := BitVec.ofInt 32 ((s.readX rs1).toNat + imm.toInt)
      BitVec.ofNat 32 (t.toNat - t.toNat % 2) := by
  rw [jalrTarget, sext12, add_signExtend, and_clear_bit0]

/-! ## JAL and JALR (R240, R241) -/

theorem jumpAndLink_of_aligned (rd : Reg) {t : Word} (s : State) (ht : t.toNat % 4 = 0) :
    jumpAndLink rd t s = .next (jumpTo (s.writeX rd (linkAddress s)) t) := by
  rw [jumpAndLink, if_pos ((alignedTarget_iff t).2 ht)]

theorem jumpAndLink_of_misaligned (rd : Reg) {t : Word} (s : State) (ht : t.toNat % 4 ≠ 0) :
    jumpAndLink rd t s = .next (raise (misalignedTarget t) .exec s) := by
  rw [jumpAndLink, if_neg (mt (alignedTarget_iff t).1 ht)]

/-- A jump changes the pc and `jumped`, and no register. -/
theorem readX_jumpTo (s : State) (t : Word) (q : Reg) : (jumpTo s t).readX q = s.readX q := rfl

/-- A register write and a jump change nothing but the register file, the pc and `jumped`. -/
theorem jumpTo_writeX_frame (s : State) (rd : Reg) (v t : Word) :
    jumpTo (s.writeX rd v) t =
      { s with hart := { s.hart with x := (jumpTo (s.writeX rd v) t).hart.x, pc := t, jumped := true } } :=
  congrArg (jumpTo · t) (State.writeX_frame s rd v)

/-- An instruction whose meaning is `jumpAndLink` obeys the rule of a jump. -/
theorem jumpRule_of_jumpAndLink {i : Instr} {s : State} {rd : Reg} {target : Word} (hx : exec i s = jumpAndLink rd target s) :
    JumpRule i s rd target := by
  refine ⟨fun haligned => ?_, fun hmis => hx.trans (jumpAndLink_of_misaligned rd s hmis)⟩
  refine ⟨_, hx.trans (jumpAndLink_of_aligned rd s haligned), fun q => ?_, jumpTo_writeX_frame s rd _ target⟩
  rw [readX_jumpTo, State.readX_writeX, linkAddress]

/-- Settles O10: each meaning is `jumpAndLink` to the target of its form. -/
theorem jumpResults : Obligations.JumpResults := by
  intro s rd rs1 imm off
  rw [← jalTarget_eq, ← jalrTarget_eq]
  exact ⟨fun heven => ⟨decode_encode (i := .jal rd off) (evenOffset_of_even heven), jumpRule_of_jumpAndLink rfl⟩,
    decode_encode (i := .jalr rd rs1 imm) rfl, jumpRule_of_jumpAndLink rfl⟩

/-! ## Conditional branches (R242 to R248) -/

/-- A branch that is taken is a jump that links into `x0`, which discards the link. -/
theorem branchIf_true (off : BitVec 13) (s : State) : branchIf true off s = jumpAndLink 0 (branchTarget s off) s := by
  rw [branchIf, if_pos rfl, jumpAndLink, State.writeX_zero]

theorem branchIf_false (off : BitVec 13) (s : State) : branchIf false off s = .next s := rfl

/-- An instruction whose meaning is `branchIf` obeys the rule of a branch on that condition. -/
theorem branchRule_of_branchIf {i : Instr} {s : State} {off : BitVec 13} {c : Bool} {taken : Prop}
    (hx : exec i s = branchIf c off s) (hc : c = true ↔ taken) : BranchRule i s taken (branchTarget s off) := by
  have hjump (ht : taken) : exec i s = jumpAndLink 0 (branchTarget s off) s := by
    rw [hx, hc.2 ht, branchIf_true]
  refine ⟨fun ht haligned => ?_, fun ht hmis => ?_, fun hn => ?_⟩
  · rw [hjump ht, jumpAndLink_of_aligned 0 s haligned, State.writeX_zero]
    rfl
  · exact (hjump ht).trans (jumpAndLink_of_misaligned 0 s hmis)
  · rw [hx, Bool.eq_false_iff.2 (mt hc.1 hn), branchIf_false]

/-- A branch completes by its rule, at the target as the rule writes it: its word decodes to it, and it obeys the rule. -/
theorem branch_completes {w : Word} {i : Instr} {s : State} {off : BitVec 13} {c : Bool} {taken : Prop} (hi : WellFormed i = true)
    (hw : encode i = w) (hx : exec i s = branchIf c off s) (hc : c = true ↔ taken) :
    decode w = .instr i ∧ BranchRule i s taken (BitVec.ofInt 32 (s.hart.pc.toNat + off.toInt)) :=
  ⟨hw ▸ decode_encode hi, branchTarget_eq s off ▸ branchRule_of_branchIf hx hc⟩

theorem signedLess_iff (a b : Word) : signedLess a b = true ↔ a.toInt < b.toInt := decide_eq_true_iff

theorem unsignedLess_iff (a b : Word) : unsignedLess a b = true ↔ a.toNat < b.toNat := decide_eq_true_iff

theorem not_signedLess_iff (a b : Word) : (!signedLess a b) = true ↔ b.toInt ≤ a.toInt := by
  rw [Bool.not_eq_true', ← Bool.not_eq_true, signedLess_iff, not_lt]

theorem not_unsignedLess_iff (a b : Word) : (!unsignedLess a b) = true ↔ b.toNat ≤ a.toNat := by
  rw [Bool.not_eq_true', ← Bool.not_eq_true, unsignedLess_iff, not_lt]

/-- Settles O11: each meaning is `branchIf` on its comparison of the two sources. -/
theorem branchResults : Obligations.BranchResults := by
  intro s rs1 rs2 off heven a b target word
  have hoff : evenOffset off = true := evenOffset_of_even heven
  refine ⟨?beq, ?bne, ?blt, ?bge, ?bltu, ?bgeu⟩
  case beq | bne => exact branch_completes hoff rfl rfl decide_eq_true_iff
  case blt => exact branch_completes hoff rfl rfl (signedLess_iff a b)
  case bge => exact branch_completes hoff rfl rfl (not_signedLess_iff a b)
  case bltu => exact branch_completes hoff rfl rfl (unsignedLess_iff a b)
  case bgeu => exact branch_completes hoff rfl rfl (not_unsignedLess_iff a b)

end Sys2Proof.Machine
end

section
/-! PROOFS. The five loads and the three stores: their exceptions in order, what they answer, and their frames (spec 43_loadstore.md
R250 to R259; 20_memory.md R131, R132, R142, R150). -/

namespace Sys2Proof.Machine

/-! ## The checks before an access (R76, R113, R133) -/

theorem physicalAddress_pageFault {t : AccessType} {va : Word} {n : Nat} {s s1 : State} {e : Exc} (hn : n ∈ [1, 2, 4])
    (ha : va.toNat % n = 0) (ht : translateVa t va s = .exc e s1) :
    physicalAddress t va n s = .exc { cause := t.pageFault, info := some va } s := by
  obtain ⟨rfl, rfl⟩ := translate_exc ht
  rw [physicalAddress_aligned _ _ _ _ hn ha, ht]

theorem physicalAddress_outOfRange {t : AccessType} {va p : Word} {n : Nat} {s s1 : State} (hn : n ∈ [1, 2, 4])
    (ha : va.toNat % n = 0) (ht : translateVa t va s = .ok p s1) (hr : s.cfg.memSize < p.toNat + n) :
    physicalAddress t va n s = .exc { cause := t.accessFault, info := some va } s1 := by
  rw [physicalAddress_aligned _ _ _ _ hn ha, ht]
  exact if_neg (Nat.not_le.2 hr)

/-- An instruction that raises what the checks before its access raise obeys the rule of the three exceptions; what is left of its rule
is its `effect` at an aligned address in range. -/
theorem accessRule_of_checks {i : Instr} {s : State} {t : AccessType} {va : Word} {n : Nat} {effect : Word → State → Prop}
    (hn : n ∈ [1, 2, 4]) (hexc : ∀ e s1, physicalAddress t va n s = .exc e s1 → exec i s = .next (raise e .exec s1))
    (heffect : ∀ p s1, va.toNat % n = 0 → translateVa t va s = .ok p s1 → p.toNat + n ≤ s.cfg.memSize → effect p s1) :
    (va.toNat % n ≠ 0 → Raises i s t.misaligned (some va) s) ∧
      (va.toNat % n = 0 →
        (∀ e s1, translateVa t va s = .exc e s1 → Raises i s t.pageFault (some va) s) ∧
          ∀ p s1, translateVa t va s = .ok p s1 →
            (s.cfg.memSize < p.toNat + n → Raises i s t.accessFault (some va) s1) ∧
              (p.toNat + n ≤ s.cfg.memSize → effect p s1)) :=
  ⟨fun hmis => hexc _ _ (physicalAddress_misaligned t va n s hn hmis), fun ha =>
    ⟨fun _ _ ht => hexc _ _ (physicalAddress_pageFault hn ha ht), fun p s1 ht =>
      ⟨fun hr => hexc _ _ (physicalAddress_outOfRange hn ha ht hr), heffect p s1 ha ht⟩⟩⟩

theorem run_load_exc {va : Word} {n : Nat} {s s1 : State} {e : Exc} (ext : Word → Word) (rd : Reg)
    (h : physicalAddress .load va n s = .exc e s1) : (Request.load n ext rd va).run s = .next (raise e .exec s1) := by
  rw [Request.run, memRead, h, orRaise]

theorem run_store_exc {va : Word} {n : Nat} {s s1 : State} {e : Exc} (v : Word)
    (h : physicalAddress .store va n s = .exc e s1) : (Request.store n va v).run s = .next (raise e .exec s1) := by
  rw [Request.run, memWrite, h, orRaise]

/-- The effective address as the rules write it (R250). -/
theorem effectiveAddress_eq (s : State) (rs1 : Reg) (imm : BitVec 12) :
    effectiveAddress s rs1 imm = BitVec.ofInt 32 ((s.readX rs1).toNat + imm.toInt) :=
  add_signExtend _ _

/-! ## Loads -/

theorem viewByte_writeX (s : State) (r : Reg) (v : Word) : viewByte (s.writeX r v) = viewByte s := by
  rw [State.writeX_frame]
  rfl

/-- A register write after a change within the data stream's frame. -/
theorem loadFrame_writeX {s t : State} (rd : Reg) (v : Word) (h : StreamFrame .data s t) : LoadFrame s (t.writeX rd v) := by
  unfold LoadFrame
  rw [State.writeX_mem, State.writeX_draws, State.writeX_hart]
  generalize hx : (if rd = 0 then t.hart.x else t.hart.x.set rd v) = x
  have hwrite := State.writeX_frame t rd v
  rw [State.writeX_hart, hx] at hwrite
  exact hwrite.trans (congrArg (fun u : State => { u with hart := { u.hart with x := x } }) h)

/-- Bringing a line in after a translation keeps the hart's view, a clean victim's line apart (R150 (d)). -/
theorem Refilled.sameView {s t : State} {k : Tlb} {p : Nat} (h : Refilled .data (s.setTlb .data k) t p) (a : Nat) :
    SameView s t p a := by
  rw [SameView, viewByte_stream, viewByte_stream, ← streamByte_setTlb .data .data s k]
  exact h.seen a

/-- Bringing a line in after a translation changes `Mem` by write-back only (R150 (b), (c)). -/
theorem Refilled.onlyWrittenBack {s t : State} {k : Tlb} {p : Nat} (h : Refilled .data (s.setTlb .data k) t p) :
    OnlyWrittenBack s t := by
  rw [OnlyWrittenBack, viewByte_stream, ← streamByte_setTlb .data .data s k]
  exact h.written

theorem Refilled.dtlb {s t : State} {p : Nat} (h : Refilled .data s t p) : t.hart.dtlb = s.hart.dtlb :=
  congrArg (·.hart.dtlb) h.frame

/-- An instruction whose meaning is a load request obeys the rule of a load. -/
theorem loadRule_of_run {i : Instr} {s : State} {n : Nat} {ext : Word → Word} {rd : Reg} {ea : Word} {value : List Byte → Word}
    (hI : SysInv s) (hn : n ∈ [1, 2, 4]) (hx : exec i s = (Request.load n ext rd ea).run s)
    (hext : ∀ a, ext (leWord (viewBytes s a n)) = value (viewBytes s a n)) : LoadRule i s rd ea n value := by
  refine accessRule_of_checks (t := .load) hn (fun e s1 h => hx.trans (run_load_exc ext rd h)) fun p s1 ha ht hr => ?_
  obtain ⟨t, hread, hrefilled⟩ := memRead_ok hI.cfgWf (hI.cacheWf .data) hn ha ht hr
  have hframe := memRead_frame ea n s
  rw [hread] at hframe
  have hhit (h : DataHit s p.toNat) : t = s1 := memRead_hit hn ha ht h hread
  obtain ⟨k, rfl, -⟩ := translate_ok ht
  refine ⟨t.writeX rd (value (viewBytes s p.toNat n)), ?_, writesRd_writeX _ hrefilled.readX, loadFrame_writeX rd _ hframe,
    ?_, fun a => ?_, fun a => ?_, fun h => ?_⟩
  · rw [hx, Request.run, hread, orRaise, hext]
  · rw [State.writeX_hart]
    exact hrefilled.dtlb
  · rw [SameView, viewByte_writeX]
    exact hrefilled.sameView a
  · rw [State.writeX_mem]
    exact hrefilled.onlyWrittenBack a
  · rw [hhit h, State.writeX_mem, State.writeX_hart, State.writeX_draws]
    exact ⟨rfl, rfl, rfl⟩

/-- A load completes by its rule, at the address as the rule writes it: its word decodes to it, and it obeys the rule. -/
theorem load_completes {w : Word} {i : Instr} {s : State} {n : Nat} {ext : Word → Word} {rd rs1 : Reg} {imm : BitVec 12}
    {value : List Byte → Word} (hI : SysInv s) (hi : WellFormed i = true) (hw : encode i = w)
    (hx : exec i s = (loadRequest n ext rd rs1 imm s).run s) (hn : n ∈ [1, 2, 4])
    (hext : ∀ a, ext (leWord (viewBytes s a n)) = value (viewBytes s a n)) :
    decode w = .instr i ∧ LoadRule i s rd (BitVec.ofInt 32 ((s.readX rs1).toNat + imm.toInt)) n value :=
  ⟨hw ▸ decode_encode hi, effectiveAddress_eq s rs1 imm ▸ loadRule_of_run hI hn hx hext⟩

theorem signByte_leWord (b : Byte) : signByte (leWord [b]) = BitVec.ofInt 32 b.toInt := by
  rw [leWord_one, signByte, BitVec.setWidth_setWidth_of_le _ (by decide), BitVec.setWidth_eq, BitVec.signExtend]

/-- The low half of a word read from two bytes. -/
theorem setWidth_leWord_two (b0 b1 : Byte) : (leWord [b0, b1]).setWidth 16 = b1 ++ b0 := by
  rw [leWord_two, BitVec.setWidth_setWidth_of_le _ (by decide), BitVec.setWidth_eq]

theorem signHalf_leWord (b0 b1 : Byte) : signHalf (leWord [b0, b1]) = BitVec.ofInt 32 (b1 ++ b0).toInt := by
  rw [signHalf, setWidth_leWord_two, BitVec.signExtend]

theorem zeroHalf_leWord (b0 b1 : Byte) : zeroHalf (leWord [b0, b1]) = BitVec.ofNat 32 (b1 ++ b0).toNat := by
  rw [zeroHalf, setWidth_leWord_two, BitVec.ofNat_toNat]

/-- Settles O12: each meaning is a load request, with the extension of its form. -/
theorem loadResults : Obligations.LoadResults := by
  intro s rd rs1 imm hI ea word byte
  refine ⟨?lb, ?lh, ?lw, ?lbu, ?lhu⟩
  case lb => exact load_completes hI rfl rfl rfl (by decide) fun a => signByte_leWord (viewByte s a)
  case lh => exact load_completes hI rfl rfl rfl (by decide) fun a => signHalf_leWord (viewByte s a) (viewByte s (a + 1))
  case lw => exact load_completes hI rfl rfl rfl (by decide) fun a => leWord_four _ _ _ _
  case lbu =>
    exact load_completes hI rfl rfl rfl (by decide) fun a =>
      (zeroByte_leWord (viewByte s a)).trans (BitVec.ofNat_toNat 32 (viewByte s a)).symm
  case lhu => exact load_completes hI rfl rfl rfl (by decide) fun a => zeroHalf_leWord (viewByte s a) (viewByte s (a + 1))

/-! ## Stores -/

theorem killed_iff (c : Config) (p : Word) (r : Reservation) :
    killed c p r = true ↔ r.valid = true ∧ (p = r.addr ∨ (p, r.addr) ∈ c.resMatchExtra) := by
  simp [killed, resMatches]

/-- `KillReservations(p)` kills exactly the valid reservations that a store at `p` matches (R142). -/
theorem killedAt_killReservations {s t : State} {p : Word} (hres : t.res = s.res) (hcfg : t.cfg = s.cfg) :
    KilledAt s (killReservations t p) p := by
  have hget : ∀ (k : Nat) (r : Reservation), s.res[k]? = some r →
      (killReservations t p).res[k]? = some (if killed s.cfg p r then { r with valid := false } else r) := by
    intro k r hr
    rw [killReservations, State.setRes_res, hres, hcfg, List.getElem?_map, hr, Option.map_some]
  refine ⟨by rw [killReservations, State.setRes_res, List.length_map, hres], fun k r hr => ?_⟩
  rw [hget k r hr, ← killed_iff]
  exact ⟨fun h => by rw [if_pos h], fun h => by rw [if_neg h]⟩

/-- A change of the reservations after one within the data stream's frame. -/
theorem storeFrame_of_streamFrame {s t : State} (h : StreamFrame .data s (t.setRes s.res)) : StoreFrame s t :=
  congrArg (fun u : State => u.setRes t.res) h

theorem viewByte_killReservations (s : State) (p : Word) : viewByte (killReservations s p) = viewByte s := rfl

theorem Stored.res {s t : State} {p : Nat} {bs : List Byte} (h : Stored s t p bs) : t.res = s.res := congrArg (·.res) h.frame

theorem Stored.dtlb {s t : State} {p : Nat} {bs : List Byte} (h : Stored s t p bs) : t.hart.dtlb = s.hart.dtlb :=
  congrArg (·.hart.dtlb) h.frame

/-- A store into a cache leaves every line of another tag in its slot (R84). -/
theorem getElem?_map_store {k : Cache} {j t o : Nat} {bs : List Byte} {l : Line} (hl : k[j]? = some l) (ht : l.tag ≠ t) :
    (k.map (fun l => if l.tag = t then l.store o bs else l))[j]? = some l := by
  rw [List.getElem?_map, hl, Option.map_some, if_neg ht]

/-- An instruction whose meaning is a store request obeys the rule of a store. -/
theorem storeRule_of_run {i : Instr} {s : State} {n : Nat} {ea v : Word} (hI : SysInv s) (hn : n ∈ [1, 2, 4])
    (hx : exec i s = (Request.store n ea v).run s) : StoreRule i s ea v n := by
  refine accessRule_of_checks (t := .store) hn (fun e s1 h => hx.trans (run_store_exc v h)) fun p s1 ha ht hr => ?_
  obtain ⟨t, hwrite, hstored⟩ := memWrite_ok (v := v) hI.cfgWf (hI.cacheWf .data) hn ha ht hr
  have hframe := memWrite_frame ea n v s
  rw [hwrite] at hframe
  have hhit (h : DataHit s p.toNat) := memWrite_hit hn ha ht h hwrite
  obtain ⟨k, rfl, -⟩ := translate_ok ht
  refine ⟨killReservations t p, by rw [hx, Request.run, hwrite, orRaise], storeFrame_of_streamFrame hframe, hstored.dtlb,
    killedAt_killReservations hstored.res hstored.cfg, fun a hlo hhi => ?_, fun a hout => ?_, hstored.written, fun h => ?_⟩
  · rw [viewByte_killReservations, hstored.stored a hlo (by rwa [length_leBytes]), getD_leBytes _ _ _ _ (by omega)]
  · exact hstored.others a (by rwa [length_leBytes])
  · rw [hhit h]
    exact ⟨rfl, rfl, tags_map_store _ _ _ _, fun j l => getElem?_map_store⟩

/-- A store completes by its rule, at the address as the rule writes it: its word decodes to it, and it obeys the rule. -/
theorem store_completes {w : Word} {i : Instr} {s : State} {n : Nat} {rs1 rs2 : Reg} {imm : BitVec 12} (hI : SysInv s)
    (hi : WellFormed i = true) (hw : encode i = w) (hx : exec i s = (storeRequest n rs1 rs2 imm s).run s) (hn : n ∈ [1, 2, 4]) :
    decode w = .instr i ∧ StoreRule i s (BitVec.ofInt 32 ((s.readX rs1).toNat + imm.toInt)) (s.readX rs2) n :=
  ⟨hw ▸ decode_encode hi, effectiveAddress_eq s rs1 imm ▸ storeRule_of_run hI hn hx⟩

/-- Settles O13: each meaning is a store request of its size. -/
theorem storeResults : Obligations.StoreResults := by
  intro s rs1 rs2 imm hI ea word
  refine ⟨?sb, ?sh, ?sw⟩
  case sb | sh | sw => exact store_completes hI rfl rfl rfl (by decide)

end Sys2Proof.Machine
end

section
/-! PROOFS. FENCE and FENCE.I (spec 44_miscmem.md R260, R261; 20_memory.md R87, R88, R134, R135). -/

namespace Sys2Proof.Machine

/-- Under the invariant a disabled cache is empty, so what a stream sees is what is seen through its cache in every configuration. -/
theorem streamByte_of_inv {s : State} (hI : SysInv s) (st : Stream) (a : Nat) :
    streamByte st s a = seen s.cfg (s.cache st) s.mem a := by
  unfold streamByte
  split
  · rfl
  · next hoff =>
    rw [hI.emptyWhenDisabled st (by simpa using hoff)]
    rfl

theorem viewByte_of_inv {s : State} (hI : SysInv s) (a : Nat) : viewByte s a = seen s.cfg s.hart.dcache s.mem a := by
  rw [viewByte_stream, streamByte_of_inv hI]
  rfl

theorem fetchByte_of_inv {s : State} (hI : SysInv s) (a : Nat) : fetchByte s a = seen s.cfg s.hart.icache s.mem a := by
  rw [fetchByte_stream, streamByte_of_inv hI]
  rfl

/-! ## Writing every dirty line back (R87) -/

section WriteBacks
variable {c : Config} {k : Cache} {m : List Host.Cell} {a : Nat}

/-- Written back, a dirty line is `Mem`'s: `Mem` holds what was seen through the cache. -/
theorem read_writeBacks_dirty {l : Line} (hk : k.wf c) (hl : l ∈ k) (hd : l.dirty = true) (ht : l.tag = lineNumber c a) :
    Memory.read (k.foldl (writeBack c) m) a = seen c k m a := by
  obtain ⟨-, htags, hlines⟩ := hk
  have hfind : k.find (lineNumber c a) = some l := ht ▸ find_of_mem k l htags hl
  simp [read_writeBacks c k m a hlines htags, seen, hfind, hd]

/-- An address of no dirty line is not written: its line is absent, or the one present is clean. -/
theorem read_writeBacks_notDirty (hk : k.wf c) (hno : ¬ ∃ l ∈ k, l.dirty = true ∧ l.tag = lineNumber c a) :
    Memory.read (k.foldl (writeBack c) m) a = Memory.read m a := by
  obtain ⟨-, htags, hlines⟩ := hk
  rw [read_writeBacks c k m a hlines htags]
  cases hfind : k.find (lineNumber c a) with
  | none => rfl
  | some l =>
    obtain ⟨hl, ht⟩ := find_some _ _ _ hfind
    exact if_neg fun hd => hno ⟨l, hl, hd, ht⟩

/-- What is seen through the cache is unchanged: a line present still answers its bytes, and an absent one is not written back. -/
theorem seen_writeBacks (hk : k.wf c) :
    seen c (k.map fun l => { l with dirty := false }) (k.foldl (writeBack c) m) a = seen c k m a := by
  obtain ⟨-, htags, hlines⟩ := hk
  unfold seen
  rw [find_map_clean]
  cases hfind : k.find (lineNumber c a) with
  | none => simp [read_writeBacks c k m a hlines htags, hfind]
  | some l => rfl

end WriteBacks

/-! ## The two fences, in every configuration (R90: a disabled cache has no line) -/

theorem fenceOp_of_inv {s : State} (hI : SysInv s) :
    fenceOp s = { s with
      mem := s.hart.dcache.foldl (writeBack s.cfg) s.mem,
      hart := { s.hart with dcache := s.hart.dcache.map fun l => { l with dirty := false } } } := by
  unfold fenceOp
  split
  · rfl
  · next hoff =>
    have hempty : s.hart.dcache = [] := hI.emptyWhenDisabled .data (by simpa using hoff)
    rw [hempty, List.foldl_nil, List.map_nil, ← hempty]

theorem fenceIOp_of_inv {s : State} (hI : SysInv s) : fenceIOp s = { s with hart := { s.hart with icache := [] } } := by
  unfold fenceIOp
  split
  · rfl
  · next hoff =>
    have hempty : s.hart.icache = [] := hI.emptyWhenDisabled .instruction (by simpa using hoff)
    rw [← hempty]

theorem exec_fence (rd rs1 : Reg) (fm pred succ : BitVec 4) (s : State) : exec (.fence rd rs1 fm pred succ) s = .next (fenceOp s) := rfl

theorem exec_fenceI (rd rs1 : Reg) (imm : BitVec 12) (s : State) : exec (.fenceI rd rs1 imm) s = .next (fenceIOp s) := rfl

/-- Settles O15: a dirty line's bytes are then `Mem`'s, and cleaning a line changes no byte that it answers. -/
theorem fenceWritesBack : Obligations.FenceWritesBack := by
  intro s rd rs1 fm pred succ hI
  have hwf : s.hart.dcache.wf s.cfg := hI.cacheWf .data
  have hI' := fenceOp_of_inv hI ▸ hI.fenceOp
  refine ⟨decode_encode (i := .fence rd rs1 fm pred succ) rfl, _, (exec_fence ..).trans (congrArg _ (fenceOp_of_inv hI)), rfl, ?dirty,
    ?notDirty, ?view⟩
  case dirty =>
    rintro a ⟨l, hl, hd, ht⟩
    rw [viewByte_of_inv hI]
    exact read_writeBacks_dirty hwf hl hd ht
  case notDirty => exact fun a => read_writeBacks_notDirty hwf
  case view =>
    intro a
    rw [viewByte_of_inv hI', viewByte_of_inv hI]
    exact seen_writeBacks hwf

/-- Settles O16: a fetch that finds its line in no I-cache reads `Mem`. -/
theorem fenceIEmptiesInstructionCache : Obligations.FenceIEmptiesInstructionCache := by
  intro s rd rs1 imm hI
  have hI' := fenceIOp_of_inv hI ▸ hI.fenceIOp
  exact ⟨decode_encode (i := .fenceI rd rs1 imm) rfl, _, (exec_fenceI ..).trans (congrArg _ (fenceIOp_of_inv hI)), rfl,
    fetchByte_of_inv hI'⟩

end Sys2Proof.Machine
end

section
/-! PROOFS. The system instructions (spec 45_system.md R265 to R277). -/

namespace Sys2Proof.Machine

/-! ## Environment call and breakpoint (R265, R266) -/

/-- An instruction that only raises an exception without a value for `MTVAL` traps always. -/
theorem trapsAlways_of_raise {w : Word} {i : Instr} {s : State} {c : Cause} (hd : decode w = .instr i)
    (hx : exec i s = .next (raise { cause := c, info := none } .exec s)) : TrapsAlways w i s c.code := by
  rw [raise_none] at hx
  refine ⟨hd, ⟨_, hx⟩, fun hq => ⟨_, hx, ?_⟩⟩
  rw [present_trapSaved _ _ _ _ _ hq]
  rfl

/-- Settles O25: each meaning is the raising of its exception. -/
theorem environmentCallAndBreakpoint : Obligations.EnvironmentCallAndBreakpoint := fun _ =>
  ⟨trapsAlways_of_raise (c := .ecallUMode) (decode_encode (i := .ecall) rfl) rfl,
    trapsAlways_of_raise (c := .breakpoint) (decode_encode (i := .ebreak) rfl) rfl⟩

/-! ## SFENCE.VMA (R275; 20_memory.md R105) -/

theorem entry_empty (c : Config) (slot : Nat) : (Tlb.empty c).entry slot = tlbSentinel := 
  List.getD_eq_getElem?_getD.trans (List.getElem?_getD_replicate_default_eq ..)

/-- An empty TLB answers no key. -/
theorem tlbLoad_empty (c : Config) (vpi : Word) : tlbLoad c (Tlb.empty c) vpi = none := by
  refine (tlbLoad_none _ _ _).2 fun slot _ => ?_
  rw [entry_empty, tlbMatches_sentinel]

/-- Settles O17: both TLBs are then empty. -/
theorem sfenceVmaEmptiesTlbs : Obligations.SfenceVmaEmptiesTlbs := fun s rs1 rs2 =>
  ⟨decode_encode (i := .sfenceVma rs1 rs2) rfl, _, rfl, rfl, fun vpi => ⟨tlbLoad_empty s.cfg vpi, tlbLoad_empty s.cfg vpi⟩⟩

/-! ## The access check of the CSR instructions (R268) -/

/-- Bits 11:10 of a CSR address are clear iff it is below 0x400. -/
theorem unprivileged_iff (a : CsrAddr) : a.extractLsb' 10 2 = 0b00#2 ↔ a.toNat < 0x400 := by
  rw [← BitVec.toNat_inj, BitVec.extractLsb'_toNat, Nat.shiftRight_eq_div_pow, BitVec.toNat_ofNat]
  have := a.isLt
  omega

/-- The check passes exactly the legal accesses; the read-only step of R268 refuses none that the privileged step let through. -/
theorem csrCheck_iff {c : Config} {a : CsrAddr} {b : Bool} {writes : Prop} (hb : b = true ↔ writes) :
    csrCheck c a b = true ↔ CsrLegal c a writes := by
  rw [CsrLegal, ← hb, ← unprivileged_iff]
  by_cases hpriv : a.extractLsb' 10 2 = 0b00#2
  · cases b
    · simp [csrCheck, hpriv]
    · simp [csrCheck, hpriv]
  · simp [csrCheck, hpriv]

/-! ## CSR cells and registers -/

@[simp] theorem readCsr_writeX (s : State) (r : Reg) (v : Word) (a : CsrAddr) : (s.writeX r v).readCsr a = s.readCsr a := by
  rw [State.writeX_frame]
  rfl

@[simp] theorem readX_writeCsr (s : State) (a : CsrAddr) (v : Word) (q : Reg) : (s.writeCsr a v).readX q = s.readX q := rfl

/-- A cell read after a cell write. -/
theorem readCsr_writeCsr (s : State) (a b : CsrAddr) (v : Word) :
    (s.writeCsr a v).readCsr b = if b = a then v else s.readCsr b := CsrFile.read_write _ _ _ _

/-- A cell write and a register write change nothing but the CSRs and the register file. -/
theorem writeX_writeCsr_frame (s : State) (a : CsrAddr) (rd : Reg) (v old : Word) :
    (s.writeCsr a v).writeX rd old =
      { s with hart := { s.hart with
          x := ((s.writeCsr a v).writeX rd old).hart.x, csr := ((s.writeCsr a v).writeX rd old).hart.csr } } := by
  rw [State.writeX_frame]
  rfl

/-! ## The CSR instructions (R267 to R274) -/

section Access
variable {rd : Reg} {a : CsrAddr} {b : Bool} {new : Word → Word} {s : State}

theorem csrAccess_of_writes (hc : csrCheck s.cfg a true = true) :
    csrAccess rd a true new s = .next ((s.writeCsr a (new (s.readCsr a))).writeX rd (s.readCsr a)) := by
  simp [csrAccess, hc]

theorem csrAccess_of_reads (hc : csrCheck s.cfg a false = true) :
    csrAccess rd a false new s = .next (s.writeX rd (s.readCsr a)) := by
  simp [csrAccess, hc]

theorem csrAccess_of_refused (hc : ¬ csrCheck s.cfg a b = true) :
    csrAccess rd a b new s = .next (raise illegalInstruction .exec s) := by
  simp [csrAccess, hc]

/-- An instruction whose meaning is `csrAccess` obeys the rule of a CSR instruction. -/
theorem csrRule_of_csrAccess {i : Instr} {writes : Prop} {v : Word} (hx : exec i s = csrAccess rd a b new s) (hb : b = true ↔ writes)
    (hv : new (s.readCsr a) = v) : CsrRule i s rd a writes v := by
  subst hv
  rw [CsrRule, ← csrCheck_iff hb]
  refine ⟨fun hc => ?_, fun hc => hx.trans (csrAccess_of_refused hc)⟩
  cases b with
  | true =>
    have hwrites : writes := hb.1 rfl
    refine ⟨_, hx.trans (csrAccess_of_writes hc), fun q => ?_, fun _ => ?_, fun hn => absurd hwrites hn, fun c hne => ?_,
      writeX_writeCsr_frame s a rd _ _⟩
    · rw [State.readX_writeX, readX_writeCsr]
    · rw [readCsr_writeX, readCsr_writeCsr, if_pos rfl]
    · rw [readCsr_writeX, readCsr_writeCsr, if_neg hne]
  | false =>
    have hreads : ¬ writes := fun hw => Bool.false_ne_true (hb.2 hw)
    refine ⟨_, hx.trans (csrAccess_of_reads hc), fun q => State.readX_writeX s rd q _, fun hw => absurd hw hreads,
      fun _ => readCsr_writeX .., fun c _ => readCsr_writeX .., ?_⟩
    rw [State.writeX_frame]

/-- A CSR instruction completes by its rule: its word decodes to it, and its meaning is `csrAccess`. -/
theorem csr_completes {w : Word} {i : Instr} {writes : Prop} {v : Word} (hi : WellFormed i = true) (hw : encode i = w)
    (hx : exec i s = csrAccess rd a b new s) (hb : b = true ↔ writes) (hv : new (s.readCsr a) = v) :
    decode w = .instr i ∧ CsrRule i s rd a writes v :=
  ⟨hw ▸ decode_encode hi, csrRule_of_csrAccess hx hb hv⟩

end Access

theorem zext5_eq (u : BitVec 5) : zext5 u = BitVec.ofNat 32 u.toNat := (BitVec.ofNat_toNat 32 u).symm

theorem uimm_ne_zero_iff (u : BitVec 5) : decide (u ≠ 0#5) = true ↔ u.toNat ≠ 0 := by
  rw [decide_eq_true_iff, ne_eq, ← BitVec.toNat_inj]
  rfl

section Meanings
variable (rd rs1 : Reg) (uimm : BitVec 5) (a : CsrAddr) (s : State)

theorem exec_csrrw : exec (.csrrw rd rs1 a) s = csrAccess rd a true (fun _ => s.readX rs1) s := rfl

theorem exec_csrrs : exec (.csrrs rd rs1 a) s = csrAccess rd a (decide (rs1 ≠ 0)) (fun old => old ||| s.readX rs1) s := rfl

theorem exec_csrrc : exec (.csrrc rd rs1 a) s = csrAccess rd a (decide (rs1 ≠ 0)) (fun old => old &&& ~~~s.readX rs1) s := rfl

theorem exec_csrrwi : exec (.csrrwi rd uimm a) s = csrAccess rd a true (fun _ => zext5 uimm) s := rfl

theorem exec_csrrsi : exec (.csrrsi rd uimm a) s = csrAccess rd a (decide (uimm ≠ 0#5)) (fun old => old ||| zext5 uimm) s := rfl

theorem exec_csrrci : exec (.csrrci rd uimm a) s = csrAccess rd a (decide (uimm ≠ 0#5)) (fun old => old &&& ~~~zext5 uimm) s := rfl

end Meanings

/-- Settles O18: each meaning is `csrAccess`, with the new content and the condition of writing of its form. -/
theorem csrResults : Obligations.CsrResults := by
  intro s rd rs1 uimm csr old x u wordX wordU
  have hu : zext5 uimm = u := zext5_eq uimm
  refine ⟨?csrrw, ?csrrs, ?csrrc, ?csrrwi, ?csrrsi, ?csrrci⟩
  case csrrw => exact csr_completes rfl rfl (exec_csrrw rd rs1 csr s) (iff_of_true rfl trivial) rfl
  case csrrs => exact csr_completes rfl rfl (exec_csrrs rd rs1 csr s) decide_eq_true_iff rfl
  case csrrc => exact csr_completes rfl rfl (exec_csrrc rd rs1 csr s) decide_eq_true_iff rfl
  case csrrwi => exact csr_completes rfl rfl (exec_csrrwi rd uimm csr s) (iff_of_true rfl trivial) hu
  case csrrsi => exact csr_completes rfl rfl (exec_csrrsi rd uimm csr s) (uimm_ne_zero_iff uimm) (congrArg (old ||| ·) hu)
  case csrrci => exact csr_completes rfl rfl (exec_csrrci rd uimm csr s) (uimm_ne_zero_iff uimm) (congrArg (old &&& ~~~·) hu)

/-! ## The round trip of CSRRW (R277) -/

/-- CSRRW on a writable CSR: the source to the cell, then the old content to `rd`. -/
theorem exec_csrrw_of_legal {s : State} {rd rs1 : Reg} {a : CsrAddr} (hlow : a.toNat < 0x400) (hsup : a ∈ s.cfg.csrSupported) :
    exec (.csrrw rd rs1 a) s = .next ((s.writeCsr a (s.readX rs1)).writeX rd (s.readCsr a)) :=
  (exec_csrrw rd rs1 a s).trans (csrAccess_of_writes ((csrCheck_iff Iff.rfl).2 ⟨hlow, fun _ => hsup⟩))

/-- Settles O19: the first CSRRW leaves the old content in `r`, from where the second writes it back. -/
theorem csrRoundTrip : Obligations.CsrRoundTrip := by
  intro s r x y csr hlow hsup
  refine ⟨_, _, exec_csrrw_of_legal hlow hsup, exec_csrrw_of_legal hlow (by simpa using hsup), fun a hne => ?_, ?_, fun hy => ?_⟩
  · simp only [readCsr_writeX, readCsr_writeCsr, if_neg hne]
  · by_cases hr : r = 0
    · rw [readCsr_writeX, readCsr_writeCsr, if_pos rfl, if_pos hr, hr, State.readX_zero]
    · rw [readCsr_writeX, readCsr_writeCsr, if_pos rfl, if_neg hr, readX_writeX_same _ _ hr]
  · rw [readX_writeX_same _ _ hy, readCsr_writeX, readCsr_writeCsr, if_pos rfl]

end Sys2Proof.Machine
end

section
/-! PROOFS. The atomic instructions (spec 46_atomic.md R280 to R292; 20_memory.md R140 to R142). -/

namespace Sys2Proof.Machine

/-! ## The checks, then the critical section (R280) -/

theorem physicalAddress_inRange {t : AccessType} {va p : Word} {n : Nat} {s s1 : State} (hn : n ∈ [1, 2, 4])
    (ha : va.toNat % n = 0) (ht : translateVa t va s = .ok p s1) (hr : p.toNat + n ≤ s.cfg.memSize) :
    physicalAddress t va n s = .ok p s1 := by
  rw [physicalAddress_aligned _ _ _ _ hn ha, ht]
  exact if_pos hr

/-- An instruction whose meaning is a critical section obeys the rule of an atomic access, when the section has the rule's effect after
any fill of the access's TLB, at any address in range. -/
theorem atomicRule_of_run {i : Instr} {s : State} {acc : AccessType} {va : Word} {critical : Word → State → State}
    {effect : Word → State → State → Prop} (hx : exec i s = (Request.atomic acc va critical).run s)
    (heffect : ∀ p k, p.toNat + 4 ≤ s.cfg.memSize →
      effect p (s.setTlb acc.stream k) (critical p (s.setTlb acc.stream k))) :
    AtomicRule i s va acc acc.misaligned acc.pageFault acc.accessFault effect := by
  refine accessRule_of_checks (by decide) (fun e s1 h => ?_) fun p s1 ha ht hr => ?_
  · rw [hx, Request.run, h, orRaise]
  · have haddress := physicalAddress_inRange (by decide) ha ht hr
    obtain ⟨k, rfl, -⟩ := translate_ok ht
    exact ⟨_, by rw [hx, Request.run, haddress, orRaise], heffect p k hr⟩

theorem exec_lrW (rd rs1 : Reg) (aq rl : Bool) (s : State) :
    exec (.lrW rd rs1 aq rl) s = (Request.atomic .load (s.readX rs1) (lrSection rd)).run s := rfl

theorem exec_scW (rd rs1 rs2 : Reg) (aq rl : Bool) (s : State) :
    exec (.scW rd rs1 rs2 aq rl) s = (Request.atomic .store (s.readX rs1) (scSection rd (s.readX rs2))).run s := rfl

theorem exec_amoswapW (rd rs1 rs2 : Reg) (aq rl : Bool) (s : State) :
    exec (.amoswapW rd rs1 rs2 aq rl) s = (Request.atomic .store (s.readX rs1) (swapSection rd (s.readX rs2))).run s := rfl

/-! ## LR.W (R281) -/

/-- The word an atomic reads from `Mem` goes to `rd` (R74, R75). -/
theorem writesRd_memWord {s u : State} (rd : Reg) (p : Word) (h : ∀ q, u.readX q = s.readX q) :
    WritesRd s (u.writeX rd (leWord (Memory.readBytes s.mem p.toNat 4))) rd (memWord s p) := by
  rw [leWord_readBytes]
  exact writesRd_writeX _ h

theorem lrSection_frame (rd : Reg) (p : Word) (s : State) :
    lrSection rd p s =
      { s with
        res := s.res.set s.hart.id { valid := true, addr := p },
        hart := { s.hart with x := (lrSection rd p s).hart.x } } := by
  unfold lrSection
  rw [State.writeX_frame]
  rfl

/-- Settles O20: the critical section reads `Mem`, which the translation left as it was. -/
theorem loadReservedResult : Obligations.LoadReservedResult := fun s rd rs1 aq rl _ =>
  ⟨decode_encode (i := .lrW rd rs1 aq rl) rfl, atomicRule_of_run (exec_lrW ..) fun p k _ =>
    ⟨writesRd_memWord (s := s) rd p fun _ => rfl, lrSection_frame rd p (s.setTlb .data k)⟩⟩

/-! ## AMOSWAP.W (R283) -/

/-- A word stored past the caches, whatever then happens to a register (R74). -/
theorem memStored_writeX {s u : State} {p v w : Word} (rd : Reg) (hr : p.toNat + 4 ≤ s.cfg.memSize)
    (hmem : u.mem = physStoreWord s.cfg s.mem p v) : MemStored s (u.writeX rd w) p v := by
  intro a
  rw [State.writeX_mem, hmem, read_physStoreWord hr]

theorem swapSection_frame (rd : Reg) (v p : Word) (s : State) :
    swapSection rd v p s =
      { s with
        mem := (swapSection rd v p s).mem, res := (swapSection rd v p s).res,
        hart := { s.hart with x := (swapSection rd v p s).hart.x } } := by
  unfold swapSection
  rw [State.writeX_frame]
  rfl

theorem killedAt_swapSection {s t : State} (rd : Reg) (v p : Word) (hres : t.res = s.res) (hcfg : t.cfg = s.cfg) :
    KilledAt s (swapSection rd v p t) p := by
  rw [KilledAt, swapSection, State.writeX_res]
  exact killedAt_killReservations hres hcfg

/-- Settles O22: the critical section reads and writes `Mem`, which the translation left as it was. -/
theorem atomicSwapResult : Obligations.AtomicSwapResult := fun s rd rs1 rs2 aq rl _ =>
  ⟨decode_encode (i := .amoswapW rd rs1 rs2 aq rl) rfl, atomicRule_of_run (exec_amoswapW ..) fun p k hr =>
    ⟨writesRd_memWord (s := s) rd p fun _ => rfl, memStored_writeX rd hr rfl, killedAt_swapSection rd _ p rfl rfl,
      swapSection_frame rd _ p (s.setTlb .data k)⟩⟩

/-! ## SC.W (R282) -/

/-- A hart without a slot in the list holds no reservation: the default one is invalid. -/
theorem holdsReservation_iff (s : State) (p : Word) :
    holdsReservation s p = true ↔ s.res[s.hart.id]? = some { valid := true, addr := p } := by
  rw [holdsReservation, reservationOf, List.getD_eq_getElem?_getD]
  cases s.res[s.hart.id]? with
  | none => simp
  | some r =>
    cases r
    simp

theorem res_clearReservation {s : State} {i : Nat} {r : Reservation} (hr : s.res[i]? = some r) :
    (clearReservation s i).res = s.res.set i { r with valid := false } := by
  rw [clearReservation, setReservation, State.setRes_res, reservationOf, List.getD_eq_getElem?_getD, hr, Option.getD_some]

theorem length_clearReservation (s : State) (i : Nat) : (clearReservation s i).res.length = s.res.length := List.length_set

/-- Only the cleared reservation changes. -/
theorem getElem?_clearReservation {s : State} {i k : Nat} {r : Reservation} (hr : s.res[k]? = some r) :
    (clearReservation s i).res[k]? = some (if k = i then { r with valid := false } else r) := by
  by_cases hk : k = i
  · subst hk
    rw [res_clearReservation hr, List.getElem?_set_self (List.getElem?_eq_some_iff.1 hr).1, if_pos rfl]
  · rw [clearReservation, setReservation, State.setRes_res, List.getElem?_set_ne (Ne.symm hk), hr, if_neg hk]

/-- After a kill, and the clearing of slot `i`, exactly slot `i` and the matching reservations are invalidated (R142, R282). -/
theorem KilledAt.clear {s u : State} {p : Word} {i k : Nat} {r : Reservation} (h : KilledAt s u p) (hr : s.res[k]? = some r) :
    (k = i ∨ (r.valid = true ∧ (p = r.addr ∨ (p, r.addr) ∈ s.cfg.resMatchExtra)) →
      (clearReservation u i).res[k]? = some { r with valid := false }) ∧
      (¬ (k = i ∨ (r.valid = true ∧ (p = r.addr ∨ (p, r.addr) ∈ s.cfg.resMatchExtra))) →
        (clearReservation u i).res[k]? = some r) := by
  obtain ⟨hdead, halive⟩ := h.2 k r hr
  by_cases hm : r.valid = true ∧ (p = r.addr ∨ (p, r.addr) ∈ s.cfg.resMatchExtra)
  · rw [getElem?_clearReservation (hdead hm)]
    exact ⟨fun _ => congrArg some (ite_self _), fun hno => absurd (.inr hm) hno⟩
  · rw [getElem?_clearReservation (halive hm)]
    exact ⟨fun hyes => by rw [if_pos (hyes.resolve_right hm)], fun hno => by rw [if_neg fun hk => hno (.inl hk)]⟩

theorem scSection_frame (rd : Reg) (v p : Word) (s : State) :
    scSection rd v p s =
      { s with
        mem := (scSection rd v p s).mem, res := (scSection rd v p s).res,
        hart := { s.hart with x := (scSection rd v p s).hart.x } } := by
  unfold scSection
  split
  · rw [State.writeX_frame]
    rfl
  · rw [State.writeX_frame]
    rfl

/-- Settles O21: the critical section tests the reservation and writes `Mem`, both of which the translation left as they were. -/
theorem storeConditionalResult : Obligations.StoreConditionalResult := by
  intro s rd rs1 rs2 aq rl _
  refine ⟨decode_encode (i := .scW rd rs1 rs2 aq rl) rfl, atomicRule_of_run (exec_scW ..) fun p k hr =>
    ⟨scSection_frame rd _ p (s.setTlb .data k), fun hheld => ?success, fun hnot => ?failure⟩⟩
  case success =>
    have hholds : holdsReservation (s.setTlb .data k) p = true := (holdsReservation_iff s p).2 hheld
    have hkilled : KilledAt s (killReservations
        ((s.setTlb .data k).setMem (physStoreWord s.cfg s.mem p (s.readX rs2))) p) p := killedAt_killReservations rfl rfl
    refine ⟨?_, ?_, ?_, fun j r hj => ?_⟩ <;> rw [AccessType.stream, scSection_held hholds]
    · exact writesRd_writeX _ fun _ => rfl
    · exact memStored_writeX rd hr rfl
    · rw [State.writeX_res]
      exact (length_clearReservation _ _).trans hkilled.1
    · rw [State.writeX_res]
      exact hkilled.clear hj
  case failure =>
    have hlost : holdsReservation (s.setTlb .data k) p = false :=
      Bool.eq_false_iff.2 fun hholds => hnot ((holdsReservation_iff s p).1 hholds)
    rw [AccessType.stream, scSection_lost hlost]
    refine ⟨writesRd_writeX _ fun _ => rfl, State.writeX_mem _ _ _, fun r hr => ?_⟩
    rw [State.writeX_res]
    exact res_clearReservation (s := s.setTlb .data k) hr

/-! ## The AMOs that are not implemented (R284 to R292) -/

theorem trapsAlways_amoStub {w : Word} {i : Instr} {s : State} (hi : WellFormed i = true) (hw : encode i = w)
    (hx : exec i s = amoStub s) : TrapsAlways w i s 0x2#32 :=
  trapsAlways_of_raise (c := .illegalInstruction) (hw ▸ decode_encode hi) hx

/-- Settles O24: each of the eight meanings is the same stub. -/
theorem unimplementedAmosTrap : Obligations.UnimplementedAmosTrap := by
  intro s rd rs1 rs2 aq rl word
  refine ⟨?amoadd, ?amoxor, ?amoand, ?amoor, ?amomin, ?amomax, ?amominu, ?amomaxu⟩
  case amoadd | amoxor | amoand | amoor | amomin | amomax | amominu | amomaxu => exact trapsAlways_amoStub rfl rfl rfl

end Sys2Proof.Machine
end

section
/-! PROOFS. What an executed instruction comes to, and what taking a trap does (spec 60_exceptions.md R301 to R303, R310 to R315). -/

namespace Sys2Proof.Machine

/-! ## Every instruction completes (R303) -/

theorem completes_jumpAndLink (rd : Reg) (target : Word) (s : State) : ∃ t, jumpAndLink rd target s = .next t := by
  unfold jumpAndLink
  split <;> exact ⟨_, rfl⟩

/-- A branch that is taken jumps and links into `x0`; one that is not does nothing. -/
theorem completes_branchIf (taken : Bool) (off : BitVec 13) (s : State) : ∃ t, branchIf taken off s = .next t := by
  cases taken with
  | false => exact ⟨_, branchIf_false off s⟩
  | true => exact branchIf_true off s ▸ completes_jumpAndLink 0 (branchTarget s off) s

theorem completes_csrAccess (rd : Reg) (a : CsrAddr) (writes : Bool) (new : Word → Word) (s : State) :
    ∃ t, csrAccess rd a writes new s = .next t := by
  unfold csrAccess
  split <;> exact ⟨_, rfl⟩

theorem completes_orRaise {α : Type} (a : Access α) (k : α → State → State) : ∃ t, orRaise a k = .next t := by
  cases a <;> exact ⟨_, rfl⟩

theorem completes_run (r : Request) (s : State) : ∃ t, r.run s = .next t := by
  cases r <;> exact completes_orRaise _ _

/-- An instruction that asks something of the memory system is that request. -/
theorem exec_of_request {i : Instr} {s : State} {r : Request} (h : requestOf i s = some r) : exec i s = r.run s := by
  cases i <;> simp only [requestOf, Option.some.injEq, reduceCtorEq] at h <;> subst h <;> rfl

theorem completes_request {i : Instr} {s : State} {r : Request} (h : requestOf i s = some r) : ∃ t, exec i s = .next t :=
  exec_of_request h ▸ completes_run r s

/-- Settles O53: each meaning is one register write, a transfer, a CSR access, a request to memory, a fence, or an exception. -/
theorem everyInstructionCompletes : Obligations.EveryInstructionCompletes := by
  intro i s
  cases i
  case jal | jalr => exact completes_jumpAndLink _ _ s
  case beq | bne | blt | bge | bltu | bgeu => exact completes_branchIf _ _ s
  case lb | lh | lw | lbu | lhu | sb | sh | sw | lrW | scW | amoswapW => exact completes_request rfl
  case csrrw | csrrs | csrrc | csrrwi | csrrsi | csrrci =>
    simp only [exec_csrrw, exec_csrrs, exec_csrrc, exec_csrrwi, exec_csrrsi, exec_csrrci, completes_csrAccess]
  all_goals exact ⟨_, rfl⟩

/-! ## Taking a trap (R310 to R315) -/

/-- Settles O26: an exception's value for `MTVAL`, or the next free word. -/
theorem trapEntry : Obligations.TrapEntry := fun s site =>
  ⟨fun c v => raise_some c v site s, fun c => ⟨_, raise_none c site s⟩, fun r => ⟨_, interrupt_eq r site s⟩, rfl, rfl, rfl⟩

/-- An exception presents the hart after its trap CSRs are saved, whatever is in `MTVAL`. -/
theorem raise_eq_present (e : Exc) (site : Site) (s : State) :
    ∃ v n, raise e site s = present site (trapSaved s e.cause.code v n) := by
  obtain ⟨c, info⟩ := e
  cases info with
  | none => exact ⟨_, _, raise_none c site s⟩
  | some v => exact ⟨_, _, raise_some c v site s⟩

/-- The Host that has nothing to wait for finishes within the presentation. -/
theorem present_finishes {s : State} {script : List HostAct} {rest : List (List HostAct)} (site : Site)
    (hr : s.replies = script :: rest) (hdone : (hostActs script { s with replies := rest }).1 = []) :
    present site s = leavePort site (hostActs script { s with replies := rest }).2 := by
  rw [present, hr]
  exact if_pos hdone

/-- The Host that begins with an act that has to wait leaves the hart at the port. -/
theorem present_waits {s : State} {script : List HostAct} {rest : List (List HostAct)} (site : Site)
    (hr : s.replies = (.wait :: script) :: rest) :
    present site s =
      { s with replies := rest }.setPort ({ site := site, script := .wait :: script, pollNext := false } :: s.hart.port) := by
  rw [present, hr]
  rfl

/-! ## The end of an executed instruction (R301 phase 4) -/

/-- An instruction's meaning and the end of its step, in the statements' words. -/
theorem executeInstr_eq (i : Instr) (s : State) : executeInstr i s = afterExecute (exec i s) := by
  rw [executeInstr]
  cases exec i s with
  | next t => exact next_finishExecute t
  | fault r => rfl
  | refused r => rfl

/-- Settles O28: the fetched word decodes to the instruction, whose meaning is then the step. -/
theorem stepRunsDecodedInstruction : Obligations.StepRunsDecodedInstruction := by
  intro s s1 w i hready hf hd
  rw [step_fetched hready hf, decodeThen_instr executeInstr w i s1 hd, executeInstr_eq]

/-- A word whose instruction raises an exception. -/
theorem executeWord_raise {w : Word} {i : Instr} {e : Exc} {s u : State} (hd : decode w = .instr i)
    (hx : exec i s = .next (raise e .exec u)) : executeWord w s = .next (finishExecute (raise e .exec u)) := by
  rw [executeWord, decodeThen_instr executeInstr w i s hd, executeInstr, hx]

/-- At no port an execution ends with the `pc + 4`, unless `jumped` is set. -/
theorem finishExecute_atNoPort {s : State} (hport : s.hart.port = []) :
    finishExecute s = s.setPc (if s.hart.jumped then s.hart.pc else s.hart.pc + 4#32) := by
  rw [finishExecute, if_pos hport, State.advancePc]
  cases s.hart.jumped <;> rfl

theorem setPc_setPc (s : State) (v w : Word) : (s.setPc v).setPc w = s.setPc w := rfl

/-- Where an executed instruction's exception returns to: `MEPC` if the Host left `jumped` set, else the next instruction (R310 step 5,
R301 (d)). -/
theorem finishExecute_leavePort {s : State} (hport : s.hart.port = []) :
    finishExecute (leavePort .exec s) = s.setPc (if s.hart.jumped then s.hart.csr.mepc else s.hart.pc + 4#32) := by
  cases hj : s.hart.jumped with
  | false => simp [leavePort, hj, finishExecute_atNoPort hport]
  | true => simp [leavePort, hj, finishExecute_atNoPort (s := s.setPc s.hart.csr.mepc) hport, setPc_setPc]

/-- An executed instruction's exception with a Host that has nothing to wait for. -/
theorem finishExecute_raise {e : Exc} {u : State} {script : List HostAct} {rest : List (List HostAct)} (hport : u.hart.port = [])
    (hr : u.replies = script :: rest) (hdone : ∀ v, (hostActs script v).1 = []) :
    ∃ v n t, finishExecute (raise e .exec u) = t.setPc (if t.hart.jumped then t.hart.csr.mepc else t.hart.pc + 4#32) ∧
      t = (hostActs script { trapSaved u e.cause.code v n with replies := rest }).2 := by
  obtain ⟨v, n, hraise⟩ := raise_eq_present e .exec u
  refine ⟨v, n, _, ?_, rfl⟩
  rw [hraise, present_finishes .exec (by exact hr) (hdone _), finishExecute_leavePort]
  obtain ⟨-, -, -, hkept, -⟩ := hostActs_frame script { trapSaved u e.cause.code v n with replies := rest }
  exact hkept.trans hport

/-! ## The Host's handling (R311, R312) -/

/-- The next turn of a hart at the port of an executed instruction's exception, with nothing left of the Host's script: it leaves the
port, and the pc goes on. -/
theorem step_waited {t : State} (hagenda : t.agenda = []) (htask : t.hart.task = .idle) (hjumped : t.hart.jumped = false)
    (hport : t.hart.port = [{ site := .exec, script := [.wait], pollNext := false }]) :
    step t = .next { t with hart := { t.hart with port := [], pc := t.hart.pc + 4#32 } } := by
  rw [step_idle t hagenda htask, wholeTurn_port t (by simp [hport]), resumePort, resumeWith, hport]
  simp [continueScript, continueWith, hostActs, leavePort, afterPort, State.advancePc, hjumped, State.setPort, State.setPc,
    State.setHart]

/-- Settles O27: the pc the trap saved is `MEPC` unless the Host writes it, and the Host's last word is `jumped`. -/
theorem hostOutcomes : Obligations.HostOutcomes := by
  refine ⟨?atOnce, ?waits⟩
  case atOnce =>
    intro s u w i e script rest a hd hx hport hjumped hlife hr
    refine ⟨_, fun _ => executeWord_raise hd hx, ?nothing, ?retry, ?redirect, ?halt⟩ <;> rintro rfl <;>
      obtain ⟨v, n, t, ht, hacts⟩ := finishExecute_raise (e := e) hport hr fun _ => rfl
    case nothing => simp [ht, hacts, hostActs, hjumped, hlife]
    case retry => simp [ht, hacts, hostActs, hostAct, hlife]
    case redirect => simp [ht, hacts, hostActs, hostAct, CsrFile.write, hlife]
    case halt => simp [ht, hacts, hostActs, hostAct, Life.halt, hjumped, hlife]
  case waits =>
    intro s e script rest hr htask hport hagenda hjumped
    obtain ⟨v, n, hraise⟩ := raise_eq_present e .exec s
    rw [present_waits .exec (by exact hr)] at hraise
    refine ⟨_, hraise, by simp [hport], rfl, rfl, by simp [finishExecute], ?_⟩
    rintro rfl
    exact step_waited hagenda htask hjumped (by simp [hport])

end Sys2Proof.Machine
end

section
/-! PROOFS. The timer and the IPI poll, in a step and in `nop_loop` (spec 60_exceptions.md R301, R325, R327, R331, R347). -/

namespace Sys2Proof.Machine

/-! ## The timer's countdown (R325) -/

/-- How many timer phases an enabled timer has to its interrupt: its value, 0 counting as 2^64 (decision D29). -/
def Timer.counts (t : Timer) : Nat := if t.value = 0#64 then 2 ^ 64 else t.value.toNat

theorem Timer.counts_bounds (t : Timer) : 1 ≤ t.counts ∧ t.counts ≤ 2 ^ 64 := by
  have hlt := t.value.isLt
  unfold Timer.counts
  split
  · decide
  · next h =>
    have hne : t.value.toNat ≠ 0 := fun h0 => h (BitVec.eq_of_toNat_eq h0)
    omega

theorem Timer.ofNat_counts (t : Timer) : BitVec.ofNat 64 t.counts = t.value := by
  unfold Timer.counts
  split
  · next h => exact h.symm
  · exact BitVec.ofNat_toNat 64 t.value

theorem Timer.value_eq_one_iff (t : Timer) : t.value = 1#64 ↔ t.counts = 1 := by
  unfold Timer.counts
  split
  · next h => simp [h]
  · exact BitVec.toNat_inj.symm

/-- One count, from any number of counts that is left. -/
theorem Timer.counts_ofNat {n : Nat} (h1 : 1 ≤ n) (h2 : n ≤ 2 ^ 64) (b : Bool) :
    Timer.counts { enabled := b, value := BitVec.ofNat 64 n } = n := by
  unfold Timer.counts
  split
  · next h =>
    have h0 : n % 2 ^ 64 = 0 := by simpa using congrArg BitVec.toNat h
    omega
  · next h =>
    have hne : n ≠ 2 ^ 64 := by
      rintro rfl
      exact h rfl
    exact Nat.mod_eq_of_lt (by omega)

theorem ofNat_sub_one {n : Nat} (h : 1 ≤ n) : BitVec.ofNat 64 n - 1#64 = BitVec.ofNat 64 (n - 1) := by
  obtain ⟨m, rfl⟩ := Nat.exists_eq_add_of_le' h
  rw [Nat.add_sub_cancel, BitVec.ofNat_add, BitVec.add_sub_cancel]

/-- Phase 2 with a timer that has more than one count left. -/
theorem timerPhase_counts {s : State} (hen : s.hart.timer.enabled = true) (h : s.hart.timer.counts ≠ 1) :
    timerPhase s = (false, s.setTimer { enabled := true, value := BitVec.ofNat 64 (s.hart.timer.counts - 1) }) := by
  rw [timerPhase_quiet fun _ hv => h (s.hart.timer.value_eq_one_iff.1 hv), if_pos hen,
    ← ofNat_sub_one s.hart.timer.counts_bounds.1, Timer.ofNat_counts]

/-- Phase 2 with a timer that reaches 0. -/
theorem timerPhase_expires {s : State} (hen : s.hart.timer.enabled = true) (hv : s.hart.timer.value = 1#64) :
    timerPhase s = (true, interrupt timerReason .timer (s.setTimer { enabled := false, value := 0#64 })) := by
  rw [timerPhase, if_pos hen, hv]
  rfl

/-- Fewer timer phases than the timer has counts only count. -/
theorem iterate_timerPhase {s : State} (hen : s.hart.timer.enabled = true) {k : Nat} (hk : k < s.hart.timer.counts) :
    (fun r => (timerPhase r).2)^[k] s = s.setTimer { enabled := true, value := BitVec.ofNat 64 (s.hart.timer.counts - k) } := by
  obtain ⟨-, hmax⟩ := s.hart.timer.counts_bounds
  induction k with
  | zero =>
    rw [Function.iterate_zero, id, Nat.sub_zero, Timer.ofNat_counts, ← hen]
    rfl
  | succ k ih =>
    rw [Function.iterate_succ_apply', ih (by omega)]
    generalize hu : s.setTimer { enabled := true, value := BitVec.ofNat 64 (s.hart.timer.counts - k) } = u
    have hcounts : u.hart.timer.counts = s.hart.timer.counts - k := hu ▸ Timer.counts_ofNat (by omega) (by omega) true
    rw [timerPhase_counts (hu ▸ rfl) (by omega), hcounts, Nat.sub_sub, ← hu]
    rfl

/-- Settles O32: after `k` counts the timer has `v - k` left, and the last one expires. -/
theorem timerCountdown : Obligations.TimerCountdown := by
  intro s k hen v u
  have hu : k < v → u = s.setTimer { enabled := true, value := BitVec.ofNat 64 (v - k) } := fun hk => iterate_timerPhase hen hk
  refine ⟨hu, fun hk => ?_, fun hk => ?_⟩
  · obtain ⟨-, hmax⟩ := s.hart.timer.counts_bounds
    rw [hu (by omega), timerPhase_counts rfl]
    rw [State.setTimer_hart, Timer.counts_ofNat (by omega) (Nat.le_trans (Nat.sub_le v k) hmax)]
    omega
  · rw [hu (by omega), show v - k = 1 by omega]
    exact timerPhase_expires rfl rfl

/-! ## The poll (R331) -/

theorem interruptPending_iff (s : State) :
    InterruptPending s ↔ ∃ src ∈ pollSources s.cfg s.hart.id, s.gridRead s.hart.id src ≠ 0#32 := by
  simp only [InterruptPending, polled_iff]

/-- `check_interrupts()` with a Host that does nothing. -/
theorem checkInterrupts_quiet {s : State} (hq : s.replies = []) :
    Delivered s (checkInterrupts s).2 (pollSources s.cfg s.hart.id) (checkInterrupts s).1 :=
  pollFrom_quiet _ s hq (sources_sorted _ _) fun k hk => pollSources_le _ _ k hk

/-- Settles O35: what a poll of the rising sources does with a Host that does nothing. -/
theorem checkInterruptsDelivers : Obligations.CheckInterruptsDelivers := by
  intro s hq
  obtain ⟨hframe, hany, hnone, hempty, hother, hlast⟩ := checkInterrupts_quiet hq
  simp only [polled_iff] at hany hempty hother hlast
  refine ⟨_, _, rfl, hany, hnone, hempty, hother, fun src hp hne hl => hlast src hp hne fun later h1 h2 => hl later h2 h1, hframe⟩

/-- Phase 3 with a poll due. -/
theorem pollPhase_due {s : State} (h : s.hart.pollctr + 1 = s.cfg.pollInterval) : pollPhase s = checkInterrupts (s.setPollctr 0) :=
  if_pos h

/-- The phase of the poll counter keeps the pc when the Host does nothing. -/
theorem pc_pollPhase {s : State} (hq : s.replies = []) : (pollPhase s).2.hart.pc = s.hart.pc := by
  unfold pollPhase
  split
  · rw [(checkInterrupts_quiet (s := s.setPollctr 0) hq).frame]
    rfl
  · rfl

/-! ## Steps in which the timer or the poll takes an interrupt (R301) -/

/-- With nothing scheduled, a running hart at no port and in the middle of nothing performs a step. -/
theorem step_running {s : State} (hagenda : s.agenda = []) (htask : s.hart.task = .idle) (hport : s.hart.port = [])
    (hlife : s.hart.life = .running) : step s = runningStep s := by
  rw [step_idle s hagenda htask, wholeTurn_running s hport hlife]

/-- Settles O33: the timer's trap is phase 2, after which phase 3 follows and no phase 4. -/
theorem timerStep : Obligations.TimerStep := by
  intro s hagenda htask hport hlife htimer hq
  have hphase : timerPhase (s.setJumped false) = (true, trapSaved
      { s with hart := { s.hart with jumped := false, timer := { enabled := false, value := 0#64 } } }
      0x807#32 (Config.freeWord s.draws) (s.draws + 1)) := by
    rw [timerPhase_expires (by simp [htimer]) (by simp [htimer]), interrupt_quiet _ _ _ (by exact hq)]
    rfl
  refine ⟨Config.freeWord s.draws, _, ?_, ?_, rfl, fun hpoll => ?_⟩
  · rw [step_running hagenda htask hport hlife, runningStep, hphase]
    dsimp only
    rw [if_neg (by simp [held]), if_pos (.inl rfl)]
  · exact pc_pollPhase hq
  · rw [pollPhase_quiet (by exact hpoll)]
    exact ⟨rfl, rfl⟩

/-- A step in which the timer does not expire and the poll is due. -/
theorem step_pollDue {s : State} (hagenda : s.agenda = []) (htask : s.hart.task = .idle) (hport : s.hart.port = [])
    (hlife : s.hart.life = .running) (htimer : s.hart.timer.enabled = true → s.hart.timer.value ≠ 1#64)
    (hdue : s.hart.pollctr + 1 = s.cfg.pollInterval) :
    step s =
      if (checkInterrupts (beforePoll s)).1 = true ∨ (checkInterrupts (beforePoll s)).2.hart.life ≠ .running then
        .next (checkInterrupts (beforePoll s)).2
      else fetchExecute (checkInterrupts (beforePoll s)).2 := by
  rw [step_running hagenda htask hport hlife, runningStep, timerPhase_quiet (s := s.setJumped false) htimer]
  dsimp only
  rw [if_neg (by simp [held]), pollPhase_due (by exact hdue)]
  simp only [Bool.false_eq_true, false_or]
  rfl

/-- Settles O34: the scan answers whether an interrupt was pending, and then the state is as it was. -/
theorem pollStep : Obligations.PollStep := by
  intro s hagenda htask hport hlife htimer hdue hq
  have hstep := step_pollDue hagenda htask hport hlife htimer hdue
  have hpoll := checkInterrupts_quiet (s := beforePoll s) hq
  have hpending : (checkInterrupts (beforePoll s)).1 = true ↔ InterruptPending s :=
    hpoll.anyIff.trans (interruptPending_iff (beforePoll s)).symm
  refine ⟨fun h => ?_, fun h => ?_⟩
  · have hany := hpending.2 h
    refine ⟨(checkInterrupts (beforePoll s)).2, ?_, Prod.ext hany rfl, ?_, ?_⟩
    · rw [hstep]
      exact if_pos (.inl hany)
    · rw [hpoll.frame]
      rfl
    · rw [hpoll.frame]
      rfl
  · have hany : (checkInterrupts (beforePoll s)).1 = false := Bool.eq_false_iff.2 (mt hpending.1 h)
    have hlife' : (beforePoll s).hart.life = .running := hlife
    rw [hstep, hpoll.none hany, hany]
    exact if_neg (by simp [hlife'])

/-! ## `nop_loop` (R347) -/

/-- A taken external interrupt whose Host wakes the hart and leaves `jumped` clear: the hart runs, at the same pc. -/
theorem deliverExternal_wake {s : State} (src : Nat) (hr : s.replies = [[.wake]]) (hj : s.hart.jumped = false)
    (hlife : s.hart.life = .nopLoop) :
    held s (deliverExternal src s) = false ∧ (deliverExternal src s).replies = [] ∧ (deliverExternal src s).hart.life = .running ∧
      (deliverExternal src s).hart.pc = s.hart.pc := by
  have hpresent := present_finishes (s := trapSaved (s.setPending src (s.gridRead s.hart.id src)) externalReason
    (Config.freeWord s.draws) (s.draws + 1)) (.poll src) (by exact hr) rfl
  have heq : deliverExternal src s = _ := hpresent
  rw [heq]
  simp [hostActs, hostAct, leavePort, hj, hlife, Life.wake, held]

/-- A poll that finds an interrupt pending, with a Host that wakes the hart in its trap. -/
theorem pollFrom_wake {l : List Nat} {s : State} (hr : s.replies = [[.wake]]) (hj : s.hart.jumped = false)
    (hlife : s.hart.life = .nopLoop) (hs : l.Pairwise (· < ·)) (hle : ∀ k ∈ l, k ≤ s.cfg.hartCount)
    (hp : ∃ src ∈ l, s.gridRead s.hart.id src ≠ 0#32) :
    (pollFrom l s).2.hart.life = .running ∧ (pollFrom l s).2.hart.pc = s.hart.pc := by
  induction l with
  | nil => simp at hp
  | cons src rest ih =>
    obtain ⟨-, hrest⟩ := List.pairwise_cons.1 hs
    have hle' : ∀ k ∈ rest, k ≤ s.cfg.hartCount := fun k hk => hle k (by simp [hk])
    rw [pollFrom]
    by_cases h0 : s.gridRead s.hart.id src = 0#32
    · rw [if_pos h0]
      exact ih hrest hle' (by simpa [h0] using hp)
    · obtain ⟨hheld, hq, hlife', hpc⟩ := deliverExternal_wake src hr hj hlife
      have hcfg : (deliverExternal src s).cfg = s.cfg := (local_interrupt _ _ _).cfg
      rw [if_neg h0]
      dsimp only
      rw [if_neg (by simp [hheld])]
      dsimp only
      rw [(pollFrom_quiet rest ((deliverExternal src s).gridWrite _ src 0#32) hq hrest (by simpa [hcfg] using hle')).frame]
      exact ⟨hlife', hpc⟩

/-- Settles O36: the iteration is a poll, from a state with `jumped` clear. -/
theorem nopLoopIteration : Obligations.NopLoopIteration := by
  intro s hagenda htask hport hlife
  have hstep : step s = .next (checkInterrupts (s.setJumped false)).2 := by
    rw [step_idle s hagenda htask, wholeTurn, if_pos hport, hlife]
    rfl
  refine ⟨hstep, fun hq => ⟨_, hstep, ?_⟩, fun hr hp => ⟨_, hstep, ?_⟩⟩
  · rw [(checkInterrupts_quiet (s := s.setJumped false) hq).frame]
    exact ⟨rfl, rfl, rfl, hlife, rfl, rfl⟩
  · exact pollFrom_wake (s := s.setJumped false) hr rfl hlife (sources_sorted _ _) (fun k hk => pollSources_le _ _ k hk)
      ((interruptPending_iff s).1 hp)

end Sys2Proof.Machine
end

section
/-! PROOFS. Lifecycle commands, and the Host's interrupt operations at a port (spec 60_exceptions.md R330 to R335, R345, R346). -/

namespace Sys2Proof.Machine

/-! ## Lifecycle (R345, R346) -/

/-- `stop()` of the acting hart. -/
theorem turn_stop (s : State) : turn (.stop s.hart.id) s = .next (s.setLife s.hart.life.stop) := onHart_self s _

/-- `halt()` of the acting hart. -/
theorem turn_halt (s : State) : turn (.halt s.hart.id) s = .next (s.setLife s.hart.life.halt) := onHart_self s _

/-- `start()` of the acting hart, in a state that is not stopped. -/
theorem turn_start_of_not_stopped {s : State} (h : s.hart.life ≠ .stopped) : turn (.start s.hart.id) s = .next s :=
  (onHart_self s _).trans (congrArg _ (if_neg h))

/-- Settles O37: the iteration of each state, and the table of the commands. -/
theorem lifecycleTransitions : Obligations.LifecycleTransitions := by
  intro s
  refine ⟨fun hagenda htask hport => ?iterations, ?stop, ?halt, turn_start_of_not_stopped⟩
  case iterations =>
    rw [step_idle s hagenda htask, wholeTurn, if_pos hport]
    exact ⟨fun hlife => by rw [hlife], fun hlife => by rw [hlife]⟩
  case stop => exact ⟨turn_stop (s.setLife _), turn_stop (s.setLife _), turn_stop (s.setLife _), turn_stop (s.setLife _)⟩
  case halt => exact ⟨turn_halt (s.setLife _), turn_halt (s.setLife _), turn_halt (s.setLife _), turn_halt (s.setLife _)⟩

/-! ## A cell of the IPI matrix after a store (R330) -/

@[simp] theorem gridRead_gridWrite_same (s : State) (dst src : Nat) (v : Word) : (s.gridWrite dst src v).gridRead dst src = v :=
  Sparse.get_set_same _ _ _ _

/-- The cell of a source in `0 .. N` is no other cell. -/
theorem gridRead_gridWrite_other {s : State} {dst src dst' src' : Nat} (v : Word) (h : src ≤ s.cfg.hartCount)
    (h' : src' ≤ s.cfg.hartCount) (hne : ¬ (dst' = dst ∧ src' = src)) :
    (s.gridWrite dst src v).gridRead dst' src' = s.gridRead dst' src' :=
  (gridRead_write s dst src dst' src' v h h').trans (if_neg hne)

/-! ## A turn of a hart at a port (R332, R333) -/

/-- With nothing scheduled, a hart at a port and in the middle of nothing goes on there. -/
theorem step_port {s : State} {a : Activation} {below : List Activation} (hagenda : s.agenda = []) (htask : s.hart.task = .idle)
    (hport : s.hart.port = a :: below) : step s = resumePort s := by
  rw [step_idle s hagenda htask, wholeTurn_port s (by simp [hport])]

/-- A scheduled split turn of a hart at a port and in the middle of nothing. -/
theorem turn_split_port {s : State} {a : Activation} {below : List Activation} (htask : s.hart.task = .idle)
    (hport : s.hart.port = a :: below) : turn (.split s.hart.id) s = resumeSplit s := by
  rw [turn, onHart_self, splitTurn, if_pos htask, startTurn, if_neg (by simp [hport])]

section Resume

variable {poll : State → State} {goOn take : Activation → List Activation → List HostAct → State → State} {s : State}
  {site : Site} {script : List HostAct} {below : List Activation}

/-- The turn after a failed attempt polls. -/
theorem resumeWith_pollNext (hport : s.hart.port = { site := site, script := script, pollNext := true } :: below) :
    resumeWith poll goOn take s = .next (poll (s.setPort ({ site := site, script := script, pollNext := false } :: below))) := by
  rw [resumeWith, hport]
  rfl

section Raise

variable {target : Nat} {code : Word}
  (hport : s.hart.port = { site := site, script := .raise target code :: script, pollNext := false } :: below)

include hport

/-- To the raiser itself or to no hart (decision D36). -/
theorem resumeWith_raise_misuse (h : target = s.hart.id ∨ s.cfg.hartCount ≤ target) :
    resumeWith poll goOn take s = .fault .abortIpiMisuse := by
  rw [resumeWith, hport]
  exact if_pos h

theorem resumeWith_raise_empty (h : ¬ (target = s.hart.id ∨ s.cfg.hartCount ≤ target)) (h0 : s.gridRead target s.hart.id = 0#32) :
    resumeWith poll goOn take s = .next (goOn { site := site, script := .raise target code :: script, pollNext := false } below script
      (s.gridWrite target s.hart.id code)) := by
  rw [resumeWith, hport]
  exact (if_neg h).trans (if_pos h0)

theorem resumeWith_raise_occupied (h : ¬ (target = s.hart.id ∨ s.cfg.hartCount ≤ target)) (h0 : s.gridRead target s.hart.id ≠ 0#32) :
    resumeWith poll goOn take s =
      .next (s.setPort ({ site := site, script := .raise target code :: script, pollNext := true } :: below)) := by
  rw [resumeWith, hport]
  exact (if_neg h).trans (if_neg h0)

end Raise

section Await

variable (hport : s.hart.port = { site := site, script := .await :: script, pollNext := false } :: below)

include hport

theorem resumeWith_await_empty (h0 : s.gridRead s.hart.id s.hart.id = 0#32) :
    resumeWith poll goOn take s = .next (s.setPort ({ site := site, script := .await :: script, pollNext := true } :: below)) := by
  rw [resumeWith, hport]
  exact if_pos h0

theorem resumeWith_await_set (h0 : s.gridRead s.hart.id s.hart.id ≠ 0#32) :
    resumeWith poll goOn take s = .next (take { site := site, script := .await :: script, pollNext := false } below script
      (s.setResponse (s.gridRead s.hart.id s.hart.id))) := by
  rw [resumeWith, hport]
  exact if_neg h0

end Await

end Resume

/-- Settles O39: the attempt's three outcomes, and the one cell it writes. -/
theorem raiseInterruptAttempt : Obligations.RaiseInterruptAttempt := by
  intro s site target code script below hagenda htask hport
  rw [step_port hagenda htask hport, resumePort]
  refine ⟨resumeWith_raise_misuse hport, fun hself hhart => ?_⟩
  have huse : ¬ (target = s.hart.id ∨ s.cfg.hartCount ≤ target) := by omega
  refine ⟨fun h0 => ⟨resumeWith_raise_empty hport huse h0, gridRead_gridWrite_same s _ _ code, rfl, fun hid dst src hsrc hne => ?_⟩,
    resumeWith_raise_occupied hport huse⟩
  exact gridRead_gridWrite_other code (Nat.le_of_lt hid) hsrc hne

/-- The store of 0 to the cell just read, after which the Host goes on with its script. -/
theorem taskEvent_consume {s : State} {a : Activation} {below : List Activation} (htask : s.hart.task = .consume)
    (hport : s.hart.port = a :: below) :
    taskEvent s = .next (continueSplit a below a.script.tail ((s.setTask .idle).gridWrite s.hart.id s.hart.id 0#32)) := by
  rw [taskEvent, htask]
  simp [hport]

/-- Settles O40: the outcomes of an attempt by the content of the diagonal cell, and the one cell it empties. -/
theorem responseProtocol : Obligations.ResponseProtocol := by
  intro s code site script below
  refine ⟨rfl, gridRead_gridWrite_same s _ _ code, fun hagenda htask hport => ?attempt, fun hagenda htask hport => ?poll,
    fun hport => ⟨fun htask h0 => ?load, fun htask => ?store⟩⟩
  case attempt =>
    rw [step_port hagenda htask hport, resumePort]
    refine ⟨resumeWith_await_empty hport, fun h0 => ⟨resumeWith_await_set hport h0, gridRead_gridWrite_same _ _ _ _, rfl, rfl, ?_⟩⟩
    exact fun hid dst src hsrc hne => gridRead_gridWrite_other _ (Nat.le_of_lt hid) hsrc hne
  case poll => rw [step_port hagenda htask hport, resumePort, resumeWith_pollNext hport]
  case load =>
    rw [turn_split_port htask hport, resumeSplit, resumeWith_await_set hport h0]
    rfl
  case store =>
    rw [turn, onHart_self, splitTurn, if_neg (by simp [htask]), taskEvent_consume htask hport]
    rfl

end Sys2Proof.Machine
end

section
/-! PROOFS. An iteration split into its shared events comes to what the whole iteration does (spec 60_exceptions.md R300, R301; 00_scope.md
R4): each piece of it, begun and gone on with event by event, leads to the outcome of the operation that does it at once. -/

namespace Sys2Proof.Machine

/-- The acting hart is in the middle of nothing, and no turn is scheduled. -/
def Rests (s : State) : Prop := s.agenda = [] ∧ s.hart.task = .idle

/-- The outcome `o`, the acting hart going on by the events that are left of its iteration, comes to `p`. -/
inductive Leads : Host.Outcome State Fault Refusal → Host.Outcome State Fault Refusal → Prop where
  | done (o : Host.Outcome State Fault Refusal) : Leads o o
  | event {t : State} {p : Host.Outcome State Fault Refusal} (hagenda : t.agenda = []) (htask : t.hart.task ≠ .idle)
      (h : Leads (taskEvent t) p) : Leads (.next t) p

/-- `n` steps from an outcome. -/
def stepsFrom (n : Nat) : Host.Outcome State Fault Refusal → Host.Outcome State Fault Refusal
  | .next t => steps n t
  | .fault r => .fault r
  | .refused r => .refused r

theorem stepsFrom_zero (o : Host.Outcome State Fault Refusal) : stepsFrom 0 o = o := by cases o <;> rfl

theorem steps_succ (n : Nat) (s : State) : steps (n + 1) s = stepsFrom n (step s) := by
  rw [steps]
  cases step s <;> rfl

/-- Each event is one step. -/
theorem Leads.steps {o p : Host.Outcome State Fault Refusal} (h : Leads o p) : ∃ n, stepsFrom n o = p := by
  induction h with
  | done o => exact ⟨0, stepsFrom_zero o⟩
  | event hagenda htask _ ih =>
    obtain ⟨n, hn⟩ := ih
    exact ⟨n + 1, by rw [stepsFrom, steps_succ, step_task _ hagenda htask, hn]⟩

theorem Leads.of_eq {o p : Host.Outcome State Fault Refusal} (h : o = p) : Leads o p := h ▸ .done o

/-! ## States in the middle of nothing -/

/-- What an operation that schedules nothing and begins no task leaves. -/
theorem Rests.of {s t : State} (h : Rests s) (hagenda : t.agenda = s.agenda) (htask : t.hart.task = s.hart.task) : Rests t :=
  ⟨hagenda.trans h.1, htask.trans h.2⟩

theorem setTask_setTask (s : State) (t u : Task) : (s.setTask t).setTask u = s.setTask u := rfl

theorem Rests.setTask_idle {s : State} (h : Rests s) : s.setTask .idle = s := by
  rw [← h.2]
  rfl

theorem Rests.streamFrame {st : Stream} {s t : State} (h : Rests s) (hf : StreamFrame st s t) : Rests t :=
  h.of (by rw [hf]; cases st <;> rfl) (by rw [hf]; cases st <;> rfl)

theorem Rests.setTlb {s : State} (h : Rests s) (st : Stream) (k : Tlb) : Rests (s.setTlb st k) := by
  cases st <;> exact h

theorem Rests.hostActs {s : State} (h : Rests s) (script : List HostAct) : Rests (hostActs script s).2 :=
  h.of (local_hostActs script s).agenda (hostActs_task script s)

theorem Rests.leavePort {s : State} (h : Rests s) (site : Site) : Rests (leavePort site s) :=
  h.of (local_leavePort site s).agenda (leavePort_task site s)

theorem Rests.deliverExternal {s : State} (h : Rests s) (src : Nat) : Rests (deliverExternal src s) :=
  h.of (local_interrupt _ _ _).agenda (deliverExternal_task src s)

theorem Rests.timerPhase {s : State} (h : Rests s) : Rests (timerPhase s).2 := by
  refine h.of (local_timerPhase s).agenda ?_
  unfold Machine.timerPhase
  split
  · dsimp only
    split
    · exact present_task _ _
    · rfl
  · rfl

/-- A hart that waits for an event performs it. -/
theorem Rests.leads_wait {s : State} {t : Task} {p : Host.Outcome State Fault Refusal} (h : Rests s) (ht : t ≠ .idle)
    (hp : Leads (taskEvent (s.setTask t)) p) : Leads (.next (s.setTask t)) p :=
  .event h.1 ht hp

/-! ## FENCE: its write-backs one by one (20_memory.md R87) -/

/-- Writing the first dirty line back first, and then every dirty one that is left, is writing every dirty line back in slot order. -/
theorem foldl_writeBack_firstDirty (c : Config) {k : Cache} (m : List Host.Cell) (h : k.any (fun l => l.dirty) = true) :
    ∃ l, k[k.findIdx (fun l => l.dirty)]? = some l ∧ l.dirty = true ∧
      (k.set (k.findIdx (fun l => l.dirty)) { l with dirty := false }).foldl (writeBack c) (writeBack c m l) = k.foldl (writeBack c) m ∧
      (k.set (k.findIdx (fun l => l.dirty)) { l with dirty := false }).countP (fun l => l.dirty) + 1 = k.countP (fun l => l.dirty) := by
  induction k generalizing m with
  | nil => simp at h
  | cons l k ih =>
    cases hd : l.dirty with
    | true =>
      refine ⟨l, by simp [List.findIdx_cons, hd], hd, ?_, by simp [List.findIdx_cons, hd]⟩
      simp [List.findIdx_cons, hd, writeBack]
    | false =>
      obtain ⟨l', hl', hd', hfold, hcount⟩ := ih m (by simpa [hd] using h)
      refine ⟨l', by simpa [List.findIdx_cons, hd] using hl', hd', ?_, by simpa [List.findIdx_cons, hd] using hcount⟩
      have hclean : ∀ m, writeBack c m l = m := fun m => by simp [writeBack, hd]
      simpa [List.findIdx_cons, hd, hclean] using hfold

/-- How many lines of the D-cache are dirty. -/
def dirtyCount (s : State) : Nat := s.hart.dcache.countP (fun l => l.dirty)

theorem anyDirty_iff (s : State) : anyDirty s = true ↔ dirtyCount s ≠ 0 := by
  simp [anyDirty, dirtyCount, List.countP_eq_zero]

/-- A line made clean already is clean with all the others. -/
theorem map_clean_set {k : Cache} {i : Nat} {l : Line} (h : k[i]? = some l) :
    (k.set i { l with dirty := false }).map (fun l => { l with dirty := false }) = k.map (fun l => { l with dirty := false }) := by
  obtain ⟨hi, rfl⟩ := List.getElem?_eq_some_iff.1 h
  apply List.ext_getElem
  · simp
  · intro j _ _
    simp only [List.getElem_map, List.getElem_set]
    split
    · next hij => simp [hij]
    · rfl

/-- The write-back of a dirty line (R87). -/
theorem flushSlot_dirty {s : State} {slot : Nat} {l : Line} (hl : s.hart.dcache[slot]? = some l) (hd : l.dirty = true) :
    flushSlot slot s = (s.setMem (writeBack s.cfg s.mem l)).setCache .data (s.hart.dcache.set slot { l with dirty := false }) := by
  rw [flushSlot, State.cache_data, hl]
  exact if_pos hd

/-- The write-back of the first dirty line is a part of the FENCE, and leaves one dirty line less. -/
theorem flushSlot_firstDirty {s : State} (he : s.cfg.cacheEnable = true) (h : anyDirty s = true) :
    (flushSlot (firstDirty s) s).cfg = s.cfg ∧ (Rests s → Rests (flushSlot (firstDirty s) s)) ∧
      fenceOp (flushSlot (firstDirty s) s) = fenceOp s ∧ dirtyCount (flushSlot (firstDirty s) s) + 1 = dirtyCount s := by
  obtain ⟨l, hl, hd, hfold, hcount⟩ := foldl_writeBack_firstDirty s.cfg s.mem h
  rw [flushSlot_dirty (slot := firstDirty s) hl hd]
  refine ⟨rfl, id, ?_, hcount⟩
  unfold fenceOp
  rw [if_pos (by exact he), if_pos he, State.setCache_cache, State.setCache_mem, State.setCache_cfg, State.setMem_mem, State.setMem_cfg]
  simp only [firstDirty, State.cache_data] at hl hfold ⊢
  rw [hfold, map_clean_set hl]
  rfl

theorem foldl_writeBack_clean (c : Config) {k : Cache} (m : List Host.Cell) (h : ∀ l ∈ k, l.dirty = false) :
    k.foldl (writeBack c) m = m := by
  induction k with
  | nil => rfl
  | cons l k ih =>
    have hl : writeBack c m l = m := by simp [writeBack, h l (by simp)]
    rw [List.foldl_cons, hl, ih fun l' hl' => h l' (by simp [hl'])]

theorem map_clean_clean {k : Cache} (h : ∀ l ∈ k, l.dirty = false) : k.map (fun l => { l with dirty := false }) = k :=
  (List.map_congr_left fun l hl => by rw [← h l hl]; rfl).trans (List.map_id k)

/-- A FENCE that finds no dirty line does nothing. -/
theorem fenceOp_of_clean {s : State} (h : anyDirty s = false) : fenceOp s = s := by
  have hclean : ∀ l ∈ s.cache .data, l.dirty = false := by simpa [anyDirty] using h
  rw [fenceOp, foldl_writeBack_clean _ _ hclean, map_clean_clean hclean]
  exact ite_self s

/-- What a FENCE's event does is not seen in the task that waits for it. -/
theorem flushSlot_setTask (slot : Nat) (s : State) (t : Task) : flushSlot slot (s.setTask t) = (flushSlot slot s).setTask t := by
  unfold flushSlot
  rw [show (s.setTask t).cache .data = s.cache .data from rfl]
  split
  · split <;> rfl
  · rfl

theorem flushEvent_setTask (slot : Nat) (s : State) : flushEvent slot (s.setTask .flush) =
    if anyDirty (flushSlot slot s) then (flushSlot slot s).setTask .flush else finishExecute ((flushSlot slot s).setTask .idle) := by
  rw [flushEvent, flushSlot_setTask]
  rfl

/-- A FENCE event by event. -/
theorem leads_flush {s : State} (h : Rests s) (he : s.cfg.cacheEnable = true) (hd : anyDirty s = true) :
    Leads (.next (s.setTask .flush)) (.next (finishExecute (fenceOp s))) := by
  induction hn : dirtyCount s generalizing s with
  | zero => exact absurd hn ((anyDirty_iff s).1 hd)
  | succ n ih =>
    obtain ⟨hcfg, hrests, hfence, hcount⟩ := flushSlot_firstDirty he hd
    refine h.leads_wait (by simp) ?_
    show Leads (.next (flushEvent (firstDirty s) (s.setTask .flush))) _
    rw [flushEvent_setTask, ← hfence]
    have hrest := hrests h
    generalize flushSlot (firstDirty s) s = u at hcfg hrest hcount
    cases hu : anyDirty u with
    | true => exact ih hrest (hcfg ▸ he) hu (by omega)
    | false =>
      rw [fenceOp_of_clean hu, hrest.setTask_idle]
      exact .done _

/-! ## Translation: each read of a page-table entry (20_memory.md R114) -/

/-- `Translate` from a level of the walk down. -/
def walkTranslate (t : AccessType) (v : Word) (level : Nat) (table : Word) (s : State) : Access Word :=
  match walk s.cfg s.mem v level table with
  | none => .exc (pageFaultAt t v) s
  | some (found, pte) => leafTranslate t v found pte s

/-- A translation that needs a walk begins it at the root table. -/
theorem translateVa_walk {t : AccessType} {v : Word} {s : State} (h : tlbTranslate t v s = none) :
    translateVa t v s = walkTranslate t v 1 (rootTable s.hart.csr.satp) s := by
  rw [translateVa, h]
  rfl

section Walk

variable {t : AccessType} {v : Word} {level : Nat} {table : Word} {s : State}

theorem walkTranslate_fail (h : readPte s.cfg s.mem v level table = .fail) :
    walkTranslate t v level table s = .exc (pageFaultAt t v) s := by
  cases level <;> simp [walkTranslate, walk, h]

theorem walkTranslate_leaf {pte : Word} (h : readPte s.cfg s.mem v level table = .leaf pte) :
    walkTranslate t v level table s = leafTranslate t v level pte s := by
  cases level <;> simp [walkTranslate, walk, h]

theorem walkTranslate_pointer {lower : Word} (h : readPte s.cfg s.mem v level table = .pointer lower) :
    level ≠ 0 ∧ walkTranslate t v level table s = walkTranslate t v (level - 1) lower s := by
  cases level with
  | zero => exact absurd h (readPte_zero _ _ _ _ _)
  | succ level => simp [walkTranslate, walk, h]

end Walk

section Address

/-! The checks before an access, event by event, in an instruction or in a fetch: `waitAt` is the task of a stage, `k` what follows at the
physical address up to the next event, `conclude` the end of the piece, and `whole` everything that follows the checks at once. -/

variable {α : Type} {waitAt : Stage → Task} {t : AccessType} {va : Word} {n : Nat} {s : State} {k : Word → State → Progress α}
  {conclude : Progress α → Host.Outcome State Fault Refusal} {whole : Access Word → Host.Outcome State Fault Refusal}
  (hexc : ∀ e u, conclude (.exc e u) = whole (.exc e u))
  (hok : ∀ p tlb, Leads (conclude (k p (s.setTlb t.stream tlb))) (whole (.ok p (s.setTlb t.stream tlb))))

include hexc hok

theorem leads_checkRange {a : Access Word} (ha : ∀ p u, a = .ok p u → ∃ tlb, u = s.setTlb t.stream tlb) :
    Leads (conclude ((checkRange t va n a).progress.bind k)) (whole (checkRange t va n a)) := by
  cases a with
  | exc e u => exact .of_eq (hexc e u)
  | ok p u =>
    obtain ⟨tlb, rfl⟩ := ha p u rfl
    rw [checkRange]
    split
    · exact hok p tlb
    · exact .of_eq (hexc _ _)

variable (hwait : ∀ level table o, Leads (conclude ((pteEvent waitAt t va n level table s).bind k)) o →
  Leads (conclude (.wait (waitAt (.pte level table)) s)) o)

include hwait

/-- A walk from a level down: the reads change nothing, so each finds what the whole walk finds there. -/
theorem leads_pteEvent (level : Nat) (table : Word) :
    Leads (conclude ((pteEvent waitAt t va n level table s).bind k)) (whole (checkRange t va n (walkTranslate t va level table s))) := by
  induction level using Nat.strongRecOn generalizing table with
  | ind level ih =>
    rw [pteEvent]
    cases hr : readPte s.cfg s.mem va level table with
    | fail =>
      rw [walkTranslate_fail hr]
      exact .of_eq (hexc _ _)
    | pointer lower =>
      obtain ⟨hlevel, hwalk⟩ := walkTranslate_pointer (t := t) hr
      rw [hwalk]
      exact hwait _ _ _ (ih (level - 1) (by omega) lower)
    | leaf pte =>
      rw [walkTranslate_leaf hr]
      refine leads_checkRange hexc hok fun p u hu => ?_
      rcases leafTranslate_frame t va level pte s with ⟨tlb, htlb, -⟩ | hfault
      · exact ⟨tlb, (Access.ok.inj (hu.symm.trans htlb)).2⟩
      · exact absurd (hu.symm.trans hfault) (by simp)

/-- The checks from their beginning. -/
theorem leads_startAddress :
    Leads (conclude ((startAddress waitAt t va n s).bind k)) (whole (physicalAddress t va n s)) := by
  rw [startAddress, physicalAddress]
  by_cases hmis : misaligned va n = true
  · rw [if_pos hmis, if_pos hmis]
    exact .of_eq (hexc _ _)
  · rw [if_neg hmis, if_neg hmis]
    cases ht : tlbTranslate t va s with
    | none =>
      rw [translateVa_walk ht]
      exact hwait _ _ _ (leads_pteEvent hexc hok hwait _ _)
    | some a =>
      rw [translateVa, ht]
      refine leads_checkRange hexc hok fun p u hu => ⟨s.tlb t.stream, ?_⟩
      rcases tlbTranslate_frame ht with ⟨q, rfl⟩ | rfl
      · rw [← (Access.ok.inj hu).2]
        cases t <;> rfl
      · cases hu

end Address

/-! ## The execution of an instruction -/

/-- A request's access at the physical address `p` with no other agent's event between: a store's CS-KILL follows at once. -/
def Request.complete (r : Request) (p : Word) (s : State) : Progress Unit :=
  match r with
  | .load n ext rd va => (Request.load n ext rd va).access p s
  | .store n va v => (writeAt va n v p s).progress.bind fun _ s1 => .ok () (killReservations s1 p)
  | .atomic t va critical => (Request.atomic t va critical).access p s

/-- What a request comes to after the checks before its access. -/
def Request.outcome (r : Request) : Access Word → Host.Outcome State Fault Refusal
  | .ok p s => concludeExecute (r.complete p s)
  | .exc e s => concludeExecute (.exc e s)

/-- A memory instruction is its checks and then its access. -/
theorem executeInstr_request {i : Instr} {r : Request} {s : State} (h : requestOf i s = some r) :
    executeInstr i s = r.outcome (physicalAddress r.type r.va r.width s) := by
  rw [executeInstr, exec_of_request h]
  cases r with
  | load n ext rd va =>
    rw [Request.run, memRead]
    simp only [Request.type, Request.va, Request.width]
    cases physicalAddress .load va n s with
    | exc e u => rfl
    | ok p u =>
      simp only [Request.outcome, Request.complete, Request.access]
      cases readAt .load va n p u <;> rfl
  | store n va v =>
    rw [Request.run, memWrite]
    simp only [Request.type, Request.va, Request.width]
    cases physicalAddress .store va n s with
    | exc e u => rfl
    | ok p u =>
      simp only [Request.outcome, Request.complete]
      cases writeAt va n v p u <;> rfl
  | atomic t va critical =>
    rw [Request.run]
    simp only [Request.type, Request.va, Request.width]
    cases physicalAddress t va 4 s <;> rfl

/-- The access of a request, and then a plain store's CS-KILL. -/
theorem leads_access (r : Request) (p : Word) {s : State} (h : Rests s) :
    Leads (concludeExecute (r.access p s)) (concludeExecute (r.complete p s)) := by
  cases r with
  | load n ext rd va => exact .done _
  | atomic t va critical => exact .done _
  | store n va v =>
    have hframe := writeAt_frame va n v p s
    rw [Request.access, Request.complete]
    cases hw : writeAt va n v p s with
    | exc e u => exact .done _
    | ok a u =>
      rw [hw] at hframe
      have hu : Rests u := h.streamFrame hframe
      refine hu.leads_wait (by simp) ?_
      show Leads (.next (finishExecute (killReservations (u.setTask .idle) p))) _
      rw [hu.setTask_idle]
      exact .done _

/-- The access of an instruction's request, at once on a hit, else as the next event. -/
theorem leads_atAddress {i : Instr} {r : Request} (p : Word) {s : State} (h : Rests s) (hr : requestOf i s = some r) :
    Leads (concludeExecute (r.atAddress i p s)) (concludeExecute (r.complete p s)) := by
  rw [Request.atAddress]
  split
  · exact leads_access r p h
  · refine h.leads_wait (by simp) ?_
    show Leads (execEvent i (.access p) (s.setTask .idle)) _
    rw [h.setTask_idle, execEvent, hr]
    exact leads_access r p h

/-- What an instruction asks of the memory system does not depend on the TLBs. -/
theorem requestOf_setTlb (i : Instr) (s : State) (st : Stream) (k : Tlb) : requestOf i (s.setTlb st k) = requestOf i s := by
  cases st <;> cases i <;> rfl

/-- A memory instruction event by event. -/
theorem leads_request {i : Instr} {r : Request} {s : State} (h : Rests s) (hr : requestOf i s = some r) :
    Leads (concludeExecute (r.start i s)) (executeInstr i s) := by
  rw [executeInstr_request hr]
  refine leads_startAddress (whole := r.outcome) (fun _ _ => rfl) (fun p tlb => ?_) fun level table o ho => ?_
  · exact leads_atAddress p (h.setTlb _ tlb) ((requestOf_setTlb i s _ tlb).trans hr)
  · refine h.leads_wait (by simp) ?_
    show Leads (execEvent i (.pte level table) (s.setTask .idle)) o
    rw [h.setTask_idle, execEvent, hr]
    exact ho

/-- Every instruction event by event: a memory instruction, a FENCE with a dirty line to write back, or one that performs no event. -/
theorem leads_startInstr (i : Instr) {s : State} (h : Rests s) : Leads (startInstr i s) (executeInstr i s) := by
  unfold startInstr
  cases hr : requestOf i s with
  | some r => exact leads_request h hr
  | none =>
    dsimp only
    split
    · split
      · next hflush =>
        obtain ⟨he, hd⟩ := Bool.and_eq_true_iff.1 hflush
        exact leads_flush h he hd
      · exact .done _
    · exact .done _

/-! ## The fetch -/

theorem leads_decodeThen (w : Word) {s : State} (h : Rests s) : Leads (decodeThen startInstr w s) (executeWord w s) := by
  rw [executeWord, decodeThen, decodeThen]
  cases decode w with
  | instr i => exact leads_startInstr i h
  | illegal => exact .done _
  | unsupported => exact .done _
  | floatingPoint => exact .done _

/-- What a fetch that answered comes to. -/
def fetchedOutcome : Access Word → Host.Outcome State Fault Refusal
  | .ok w s => executeWord w s
  | .exc e s => .next (raise e .fetch s)

/-- What a fetch comes to after the checks before its access. -/
def fetchOutcome (va : Word) : Access Word → Host.Outcome State Fault Refusal
  | .ok p s => fetchedOutcome (readAt .fetch va 4 p s)
  | .exc e s => fetchedOutcome (.exc e s)

theorem fetchExecute_eq (s : State) : fetchExecute s = fetchOutcome s.hart.pc (physicalAddress .fetch s.hart.pc 4 s) := by
  rw [fetchExecute, fetchWord]
  cases physicalAddress .fetch s.hart.pc 4 s with
  | exc e u => rfl
  | ok p u =>
    simp only [fetchOutcome]
    cases readAt .fetch s.hart.pc 4 p u <;> rfl

/-- The access of a fetch, and then the instruction. -/
theorem leads_fetchAccess (va p : Word) {s : State} (h : Rests s) :
    Leads (concludeFetch (readAt .fetch va 4 p s).progress) (fetchOutcome va (.ok p s)) := by
  have hframe := readAt_frame .fetch va 4 p s
  rw [fetchOutcome]
  cases hr : readAt .fetch va 4 p s with
  | exc e u => exact .done _
  | ok w u =>
    rw [hr] at hframe
    exact leads_decodeThen w (h.streamFrame hframe)

/-- The access of a fetch, at once on a hit, else as the next event. -/
theorem leads_fetchAtAddress (p : Word) {s : State} (h : Rests s) :
    Leads (concludeFetch (fetchAtAddress s.hart.pc p s)) (fetchOutcome s.hart.pc (.ok p s)) := by
  rw [fetchAtAddress]
  split
  · exact leads_fetchAccess _ p h
  · refine h.leads_wait (by simp) ?_
    show Leads (fetchEvent (.access p) (s.setTask .idle)) _
    rw [h.setTask_idle]
    exact leads_fetchAccess _ p h

/-- Phase 4 of a step event by event (R301). -/
theorem leads_startFetch {s : State} (h : Rests s) : Leads (startFetch s) (fetchExecute s) := by
  rw [fetchExecute_eq]
  refine leads_startAddress (whole := fetchOutcome s.hart.pc) (fun _ _ => rfl) (fun p tlb => ?_) fun level table o ho => ?_
  · exact leads_fetchAtAddress p (h.setTlb .instruction tlb)
  · refine h.leads_wait (by simp) ?_
    show Leads (fetchEvent (.pte level table) (s.setTask .idle)) o
    rw [h.setTask_idle]
    exact ho

/-! ## The poll (R331) -/

/-- What follows a poll (R301 phase 4): the fetch, if it comes next in this step, no trap was taken and the hart still runs. -/
def afterPoll (thenFetch : Bool) (r : Bool × State) : Host.Outcome State Fault Refusal :=
  if thenFetch = true ∧ r.1 = false ∧ r.2.hart.life = .running then fetchExecute r.2 else .next r.2

theorem afterPoll_noFetch (r : Bool × State) : afterPoll false r = .next r.2 := if_neg (by simp)

theorem afterPoll_trapped (b : Bool) (s : State) : afterPoll b (true, s) = .next s := if_neg (by simp)

theorem leads_afterScan (b : Bool) {s : State} (h : Rests s) : Leads (afterScan b s) (afterPoll b (false, s)) := by
  rw [afterScan, afterPoll]
  by_cases hf : b = true ∧ s.hart.life = .running
  · rw [if_pos hf, if_pos ⟨hf.1, rfl, hf.2⟩]
    exact leads_startFetch h
  · rw [if_neg hf, if_neg fun hf' => hf ⟨hf'.1, hf'.2.2⟩]
    exact .done _

/-- Past the last cell, the load of the next one is nothing. -/
theorem leads_scanOn {rest : List Nat} {b : Bool} {s : State} {o : Host.Outcome State Fault Refusal} (h : Rests s)
    (ho : Leads (scanEvent rest b s) o) : Leads (scanOn rest b s) o := by
  rw [scanOn]
  split
  · next hnil =>
    subst hnil
    exact ho
  · refine h.leads_wait (by simp) ?_
    show Leads (scanEvent rest b (s.setTask .idle)) o
    rwa [h.setTask_idle]

/-- A poll cell by cell. -/
theorem leads_scanEvent (l : List Nat) (b : Bool) {s : State} (h : Rests s) :
    Leads (scanEvent l b s) (afterPoll b (pollFrom l s)) := by
  induction l generalizing b s with
  | nil => exact leads_afterScan b h
  | cons src rest ih =>
    rw [scanEvent, pollFrom]
    by_cases h0 : s.gridRead s.hart.id src = 0#32
    · rw [if_pos h0, if_pos h0]
      exact leads_scanOn h (ih b h)
    · rw [if_neg h0, if_neg h0]
      have hu := h.deliverExternal src
      dsimp only
      generalize deliverExternal src s = u at hu
      cases held s u with
      | true => exact .of_eq (afterPoll_trapped b u).symm
      | false =>
        refine hu.leads_wait (by simp) ?_
        show Leads (scanOn rest false ((u.setTask .idle).gridWrite u.hart.id src 0#32)) _
        have hv : Rests (u.gridWrite u.hart.id src 0#32) := hu
        rw [if_neg (by simp), afterPoll_trapped, ← afterPoll_noFetch, hu.setTask_idle]
        exact leads_scanOn hv (ih false hv)

/-- A poll from its first cell. -/
theorem leads_scan (l : List Nat) (b : Bool) {s : State} (h : Rests s) :
    Leads (.next (s.setTask (.scan l b))) (afterPoll b (pollFrom l s)) := by
  refine h.leads_wait (by simp) ?_
  show Leads (scanEvent l b (s.setTask .idle)) _
  rw [h.setTask_idle]
  exact leads_scanEvent l b h

/-! ## A step (R301) -/

/-- Phases 3 and 4, the poll being cut into its events. -/
theorem leads_pollPhase (b : Bool) {s : State} (h : Rests s) :
    Leads (if s.hart.pollctr + 1 = s.cfg.pollInterval then
        .next ((s.setPollctr 0).setTask (.scan (pollSources s.cfg s.hart.id) b))
      else afterScan b (s.setPollctr (s.hart.pollctr + 1)))
      (afterPoll b (pollPhase s)) := by
  split
  · next hdue =>
    rw [pollPhase_due hdue]
    exact leads_scan (s := s.setPollctr 0) _ b h
  · next hdue =>
    rw [pollPhase_quiet hdue]
    exact leads_afterScan (s := s.setPollctr (s.hart.pollctr + 1)) b h

/-- A step whose timer phase leaves the hart at no port. -/
theorem runningStep_eq {s : State} (h : held (s.setJumped false) (timerPhase (s.setJumped false)).2 = false) :
    runningStep s = afterPoll (!(timerPhase (s.setJumped false)).1) (pollPhase (timerPhase (s.setJumped false)).2) := by
  rw [runningStep]
  dsimp only
  rw [if_neg (by simp [h]), afterPoll, ← ite_not]
  simp only [not_or, Bool.not_eq_true, Bool.not_eq_true', ne_eq, not_not]

theorem leads_startStep {s : State} (h : Rests s) : Leads (startStep s) (runningStep s) := by
  have hr : Rests (timerPhase (s.setJumped false)).2 := Rests.timerPhase (s := s.setJumped false) h
  cases hheld : held (s.setJumped false) (timerPhase (s.setJumped false)).2 with
  | true =>
    apply Leads.of_eq
    rw [startStep, runningStep]
    dsimp only
    rw [if_pos hheld, if_pos hheld]
  | false =>
    rw [runningStep_eq hheld, startStep]
    rw [if_neg (by simp [hheld])]
    exact leads_pollPhase _ hr

/-! ## A hart at a port (R310, R332, R333) -/

theorem leads_afterPort (site : Site) {s : State} (h : Rests s) :
    Leads (.next (afterPortSplit site s)) (.next (afterPort site s)) := by
  cases site with
  | boot => exact .done _
  | fetch => exact .done _
  | exec => exact .done _
  | timer =>
    have hpoll := leads_pollPhase false h
    have hscan : afterScan false (s.setPollctr (s.hart.pollctr + 1)) = .next (s.setPollctr (s.hart.pollctr + 1)) := if_neg (by simp)
    rwa [afterPoll_noFetch, hscan, ← apply_ite] at hpoll
  | poll src =>
    refine h.leads_wait (by simp) ?_
    show Leads (scanOn (laterSources s src) false ((s.setTask .idle).gridWrite s.hart.id src 0#32)) _
    rw [h.setTask_idle, afterPort, ← afterPoll_noFetch]
    have hv : Rests (s.gridWrite s.hart.id src 0#32) := h
    exact leads_scanOn hv (leads_scanEvent _ false hv)

theorem leads_continue (a : Activation) (below : List Activation) (script : List HostAct) {s : State} (h : Rests s) :
    Leads (.next (continueSplit a below script s)) (.next (continueScript a below script s)) := by
  rw [continueSplit, continueScript, continueWith, continueWith]
  split
  · exact leads_afterPort a.site (Rests.leavePort (s := (hostActs script s).2.setPort below) (h.hostActs script) a.site)
  · exact .done _

section Attempt

variable {s : State} {site : Site} {script : List HostAct} {below : List Activation} (h : Rests s)

include h

/-- A waiting `raise_interrupt` is one compare-and-swap either way. -/
theorem leads_raise {target : Nat} {code : Word}
    (hport : s.hart.port = { site := site, script := .raise target code :: script, pollNext := false } :: below) :
    Leads (resumeSplit s) (resumePort s) := by
  rw [resumeSplit, resumePort]
  by_cases hmis : target = s.hart.id ∨ s.cfg.hartCount ≤ target
  · rw [resumeWith_raise_misuse hport hmis, resumeWith_raise_misuse hport hmis]
    exact .done _
  · by_cases h0 : s.gridRead target s.hart.id = 0#32
    · rw [resumeWith_raise_empty hport hmis h0, resumeWith_raise_empty hport hmis h0]
      exact leads_continue (s := s.gridWrite target s.hart.id code) _ below script h
    · rw [resumeWith_raise_occupied hport hmis h0, resumeWith_raise_occupied hport hmis h0]
      exact .done _

/-- A waiting `await_interrupt_response` that finds its response takes it in two events, the load and the store of 0. -/
theorem leads_await (hport : s.hart.port = { site := site, script := .await :: script, pollNext := false } :: below) :
    Leads (resumeSplit s) (resumePort s) := by
  rw [resumeSplit, resumePort]
  by_cases h0 : s.gridRead s.hart.id s.hart.id = 0#32
  · rw [resumeWith_await_empty hport h0, resumeWith_await_empty hport h0]
    exact .done _
  · rw [resumeWith_await_set hport h0, resumeWith_await_set hport h0]
    have hu : Rests (s.setResponse (s.gridRead s.hart.id s.hart.id)) := h
    refine hu.leads_wait (by simp) ?_
    rw [taskEvent_consume rfl (by exact hport), setTask_setTask, hu.setTask_idle]
    exact leads_continue (s := (s.setResponse _).gridWrite s.hart.id s.hart.id 0#32) _ below script hu

end Attempt

/-- A turn at a port: the poll after a failed attempt, an attempt, or the Host's going on. -/
theorem leads_resume {s : State} (h : Rests s) : Leads (resumeSplit s) (resumePort s) := by
  cases hport : s.hart.port with
  | nil =>
    rw [resumeSplit, resumePort, resumeWith, resumeWith, hport]
    exact .done _
  | cons a below =>
    obtain ⟨site, script, pollNext⟩ := a
    cases pollNext with
    | true =>
      rw [resumeSplit, resumePort, resumeWith_pollNext hport, resumeWith_pollNext hport, ← afterPoll_noFetch]
      exact leads_scan (s := s.setPort _) _ false h
    | false =>
      rcases script with _ | ⟨act, rest⟩
      · rw [resumeSplit, resumePort, resumeWith, resumeWith, hport]
        exact leads_continue _ below [] h
      · cases act
        case raise => exact leads_raise h hport
        case await => exact leads_await h hport
        all_goals
          rw [resumeSplit, resumePort, resumeWith, resumeWith, hport]
          exact leads_continue _ below _ h

/-- A whole turn event by event. -/
theorem leads_startTurn {s : State} (h : Rests s) : Leads (startTurn s) (wholeTurn s) := by
  rw [startTurn, wholeTurn]
  split
  · cases s.hart.life with
    | stopped => exact .done _
    | stopping => exact .done _
    | running => exact leads_startStep h
    | nopLoop =>
      have hscan := leads_scan (s := s.setJumped false) (pollSources s.cfg s.hart.id) false h
      rwa [afterPoll_noFetch] at hscan
  · exact leads_resume h

/-- Settles O59: the turn `split` begins the whole turn's iteration, and each step is one of its events. -/
theorem splitIterationIsWhole : Obligations.SplitIterationIsWhole := by
  intro s hagenda htask
  obtain ⟨n, hn⟩ := (leads_startTurn ⟨hagenda, htask⟩).steps
  refine ⟨n, ?_⟩
  rw [steps_succ, step_split s hagenda, splitTurn, if_pos htask, hn, step_idle s hagenda htask]

end Sys2Proof.Machine
end

section
/-! PROOFS. What one shared event of a hart does, and what waits for the next (spec 60_exceptions.md R300, R331; 20_memory.md R73, R87,
R114, R132, R141; 44_miscmem.md R260). -/

namespace Sys2Proof.Machine

/-- With nothing scheduled, a hart in the middle of `k` performs its next event. -/
theorem step_event {s : State} {k : Task} (hagenda : s.agenda = []) (hk : k ≠ .idle) (htask : s.hart.task = k) :
    step s = taskEvent s :=
  step_task s hagenda (by rwa [htask])

/-! ## FENCE (20_memory.md R87; 44_miscmem.md R260) -/

/-- Only an enabled D-cache has lines (20_memory.md R90). -/
theorem SysInv.cacheEnabled {s : State} (hI : SysInv s) {l : Line} (hl : l ∈ s.hart.dcache) : s.cfg.cacheEnable = true := by
  cases he : s.cfg.cacheEnable with
  | true => rfl
  | false =>
    have hempty : s.hart.dcache = [] := hI.emptyWhenDisabled .data he
    simp [hempty] at hl

theorem anyDirty_of_line {s : State} (h : ∃ l ∈ s.hart.dcache, l.dirty = true) : anyDirty s = true := List.any_eq_true.2 h

theorem anyDirty_of_clean {s : State} (h : ∀ l ∈ s.hart.dcache, l.dirty = false) : anyDirty s = false := by
  simpa [anyDirty] using h

/-- A FENCE that finds a dirty line waits for its first write-back. -/
theorem startInstr_fence {s : State} (rd rs1 : Reg) (fm pred succ : BitVec 4) (hI : SysInv s)
    (hd : ∃ l ∈ s.hart.dcache, l.dirty = true) : startInstr (.fence rd rs1 fm pred succ) s = .next (s.setTask .flush) := by
  have ⟨l, hl, _⟩ := hd
  have hflush : (s.cfg.cacheEnable && anyDirty s) = true := by rw [hI.cacheEnabled hl, anyDirty_of_line hd]; rfl
  unfold startInstr
  exact if_pos hflush

/-- A write-back of a FENCE: the FENCE waits for the next one, or ends with the last one. -/
theorem turn_writeBack {s : State} (slot : Nat) (htask : s.hart.task = .flush) :
    turn (.writeBack s.hart.id slot) s = .next (flushEvent slot s) := by
  rw [turn, onHart_self, writeBackTurn, if_pos htask]

/-- The FENCE ends with the last dirty line. -/
theorem flushEvent_last {s : State} {slot : Nat} (hport : (flushSlot slot s).hart.port = []) (h : anyDirty (flushSlot slot s) = false) :
    flushEvent slot s = ((flushSlot slot s).setTask .idle).setPc
      (if (flushSlot slot s).hart.jumped then (flushSlot slot s).hart.pc else (flushSlot slot s).hart.pc + 4#32) := by
  rw [flushEvent, if_neg (by simp [h])]
  exact finishExecute_atNoPort hport

/-- The bytes of `Mem` after the write-back of a dirty line of a well-formed cache. -/
theorem SysInv.read_writeBack {s : State} (hI : SysInv s) {l : Line} (hl : l ∈ s.hart.dcache) (hd : l.dirty = true) (a : Nat) :
    Memory.read (writeBack s.cfg s.mem l) a =
      if a / s.cfg.lineSize = l.tag then l.data.getD (a % s.cfg.lineSize) 0#8 else Memory.read s.mem a := by
  obtain ⟨-, -, hlines⟩ := hI.cacheWf .data
  obtain ⟨hlength, hrange⟩ := hlines l hl
  simp [Machine.read_writeBack s.cfg s.mem l a hlength hrange, hd, lineNumber, lineOffset]

/-- A FENCE in progress writes back any dirty line next, and nothing else of `Mem` or the D-cache changes. -/
theorem writeBack_isSeparate {s : State} {slot : Nat} {l : Line} (hI : SysInv s) (hport : s.hart.port = [])
    (htask : s.hart.task = .flush) (hl : s.hart.dcache[slot]? = some l) (hd : l.dirty = true) :
    ∃ t, turn (.writeBack s.hart.id slot) s = .next t ∧
      (∀ a, Memory.read t.mem a =
        if a / s.cfg.lineSize = l.tag then l.data.getD (a % s.cfg.lineSize) 0#8 else Memory.read s.mem a) ∧
      t = { s with
            mem := t.mem,
            hart := { s.hart with
              dcache := s.hart.dcache.set slot { l with dirty := false }, task := t.hart.task, pc := t.hart.pc } } ∧
      ((∃ m ∈ t.hart.dcache, m.dirty = true) → t.hart.task = .flush ∧ t.hart.pc = s.hart.pc) ∧
      ((∀ m ∈ t.hart.dcache, m.dirty = false) →
        t.hart.task = .idle ∧ t.hart.pc = if s.hart.jumped then s.hart.pc else s.hart.pc + 4#32) := by
  have hmem := hI.read_writeBack (List.mem_of_getElem? hl) hd
  have hflush := flushSlot_dirty hl hd
  refine ⟨_, turn_writeBack slot htask, ?_⟩
  cases hany : anyDirty (flushSlot slot s) with
  | true =>
    rw [flushEvent, if_pos hany]
    refine ⟨?_, ?_, fun _ => ?_, fun hclean => absurd (hany.symm.trans (anyDirty_of_clean hclean)) (by simp)⟩ <;> rw [hflush]
    · exact hmem
    · rfl
    · exact ⟨htask, rfl⟩
  | false =>
    rw [flushEvent_last (by rw [hflush]; exact hport) hany]
    refine ⟨?_, ?_, fun hdirty => absurd ((anyDirty_of_line hdirty).symm.trans hany) (by simp), fun _ => ?_⟩ <;> rw [hflush]
    · exact hmem
    · rfl
    · exact ⟨rfl, rfl⟩

/-! ## The read of a page-table entry (20_memory.md R114) -/

theorem readPte_root_pointer {s : State} {v pte : Word} (hr : pteAt s (rootEntryAddress s v) = some pte) (hp : pointerEntry pte) :
    readPte s.cfg s.mem v 1 (rootTable s.hart.csr.satp) = .pointer ((pte >>> 10) * 4096#32) := by
  have hb := ptr_not_bad pte hp
  rw [readPte, pteAt_eq, root_eq, hr]
  dsimp only
  rw [if_neg (mt (bad_iff pte).1 hb), if_pos ((ptr_iff pte hb).2 hp)]
  rfl

/-- At the second level no entry, a rejected one and a pointer are failures. -/
theorem readPte_leaf_fail {s : State} {v pte1 : Word}
    (h : pteAt s (leafEntryAddress pte1 v) = none ∨
      ∃ pte0, pteAt s (leafEntryAddress pte1 v) = some pte0 ∧ (badEntry pte0 ∨ pointerEntry pte0)) :
    readPte s.cfg s.mem v 0 ((pte1 >>> 10) * 4096#32) = .fail := by
  rw [readPte, pteAt_eq, leaf_eq]
  rcases h with hnone | ⟨pte0, hr, hkind⟩
  · rw [hnone]
  · rw [hr]
    dsimp only
    by_cases hb : badEntry pte0
    · rw [if_pos ((bad_iff pte0).2 hb)]
    · rw [if_neg (mt (bad_iff pte0).1 hb), if_pos ((ptr_iff pte0 hb).2 (hkind.resolve_left hb)), if_pos rfl]

theorem readPte_leaf_leaf {s : State} {v pte1 pte0 : Word} (hr : pteAt s (leafEntryAddress pte1 v) = some pte0)
    (hl : leafEntry pte0) : readPte s.cfg s.mem v 0 ((pte1 >>> 10) * 4096#32) = .leaf pte0 := by
  obtain ⟨hb, hp⟩ := leaf_not_bad pte0 hl
  rw [readPte, pteAt_eq, leaf_eq, hr]
  dsimp only
  rw [if_neg (mt (bad_iff pte0).1 hb), if_neg (mt (ptr_iff pte0 hb).1 hp), if_neg (by simp)]

section PteEvent

variable {waitAt : Stage → Task} {t : AccessType} {va : Word} {n level : Nat} {table : Word} {s : State}

theorem pteEvent_pointer {lower : Word} (h : readPte s.cfg s.mem va level table = .pointer lower) :
    pteEvent waitAt t va n level table s = .wait (waitAt (.pte (level - 1) lower)) s := by
  rw [pteEvent, h]

theorem pteEvent_fail (h : readPte s.cfg s.mem va level table = .fail) :
    pteEvent waitAt t va n level table s = .exc { cause := t.pageFault, info := some va } s := by
  rw [pteEvent, h]
  rfl

/-- A permitted leaf of a 4 KiB page whose address is in range fills the stream's TLB. -/
theorem pteEvent_page {pte p : Word} (h : readPte s.cfg s.mem va 0 table = .leaf pte) (ha : Allows pte t)
    (hp : p.toNat = (pte.toNat / 2 ^ 10 * 4096) % 2 ^ 32 + va.toNat % 4096) (hr : p.toNat + n ≤ s.cfg.memSize) :
    pteEvent waitAt t va n 0 table s =
      .ok p (s.setTlb t.stream (tlbStore s.cfg (s.tlb t.stream) (vpiOf s.hart.csr.satp va) pte)) := by
  have haddress : walkAddress 0 pte va = p := BitVec.eq_of_toNat_eq ((hitAddr pte va).trans hp.symm)
  have hrange : inRange s.cfg p.toNat n = true := decide_eq_true hr
  rw [pteEvent, h]
  simp [leafTranslate, (permitted_iff pte t).2 ha, haddress, checkRange, hrange, foldedPte]

end PteEvent

/-! ## The walk of an instruction's access -/

/-- What an instruction asks of the memory system does not depend on the task. -/
theorem requestOf_setTask (i : Instr) (s : State) (k : Task) : requestOf i (s.setTask k) = requestOf i s := by
  cases i <;> rfl

/-- Instructions access memory through the data stream. -/
theorem requestOf_stream {i : Instr} {s : State} {r : Request} (h : requestOf i s = some r) : r.type.stream = .data := by
  cases i <;> simp only [requestOf, Option.some.injEq, reduceCtorEq] at h <;> subst h <;> rfl

/-- An atomic instruction goes past the caches; another access that is no hit needs `Mem`. -/
theorem requestOf_needsMem {i : Instr} {s u : State} {r : Request} {p : Word} (h : requestOf i s = some r)
    (hp : isAtomic i = true ∨ ¬ DataHit u p.toNat) : r.hits p u = false := by
  have hmiss : ¬ DataHit u p.toNat → hits .data p u = false := fun hno => by
    by_contra hhit
    obtain ⟨he, hf⟩ := Bool.and_eq_true_iff.1 (Bool.eq_true_of_not_eq_false hhit)
    obtain ⟨l, hl⟩ := Option.isSome_iff_exists.1 hf
    exact hno ⟨he, l, find_some _ _ _ hl⟩
  cases i <;> simp only [requestOf, Option.some.injEq, reduceCtorEq] at h <;> subst h
  case lrW | scW | amoswapW => rfl
  all_goals exact hmiss (hp.resolve_left (by simp [isAtomic]))

/-- One event of a memory instruction in progress. -/
theorem step_exec {s : State} {i : Instr} {r : Request} {st : Stage} (hagenda : s.agenda = []) (hr : requestOf i s = some r)
    (htask : s.hart.task = .exec i st) : step s = concludeExecute (r.event i st (s.setTask .idle)) := by
  rw [step_event hagenda (by simp) htask, taskEvent, htask]
  dsimp only
  rw [execEvent, requestOf_setTask, hr]

section Instruction

variable {s : State} {i : Instr} {r : Request} (hagenda : s.agenda = []) (hr : requestOf i s = some r)

include hagenda hr

theorem step_exec_pointer {pte : Word} (htask : s.hart.task = .exec i (.pte 1 (rootTable s.hart.csr.satp)))
    (hroot : pteAt s (rootEntryAddress s r.va) = some pte) (hp : pointerEntry pte) :
    step s = .next (s.setTask (.exec i (.pte 0 ((pte >>> 10) * 4096#32)))) := by
  rw [step_exec hagenda hr htask, Request.event,
    pteEvent_pointer (s := s.setTask .idle) (table := rootTable s.hart.csr.satp) (readPte_root_pointer (s := s) hroot hp)]
  rfl

theorem step_exec_fail {pte1 : Word} (htask : s.hart.task = .exec i (.pte 0 ((pte1 >>> 10) * 4096#32)))
    (hfail : pteAt s (leafEntryAddress pte1 r.va) = none ∨
      ∃ pte0, pteAt s (leafEntryAddress pte1 r.va) = some pte0 ∧ (badEntry pte0 ∨ pointerEntry pte0)) :
    step s = .next (finishExecute (raise { cause := r.type.pageFault, info := some r.va } .exec (s.setTask .idle))) := by
  rw [step_exec hagenda hr htask, Request.event, pteEvent_fail (s := s.setTask .idle) (readPte_leaf_fail hfail)]
  rfl

theorem step_exec_leaf {pte1 pte0 p : Word} (htask : s.hart.task = .exec i (.pte 0 ((pte1 >>> 10) * 4096#32)))
    (hleaf : pteAt s (leafEntryAddress pte1 r.va) = some pte0) (hl : leafEntry pte0) (ha : Allows pte0 r.type)
    (hp : p.toNat = (pte0.toNat / 2 ^ 10 * 4096) % 2 ^ 32 + r.va.toNat % 4096) (hrange : p.toNat + r.width ≤ s.cfg.memSize)
    (hmem : isAtomic i = true ∨ ¬ DataHit s p.toNat) :
    step s = .next ((s.setTlb .data (tlbStore s.cfg s.hart.dtlb (vpiOf s.hart.csr.satp r.va) pte0)).setTask (.exec i (.access p))) := by
  rw [step_exec hagenda hr htask, Request.event,
    pteEvent_page (s := s.setTask .idle) (readPte_leaf_leaf hleaf hl) ha hp hrange, requestOf_stream hr, Progress.bind_ok,
    Request.atAddress, if_neg (by simpa using requestOf_needsMem hr (by exact hmem))]
  rfl

end Instruction

/-! ## The walk of a fetch -/

theorem step_fetch_pointer {s : State} {pte : Word} (hagenda : s.agenda = [])
    (htask : s.hart.task = .fetch (.pte 1 (rootTable s.hart.csr.satp)))
    (hroot : pteAt s (rootEntryAddress s s.hart.pc) = some pte) (hp : pointerEntry pte) :
    step s = .next (s.setTask (.fetch (.pte 0 ((pte >>> 10) * 4096#32)))) := by
  rw [step_event hagenda (by simp) htask, taskEvent, htask]
  dsimp only
  rw [fetchEvent, State.setTask_hart,
    pteEvent_pointer (s := s.setTask .idle) (table := rootTable s.hart.csr.satp) (readPte_root_pointer (s := s) hroot hp)]
  rfl

/-! ## CS-KILL (20_memory.md R141, R142) -/

theorem step_kill {s : State} {p : Word} (hagenda : s.agenda = []) (hport : s.hart.port = []) (htask : s.hart.task = .kill p) :
    step s = .next ((killReservations (s.setTask .idle) p).setPc (if s.hart.jumped then s.hart.pc else s.hart.pc + 4#32)) := by
  rw [step_event hagenda (by simp) htask, taskEvent, htask]
  exact congrArg Host.Outcome.next (finishExecute_atNoPort (s := killReservations (s.setTask .idle) p) hport)

/-! ## The poll (60_exceptions.md R331) -/

/-- The load of a cell of the poll. -/
theorem step_scan {s : State} {sources : List Nat} {thenFetch : Bool} (hagenda : s.agenda = [])
    (htask : s.hart.task = .scan sources thenFetch) : step s = scanEvent sources thenFetch (s.setTask .idle) := by
  rw [step_event hagenda (by simp) htask, taskEvent, htask]

theorem step_scan_empty {s : State} {src : Nat} {rest : List Nat} {thenFetch : Bool} (hagenda : s.agenda = [])
    (htask : s.hart.task = .scan (src :: rest) thenFetch) (h0 : s.gridRead s.hart.id src = 0#32) (hrest : rest ≠ []) :
    step s = .next (s.setTask (.scan rest thenFetch)) := by
  rw [step_scan hagenda htask, scanEvent, if_pos (by exact h0), scanOn, if_neg hrest]
  rfl

/-- A full cell's interrupt, with a Host that does nothing: the cell's zeroing waits. -/
theorem step_scan_full {s : State} {src : Nat} {rest : List Nat} {thenFetch : Bool} (hagenda : s.agenda = [])
    (htask : s.hart.task = .scan (src :: rest) thenFetch) (h0 : s.gridRead s.hart.id src ≠ 0#32) (hq : s.replies = []) :
    step s = .next (trapSaved ((s.setTask (.zero src rest)).setPending src (s.gridRead s.hart.id src)) 0x80B#32
      (Config.freeWord s.draws) (s.draws + 1)) := by
  have hdeliver : deliverExternal src (s.setTask .idle) = trapSaved ((s.setTask .idle).setPending src (s.gridRead s.hart.id src))
      externalReason (Config.freeWord s.draws) (s.draws + 1) := interrupt_quiet _ _ _ hq
  rw [step_scan hagenda htask, scanEvent, if_neg (by exact h0), hdeliver]
  dsimp only
  rw [if_neg (by simp [held])]
  rfl

theorem step_zero {s : State} {src : Nat} {rest : List Nat} (hagenda : s.agenda = []) (htask : s.hart.task = .zero src rest) :
    step s = .next ((s.gridWrite s.hart.id src 0#32).setTask (if rest = [] then .idle else .scan rest false)) := by
  rw [step_event hagenda (by simp) htask, taskEvent, htask]
  dsimp only
  rw [scanOn]
  split
  · rw [afterScan, if_neg (by simp)]
    rfl
  · rfl

/-- Settles O60, event by event. -/
theorem sharedEventsAreSeparate : Obligations.SharedEventsAreSeparate := by
  intro s hI hagenda hport idle
  refine ⟨fun rd rs1 fm pred succ hd => startInstr_fence rd rs1 fm pred succ hI hd,
    fun htask slot l hl hd => writeBack_isSeparate hI hport htask hl hd,
    fun i r hr => ⟨fun htask pte hroot hp => step_exec_pointer hagenda hr htask hroot hp, fun pte1 htask => ⟨?fail, ?leaf⟩⟩,
    fun htask pte hroot hp => step_fetch_pointer hagenda htask hroot hp,
    fun p htask => ⟨_, step_kill hagenda hport htask, ?killed, rfl⟩,
    fun src rest thenFetch htask => ⟨step_scan_empty hagenda htask, fun h0 hq => ⟨_, step_scan_full hagenda htask h0 hq, rfl⟩⟩,
    fun src rest htask => step_zero hagenda htask⟩
  case fail => exact fun hfail => step_exec_fail hagenda hr htask hfail
  case leaf => exact fun pte0 p hleaf hl ha hp hrange hmem => step_exec_leaf hagenda hr htask hleaf hl ha hp hrange hmem
  case killed => exact killedAt_killReservations rfl rfl

end Sys2Proof.Machine
end

section
/-! PROOFS. The boot of a stopped hart (spec 70_reset_and_hazards.md R363; 60_exceptions.md R311, R346). -/

namespace Sys2Proof.Machine

/-- `start()` of the acting hart when it is stopped: it runs, at the boot port. -/
theorem turn_start_of_stopped {s : State} (h : s.hart.life = .stopped) :
    turn (.start s.hart.id) s = .next (present .boot (s.setLife .running)) :=
  (onHart_self s _).trans (congrArg _ (if_pos h))

/-- The boot port is left to `MEPC`, whatever `jumped` is (R363 step 3). -/
theorem leavePort_boot (s : State) : leavePort .boot s = s.setPc s.hart.csr.mepc := if_pos (.inl rfl)

theorem hostActs_setCsr (a : CsrAddr) (v : Word) (script : List HostAct) (s : State) :
    hostActs (.setCsr a v :: script) s = hostActs script (s.writeCsr a v) := rfl

/-- Settles O38: the boot port is left to `MEPC`, which the Host's script, done within the presentation, may have written. -/
theorem bootSequence : Obligations.BootSequence := by
  intro s entry satp rest hlife
  rw [turn_start_of_stopped hlife]
  refine ⟨fun hr => ?quiet, fun hr => ?writes⟩
  case quiet =>
    rw [present_nil .boot _ (by exact hr), leavePort_boot]
    rfl
  case writes =>
    rw [present_finishes .boot (by exact hr) rfl, leavePort_boot, hostActs_setCsr, hostActs_setCsr]
    rfl

end Sys2Proof.Machine
end

section
/-! PROOFS. The words of the spec's test vectors (spec 95_test_vectors.md; 30_encoding.md R165, R174, R176, R178). -/

namespace Sys2Proof

/-- The word of a well-formed instruction decodes to it. -/
theorem decode_of_encode_eq {w : Word} {i : Instr} (hi : WellFormed i = true) (hw : encode i = w) : decode w = .instr i :=
  hw ▸ decode_encode hi

/-- A SYSTEM word with `funct3` 000 is illegal unless it is ECALL, EBREAK or SFENCE.VMA (R174, R276). -/
theorem decode_system_illegal {w : Word} (hop : opcode w = 0x73#7) (h3 : funct3 w = 0b000#3) (hecall : w ≠ 0x00000073#32)
    (hebreak : w ≠ 0x00100073#32) (hsfence : funct7 w ≠ 0b0001001#7) : decode w = .illegal := by
  simp [decode_system w hop, decodeSystem, h3, hecall, hebreak, hsfence]

/-- Settles O4: each of the twelve instructions has the word as its encoding, and the three other words fall out by `funct7` or by the
major opcode. -/
theorem specWordsDecode : Obligations.SpecWordsDecode := by
  refine ⟨?addi, ?add, ?lui, ?mulhsu, ?jal, ?bne, ?lhu, ?sb, ?fence, ?csrrwi, ?sfenceVma, ?scW, ?mret, ?zero, ?flw⟩
  case addi | add | lui | mulhsu | jal | bne | lhu | sb | fence | csrrwi | sfenceVma | scW =>
    exact decode_of_encode_eq (by decide) (by decide)
  case mret => exact decode_system_illegal (by decide) (by decide) (by decide) (by decide) (by decide)
  case zero => exact (decode_not_supported (by decide)).trans (if_neg (by decide))
  case flw => exact (decode_not_supported (by decide)).trans (if_pos (by decide))

end Sys2Proof
end
